-- ==== Sys2Proof/Word.lean ====
section
/-! DEFINITION. The data types the 68000's values have (R8, R9, R20): bytes, 16-bit words,
32-bit long words, 3-bit register numbers, and the three operation sizes. -/

namespace Sys2Proof

/-- A byte, the smallest addressable unit of memory (R50). -/
abbrev Byte := BitVec 8

/-- A 16-bit word, the unit of instruction encoding (R80). -/
abbrev Word := BitVec 16

/-- A 32-bit long word, the width of every register (R20, R22, R24). -/
abbrev Long := BitVec 32

/-- A register number, a 3-bit field of every encoding (R20, R83). -/
abbrev Reg := BitVec 3

/-- The operation sizes `.B`, `.W`, `.L` (R9). -/
inductive Size where
  | byte
  | word
  | long
deriving DecidableEq, Repr

/-- Operand width n in bits (R9). -/
@[reducible] def Size.bits : Size → Nat
  | .byte => 8
  | .word => 16
  | .long => 32

/-- Operand width in bytes, the k of MemRead and MemWrite (R12). -/
@[reducible] def Size.bytes : Size → Nat
  | .byte => 1
  | .word => 2
  | .long => 4

end Sys2Proof
end

