-- ==== Sys2Proof/Config.lean ====
section
/-! DEFINITION. The parameters of the model (R7) at the value the spec gives each, and the free
value of the model (U2). `MemMap` and the program image are arguments of a run, so they stand in
the state (`State.memMap`, `State.progText`, `State.mem`) and not here. -/

namespace Sys2Proof.Config

/-- `ADDR_BITS`: how many address bits reach memory (R7, R61, D4). -/
def addrBits : Nat := 24

/-- `ENTRY`: the address of the first instruction (R7, R291). DESIGN CHOICE (log 2): the spec makes
it an argument; this is the origin of S1's first program. -/
def entry : Long := 0x1000#32

/-- `SHIFT_COUNT_MOD`: modulus of a register shift count (R7, R98, R188). -/
def shiftCountMod : Nat := 64

/-- `BITNUM_MOD_REG`: modulus of a bit number when the operand is a data register (R7, R214). -/
def bitNumModReg : Nat := 32

/-- `BITNUM_MOD_MEM`: modulus of a bit number when the operand is in memory (R7, R214). -/
def bitNumModMem : Nat := 8

/-- The two values the spec gives the parameter `ASL_V_RULE` (R7, D16, U4). -/
inductive AslVRule where
  /-- V is set when the most significant bit changed at any time during the shift (R180). -/
  | msbChanged
  /-- V is a free bit. -/
  | draw
deriving DecidableEq, Repr

/-- `ASL_V_RULE` at the spec's default (R180, D16; log 15). -/
def aslVRule : AslVRule := .msbChanged

/-- The free bits: the k-th bit the machine draws where the spec calls a flag undefined and the
machine goes on (U2: N and Z after a divide that overflows). Nothing constrains it (log 13). -/
opaque freeBit : Nat → Bool

end Sys2Proof.Config
end

