-- ==== Sys2Proof/Machine/State.lean ====
section
/-! DEFINITION. The state of the machine as plain data (R20 to R42), the exceptions (R260), the
reasons a step stops, and the launch state (R40). -/

namespace Sys2Proof.Machine

/-- What an access is for, as an exception records it (R260). -/
inductive Access where
  | read
  | write
  | fetch
deriving DecidableEq, Repr

/-- The exceptions of R260 with what each records beside the address of the instruction. -/
inductive Exc where
  /-- DIVU or DIVS by zero (R261). -/
  | divideByZero
  /-- A word or long access, a fetch or a taken branch at an odd address (R262). -/
  | addressError (addr : Long) (access : Access)
  /-- An access to a byte outside `MemMap` (R263). -/
  | busError (addr : Long) (access : Access)
  /-- The decoder refuses the opword (R264). -/
  | illegalInstruction (opword : Word)
  /-- STOP in user mode. Listed by R260; no step raises it, the machine being in supervisor mode
  throughout (R265, R271). -/
  | privilegeViolation
  /-- A write into `ProgramText` (R68). -/
  | selfModify (addr : Long)
deriving DecidableEq, Repr

/-- The record of an exception (R260): what was raised and the address of the instruction. -/
structure ExcRecord where
  exc : Exc
  instrAddr : Long
deriving DecidableEq, Repr

/-- The run status (R39). -/
inductive Status where
  | running
  | stopped
  | faulted (record : ExcRecord)
deriving DecidableEq, Repr

/-- The five flags of the condition code register (R30). -/
structure Ccr where
  x : Bool
  n : Bool
  z : Bool
  v : Bool
  c : Bool
deriving DecidableEq, Repr

/-- A run of byte addresses: `base`, `base + 1`, .., `base + size - 1`. -/
structure Region where
  base : Nat
  size : Nat
deriving DecidableEq, Repr

/-- Memory: the bytes that differ from what an unlisted address reads as, addresses strictly rising
(`Memory.wf`). -/
abbrev Memory := List Host.Cell

/-- Everything a step reads or writes (R20 to R42). -/
structure State where
  /-- The data registers D0 to D7 (R20). -/
  d : Vector Long 8
  /-- The address registers A0 to A7 (R22). -/
  a : Vector Long 8
  /-- The program counter (R24). -/
  pc : Long
  /-- The flags (R30). -/
  ccr : Ccr
  /-- Bits 15..8 of SR, `sr_high`: bit 7 is T, bit 5 is S, bits 2..0 the interrupt mask. STOP writes it
  and nothing reads it (R35). -/
  srHigh : Byte
  /-- The contents of memory (R50). -/
  mem : Memory
  /-- `MemMap`, the addresses that hold memory (R60). -/
  memMap : List Region
  /-- `ProgramText`, the addresses the program's instructions occupy (R60, R68). -/
  progText : List Region
  /-- The run status (R39). -/
  status : Status
  /-- How many free bits were drawn: the model's own field (log 13). -/
  freeCount : Nat
deriving DecidableEq, Repr

/-- Why a step stops with a fault: only because no step is enabled (R39, U16). -/
inductive Fault where
  /-- Raised by `step` when `status` is `stopped`: STOP was executed and nothing restarts it (R245,
  R293). Safe: the hardware would wait for an interrupt, which the model does not have. -/
  | haltedByStop
  /-- Raised by `step` when `status` is `faulted`: an exception was taken and no further step is
  enabled (R268). Safe: the hardware would run a handler. -/
  | haltedByException
deriving DecidableEq, Repr

/-- Why a step is refused. -/
inductive Refusal where
  /-- An instruction without a meaning. No arm of `exec` answers it: every instruction is modelled.
  Safe. -/
  | notModelled (mnemonic : String)
deriving DecidableEq, Repr

/-- The launch state (R40), which the spec's model starts from in place of the hardware's reset
(R290, R291). `sr_high`, `status` are the spec's; `pc`, the registers and flags, `MemMap` and
`ProgramText` are DESIGN CHOICES (log 2, 3, 5) and memory lists nothing (log 4). -/
def State.reset : State where
  d := #v[0#32, 0#32, 0#32, 0#32, 0#32, 0#32, 0#32, 0#32]
  a := #v[0#32, 0#32, 0#32, 0#32, 0#32, 0#32, 0#32, 0#32]
  pc := Config.entry
  ccr := ⟨false, false, false, false, false⟩
  srHigh := 0x27#8
  mem := []
  memMap := [⟨0, 2 ^ Config.addrBits⟩]
  progText := []
  status := .running
  freeCount := 0

end Sys2Proof.Machine
end

