-- ==== Sys2Proof/Machine/Flags.lean ====
section
/-! DEFINITION. Every flag computation of the spec (R13, R30 to R33, R125 to R127, R169, R239) and
the results the flags are computed from. -/

namespace Sys2Proof.Machine

/-- A computation on a source `a`, a destination `b` and the flags: the result and the new flags. -/
abbrev Alu := {n : Nat} → BitVec n → BitVec n → Ccr → BitVec n × Ccr

/-- A computation on one operand and the flags. -/
abbrev Alu1 := {n : Nat} → BitVec n → Ccr → BitVec n × Ccr

/-- The flags of the addition `s = a + b` (R125). -/
def addCcr {n : Nat} (a b s : BitVec n) : Ccr :=
  let c := decide (2 ^ n ≤ a.toNat + b.toNat)
  { x := c
    n := s.msb
    z := decide (s = 0#n)
    v := (a.msb == b.msb) && (s.msb != b.msb)
    c := c }

/-- The flags of the subtraction `d = b - a`, X = C (R126; the slide's formula corrected as in C2). -/
def subCcr {n : Nat} (a b d : BitVec n) : Ccr :=
  let c := decide (b.toNat < a.toNat)
  { x := c
    n := d.msb
    z := decide (d = 0#n)
    v := (a.msb != b.msb) && (d.msb == a.msb)
    c := c }

/-- The flags of a comparison: a subtraction's, X kept (R232). -/
def cmpCcr {n : Nat} (a b d : BitVec n) (k : Ccr) : Ccr := { subCcr a b d with x := k.x }

/-- N and Z from the result, V and C cleared, X kept (R169; also MOVE, CLR, EXT, SWAP and the
multiplies, R32). -/
def logicCcr {n : Nat} (r : BitVec n) (k : Ccr) : Ccr :=
  { x := k.x
    n := r.msb
    z := decide (r = 0#n)
    v := false
    c := false }

/-- ADD (R125, R140). -/
def aluAdd : Alu := fun a b _ => (a + b, addCcr a b (a + b))

/-- SUB: the destination less the source (R126, R141). -/
def aluSub : Alu := fun a b _ => (b - a, subCcr a b (b - a))

/-- AND (R165). -/
def aluAnd : Alu := fun a b k => (a &&& b, logicCcr (a &&& b) k)

/-- OR (R166). -/
def aluOr : Alu := fun a b k => (a ||| b, logicCcr (a ||| b) k)

/-- EOR (R167). -/
def aluEor : Alu := fun a b k => (a ^^^ b, logicCcr (a ^^^ b) k)

/-- NEG: the subtraction `0 - a` (R148). -/
def aluNeg : Alu1 := fun {n} a _ => (0#n - a, subCcr a (0#n) (0#n - a))

/-- NOT (R168). -/
def aluNot : Alu1 := fun a k => (~~~a, logicCcr (~~~a) k)

/-- The flags as a byte, `000 X N Z V C` (R31). -/
def Ccr.toByte (k : Ccr) : Byte :=
  ((((0#3 ++ BitVec.ofBool k.x) ++ BitVec.ofBool k.n) ++ BitVec.ofBool k.z)
    ++ BitVec.ofBool k.v) ++ BitVec.ofBool k.c

/-- The flags STOP loads from its operand (R245). -/
def Ccr.ofWord (w : Word) : Ccr :=
  { x := w.getLsbD 4
    n := w.getLsbD 3
    z := w.getLsbD 2
    v := w.getLsbD 1
    c := w.getLsbD 0 }

/-! ## The conditions of the branches (R239) -/

/-- BHI: `C = 0 and Z = 0`. -/
def Ccr.hi (k : Ccr) : Bool := !k.c && !k.z
/-- BLS: `C = 1 or Z = 1`. -/
def Ccr.ls (k : Ccr) : Bool := k.c || k.z
/-- BCC: `C = 0`. -/
def Ccr.cc (k : Ccr) : Bool := !k.c
/-- BCS: `C = 1`. -/
def Ccr.cs (k : Ccr) : Bool := k.c
/-- BNE: `Z = 0`. -/
def Ccr.ne (k : Ccr) : Bool := !k.z
/-- BEQ: `Z = 1`. -/
def Ccr.eq (k : Ccr) : Bool := k.z
/-- BVC: `V = 0`. -/
def Ccr.vc (k : Ccr) : Bool := !k.v
/-- BVS: `V = 1`. -/
def Ccr.vs (k : Ccr) : Bool := k.v
/-- BPL: `N = 0`. -/
def Ccr.pl (k : Ccr) : Bool := !k.n
/-- BMI: `N = 1`. -/
def Ccr.mi (k : Ccr) : Bool := k.n
/-- BGE: `N = V`. -/
def Ccr.ge (k : Ccr) : Bool := k.n == k.v
/-- BLT: `N != V`. -/
def Ccr.lt (k : Ccr) : Bool := k.n != k.v
/-- BGT: `Z = 0 and N = V`. -/
def Ccr.gt (k : Ccr) : Bool := !k.z && (k.n == k.v)
/-- BLE: `Z = 1 or N != V`. -/
def Ccr.le (k : Ccr) : Bool := k.z || (k.n != k.v)
/-- BRA: always. -/
def Ccr.always (_ : Ccr) : Bool := true

end Sys2Proof.Machine
end

