-- ==== Sys2Proof/Machine/Memory.lean ====
section
/-! DEFINITION. Memory as plain data: reading and writing one byte in the canonical form, and the
big-endian wider values built from bytes (R50 to R53). -/

namespace Sys2Proof.Machine

/-- What an unlisted address reads as. DESIGN CHOICE (log 4): the spec leaves launch memory
unspecified (R40, R41). -/
def unlistedByte : Byte := 0#8

/-- The byte of `m` at address `a`. -/
def Memory.read : Memory → Nat → Byte
  | [], _ => unlistedByte
  | (b, v) :: rest, a => if b = a then v else Memory.read rest a

/-- `m` without an entry at `a`. -/
def Memory.erase : Memory → Nat → Memory
  | [], _ => []
  | (b, v) :: rest, a => if b = a then Memory.erase rest a else (b, v) :: Memory.erase rest a

/-- `m` with the entry `(a, v)` put in its place. -/
def Memory.insert : Memory → Nat → Byte → Memory
  | [], a, v => [(a, v)]
  | (b, w) :: rest, a, v =>
    if a < b then (a, v) :: (b, w) :: rest
    else if a = b then (a, v) :: rest
    else (b, w) :: Memory.insert rest a v

/-- `m` with byte `v` at address `a`, in the canonical form. -/
def Memory.write (m : Memory) (a : Nat) (v : Byte) : Memory :=
  if v = unlistedByte then Memory.erase m a else Memory.insert m a v

/-- Addresses rise strictly from above `lo`, stay below 2^ADDR_BITS, and no entry equals what an
unlisted address reads as. -/
def Memory.wfAbove : Nat → Memory → Bool
  | _, [] => true
  | lo, (a, v) :: rest =>
    decide (lo ≤ a) && decide (a < 2 ^ Config.addrBits) && decide (v ≠ unlistedByte)
      && Memory.wfAbove (a + 1) rest

/-- The canonical form of memory. -/
def Memory.wf (m : Memory) : Bool := Memory.wfAbove 0 m

/-- The address of the byte `i` above `a`: only ADDR_BITS bits reach memory (R61). -/
def byteAddr (a i : Nat) : Nat := (a + i) % 2 ^ Config.addrBits

/-- The `k` bytes from `a` upward as one number, the first byte highest (R51, R52). -/
def Memory.readBytes (m : Memory) (a : Nat) : Nat → Nat
  | 0 => 0
  | k + 1 => Memory.readBytes m a k * 256 + (Memory.read m (byteAddr a k)).toNat

/-- `m` with the low `k` bytes of `v` stored from `a` upward, the highest first (R51, R53). -/
def Memory.writeBytes (m : Memory) (a : Nat) : Nat → Nat → Memory
  | 0, _ => m
  | k + 1, v =>
    Memory.write (Memory.writeBytes m a k (v / 256)) (byteAddr a k) (BitVec.ofNat 8 v)

/-- Address `a` lies in one of the regions. -/
def inRegions (rs : List Region) (a : Nat) : Bool :=
  rs.any fun r => decide (r.base ≤ a) && decide (a < r.base + r.size)

/-- The first of the `k` byte addresses `a`, `a + 1`, .. for which `p` holds of the byte that reaches
memory, as R52 and R53 walk them. -/
def firstByte (p : Nat → Bool) (a : Nat) : Nat → Option Nat
  | 0 => none
  | k + 1 =>
    match firstByte p a k with
    | some b => some b
    | none => if p (byteAddr a k) then some (a + k) else none

end Sys2Proof.Machine
end

