-- ==== Sys2Proof/Machine/Ops.lean ====
section
/-! DEFINITION. The named operations over registers and memory (R12, R50 to R54), free bits, and
taking an exception (R268). -/

namespace Sys2Proof.Machine

/-- A part of an instruction: it reads and writes the state and either answers a value or raises an
exception, `raise <Exception>(info)` of R12. -/
abbrev M := EStateM Exc State

/-! ## Registers and flags -/

/-- `D[r]` (R12). -/
def State.dreg (s : State) (r : Reg) : Long := s.d[r.toNat]'r.isLt

/-- `A[r]` (R12). -/
def State.areg (s : State) (r : Reg) : Long := s.a[r.toNat]'r.isLt

/-- `D[r] <- v`, all 32 bits (R12). -/
def State.setD (s : State) (r : Reg) (v : Long) : State := { s with d := s.d.set r.toNat v r.isLt }

/-- `A[r] <- v`, all 32 bits (R12). -/
def State.setA (s : State) (r : Reg) (v : Long) : State := { s with a := s.a.set r.toNat v r.isLt }

/-- `pc <- v`. -/
def State.setPc (s : State) (v : Long) : State := { s with pc := v }

/-- All five flags. -/
def State.setCcr (s : State) (k : Ccr) : State := { s with ccr := k }

/-- The contents of memory. -/
def State.setMem (s : State) (m : Memory) : State := { s with mem := m }

/-- How many free bits were drawn. -/
def State.setFreeCount (s : State) (k : Nat) : State := { s with freeCount := k }

/-- `sr_high`. -/
def State.setSrHigh (s : State) (v : Byte) : State := { s with srHigh := v }

/-- The run status. -/
def State.setStatus (s : State) (v : Status) : State := { s with status := v }

/-- The state just after the opword was fetched: pc is 2 further (R25). -/
def State.afterOpword (s : State) : State := s.setPc (s.pc + 2#32)

/-- The byte at byte address `a` of the state's memory. -/
def State.byteAt (s : State) (a : Nat) : Byte := Memory.read s.mem a

/-- `v` in the low bits of `old`, the bits above kept (R21, R128). -/
def insertLow {n : Nat} (old : Long) (v : BitVec n) : Long :=
  ((old >>> n) <<< n) ||| v.setWidth 32

/-- `D[r][n-1:0]` (R21, R97). -/
def readD (sz : Size) (r : Reg) : M (BitVec sz.bits) := fun s =>
  .ok ((s.dreg r).setWidth sz.bits) s

/-- `A[r][n-1:0]` (R97). -/
def readA (sz : Size) (r : Reg) : M (BitVec sz.bits) := fun s =>
  .ok ((s.areg r).setWidth sz.bits) s

/-- `D[r][n-1:0] <- v` (R97, R128). -/
def writeD (sz : Size) (r : Reg) (v : BitVec sz.bits) : M Unit := fun s =>
  .ok () (s.setD r (insertLow (s.dreg r) v))

/-- `D[r] <- v`. -/
def writeDLong (r : Reg) (v : Long) : M Unit := fun s => .ok () (s.setD r v)

/-- `A[r] <- v`. -/
def writeALong (r : Reg) (v : Long) : M Unit := fun s => .ok () (s.setA r v)

/-- The program counter. -/
def readPc : M Long := fun s => .ok s.pc s

/-- `pc <- v`. -/
def writePc (v : Long) : M Unit := fun s => .ok () (s.setPc v)

/-- The flags. -/
def readCcr : M Ccr := fun s => .ok s.ccr s

/-- Write the flags. -/
def writeCcr (k : Ccr) : M Unit := fun s => .ok () (s.setCcr k)

/-- Raise an exception: the instruction ends at once with no further write (R12). -/
def raise {α : Type} (e : Exc) : M α := fun s => .error e s

/-- Draw a fresh free bit (U2; log 13). -/
def drawBit : M Bool := fun s =>
  .ok (Config.freeBit s.freeCount) (s.setFreeCount (s.freeCount + 1))

/-! ## Memory accesses -/

/-- `addr mod 2^ADDR_BITS`: the part of an address that reaches memory (R52, R61). -/
def busAddr (addr : Long) : Nat := addr.toNat % 2 ^ Config.addrBits

/-- The checks of an access of `sz` at `addr`, in their order: alignment, then the map (R52, R54,
R267). `none` when the access may go on. -/
def accessFault (s : State) (access : Access) (addr : Long) (sz : Size) : Option Exc :=
  let a := busAddr addr
  if sz ≠ .byte ∧ a % 2 = 1 then some (.addressError (BitVec.ofNat 32 a) access)
  else
    match firstByte (fun b => !inRegions s.memMap b) a sz.bytes with
    | some b => some (.busError (BitVec.ofNat 32 b) access)
    | none => none

/-- The checks of a write: those of every access, then `SelfModify` (R53, R68, R267). -/
def writeFault (s : State) (addr : Long) (sz : Size) : Option Exc :=
  match accessFault s .write addr sz with
  | some e => some e
  | none =>
    match firstByte (fun b => inRegions s.progText b) (busAddr addr) sz.bytes with
    | some b => some (.selfModify (BitVec.ofNat 32 b))
    | none => none

/-- The value of `sz` that memory holds at `addr` (R51, R52). -/
def State.valueAt (s : State) (addr : Long) (sz : Size) : BitVec sz.bits :=
  BitVec.ofNat sz.bits (Memory.readBytes s.mem (busAddr addr) sz.bytes)

/-- `MemRead(addr, k)` (R52). -/
def memRead (access : Access) (addr : Long) (sz : Size) : M (BitVec sz.bits) := fun s =>
  match accessFault s access addr sz with
  | some e => .error e s
  | none => .ok (s.valueAt addr sz) s

/-- The state with `v` stored at `addr` (R51, R53). -/
def State.storeAt (s : State) (addr : Long) (sz : Size) (v : BitVec sz.bits) : State :=
  s.setMem (Memory.writeBytes s.mem (busAddr addr) sz.bytes v.toNat)

/-- `MemWrite(addr, k, v)`: all checks come before any byte is written (R53). -/
def memWrite (addr : Long) (sz : Size) (v : BitVec sz.bits) : M Unit := fun s =>
  match writeFault s addr sz with
  | some e => .error e s
  | none => .ok () (s.storeAt addr sz v)

/-- `fetch16()`: the word at pc, then pc is 2 further (R94). -/
def fetch16 : M Word := do
  let pc ← readPc
  let w ← memRead .fetch pc .word
  writePc (pc + 2#32)
  return w

/-- Fetch an extension word whose value the decoded instruction already holds (log 12). -/
def fetchExt : M Unit := do
  let _ ← fetch16
  return ()

/-! ## Exceptions -/

/-- Taking an exception: `status <- faulted(e)` with the record of R260, nothing else (R268). There
is no return from one (R270). -/
def takeException (e : Exc) (instrAddr : Long) (s : State) : State :=
  s.setStatus (.faulted ⟨e, instrAddr⟩)

/-- Run a part of an instruction from `s`; `instrAddr` is the address of its opword. An exception
leaves the state as the part left it and is then taken (R149, R268; log 8, log 9). -/
def complete {α : Type} (instrAddr : Long) (m : M α) (s : State) :
    Host.Outcome State Fault Refusal :=
  match m s with
  | .ok _ s' => .next s'
  | .error e s' => .next (takeException e instrAddr s')

/-- Run the body of an instruction whose opword stands at pc: pc first moves past the opword (R25). -/
def execute (m : M Unit) (s : State) : Host.Outcome State Fault Refusal :=
  complete s.pc m s.afterOpword

end Sys2Proof.Machine
end

