-- ==== Sys2Proof/Syntax.lean ====
section
/-! DEFINITION. The syntax of the instructions: the operand forms of R90 to R93 and one constructor
of `Instr` for every row of spec/opcode_table.json, operands in the order the assembler writes them
(source, destination, R115). The categories of addressing modes (R93) are types of their own, so an
operand form that an instruction does not take cannot be written down. -/

namespace Sys2Proof

/-- The brief extension word of the indexed modes (R95), bits 10..8 being zero in every word the
decoder accepts (D27). -/
structure IndexExt where
  /-- Bit 15: the index register is an address register. -/
  isAddr : Bool
  /-- Bits 14..12: its number. -/
  xn : Reg
  /-- Bit 11: the whole long word (else the sign-extended low word). -/
  long : Bool
  /-- Bits 7..0: the displacement. -/
  d8 : Byte
deriving DecidableEq, Repr

/-- The memory alterable addressing modes (R91, R93). -/
inductive MemEa where
  /-- `(An)` -/
  | ind (an : Reg)
  /-- `(An)+` -/
  | postInc (an : Reg)
  /-- `-(An)` -/
  | preDec (an : Reg)
  /-- `d16(An)` -/
  | disp (an : Reg) (d16 : Word)
  /-- `d8(An,Xn)` -/
  | index (an : Reg) (ix : IndexExt)
  /-- `(xxx).W` -/
  | absW (w : Word)
  /-- `(xxx).L` -/
  | absL (a : Long)
deriving DecidableEq, Repr

/-- The data alterable modes: `Dn` and memory alterable (R93). -/
inductive DataAltEa where
  | dn (r : Reg)
  | mem (m : MemEa)
deriving DecidableEq, Repr

/-- The data modes: all but `An` (R93). The value of `#imm` stands in the low bits of `imm`. -/
inductive DataEa where
  | alt (e : DataAltEa)
  /-- `d16(PC)` -/
  | pcDisp (d16 : Word)
  /-- `d8(PC,Xn)` -/
  | pcIndex (ix : IndexExt)
  /-- `#imm` -/
  | imm (v : Long)
deriving DecidableEq, Repr

/-- All twelve modes (R93). -/
inductive AnyEa where
  | an (r : Reg)
  | data (e : DataEa)
deriving DecidableEq, Repr

/-- A branch displacement: in the opword, or in one extension word (R100). -/
inductive Disp where
  | short (d : Byte)
  | long (d : Word)
deriving DecidableEq, Repr

/-- The instructions, one constructor per row of spec/opcode_table.json (R105). `EaDn` and `DnEa`
are the two directions of a two-operand instruction; `Imm` and `Reg` the two count forms of a shift
(`ccc` is the three-bit count field, 0 meaning 8, R98); `Dyn` and `Static` the two bit-number
forms. -/
inductive Instr where
  /-- `ADD.B` (R140) -/
  | addBEaDn (src : DataEa) (dn : Reg)
  /-- `ADD.B` (R140) -/
  | addBDnEa (dn : Reg) (dst : MemEa)
  /-- `ADD.W` (R140) -/
  | addWEaDn (src : AnyEa) (dn : Reg)
  /-- `ADD.W` (R140) -/
  | addWDnEa (dn : Reg) (dst : MemEa)
  /-- `ADD.L` (R140) -/
  | addLEaDn (src : AnyEa) (dn : Reg)
  /-- `ADD.L` (R140) -/
  | addLDnEa (dn : Reg) (dst : MemEa)
  /-- `SUB.B` (R141) -/
  | subBEaDn (src : DataEa) (dn : Reg)
  /-- `SUB.B` (R141) -/
  | subBDnEa (dn : Reg) (dst : MemEa)
  /-- `SUB.W` (R141) -/
  | subWEaDn (src : AnyEa) (dn : Reg)
  /-- `SUB.W` (R141) -/
  | subWDnEa (dn : Reg) (dst : MemEa)
  /-- `SUB.L` (R141) -/
  | subLEaDn (src : AnyEa) (dn : Reg)
  /-- `SUB.L` (R141) -/
  | subLDnEa (dn : Reg) (dst : MemEa)
  /-- `AND.B` (R165) -/
  | andBEaDn (src : DataEa) (dn : Reg)
  /-- `AND.B` (R165) -/
  | andBDnEa (dn : Reg) (dst : MemEa)
  /-- `AND.W` (R165) -/
  | andWEaDn (src : DataEa) (dn : Reg)
  /-- `AND.W` (R165) -/
  | andWDnEa (dn : Reg) (dst : MemEa)
  /-- `AND.L` (R165) -/
  | andLEaDn (src : DataEa) (dn : Reg)
  /-- `AND.L` (R165) -/
  | andLDnEa (dn : Reg) (dst : MemEa)
  /-- `OR.B` (R166) -/
  | orBEaDn (src : DataEa) (dn : Reg)
  /-- `OR.B` (R166) -/
  | orBDnEa (dn : Reg) (dst : MemEa)
  /-- `OR.W` (R166) -/
  | orWEaDn (src : DataEa) (dn : Reg)
  /-- `OR.W` (R166) -/
  | orWDnEa (dn : Reg) (dst : MemEa)
  /-- `OR.L` (R166) -/
  | orLEaDn (src : DataEa) (dn : Reg)
  /-- `OR.L` (R166) -/
  | orLDnEa (dn : Reg) (dst : MemEa)
  /-- `EOR.B` (R167) -/
  | eorB (dn : Reg) (dst : DataAltEa)
  /-- `EOR.W` (R167) -/
  | eorW (dn : Reg) (dst : DataAltEa)
  /-- `EOR.L` (R167) -/
  | eorL (dn : Reg) (dst : DataAltEa)
  /-- `CMP.B` (R232) -/
  | cmpB (src : DataEa) (dn : Reg)
  /-- `CMP.W` (R232) -/
  | cmpW (src : AnyEa) (dn : Reg)
  /-- `CMP.L` (R232) -/
  | cmpL (src : AnyEa) (dn : Reg)
  /-- `MULU.W` (R144) -/
  | mulu (src : DataEa) (dn : Reg)
  /-- `MULS.W` (R145) -/
  | muls (src : DataEa) (dn : Reg)
  /-- `DIVU.W` (R146) -/
  | divu (src : DataEa) (dn : Reg)
  /-- `DIVS.W` (R147) -/
  | divs (src : DataEa) (dn : Reg)
  /-- `EXT.W` (R142) -/
  | extW (dn : Reg)
  /-- `EXT.L` (R143) -/
  | extL (dn : Reg)
  /-- `NEG.B` (R148) -/
  | negB (dst : DataAltEa)
  /-- `NEG.W` (R148) -/
  | negW (dst : DataAltEa)
  /-- `NEG.L` (R148) -/
  | negL (dst : DataAltEa)
  /-- `NOT.B` (R168) -/
  | notB (dst : DataAltEa)
  /-- `NOT.W` (R168) -/
  | notW (dst : DataAltEa)
  /-- `NOT.L` (R168) -/
  | notL (dst : DataAltEa)
  /-- `CLR.B` (R231) -/
  | clrB (dst : DataAltEa)
  /-- `CLR.W` (R231) -/
  | clrW (dst : DataAltEa)
  /-- `CLR.L` (R231) -/
  | clrL (dst : DataAltEa)
  /-- `SWAP` (R160) -/
  | swap (dn : Reg)
  /-- `EXG_Dx_Dy` (R161) -/
  | exgDD (dx : Reg) (dy : Reg)
  /-- `EXG_Ax_Ay` (R161) -/
  | exgAA (ax : Reg) (ay : Reg)
  /-- `EXG_Dx_Ay` (R161) -/
  | exgDA (dx : Reg) (ay : Reg)
  /-- `ASR.B__n_Dy` (R181) -/
  | asrBImm (ccc : BitVec 3) (dy : Reg)
  /-- `ASR.B_Dx_Dy` (R181) -/
  | asrBReg (dx : Reg) (dy : Reg)
  /-- `ASR.W__n_Dy` (R181) -/
  | asrWImm (ccc : BitVec 3) (dy : Reg)
  /-- `ASR.W_Dx_Dy` (R181) -/
  | asrWReg (dx : Reg) (dy : Reg)
  /-- `ASR.L__n_Dy` (R181) -/
  | asrLImm (ccc : BitVec 3) (dy : Reg)
  /-- `ASR.L_Dx_Dy` (R181) -/
  | asrLReg (dx : Reg) (dy : Reg)
  /-- `ASL.B__n_Dy` (R180) -/
  | aslBImm (ccc : BitVec 3) (dy : Reg)
  /-- `ASL.B_Dx_Dy` (R180) -/
  | aslBReg (dx : Reg) (dy : Reg)
  /-- `ASL.W__n_Dy` (R180) -/
  | aslWImm (ccc : BitVec 3) (dy : Reg)
  /-- `ASL.W_Dx_Dy` (R180) -/
  | aslWReg (dx : Reg) (dy : Reg)
  /-- `ASL.L__n_Dy` (R180) -/
  | aslLImm (ccc : BitVec 3) (dy : Reg)
  /-- `ASL.L_Dx_Dy` (R180) -/
  | aslLReg (dx : Reg) (dy : Reg)
  /-- `LSR.B__n_Dy` (R183) -/
  | lsrBImm (ccc : BitVec 3) (dy : Reg)
  /-- `LSR.B_Dx_Dy` (R183) -/
  | lsrBReg (dx : Reg) (dy : Reg)
  /-- `LSR.W__n_Dy` (R183) -/
  | lsrWImm (ccc : BitVec 3) (dy : Reg)
  /-- `LSR.W_Dx_Dy` (R183) -/
  | lsrWReg (dx : Reg) (dy : Reg)
  /-- `LSR.L__n_Dy` (R183) -/
  | lsrLImm (ccc : BitVec 3) (dy : Reg)
  /-- `LSR.L_Dx_Dy` (R183) -/
  | lsrLReg (dx : Reg) (dy : Reg)
  /-- `LSL.B__n_Dy` (R182) -/
  | lslBImm (ccc : BitVec 3) (dy : Reg)
  /-- `LSL.B_Dx_Dy` (R182) -/
  | lslBReg (dx : Reg) (dy : Reg)
  /-- `LSL.W__n_Dy` (R182) -/
  | lslWImm (ccc : BitVec 3) (dy : Reg)
  /-- `LSL.W_Dx_Dy` (R182) -/
  | lslWReg (dx : Reg) (dy : Reg)
  /-- `LSL.L__n_Dy` (R182) -/
  | lslLImm (ccc : BitVec 3) (dy : Reg)
  /-- `LSL.L_Dx_Dy` (R182) -/
  | lslLReg (dx : Reg) (dy : Reg)
  /-- `ROXR.B__n_Dy` (R187) -/
  | roxrBImm (ccc : BitVec 3) (dy : Reg)
  /-- `ROXR.B_Dx_Dy` (R187) -/
  | roxrBReg (dx : Reg) (dy : Reg)
  /-- `ROXR.W__n_Dy` (R187) -/
  | roxrWImm (ccc : BitVec 3) (dy : Reg)
  /-- `ROXR.W_Dx_Dy` (R187) -/
  | roxrWReg (dx : Reg) (dy : Reg)
  /-- `ROXR.L__n_Dy` (R187) -/
  | roxrLImm (ccc : BitVec 3) (dy : Reg)
  /-- `ROXR.L_Dx_Dy` (R187) -/
  | roxrLReg (dx : Reg) (dy : Reg)
  /-- `ROXL.B__n_Dy` (R186) -/
  | roxlBImm (ccc : BitVec 3) (dy : Reg)
  /-- `ROXL.B_Dx_Dy` (R186) -/
  | roxlBReg (dx : Reg) (dy : Reg)
  /-- `ROXL.W__n_Dy` (R186) -/
  | roxlWImm (ccc : BitVec 3) (dy : Reg)
  /-- `ROXL.W_Dx_Dy` (R186) -/
  | roxlWReg (dx : Reg) (dy : Reg)
  /-- `ROXL.L__n_Dy` (R186) -/
  | roxlLImm (ccc : BitVec 3) (dy : Reg)
  /-- `ROXL.L_Dx_Dy` (R186) -/
  | roxlLReg (dx : Reg) (dy : Reg)
  /-- `ROR.B__n_Dy` (R185) -/
  | rorBImm (ccc : BitVec 3) (dy : Reg)
  /-- `ROR.B_Dx_Dy` (R185) -/
  | rorBReg (dx : Reg) (dy : Reg)
  /-- `ROR.W__n_Dy` (R185) -/
  | rorWImm (ccc : BitVec 3) (dy : Reg)
  /-- `ROR.W_Dx_Dy` (R185) -/
  | rorWReg (dx : Reg) (dy : Reg)
  /-- `ROR.L__n_Dy` (R185) -/
  | rorLImm (ccc : BitVec 3) (dy : Reg)
  /-- `ROR.L_Dx_Dy` (R185) -/
  | rorLReg (dx : Reg) (dy : Reg)
  /-- `ROL.B__n_Dy` (R184) -/
  | rolBImm (ccc : BitVec 3) (dy : Reg)
  /-- `ROL.B_Dx_Dy` (R184) -/
  | rolBReg (dx : Reg) (dy : Reg)
  /-- `ROL.W__n_Dy` (R184) -/
  | rolWImm (ccc : BitVec 3) (dy : Reg)
  /-- `ROL.W_Dx_Dy` (R184) -/
  | rolWReg (dx : Reg) (dy : Reg)
  /-- `ROL.L__n_Dy` (R184) -/
  | rolLImm (ccc : BitVec 3) (dy : Reg)
  /-- `ROL.L_Dx_Dy` (R184) -/
  | rolLReg (dx : Reg) (dy : Reg)
  /-- `BTST_Dn__ea` (R210) -/
  | btstDyn (dn : Reg) (src : DataEa)
  /-- `BTST__n__ea` (R210) -/
  | btstStatic (k : Byte) (src : DataEa)
  /-- `BCHG_Dn__ea` (R211) -/
  | bchgDyn (dn : Reg) (dst : DataAltEa)
  /-- `BCHG__n__ea` (R211) -/
  | bchgStatic (k : Byte) (dst : DataAltEa)
  /-- `BCLR_Dn__ea` (R212) -/
  | bclrDyn (dn : Reg) (dst : DataAltEa)
  /-- `BCLR__n__ea` (R212) -/
  | bclrStatic (k : Byte) (dst : DataAltEa)
  /-- `BSET_Dn__ea` (R213) -/
  | bsetDyn (dn : Reg) (dst : DataAltEa)
  /-- `BSET__n__ea` (R213) -/
  | bsetStatic (k : Byte) (dst : DataAltEa)
  /-- `ORI.B` (R236) -/
  | oriB (imm : Byte) (dst : DataAltEa)
  /-- `ORI.W` (R236) -/
  | oriW (imm : Word) (dst : DataAltEa)
  /-- `ORI.L` (R236) -/
  | oriL (imm : Long) (dst : DataAltEa)
  /-- `ANDI.B` (R235) -/
  | andiB (imm : Byte) (dst : DataAltEa)
  /-- `ANDI.W` (R235) -/
  | andiW (imm : Word) (dst : DataAltEa)
  /-- `ANDI.L` (R235) -/
  | andiL (imm : Long) (dst : DataAltEa)
  /-- `SUBI.B` (R234) -/
  | subiB (imm : Byte) (dst : DataAltEa)
  /-- `SUBI.W` (R234) -/
  | subiW (imm : Word) (dst : DataAltEa)
  /-- `SUBI.L` (R234) -/
  | subiL (imm : Long) (dst : DataAltEa)
  /-- `ADDI.B` (R233) -/
  | addiB (imm : Byte) (dst : DataAltEa)
  /-- `ADDI.W` (R233) -/
  | addiW (imm : Word) (dst : DataAltEa)
  /-- `ADDI.L` (R233) -/
  | addiL (imm : Long) (dst : DataAltEa)
  /-- `EORI.B` (R237) -/
  | eoriB (imm : Byte) (dst : DataAltEa)
  /-- `EORI.W` (R237) -/
  | eoriW (imm : Word) (dst : DataAltEa)
  /-- `EORI.L` (R237) -/
  | eoriL (imm : Long) (dst : DataAltEa)
  /-- `CMPI.B` (R238) -/
  | cmpiB (imm : Byte) (dst : DataAltEa)
  /-- `CMPI.W` (R238) -/
  | cmpiW (imm : Word) (dst : DataAltEa)
  /-- `CMPI.L` (R238) -/
  | cmpiL (imm : Long) (dst : DataAltEa)
  /-- `MOVE.B` (R230) -/
  | moveB (src : DataEa) (dst : DataAltEa)
  /-- `MOVE.L` (R230) -/
  | moveL (src : AnyEa) (dst : DataAltEa)
  /-- `MOVE.W` (R230) -/
  | moveW (src : AnyEa) (dst : DataAltEa)
  /-- `BRA` (R241) -/
  | bra (disp : Disp)
  /-- `BHI` (R240) -/
  | bhi (disp : Disp)
  /-- `BLS` (R240) -/
  | bls (disp : Disp)
  /-- `BCC` (R240) -/
  | bcc (disp : Disp)
  /-- `BCS` (R240) -/
  | bcs (disp : Disp)
  /-- `BNE` (R240) -/
  | bne (disp : Disp)
  /-- `BEQ` (R240) -/
  | beq (disp : Disp)
  /-- `BVC` (R240) -/
  | bvc (disp : Disp)
  /-- `BVS` (R240) -/
  | bvs (disp : Disp)
  /-- `BPL` (R240) -/
  | bpl (disp : Disp)
  /-- `BMI` (R240) -/
  | bmi (disp : Disp)
  /-- `BGE` (R240) -/
  | bge (disp : Disp)
  /-- `BLT` (R240) -/
  | blt (disp : Disp)
  /-- `BGT` (R240) -/
  | bgt (disp : Disp)
  /-- `BLE` (R240) -/
  | ble (disp : Disp)
  /-- `STOP` (R245) -/
  | stop (imm : Word)
deriving DecidableEq, Repr

end Sys2Proof
end

