-- ==== Sys2Proof/WellFormed.lean ====
section
/-! DEFINITION. Which instruction terms are instructions: the checks the types of Syntax.lean do not
make. Every term the decoder answers passes them. -/

namespace Sys2Proof

/-- The immediate of `#imm` is a value of the operation's width (R92, R96). -/
def DataEa.immFits (sz : Size) : DataEa → Bool
  | .imm v => decide (v.toNat < 2 ^ sz.bits)
  | .alt _ => true
  | .pcDisp _ => true
  | .pcIndex _ => true

/-- `DataEa.immFits` for the twelve modes. -/
def AnyEa.immFits (sz : Size) : AnyEa → Bool
  | .an _ => true
  | .data e => e.immFits sz

/-- The mode is not `#imm`: `BTST #n,<ea>` takes the data modes except it (R105). -/
def DataEa.notImm : DataEa → Bool
  | .imm _ => false
  | .alt _ => true
  | .pcDisp _ => true
  | .pcIndex _ => true

/-- A displacement of 0 is written in the extension word only (R100, R240). -/
def Disp.wf : Disp → Bool
  | .short d => decide (d ≠ 0#8)
  | .long _ => true

/-- The MOVE form the spec leaves without a meaning and refuses: source `An`, destination `(An)+` or
`-(An)` on the same register (R94, D20, U8). -/
def moveRefused (src : AnyEa) (dst : DataAltEa) : Bool :=
  match src, dst with
  | .an r, .mem (.postInc r') => decide (r = r')
  | .an r, .mem (.preDec r') => decide (r = r')
  | _, _ => false

/-- The well-formedness check of an instruction. -/
def Instr.wf : Instr → Bool
  | .addBEaDn src _ => src.immFits .byte
  | .addBDnEa _ _ => true
  | .addWEaDn src _ => src.immFits .word
  | .addWDnEa _ _ => true
  | .addLEaDn src _ => src.immFits .long
  | .addLDnEa _ _ => true
  | .subBEaDn src _ => src.immFits .byte
  | .subBDnEa _ _ => true
  | .subWEaDn src _ => src.immFits .word
  | .subWDnEa _ _ => true
  | .subLEaDn src _ => src.immFits .long
  | .subLDnEa _ _ => true
  | .andBEaDn src _ => src.immFits .byte
  | .andBDnEa _ _ => true
  | .andWEaDn src _ => src.immFits .word
  | .andWDnEa _ _ => true
  | .andLEaDn src _ => src.immFits .long
  | .andLDnEa _ _ => true
  | .orBEaDn src _ => src.immFits .byte
  | .orBDnEa _ _ => true
  | .orWEaDn src _ => src.immFits .word
  | .orWDnEa _ _ => true
  | .orLEaDn src _ => src.immFits .long
  | .orLDnEa _ _ => true
  | .eorB _ _ => true
  | .eorW _ _ => true
  | .eorL _ _ => true
  | .cmpB src _ => src.immFits .byte
  | .cmpW src _ => src.immFits .word
  | .cmpL src _ => src.immFits .long
  | .mulu src _ => src.immFits .word
  | .muls src _ => src.immFits .word
  | .divu src _ => src.immFits .word
  | .divs src _ => src.immFits .word
  | .extW _ => true
  | .extL _ => true
  | .negB _ => true
  | .negW _ => true
  | .negL _ => true
  | .notB _ => true
  | .notW _ => true
  | .notL _ => true
  | .clrB _ => true
  | .clrW _ => true
  | .clrL _ => true
  | .swap _ => true
  | .exgDD _ _ => true
  | .exgAA _ _ => true
  | .exgDA _ _ => true
  | .asrBImm _ _ => true
  | .asrBReg _ _ => true
  | .asrWImm _ _ => true
  | .asrWReg _ _ => true
  | .asrLImm _ _ => true
  | .asrLReg _ _ => true
  | .aslBImm _ _ => true
  | .aslBReg _ _ => true
  | .aslWImm _ _ => true
  | .aslWReg _ _ => true
  | .aslLImm _ _ => true
  | .aslLReg _ _ => true
  | .lsrBImm _ _ => true
  | .lsrBReg _ _ => true
  | .lsrWImm _ _ => true
  | .lsrWReg _ _ => true
  | .lsrLImm _ _ => true
  | .lsrLReg _ _ => true
  | .lslBImm _ _ => true
  | .lslBReg _ _ => true
  | .lslWImm _ _ => true
  | .lslWReg _ _ => true
  | .lslLImm _ _ => true
  | .lslLReg _ _ => true
  | .roxrBImm _ _ => true
  | .roxrBReg _ _ => true
  | .roxrWImm _ _ => true
  | .roxrWReg _ _ => true
  | .roxrLImm _ _ => true
  | .roxrLReg _ _ => true
  | .roxlBImm _ _ => true
  | .roxlBReg _ _ => true
  | .roxlWImm _ _ => true
  | .roxlWReg _ _ => true
  | .roxlLImm _ _ => true
  | .roxlLReg _ _ => true
  | .rorBImm _ _ => true
  | .rorBReg _ _ => true
  | .rorWImm _ _ => true
  | .rorWReg _ _ => true
  | .rorLImm _ _ => true
  | .rorLReg _ _ => true
  | .rolBImm _ _ => true
  | .rolBReg _ _ => true
  | .rolWImm _ _ => true
  | .rolWReg _ _ => true
  | .rolLImm _ _ => true
  | .rolLReg _ _ => true
  | .btstDyn _ src => src.immFits .byte
  | .btstStatic _ src => src.notImm
  | .bchgDyn _ _ => true
  | .bchgStatic _ _ => true
  | .bclrDyn _ _ => true
  | .bclrStatic _ _ => true
  | .bsetDyn _ _ => true
  | .bsetStatic _ _ => true
  | .oriB _ _ => true
  | .oriW _ _ => true
  | .oriL _ _ => true
  | .andiB _ _ => true
  | .andiW _ _ => true
  | .andiL _ _ => true
  | .subiB _ _ => true
  | .subiW _ _ => true
  | .subiL _ _ => true
  | .addiB _ _ => true
  | .addiW _ _ => true
  | .addiL _ _ => true
  | .eoriB _ _ => true
  | .eoriW _ _ => true
  | .eoriL _ _ => true
  | .cmpiB _ _ => true
  | .cmpiW _ _ => true
  | .cmpiL _ _ => true
  | .moveB src _ => src.immFits .byte
  | .moveL src dst => src.immFits .long && !moveRefused src dst
  | .moveW src dst => src.immFits .word && !moveRefused src dst
  | .bra disp => disp.wf
  | .bhi disp => disp.wf
  | .bls disp => disp.wf
  | .bcc disp => disp.wf
  | .bcs disp => disp.wf
  | .bne disp => disp.wf
  | .beq disp => disp.wf
  | .bvc disp => disp.wf
  | .bvs disp => disp.wf
  | .bpl disp => disp.wf
  | .bmi disp => disp.wf
  | .bge disp => disp.wf
  | .blt disp => disp.wf
  | .bgt disp => disp.wf
  | .ble disp => disp.wf
  | .stop _ => true

end Sys2Proof
end

