-- ==== Sys2Proof/Machine/Operands.lean ====
section
/-! DEFINITION. Evaluating the operand forms (R90 to R100): locations, effective addresses, reading
and writing through a location, shift counts, branch displacements. -/

namespace Sys2Proof.Machine

/-- A location that can be written: `reg_D(i)` or `mem(addr)` (R94, R97). -/
inductive Loc where
  | dreg (r : Reg)
  | mem (addr : Long)
deriving DecidableEq, Repr

/-- The step of `(An)+` and `-(An)`: the operand's bytes, but 2 for a byte through A7 (R91, D24). -/
def addrStep (sz : Size) (r : Reg) : Long :=
  if sz = .byte ∧ r = 7#3 then 2#32 else BitVec.ofNat 32 sz.bytes

/-- `A[r]`. -/
def readALong (r : Reg) : M Long := fun s => .ok (s.areg r) s

/-- The index register's value, sized by bit 11 of the brief extension word (R95). -/
def State.indexValue (s : State) (ix : IndexExt) : Long :=
  let v := if ix.isAddr then s.areg ix.xn else s.dreg ix.xn
  if ix.long then v else (v.setWidth 16).signExtend 32

/-- `index_ea(base)` (R95), its extension word being fetched. -/
def indexEa (base : Long) (ix : IndexExt) : M Long := do
  fetchExt
  fun s => .ok (base + s.indexValue ix + ix.d8.signExtend 32) s

/-- The address a memory alterable mode names, with the update of `(An)+` or `-(An)` (R94). -/
def resolveMem (sz : Size) (e : MemEa) : M Long :=
  match e with
  | .ind r => readALong r
  | .postInc r => do
    let a ← readALong r
    writeALong r (a + addrStep sz r)
    return a
  | .preDec r => do
    let a ← readALong r
    writeALong r (a - addrStep sz r)
    return a - addrStep sz r
  | .disp r d => do
    let a ← readALong r
    fetchExt
    return a + d.signExtend 32
  | .index r ix => do
    let a ← readALong r
    indexEa a ix
  | .absW w => do
    fetchExt
    return w.signExtend 32
  | .absL a => do
    fetchExt
    fetchExt
    return a

/-- `resolve_n` of a data alterable mode (R94). -/
def resolve (sz : Size) (e : DataAltEa) : M Loc :=
  match e with
  | .dn r => return .dreg r
  | .mem m => do
    let a ← resolveMem sz m
    return .mem a

/-- `src_n(loc)`, `dst_n(loc)` (R97). -/
def readLoc (sz : Size) (l : Loc) : M (BitVec sz.bits) :=
  match l with
  | .dreg r => readD sz r
  | .mem a => memRead .read a sz

/-- `write_n(loc, v)` (R97). -/
def writeLoc (sz : Size) (l : Loc) (v : BitVec sz.bits) : M Unit :=
  match l with
  | .dreg r => writeD sz r v
  | .mem a => memWrite a sz v

/-- Fetch the words of an immediate: two for a long, one otherwise (R92). -/
def fetchImm (sz : Size) : M Unit :=
  match sz with
  | .byte => fetchExt
  | .word => fetchExt
  | .long => do
    fetchExt
    fetchExt

/-- The immediate of an immediate instruction, its words being fetched (R96). -/
def readImm (sz : Size) (v : BitVec sz.bits) : M (BitVec sz.bits) := do
  fetchImm sz
  return v

/-- `src_n(resolve_n(..))` of a data mode (R94, R97). A program-relative address is taken from the
value pc has when the extension word is about to be fetched (R25). -/
def readData (sz : Size) (e : DataEa) : M (BitVec sz.bits) :=
  match e with
  | .alt e => do
    let l ← resolve sz e
    readLoc sz l
  | .pcDisp d => do
    let base ← readPc
    fetchExt
    memRead .read (base + d.signExtend 32) sz
  | .pcIndex ix => do
    let base ← readPc
    let a ← indexEa base ix
    memRead .read a sz
  | .imm v => readImm sz (v.setWidth sz.bits)

/-- `src_n(resolve_n(..))` of any mode (R94, R97). -/
def readAny (sz : Size) (e : AnyEa) : M (BitVec sz.bits) :=
  match e with
  | .an r => readA sz r
  | .data e => readData sz e

/-- The count of a shift's immediate form: 1 to 8, the field 0 meaning 8 (R98). -/
def immCount (ccc : BitVec 3) : Nat := if ccc = 0#3 then 8 else ccc.toNat

/-- The count of a shift's register form: `D[x] mod 64` (R98, R188). -/
def regCount (r : Reg) : M Nat := fun s =>
  .ok ((s.dreg r).toNat % Config.shiftCountMod) s

/-- The bit number of the static form, its word being fetched (R99). -/
def staticBit (k : Byte) : M Nat := do
  fetchExt
  return k.toNat

/-- The bit number of the dynamic form: the whole of `D[n]` (R99). -/
def dynamicBit (r : Reg) : M Nat := fun s => .ok (s.dreg r).toNat s

/-- A branch displacement as a 32-bit value, its extension word being fetched if it has one (R100). -/
def readDisp (d : Disp) : M Long :=
  match d with
  | .short d => return d.signExtend 32
  | .long d => do
    fetchExt
    return d.signExtend 32

end Sys2Proof.Machine
end

