-- ==== Sys2Proof/Machine/Forms.lean ====
section
/-! DEFINITION. The shared frames of the instruction families: what `OP <ea>,Dn`, `OP Dn,<ea>`, a
comparison, a one-operand instruction and a move do, once for all the instructions of that shape
(R58, R65, R140, R149). -/

namespace Sys2Proof.Machine

/-- `OP <ea>,Dn`: read the source, compute, write `Dn`, write the flags (R140, R165). -/
def aluToDn (sz : Size) (f : Alu) (src : M (BitVec sz.bits)) (r : Reg) : M Unit := do
  let a ← src
  let b ← readD sz r
  let k ← readCcr
  writeD sz r (f a b k).1
  writeCcr (f a b k).2

/-- `OP src,<ea>`: a read-modify-write; the address is computed once (R58, R140, R233). -/
def aluToEa (sz : Size) (f : Alu) (src : M (BitVec sz.bits)) (dst : DataAltEa) : M Unit := do
  let a ← src
  let l ← resolve sz dst
  let b ← readLoc sz l
  let k ← readCcr
  writeLoc sz l (f a b k).1
  writeCcr (f a b k).2

/-- `CMP <ea>,Dn`: as SUB, nothing written but the flags, X kept (R232). -/
def compareDn (sz : Size) (src : M (BitVec sz.bits)) (r : Reg) : M Unit := do
  let a ← src
  let b ← readD sz r
  let k ← readCcr
  writeCcr (cmpCcr a b (b - a) k)

/-- `CMPI #imm,<ea>` (R238). -/
def compareEa (sz : Size) (src : M (BitVec sz.bits)) (dst : DataAltEa) : M Unit := do
  let a ← src
  let l ← resolve sz dst
  let b ← readLoc sz l
  let k ← readCcr
  writeCcr (cmpCcr a b (b - a) k)

/-- `OP <ea>`: one operand, read and written at the same location (R58, R148, R168). -/
def unaryEa (sz : Size) (f : Alu1) (dst : DataAltEa) : M Unit := do
  let l ← resolve sz dst
  let a ← readLoc sz l
  let k ← readCcr
  writeLoc sz l (f a k).1
  writeCcr (f a k).2

/-- `CLR <ea>`: the operand is written, not read (R231, R56; log 17). -/
def clearEa (sz : Size) (dst : DataAltEa) : M Unit := do
  let l ← resolve sz dst
  let k ← readCcr
  writeLoc sz l (0#sz.bits)
  writeCcr (logicCcr (0#sz.bits) k)

/-- `MOVE <ea>,<ea>`: the source is resolved and read completely before the destination (R94,
R230). -/
def moveEa (sz : Size) (src : M (BitVec sz.bits)) (dst : DataAltEa) : M Unit := do
  let v ← src
  let l ← resolve sz dst
  let k ← readCcr
  writeLoc sz l v
  writeCcr (logicCcr v k)

/-- A register result of 32 bits, N and Z taken from all of it (R144, R160). -/
def setLongNZ (r : Reg) (v : Long) : M Unit := do
  let k ← readCcr
  writeDLong r v
  writeCcr (logicCcr v k)

end Sys2Proof.Machine
end

