-- ==== Sys2Proof/Machine/AddSub.lean ====
section
/-! DEFINITION. ADD, SUB and NEG (R140, R141, R148). -/

namespace Sys2Proof.Machine

/-- `ADD.B`: ADD `<ea>,Dn`, byte (R140). -/
def execAddBEaDn (src : DataEa) (dn : Reg) (s : State) :
    Host.Outcome State Fault Refusal :=
  execute (aluToDn .byte aluAdd (readData .byte src) dn) s

/-- `ADD.B`: ADD `Dn,<ea>`, byte (R140). -/
def execAddBDnEa (dn : Reg) (dst : MemEa) (s : State) :
    Host.Outcome State Fault Refusal :=
  execute (aluToEa .byte aluAdd (readD .byte dn) (.mem dst)) s

/-- `ADD.W`: ADD `<ea>,Dn`, word (R140). -/
def execAddWEaDn (src : AnyEa) (dn : Reg) (s : State) :
    Host.Outcome State Fault Refusal :=
  execute (aluToDn .word aluAdd (readAny .word src) dn) s

/-- `ADD.W`: ADD `Dn,<ea>`, word (R140). -/
def execAddWDnEa (dn : Reg) (dst : MemEa) (s : State) :
    Host.Outcome State Fault Refusal :=
  execute (aluToEa .word aluAdd (readD .word dn) (.mem dst)) s

/-- `ADD.L`: ADD `<ea>,Dn`, long (R140). -/
def execAddLEaDn (src : AnyEa) (dn : Reg) (s : State) :
    Host.Outcome State Fault Refusal :=
  execute (aluToDn .long aluAdd (readAny .long src) dn) s

/-- `ADD.L`: ADD `Dn,<ea>`, long (R140). -/
def execAddLDnEa (dn : Reg) (dst : MemEa) (s : State) :
    Host.Outcome State Fault Refusal :=
  execute (aluToEa .long aluAdd (readD .long dn) (.mem dst)) s

/-- `SUB.B`: SUB `<ea>,Dn`, byte (R141). -/
def execSubBEaDn (src : DataEa) (dn : Reg) (s : State) :
    Host.Outcome State Fault Refusal :=
  execute (aluToDn .byte aluSub (readData .byte src) dn) s

/-- `SUB.B`: SUB `Dn,<ea>`, byte (R141). -/
def execSubBDnEa (dn : Reg) (dst : MemEa) (s : State) :
    Host.Outcome State Fault Refusal :=
  execute (aluToEa .byte aluSub (readD .byte dn) (.mem dst)) s

/-- `SUB.W`: SUB `<ea>,Dn`, word (R141). -/
def execSubWEaDn (src : AnyEa) (dn : Reg) (s : State) :
    Host.Outcome State Fault Refusal :=
  execute (aluToDn .word aluSub (readAny .word src) dn) s

/-- `SUB.W`: SUB `Dn,<ea>`, word (R141). -/
def execSubWDnEa (dn : Reg) (dst : MemEa) (s : State) :
    Host.Outcome State Fault Refusal :=
  execute (aluToEa .word aluSub (readD .word dn) (.mem dst)) s

/-- `SUB.L`: SUB `<ea>,Dn`, long (R141). -/
def execSubLEaDn (src : AnyEa) (dn : Reg) (s : State) :
    Host.Outcome State Fault Refusal :=
  execute (aluToDn .long aluSub (readAny .long src) dn) s

/-- `SUB.L`: SUB `Dn,<ea>`, long (R141). -/
def execSubLDnEa (dn : Reg) (dst : MemEa) (s : State) :
    Host.Outcome State Fault Refusal :=
  execute (aluToEa .long aluSub (readD .long dn) (.mem dst)) s

/-- `NEG.B`: NEG byte (R148). -/
def execNegB (dst : DataAltEa) (s : State) :
    Host.Outcome State Fault Refusal :=
  execute (unaryEa .byte aluNeg dst) s

/-- `NEG.W`: NEG word (R148). -/
def execNegW (dst : DataAltEa) (s : State) :
    Host.Outcome State Fault Refusal :=
  execute (unaryEa .word aluNeg dst) s

/-- `NEG.L`: NEG long (R148). -/
def execNegL (dst : DataAltEa) (s : State) :
    Host.Outcome State Fault Refusal :=
  execute (unaryEa .long aluNeg dst) s

end Sys2Proof.Machine
end

