-- ==== Sys2Proof/Machine/Bit.lean ====
section
/-! DEFINITION. BTST, BCHG, BCLR and BSET (R210 to R215). -/

namespace Sys2Proof.Machine


/-- The three operations that change a bit. -/
inductive BitOp where
  | chg
  | clr
  | set
deriving DecidableEq, Repr

/-- The operand with bit `b` changed (R211, R212, R213). -/
def bitNew {n : Nat} (op : BitOp) (old : BitVec n) (b : Nat) : BitVec n :=
  match op with
  | .chg => old ^^^ (1#n <<< b)
  | .clr => old &&& ~~~(1#n <<< b)
  | .set => old ||| (1#n <<< b)

/-- `Z <- NOT bit`, the other flags kept (R214). -/
def writeBitZ (bit : Bool) : M Unit := do
  let k ← readCcr
  writeCcr { k with z := !bit }

/-- BTST: a long word bit of a data register, else a bit of a byte (R210, R214). -/
def testBit (number : M Nat) (src : DataEa) : M Unit := do
  let k ← number
  match src with
  | .alt (.dn r) => do
    let old ← readD .long r
    writeBitZ (old.getLsbD (k % Config.bitNumModReg))
  | _ => do
    let old ← readData .byte src
    writeBitZ (old.getLsbD (k % Config.bitNumModMem))

/-- BCHG, BCLR, BSET: Z is the complement of the bit before the change (R214). -/
def changeBit (op : BitOp) (number : M Nat) (dst : DataAltEa) : M Unit := do
  let k ← number
  let l ← resolve .byte dst
  match l with
  | .dreg r => do
    let old ← readD .long r
    writeDLong r (bitNew op old (k % Config.bitNumModReg))
    writeBitZ (old.getLsbD (k % Config.bitNumModReg))
  | .mem a => do
    let old ← memRead .read a .byte
    memWrite a .byte (bitNew op old (k % Config.bitNumModMem))
    writeBitZ (old.getLsbD (k % Config.bitNumModMem))

/-- `BTST_Dn__ea`: bit number in a register (R210, R214). -/
def execBtstDyn (dn : Reg) (src : DataEa) (s : State) :
    Host.Outcome State Fault Refusal :=
  execute (testBit (dynamicBit dn) src) s

/-- `BTST__n__ea`: bit number immediate (R210, R214). -/
def execBtstStatic (k : Byte) (src : DataEa) (s : State) :
    Host.Outcome State Fault Refusal :=
  execute (testBit (staticBit k) src) s

/-- `BCHG_Dn__ea`: bit number in a register (R211, R214). -/
def execBchgDyn (dn : Reg) (dst : DataAltEa) (s : State) :
    Host.Outcome State Fault Refusal :=
  execute (changeBit .chg (dynamicBit dn) dst) s

/-- `BCHG__n__ea`: bit number immediate (R211, R214). -/
def execBchgStatic (k : Byte) (dst : DataAltEa) (s : State) :
    Host.Outcome State Fault Refusal :=
  execute (changeBit .chg (staticBit k) dst) s

/-- `BCLR_Dn__ea`: bit number in a register (R212, R214). -/
def execBclrDyn (dn : Reg) (dst : DataAltEa) (s : State) :
    Host.Outcome State Fault Refusal :=
  execute (changeBit .clr (dynamicBit dn) dst) s

/-- `BCLR__n__ea`: bit number immediate (R212, R214). -/
def execBclrStatic (k : Byte) (dst : DataAltEa) (s : State) :
    Host.Outcome State Fault Refusal :=
  execute (changeBit .clr (staticBit k) dst) s

/-- `BSET_Dn__ea`: bit number in a register (R213, R214). -/
def execBsetDyn (dn : Reg) (dst : DataAltEa) (s : State) :
    Host.Outcome State Fault Refusal :=
  execute (changeBit .set (dynamicBit dn) dst) s

/-- `BSET__n__ea`: bit number immediate (R213, R214). -/
def execBsetStatic (k : Byte) (dst : DataAltEa) (s : State) :
    Host.Outcome State Fault Refusal :=
  execute (changeBit .set (staticBit k) dst) s

end Sys2Proof.Machine
end

