-- ==== Sys2Proof/Machine/Branch.lean ====
section
/-! DEFINITION. BRA and the conditional branches (R239 to R241). -/

namespace Sys2Proof.Machine

/-- A branch: to `base + disp` if the condition holds, `base` being the address of the opword plus 2;
an odd target raises AddressError at the branch (R26, R100, R240). DESIGN CHOICE (log 26): a taken long
branch with displacement 0 goes to `base`, where its extension word stands, as the pseudocode of R240
and R100 have it, and not past it, as R240's corner case has it. -/
def branch (cond : Ccr → Bool) (disp : Disp) : M Unit := do
  let base ← readPc
  let d ← readDisp disp
  let k ← readCcr
  if cond k then
    let t := base + d
    if t.getLsbD 0 then raise (.addressError t .fetch) else writePc t
  else return ()

/-- `BRA`: (R241, R239). -/
def execBra (disp : Disp) (s : State) :
    Host.Outcome State Fault Refusal :=
  execute (branch Ccr.always disp) s

/-- `BHI`: (R240, R239). -/
def execBhi (disp : Disp) (s : State) :
    Host.Outcome State Fault Refusal :=
  execute (branch Ccr.hi disp) s

/-- `BLS`: (R240, R239). -/
def execBls (disp : Disp) (s : State) :
    Host.Outcome State Fault Refusal :=
  execute (branch Ccr.ls disp) s

/-- `BCC`: (R240, R239). -/
def execBcc (disp : Disp) (s : State) :
    Host.Outcome State Fault Refusal :=
  execute (branch Ccr.cc disp) s

/-- `BCS`: (R240, R239). -/
def execBcs (disp : Disp) (s : State) :
    Host.Outcome State Fault Refusal :=
  execute (branch Ccr.cs disp) s

/-- `BNE`: (R240, R239). -/
def execBne (disp : Disp) (s : State) :
    Host.Outcome State Fault Refusal :=
  execute (branch Ccr.ne disp) s

/-- `BEQ`: (R240, R239). -/
def execBeq (disp : Disp) (s : State) :
    Host.Outcome State Fault Refusal :=
  execute (branch Ccr.eq disp) s

/-- `BVC`: (R240, R239). -/
def execBvc (disp : Disp) (s : State) :
    Host.Outcome State Fault Refusal :=
  execute (branch Ccr.vc disp) s

/-- `BVS`: (R240, R239). -/
def execBvs (disp : Disp) (s : State) :
    Host.Outcome State Fault Refusal :=
  execute (branch Ccr.vs disp) s

/-- `BPL`: (R240, R239). -/
def execBpl (disp : Disp) (s : State) :
    Host.Outcome State Fault Refusal :=
  execute (branch Ccr.pl disp) s

/-- `BMI`: (R240, R239). -/
def execBmi (disp : Disp) (s : State) :
    Host.Outcome State Fault Refusal :=
  execute (branch Ccr.mi disp) s

/-- `BGE`: (R240, R239). -/
def execBge (disp : Disp) (s : State) :
    Host.Outcome State Fault Refusal :=
  execute (branch Ccr.ge disp) s

/-- `BLT`: (R240, R239). -/
def execBlt (disp : Disp) (s : State) :
    Host.Outcome State Fault Refusal :=
  execute (branch Ccr.lt disp) s

/-- `BGT`: (R240, R239). -/
def execBgt (disp : Disp) (s : State) :
    Host.Outcome State Fault Refusal :=
  execute (branch Ccr.gt disp) s

/-- `BLE`: (R240, R239). -/
def execBle (disp : Disp) (s : State) :
    Host.Outcome State Fault Refusal :=
  execute (branch Ccr.le disp) s

end Sys2Proof.Machine
end

