-- ==== Sys2Proof/Machine/Exchange.lean ====
section
/-! DEFINITION. SWAP and EXG (R160, R161). -/

namespace Sys2Proof.Machine


/-- The two words of a long word exchanged (R160). -/
def swapWords (v : Long) : Long := v.extractLsb' 0 16 ++ v.extractLsb' 16 16

/-- SWAP on a register (R160). -/
def swapDn (r : Reg) : M Unit := do
  let v ← readD .long r
  setLongNZ r (swapWords v)

/-- `t <- Dx; Dx <- Dy; Dy <- t` (R161). -/
def exchangeDD (x y : Reg) : M Unit := fun s =>
  .ok () ((s.setD x (s.dreg y)).setD y (s.dreg x))

/-- `t <- Ax; Ax <- Ay; Ay <- t` (R161). -/
def exchangeAA (x y : Reg) : M Unit := fun s =>
  .ok () ((s.setA x (s.areg y)).setA y (s.areg x))

/-- `t <- Dx; Dx <- Ay; Ay <- t` (R161). -/
def exchangeDA (x y : Reg) : M Unit := fun s =>
  .ok () ((s.setD x (s.areg y)).setA y (s.dreg x))

/-- `SWAP`: (R160). -/
def execSwap (dn : Reg) (s : State) :
    Host.Outcome State Fault Refusal :=
  execute (swapDn dn) s

/-- `EXG_Dx_Dy`: no flag is affected (R161). -/
def execExgDD (dx : Reg) (dy : Reg) (s : State) :
    Host.Outcome State Fault Refusal :=
  execute (exchangeDD dx dy) s

/-- `EXG_Ax_Ay`: no flag is affected (R161). -/
def execExgAA (ax : Reg) (ay : Reg) (s : State) :
    Host.Outcome State Fault Refusal :=
  execute (exchangeAA ax ay) s

/-- `EXG_Dx_Ay`: no flag is affected (R161). -/
def execExgDA (dx : Reg) (ay : Reg) (s : State) :
    Host.Outcome State Fault Refusal :=
  execute (exchangeDA dx ay) s

end Sys2Proof.Machine
end

