-- ==== Sys2Proof/Machine/Immediate.lean ====
section
/-! DEFINITION. CMP and the immediate instructions ADDI, SUBI, ANDI, ORI, EORI, CMPI (R232 to R238). -/

namespace Sys2Proof.Machine

/-- `CMP.B`: byte (R232). -/
def execCmpB (src : DataEa) (dn : Reg) (s : State) :
    Host.Outcome State Fault Refusal :=
  execute (compareDn .byte (readData .byte src) dn) s

/-- `CMP.W`: word (R232). -/
def execCmpW (src : AnyEa) (dn : Reg) (s : State) :
    Host.Outcome State Fault Refusal :=
  execute (compareDn .word (readAny .word src) dn) s

/-- `CMP.L`: long (R232). -/
def execCmpL (src : AnyEa) (dn : Reg) (s : State) :
    Host.Outcome State Fault Refusal :=
  execute (compareDn .long (readAny .long src) dn) s

/-- `ORI.B`: byte (R236). -/
def execOriB (imm : Byte) (dst : DataAltEa) (s : State) :
    Host.Outcome State Fault Refusal :=
  execute (aluToEa .byte aluOr (readImm .byte imm) dst) s

/-- `ORI.W`: word (R236). -/
def execOriW (imm : Word) (dst : DataAltEa) (s : State) :
    Host.Outcome State Fault Refusal :=
  execute (aluToEa .word aluOr (readImm .word imm) dst) s

/-- `ORI.L`: long (R236). -/
def execOriL (imm : Long) (dst : DataAltEa) (s : State) :
    Host.Outcome State Fault Refusal :=
  execute (aluToEa .long aluOr (readImm .long imm) dst) s

/-- `ANDI.B`: byte (R235). -/
def execAndiB (imm : Byte) (dst : DataAltEa) (s : State) :
    Host.Outcome State Fault Refusal :=
  execute (aluToEa .byte aluAnd (readImm .byte imm) dst) s

/-- `ANDI.W`: word (R235). -/
def execAndiW (imm : Word) (dst : DataAltEa) (s : State) :
    Host.Outcome State Fault Refusal :=
  execute (aluToEa .word aluAnd (readImm .word imm) dst) s

/-- `ANDI.L`: long (R235). -/
def execAndiL (imm : Long) (dst : DataAltEa) (s : State) :
    Host.Outcome State Fault Refusal :=
  execute (aluToEa .long aluAnd (readImm .long imm) dst) s

/-- `SUBI.B`: byte (R234). -/
def execSubiB (imm : Byte) (dst : DataAltEa) (s : State) :
    Host.Outcome State Fault Refusal :=
  execute (aluToEa .byte aluSub (readImm .byte imm) dst) s

/-- `SUBI.W`: word (R234). -/
def execSubiW (imm : Word) (dst : DataAltEa) (s : State) :
    Host.Outcome State Fault Refusal :=
  execute (aluToEa .word aluSub (readImm .word imm) dst) s

/-- `SUBI.L`: long (R234). -/
def execSubiL (imm : Long) (dst : DataAltEa) (s : State) :
    Host.Outcome State Fault Refusal :=
  execute (aluToEa .long aluSub (readImm .long imm) dst) s

/-- `ADDI.B`: byte (R233). -/
def execAddiB (imm : Byte) (dst : DataAltEa) (s : State) :
    Host.Outcome State Fault Refusal :=
  execute (aluToEa .byte aluAdd (readImm .byte imm) dst) s

/-- `ADDI.W`: word (R233). -/
def execAddiW (imm : Word) (dst : DataAltEa) (s : State) :
    Host.Outcome State Fault Refusal :=
  execute (aluToEa .word aluAdd (readImm .word imm) dst) s

/-- `ADDI.L`: long (R233). -/
def execAddiL (imm : Long) (dst : DataAltEa) (s : State) :
    Host.Outcome State Fault Refusal :=
  execute (aluToEa .long aluAdd (readImm .long imm) dst) s

/-- `EORI.B`: byte (R237). -/
def execEoriB (imm : Byte) (dst : DataAltEa) (s : State) :
    Host.Outcome State Fault Refusal :=
  execute (aluToEa .byte aluEor (readImm .byte imm) dst) s

/-- `EORI.W`: word (R237). -/
def execEoriW (imm : Word) (dst : DataAltEa) (s : State) :
    Host.Outcome State Fault Refusal :=
  execute (aluToEa .word aluEor (readImm .word imm) dst) s

/-- `EORI.L`: long (R237). -/
def execEoriL (imm : Long) (dst : DataAltEa) (s : State) :
    Host.Outcome State Fault Refusal :=
  execute (aluToEa .long aluEor (readImm .long imm) dst) s

/-- `CMPI.B`: byte (R238). -/
def execCmpiB (imm : Byte) (dst : DataAltEa) (s : State) :
    Host.Outcome State Fault Refusal :=
  execute (compareEa .byte (readImm .byte imm) dst) s

/-- `CMPI.W`: word (R238). -/
def execCmpiW (imm : Word) (dst : DataAltEa) (s : State) :
    Host.Outcome State Fault Refusal :=
  execute (compareEa .word (readImm .word imm) dst) s

/-- `CMPI.L`: long (R238). -/
def execCmpiL (imm : Long) (dst : DataAltEa) (s : State) :
    Host.Outcome State Fault Refusal :=
  execute (compareEa .long (readImm .long imm) dst) s

end Sys2Proof.Machine
end

