-- ==== Sys2Proof/Machine/Logic.lean ====
section
/-! DEFINITION. AND, OR, EOR and NOT (R165 to R171). -/

namespace Sys2Proof.Machine

/-- `AND.B`: AND `<ea>,Dn`, byte (R165). -/
def execAndBEaDn (src : DataEa) (dn : Reg) (s : State) :
    Host.Outcome State Fault Refusal :=
  execute (aluToDn .byte aluAnd (readData .byte src) dn) s

/-- `AND.B`: AND `Dn,<ea>`, byte (R165). -/
def execAndBDnEa (dn : Reg) (dst : MemEa) (s : State) :
    Host.Outcome State Fault Refusal :=
  execute (aluToEa .byte aluAnd (readD .byte dn) (.mem dst)) s

/-- `AND.W`: AND `<ea>,Dn`, word (R165). -/
def execAndWEaDn (src : DataEa) (dn : Reg) (s : State) :
    Host.Outcome State Fault Refusal :=
  execute (aluToDn .word aluAnd (readData .word src) dn) s

/-- `AND.W`: AND `Dn,<ea>`, word (R165). -/
def execAndWDnEa (dn : Reg) (dst : MemEa) (s : State) :
    Host.Outcome State Fault Refusal :=
  execute (aluToEa .word aluAnd (readD .word dn) (.mem dst)) s

/-- `AND.L`: AND `<ea>,Dn`, long (R165). -/
def execAndLEaDn (src : DataEa) (dn : Reg) (s : State) :
    Host.Outcome State Fault Refusal :=
  execute (aluToDn .long aluAnd (readData .long src) dn) s

/-- `AND.L`: AND `Dn,<ea>`, long (R165). -/
def execAndLDnEa (dn : Reg) (dst : MemEa) (s : State) :
    Host.Outcome State Fault Refusal :=
  execute (aluToEa .long aluAnd (readD .long dn) (.mem dst)) s

/-- `OR.B`: OR `<ea>,Dn`, byte (R166). -/
def execOrBEaDn (src : DataEa) (dn : Reg) (s : State) :
    Host.Outcome State Fault Refusal :=
  execute (aluToDn .byte aluOr (readData .byte src) dn) s

/-- `OR.B`: OR `Dn,<ea>`, byte (R166). -/
def execOrBDnEa (dn : Reg) (dst : MemEa) (s : State) :
    Host.Outcome State Fault Refusal :=
  execute (aluToEa .byte aluOr (readD .byte dn) (.mem dst)) s

/-- `OR.W`: OR `<ea>,Dn`, word (R166). -/
def execOrWEaDn (src : DataEa) (dn : Reg) (s : State) :
    Host.Outcome State Fault Refusal :=
  execute (aluToDn .word aluOr (readData .word src) dn) s

/-- `OR.W`: OR `Dn,<ea>`, word (R166). -/
def execOrWDnEa (dn : Reg) (dst : MemEa) (s : State) :
    Host.Outcome State Fault Refusal :=
  execute (aluToEa .word aluOr (readD .word dn) (.mem dst)) s

/-- `OR.L`: OR `<ea>,Dn`, long (R166). -/
def execOrLEaDn (src : DataEa) (dn : Reg) (s : State) :
    Host.Outcome State Fault Refusal :=
  execute (aluToDn .long aluOr (readData .long src) dn) s

/-- `OR.L`: OR `Dn,<ea>`, long (R166). -/
def execOrLDnEa (dn : Reg) (dst : MemEa) (s : State) :
    Host.Outcome State Fault Refusal :=
  execute (aluToEa .long aluOr (readD .long dn) (.mem dst)) s

/-- `EOR.B`: EOR `Dn,<ea>`, byte (R167). -/
def execEorB (dn : Reg) (dst : DataAltEa) (s : State) :
    Host.Outcome State Fault Refusal :=
  execute (aluToEa .byte aluEor (readD .byte dn) dst) s

/-- `EOR.W`: EOR `Dn,<ea>`, word (R167). -/
def execEorW (dn : Reg) (dst : DataAltEa) (s : State) :
    Host.Outcome State Fault Refusal :=
  execute (aluToEa .word aluEor (readD .word dn) dst) s

/-- `EOR.L`: EOR `Dn,<ea>`, long (R167). -/
def execEorL (dn : Reg) (dst : DataAltEa) (s : State) :
    Host.Outcome State Fault Refusal :=
  execute (aluToEa .long aluEor (readD .long dn) dst) s

/-- `NOT.B`: NOT byte (R168). -/
def execNotB (dst : DataAltEa) (s : State) :
    Host.Outcome State Fault Refusal :=
  execute (unaryEa .byte aluNot dst) s

/-- `NOT.W`: NOT word (R168). -/
def execNotW (dst : DataAltEa) (s : State) :
    Host.Outcome State Fault Refusal :=
  execute (unaryEa .word aluNot dst) s

/-- `NOT.L`: NOT long (R168). -/
def execNotL (dst : DataAltEa) (s : State) :
    Host.Outcome State Fault Refusal :=
  execute (unaryEa .long aluNot dst) s

end Sys2Proof.Machine
end

