-- ==== Sys2Proof/Decode.lean ====
section
/-! DEFINITION. The decoder (R80 to R112), total on any list of words, rejecting by name, and the
encoder written from the same encoding rules. Both work on the five fields every opword but a
branch's is made of: bits 15..12, 11..9, 8..6, 5..3 and 2..0 (R83). -/

namespace Sys2Proof

/-- Why the decoder refuses. `step` answers every one of them with IllegalInstruction (R264). -/
inductive DecodeError where
  /-- No row of the opcode table matches the opword, its EA restriction included (R106, R110). -/
  | noRow
  /-- Bits 10..8 of a brief extension word are not zero (R95, D27). -/
  | reservedIndex
  /-- MOVE with source `An` and destination `(An)+` or `-(An)` on the same register (R94, D20). -/
  | moveSameRegister
  /-- The list of words ends inside the instruction. `step` supplies five words (R80), so it never
  sees this. -/
  | truncated
deriving DecidableEq, Repr

/-- What was decoded, and the words after it. -/
abbrev DecodeRes (α : Type) := Except DecodeError (α × List Word)

/-- Apply `k` to what was decoded. -/
def DecodeRes.map' {α β : Type} (k : α → β) : DecodeRes α → DecodeRes β
  | .ok (a, rest) => .ok (k a, rest)
  | .error e => .error e

/-! ## Extension words -/

/-- The next word. -/
def takeWord : List Word → DecodeRes Word
  | [] => .error .truncated
  | w :: rest => .ok (w, rest)

/-- The next two words as a long word, the high word first (R51, R92). -/
def takeLong : List Word → DecodeRes Long
  | hi :: lo :: rest => .ok (hi ++ lo, rest)
  | _ => .error .truncated

/-- The low byte of the next word; the high byte is ignored (R92, R99, D28). -/
def takeByte (ws : List Word) : DecodeRes Byte :=
  DecodeRes.map' (fun w => w.setWidth 8) (takeWord ws)

/-- The brief extension word (R95). -/
def takeIndex (ws : List Word) : DecodeRes IndexExt :=
  match takeWord ws with
  | .error e => .error e
  | .ok (w, rest) =>
    if w.extractLsb' 8 3 = 0#3 then
      .ok (⟨w.getLsbD 15, w.extractLsb' 12 3, w.getLsbD 11, w.extractLsb' 0 8⟩, rest)
    else .error .reservedIndex

/-- The value of `#imm` at size `sz`, zero-extended to a long word (R92, R96). -/
def takeImm (sz : Size) (ws : List Word) : DecodeRes Long :=
  match sz with
  | .byte => DecodeRes.map' (fun b => b.setWidth 32) (takeByte ws)
  | .word => DecodeRes.map' (fun w => w.setWidth 32) (takeWord ws)
  | .long => takeLong ws

/-! ## Effective addresses (R90 to R93) -/

/-- The memory alterable modes. -/
def decodeMemEa (mode reg : BitVec 3) (ws : List Word) : DecodeRes MemEa :=
  if mode = 2#3 then .ok (.ind reg, ws)
  else if mode = 3#3 then .ok (.postInc reg, ws)
  else if mode = 4#3 then .ok (.preDec reg, ws)
  else if mode = 5#3 then DecodeRes.map' (MemEa.disp reg) (takeWord ws)
  else if mode = 6#3 then DecodeRes.map' (MemEa.index reg) (takeIndex ws)
  else if mode = 7#3 then
    if reg = 0#3 then DecodeRes.map' MemEa.absW (takeWord ws)
    else if reg = 1#3 then DecodeRes.map' MemEa.absL (takeLong ws)
    else .error .noRow
  else .error .noRow

/-- The data alterable modes. -/
def decodeDataAltEa (mode reg : BitVec 3) (ws : List Word) : DecodeRes DataAltEa :=
  if mode = 0#3 then .ok (.dn reg, ws)
  else DecodeRes.map' DataAltEa.mem (decodeMemEa mode reg ws)

/-- The data modes. -/
def decodeDataEa (sz : Size) (mode reg : BitVec 3) (ws : List Word) : DecodeRes DataEa :=
  if mode = 7#3 ∧ reg = 2#3 then DecodeRes.map' DataEa.pcDisp (takeWord ws)
  else if mode = 7#3 ∧ reg = 3#3 then DecodeRes.map' DataEa.pcIndex (takeIndex ws)
  else if mode = 7#3 ∧ reg = 4#3 then DecodeRes.map' DataEa.imm (takeImm sz ws)
  else DecodeRes.map' DataEa.alt (decodeDataAltEa mode reg ws)

/-- All twelve modes. -/
def decodeAnyEa (sz : Size) (mode reg : BitVec 3) (ws : List Word) : DecodeRes AnyEa :=
  if mode = 1#3 then .ok (.an reg, ws)
  else DecodeRes.map' AnyEa.data (decodeDataEa sz mode reg ws)

/-! ## The groups of opwords (R81) -/

/-- Group 0000, bit 8 set: the dynamic bit instructions; mode 001 is MOVEP, refused (R106). -/
def decodeBitDyn (f om mode reg : BitVec 3) (ws : List Word) : DecodeRes Instr :=
  if om = 4#3 then DecodeRes.map' (Instr.btstDyn f) (decodeDataEa .byte mode reg ws)
  else if om = 5#3 then DecodeRes.map' (Instr.bchgDyn f) (decodeDataAltEa mode reg ws)
  else if om = 6#3 then DecodeRes.map' (Instr.bclrDyn f) (decodeDataAltEa mode reg ws)
  else if om = 7#3 then DecodeRes.map' (Instr.bsetDyn f) (decodeDataAltEa mode reg ws)
  else .error .noRow

/-- A static bit instruction: the bit number in the word after the opword, then the operand's words
(R80, R99). -/
def decodeBitStatic (om mode reg : BitVec 3) (ws : List Word) : DecodeRes Instr :=
  match takeByte ws with
  | .error e => .error e
  | .ok (k, ws') =>
    if om = 0#3 then
      if mode = 7#3 ∧ reg = 4#3 then .error .noRow
      else DecodeRes.map' (Instr.btstStatic k) (decodeDataEa .byte mode reg ws')
    else if om = 1#3 then DecodeRes.map' (Instr.bchgStatic k) (decodeDataAltEa mode reg ws')
    else if om = 2#3 then DecodeRes.map' (Instr.bclrStatic k) (decodeDataAltEa mode reg ws')
    else if om = 3#3 then DecodeRes.map' (Instr.bsetStatic k) (decodeDataAltEa mode reg ws')
    else .error .noRow

/-- An immediate instruction of size byte: the immediate, then the operand's words (R80, R105). -/
def decodeImmB (f mode reg : BitVec 3) (ws : List Word) : DecodeRes Instr :=
  match takeByte ws with
  | .error e => .error e
  | .ok (v, ws') =>
    if f = 0#3 then DecodeRes.map' (Instr.oriB v) (decodeDataAltEa mode reg ws')
    else if f = 1#3 then DecodeRes.map' (Instr.andiB v) (decodeDataAltEa mode reg ws')
    else if f = 2#3 then DecodeRes.map' (Instr.subiB v) (decodeDataAltEa mode reg ws')
    else if f = 3#3 then DecodeRes.map' (Instr.addiB v) (decodeDataAltEa mode reg ws')
    else if f = 5#3 then DecodeRes.map' (Instr.eoriB v) (decodeDataAltEa mode reg ws')
    else if f = 6#3 then DecodeRes.map' (Instr.cmpiB v) (decodeDataAltEa mode reg ws')
    else .error .noRow

/-- An immediate instruction of size word: the immediate, then the operand's words (R80, R105). -/
def decodeImmW (f mode reg : BitVec 3) (ws : List Word) : DecodeRes Instr :=
  match takeWord ws with
  | .error e => .error e
  | .ok (v, ws') =>
    if f = 0#3 then DecodeRes.map' (Instr.oriW v) (decodeDataAltEa mode reg ws')
    else if f = 1#3 then DecodeRes.map' (Instr.andiW v) (decodeDataAltEa mode reg ws')
    else if f = 2#3 then DecodeRes.map' (Instr.subiW v) (decodeDataAltEa mode reg ws')
    else if f = 3#3 then DecodeRes.map' (Instr.addiW v) (decodeDataAltEa mode reg ws')
    else if f = 5#3 then DecodeRes.map' (Instr.eoriW v) (decodeDataAltEa mode reg ws')
    else if f = 6#3 then DecodeRes.map' (Instr.cmpiW v) (decodeDataAltEa mode reg ws')
    else .error .noRow

/-- An immediate instruction of size long: the immediate, then the operand's words (R80, R105). -/
def decodeImmL (f mode reg : BitVec 3) (ws : List Word) : DecodeRes Instr :=
  match takeLong ws with
  | .error e => .error e
  | .ok (v, ws') =>
    if f = 0#3 then DecodeRes.map' (Instr.oriL v) (decodeDataAltEa mode reg ws')
    else if f = 1#3 then DecodeRes.map' (Instr.andiL v) (decodeDataAltEa mode reg ws')
    else if f = 2#3 then DecodeRes.map' (Instr.subiL v) (decodeDataAltEa mode reg ws')
    else if f = 3#3 then DecodeRes.map' (Instr.addiL v) (decodeDataAltEa mode reg ws')
    else if f = 5#3 then DecodeRes.map' (Instr.eoriL v) (decodeDataAltEa mode reg ws')
    else if f = 6#3 then DecodeRes.map' (Instr.cmpiL v) (decodeDataAltEa mode reg ws')
    else .error .noRow

/-- Group 0000: bit manipulation and the immediate instructions. -/
def decodeGroup0 (f om mode reg : BitVec 3) (ws : List Word) : DecodeRes Instr :=
  if om = 4#3 ∨ om = 5#3 ∨ om = 6#3 ∨ om = 7#3 then decodeBitDyn f om mode reg ws
  else if f = 4#3 then decodeBitStatic om mode reg ws
  else if om = 0#3 then decodeImmB f mode reg ws
  else if om = 1#3 then decodeImmW f mode reg ws
  else if om = 2#3 then decodeImmL f mode reg ws
  else .error .noRow

/-- Groups 0001, 0010, 0011: MOVE. The destination is written register first, then mode (R83); its
extension words come after the source's (R80). -/
def decodeMoveB (f om mode reg : BitVec 3) (ws : List Word) : DecodeRes Instr :=
  match decodeDataEa .byte mode reg ws with
  | .error e => .error e
  | .ok (src, ws') => DecodeRes.map' (Instr.moveB src) (decodeDataAltEa om f ws')

/-- MOVE.L. -/
def decodeMoveL (f om mode reg : BitVec 3) (ws : List Word) : DecodeRes Instr :=
  match decodeAnyEa .long mode reg ws with
  | .error e => .error e
  | .ok (src, ws') =>
    match decodeDataAltEa om f ws' with
    | .error e => .error e
    | .ok (dst, rest) =>
      if moveRefused src dst then .error .moveSameRegister else .ok (.moveL src dst, rest)

/-- MOVE.W. -/
def decodeMoveW (f om mode reg : BitVec 3) (ws : List Word) : DecodeRes Instr :=
  match decodeAnyEa .word mode reg ws with
  | .error e => .error e
  | .ok (src, ws') =>
    match decodeDataAltEa om f ws' with
    | .error e => .error e
    | .ok (dst, rest) =>
      if moveRefused src dst then .error .moveSameRegister else .ok (.moveW src dst, rest)

/-- Group 0100: one-operand instructions, SWAP, EXT and STOP. -/
def decodeGroup4 (f om mode reg : BitVec 3) (ws : List Word) : DecodeRes Instr :=
  if f = 7#3 ∧ om = 1#3 ∧ mode = 6#3 ∧ reg = 2#3 then DecodeRes.map' Instr.stop (takeWord ws)
  else if f = 4#3 ∧ mode = 0#3 ∧ om = 1#3 then .ok (.swap reg, ws)
  else if f = 4#3 ∧ mode = 0#3 ∧ om = 2#3 then .ok (.extW reg, ws)
  else if f = 4#3 ∧ mode = 0#3 ∧ om = 3#3 then .ok (.extL reg, ws)
  else if f = 1#3 ∧ om = 0#3 then DecodeRes.map' Instr.clrB (decodeDataAltEa mode reg ws)
  else if f = 1#3 ∧ om = 1#3 then DecodeRes.map' Instr.clrW (decodeDataAltEa mode reg ws)
  else if f = 1#3 ∧ om = 2#3 then DecodeRes.map' Instr.clrL (decodeDataAltEa mode reg ws)
  else if f = 2#3 ∧ om = 0#3 then DecodeRes.map' Instr.negB (decodeDataAltEa mode reg ws)
  else if f = 2#3 ∧ om = 1#3 then DecodeRes.map' Instr.negW (decodeDataAltEa mode reg ws)
  else if f = 2#3 ∧ om = 2#3 then DecodeRes.map' Instr.negL (decodeDataAltEa mode reg ws)
  else if f = 3#3 ∧ om = 0#3 then DecodeRes.map' Instr.notB (decodeDataAltEa mode reg ws)
  else if f = 3#3 ∧ om = 1#3 then DecodeRes.map' Instr.notW (decodeDataAltEa mode reg ws)
  else if f = 3#3 ∧ om = 2#3 then DecodeRes.map' Instr.notL (decodeDataAltEa mode reg ws)
  else .error .noRow

/-- Group 0110: BRA and Bcc; condition 0001 is BSR, refused (R106, R239). The displacement is bits 7..0
of the opword or, if they are zero, the next word (R100). -/
def decodeBranch (w : Word) (ws : List Word) : DecodeRes Instr :=
  let d : DecodeRes Disp :=
    if w.setWidth 8 = 0#8 then DecodeRes.map' Disp.long (takeWord ws)
    else .ok (.short (w.setWidth 8), ws)
  let cc := w.extractLsb' 8 4
  if cc = 0#4 then DecodeRes.map' Instr.bra d
  else if cc = 2#4 then DecodeRes.map' Instr.bhi d
  else if cc = 3#4 then DecodeRes.map' Instr.bls d
  else if cc = 4#4 then DecodeRes.map' Instr.bcc d
  else if cc = 5#4 then DecodeRes.map' Instr.bcs d
  else if cc = 6#4 then DecodeRes.map' Instr.bne d
  else if cc = 7#4 then DecodeRes.map' Instr.beq d
  else if cc = 8#4 then DecodeRes.map' Instr.bvc d
  else if cc = 9#4 then DecodeRes.map' Instr.bvs d
  else if cc = 10#4 then DecodeRes.map' Instr.bpl d
  else if cc = 11#4 then DecodeRes.map' Instr.bmi d
  else if cc = 12#4 then DecodeRes.map' Instr.bge d
  else if cc = 13#4 then DecodeRes.map' Instr.blt d
  else if cc = 14#4 then DecodeRes.map' Instr.bgt d
  else if cc = 15#4 then DecodeRes.map' Instr.ble d
  else .error .noRow

/-- Group 1000: OR, DIVU, DIVS. -/
def decodeGroup8 (f om mode reg : BitVec 3) (ws : List Word) : DecodeRes Instr :=
  if om = 0#3 then DecodeRes.map' (fun e => Instr.orBEaDn e f) (decodeDataEa .byte mode reg ws)
  else if om = 1#3 then DecodeRes.map' (fun e => Instr.orWEaDn e f) (decodeDataEa .word mode reg ws)
  else if om = 2#3 then DecodeRes.map' (fun e => Instr.orLEaDn e f) (decodeDataEa .long mode reg ws)
  else if om = 3#3 then DecodeRes.map' (fun e => Instr.divu e f) (decodeDataEa .word mode reg ws)
  else if om = 4#3 then DecodeRes.map' (Instr.orBDnEa f) (decodeMemEa mode reg ws)
  else if om = 5#3 then DecodeRes.map' (Instr.orWDnEa f) (decodeMemEa mode reg ws)
  else if om = 6#3 then DecodeRes.map' (Instr.orLDnEa f) (decodeMemEa mode reg ws)
  else if om = 7#3 then DecodeRes.map' (fun e => Instr.divs e f) (decodeDataEa .word mode reg ws)
  else .error .noRow

/-- Group 1001: SUB. -/
def decodeGroup9 (f om mode reg : BitVec 3) (ws : List Word) : DecodeRes Instr :=
  if om = 0#3 then DecodeRes.map' (fun e => Instr.subBEaDn e f) (decodeDataEa .byte mode reg ws)
  else if om = 1#3 then DecodeRes.map' (fun e => Instr.subWEaDn e f) (decodeAnyEa .word mode reg ws)
  else if om = 2#3 then DecodeRes.map' (fun e => Instr.subLEaDn e f) (decodeAnyEa .long mode reg ws)
  else if om = 4#3 then DecodeRes.map' (Instr.subBDnEa f) (decodeMemEa mode reg ws)
  else if om = 5#3 then DecodeRes.map' (Instr.subWDnEa f) (decodeMemEa mode reg ws)
  else if om = 6#3 then DecodeRes.map' (Instr.subLDnEa f) (decodeMemEa mode reg ws)
  else .error .noRow

/-- Group 1011: CMP, EOR. -/
def decodeGroupB (f om mode reg : BitVec 3) (ws : List Word) : DecodeRes Instr :=
  if om = 0#3 then DecodeRes.map' (fun e => Instr.cmpB e f) (decodeDataEa .byte mode reg ws)
  else if om = 1#3 then DecodeRes.map' (fun e => Instr.cmpW e f) (decodeAnyEa .word mode reg ws)
  else if om = 2#3 then DecodeRes.map' (fun e => Instr.cmpL e f) (decodeAnyEa .long mode reg ws)
  else if om = 4#3 then DecodeRes.map' (Instr.eorB f) (decodeDataAltEa mode reg ws)
  else if om = 5#3 then DecodeRes.map' (Instr.eorW f) (decodeDataAltEa mode reg ws)
  else if om = 6#3 then DecodeRes.map' (Instr.eorL f) (decodeDataAltEa mode reg ws)
  else .error .noRow

/-- Group 1100: AND, MULU, MULS, EXG. An EXG is the pattern of `AND Dn,<ea>` with mode 000 or 001
(R106). -/
def decodeGroupC (f om mode reg : BitVec 3) (ws : List Word) : DecodeRes Instr :=
  if om = 5#3 ∧ mode = 0#3 then .ok (.exgDD f reg, ws)
  else if om = 5#3 ∧ mode = 1#3 then .ok (.exgAA f reg, ws)
  else if om = 6#3 ∧ mode = 1#3 then .ok (.exgDA f reg, ws)
  else if om = 0#3 then DecodeRes.map' (fun e => Instr.andBEaDn e f) (decodeDataEa .byte mode reg ws)
  else if om = 1#3 then DecodeRes.map' (fun e => Instr.andWEaDn e f) (decodeDataEa .word mode reg ws)
  else if om = 2#3 then DecodeRes.map' (fun e => Instr.andLEaDn e f) (decodeDataEa .long mode reg ws)
  else if om = 3#3 then DecodeRes.map' (fun e => Instr.mulu e f) (decodeDataEa .word mode reg ws)
  else if om = 4#3 then DecodeRes.map' (Instr.andBDnEa f) (decodeMemEa mode reg ws)
  else if om = 5#3 then DecodeRes.map' (Instr.andWDnEa f) (decodeMemEa mode reg ws)
  else if om = 6#3 then DecodeRes.map' (Instr.andLDnEa f) (decodeMemEa mode reg ws)
  else if om = 7#3 then DecodeRes.map' (fun e => Instr.muls e f) (decodeDataEa .word mode reg ws)
  else .error .noRow

/-- Group 1101: ADD. -/
def decodeGroupD (f om mode reg : BitVec 3) (ws : List Word) : DecodeRes Instr :=
  if om = 0#3 then DecodeRes.map' (fun e => Instr.addBEaDn e f) (decodeDataEa .byte mode reg ws)
  else if om = 1#3 then DecodeRes.map' (fun e => Instr.addWEaDn e f) (decodeAnyEa .word mode reg ws)
  else if om = 2#3 then DecodeRes.map' (fun e => Instr.addLEaDn e f) (decodeAnyEa .long mode reg ws)
  else if om = 4#3 then DecodeRes.map' (Instr.addBDnEa f) (decodeMemEa mode reg ws)
  else if om = 5#3 then DecodeRes.map' (Instr.addWDnEa f) (decodeMemEa mode reg ws)
  else if om = 6#3 then DecodeRes.map' (Instr.addLDnEa f) (decodeMemEa mode reg ws)
  else .error .noRow

/-- Group 1110: shifts and rotates on a data register. Bits 8..6 are direction and size, bits 5..3
the count form and the type (R83); size 11 is a memory shift, refused (R106). -/
def decodeShift (f om mode reg : BitVec 3) (ws : List Word) : DecodeRes Instr :=
  if om = 0#3 then
    if mode = 0#3 then .ok (.asrBImm f reg, ws)
    else if mode = 1#3 then .ok (.lsrBImm f reg, ws)
    else if mode = 2#3 then .ok (.roxrBImm f reg, ws)
    else if mode = 3#3 then .ok (.rorBImm f reg, ws)
    else if mode = 4#3 then .ok (.asrBReg f reg, ws)
    else if mode = 5#3 then .ok (.lsrBReg f reg, ws)
    else if mode = 6#3 then .ok (.roxrBReg f reg, ws)
    else if mode = 7#3 then .ok (.rorBReg f reg, ws)
    else .error .noRow
  else if om = 1#3 then
    if mode = 0#3 then .ok (.asrWImm f reg, ws)
    else if mode = 1#3 then .ok (.lsrWImm f reg, ws)
    else if mode = 2#3 then .ok (.roxrWImm f reg, ws)
    else if mode = 3#3 then .ok (.rorWImm f reg, ws)
    else if mode = 4#3 then .ok (.asrWReg f reg, ws)
    else if mode = 5#3 then .ok (.lsrWReg f reg, ws)
    else if mode = 6#3 then .ok (.roxrWReg f reg, ws)
    else if mode = 7#3 then .ok (.rorWReg f reg, ws)
    else .error .noRow
  else if om = 2#3 then
    if mode = 0#3 then .ok (.asrLImm f reg, ws)
    else if mode = 1#3 then .ok (.lsrLImm f reg, ws)
    else if mode = 2#3 then .ok (.roxrLImm f reg, ws)
    else if mode = 3#3 then .ok (.rorLImm f reg, ws)
    else if mode = 4#3 then .ok (.asrLReg f reg, ws)
    else if mode = 5#3 then .ok (.lsrLReg f reg, ws)
    else if mode = 6#3 then .ok (.roxrLReg f reg, ws)
    else if mode = 7#3 then .ok (.rorLReg f reg, ws)
    else .error .noRow
  else if om = 4#3 then
    if mode = 0#3 then .ok (.aslBImm f reg, ws)
    else if mode = 1#3 then .ok (.lslBImm f reg, ws)
    else if mode = 2#3 then .ok (.roxlBImm f reg, ws)
    else if mode = 3#3 then .ok (.rolBImm f reg, ws)
    else if mode = 4#3 then .ok (.aslBReg f reg, ws)
    else if mode = 5#3 then .ok (.lslBReg f reg, ws)
    else if mode = 6#3 then .ok (.roxlBReg f reg, ws)
    else if mode = 7#3 then .ok (.rolBReg f reg, ws)
    else .error .noRow
  else if om = 5#3 then
    if mode = 0#3 then .ok (.aslWImm f reg, ws)
    else if mode = 1#3 then .ok (.lslWImm f reg, ws)
    else if mode = 2#3 then .ok (.roxlWImm f reg, ws)
    else if mode = 3#3 then .ok (.rolWImm f reg, ws)
    else if mode = 4#3 then .ok (.aslWReg f reg, ws)
    else if mode = 5#3 then .ok (.lslWReg f reg, ws)
    else if mode = 6#3 then .ok (.roxlWReg f reg, ws)
    else if mode = 7#3 then .ok (.rolWReg f reg, ws)
    else .error .noRow
  else if om = 6#3 then
    if mode = 0#3 then .ok (.aslLImm f reg, ws)
    else if mode = 1#3 then .ok (.lslLImm f reg, ws)
    else if mode = 2#3 then .ok (.roxlLImm f reg, ws)
    else if mode = 3#3 then .ok (.rolLImm f reg, ws)
    else if mode = 4#3 then .ok (.aslLReg f reg, ws)
    else if mode = 5#3 then .ok (.lslLReg f reg, ws)
    else if mode = 6#3 then .ok (.roxlLReg f reg, ws)
    else if mode = 7#3 then .ok (.rolLReg f reg, ws)
    else .error .noRow
  else .error .noRow

/-- The decoder on an opword and the words after it (R112). -/
def decodeOp (w : Word) (ws : List Word) : DecodeRes Instr :=
  let g := w.extractLsb' 12 4
  let f := w.extractLsb' 9 3
  let om := w.extractLsb' 6 3
  let mode := w.extractLsb' 3 3
  let reg := w.extractLsb' 0 3
  if g = 0x0#4 then decodeGroup0 f om mode reg ws
  else if g = 0x1#4 then decodeMoveB f om mode reg ws
  else if g = 0x2#4 then decodeMoveL f om mode reg ws
  else if g = 0x3#4 then decodeMoveW f om mode reg ws
  else if g = 0x4#4 then decodeGroup4 f om mode reg ws
  else if g = 0x6#4 then decodeBranch w ws
  else if g = 0x8#4 then decodeGroup8 f om mode reg ws
  else if g = 0x9#4 then decodeGroup9 f om mode reg ws
  else if g = 0xb#4 then decodeGroupB f om mode reg ws
  else if g = 0xc#4 then decodeGroupC f om mode reg ws
  else if g = 0xd#4 then decodeGroupD f om mode reg ws
  else if g = 0xe#4 then decodeShift f om mode reg ws
  else .error .noRow

/-- The decoder: the instruction at the head of a list of words, and the words after it. -/
def decode : List Word → DecodeRes Instr
  | [] => .error .truncated
  | w :: ws => decodeOp w ws

/-! ## The encoder -/

/-- An opword from its five fields (R83). -/
def opword (g : BitVec 4) (f om mode reg : BitVec 3) : Word :=
  (((g ++ f) ++ om) ++ mode) ++ reg

/-- The brief extension word (R95). -/
def IndexExt.word (ix : IndexExt) : Word :=
  (((BitVec.ofBool ix.isAddr ++ ix.xn) ++ BitVec.ofBool ix.long) ++ 0#3) ++ ix.d8

/-- A long word as two words, the high word first (R92). -/
def longWords (v : Long) : List Word := [v.extractLsb' 16 16, v.extractLsb' 0 16]

/-- The extension words of `#imm`; an assembler writes a byte's high byte as zero (R92). -/
def immWords (sz : Size) (v : Long) : List Word :=
  match sz with
  | .byte => [(v.setWidth 8).setWidth 16]
  | .word => [v.setWidth 16]
  | .long => longWords v

/-- Mode field (R91). -/
def MemEa.mode : MemEa → BitVec 3
  | .ind _ => 2#3
  | .postInc _ => 3#3
  | .preDec _ => 4#3
  | .disp _ _ => 5#3
  | .index _ _ => 6#3
  | .absW _ => 7#3
  | .absL _ => 7#3

/-- Register field (R91). -/
def MemEa.reg : MemEa → BitVec 3
  | .ind r => r
  | .postInc r => r
  | .preDec r => r
  | .disp r _ => r
  | .index r _ => r
  | .absW _ => 0#3
  | .absL _ => 1#3

/-- Extension words (R92). -/
def MemEa.words : MemEa → List Word
  | .ind _ => []
  | .postInc _ => []
  | .preDec _ => []
  | .disp _ d => [d]
  | .index _ ix => [ix.word]
  | .absW w => [w]
  | .absL a => longWords a

/-- Mode field (R91). -/
def DataAltEa.mode : DataAltEa → BitVec 3
  | .dn _ => 0#3
  | .mem m => m.mode

/-- Register field (R91). -/
def DataAltEa.reg : DataAltEa → BitVec 3
  | .dn r => r
  | .mem m => m.reg

/-- Extension words (R92). -/
def DataAltEa.words : DataAltEa → List Word
  | .dn _ => []
  | .mem m => m.words

/-- Mode field (R91). -/
def DataEa.mode : DataEa → BitVec 3
  | .alt e => e.mode
  | .pcDisp _ => 7#3
  | .pcIndex _ => 7#3
  | .imm _ => 7#3

/-- Register field (R91). -/
def DataEa.reg : DataEa → BitVec 3
  | .alt e => e.reg
  | .pcDisp _ => 2#3
  | .pcIndex _ => 3#3
  | .imm _ => 4#3

/-- Extension words at an operation size (R92). -/
def DataEa.words (sz : Size) : DataEa → List Word
  | .alt e => e.words
  | .pcDisp d => [d]
  | .pcIndex ix => [ix.word]
  | .imm v => immWords sz v

/-- Mode field (R91). -/
def AnyEa.mode : AnyEa → BitVec 3
  | .an _ => 1#3
  | .data e => e.mode

/-- Register field (R91). -/
def AnyEa.reg : AnyEa → BitVec 3
  | .an r => r
  | .data e => e.reg

/-- Extension words at an operation size (R92). -/
def AnyEa.words (sz : Size) : AnyEa → List Word
  | .an _ => []
  | .data e => e.words sz

/-- The opword of a branch (R83, R100). -/
def branchOp (cc : BitVec 4) : Disp → Word
  | .short d => (0x6#4 ++ cc) ++ d
  | .long _ => (0x6#4 ++ cc) ++ 0#8

/-- The extension word of a branch (R100). -/
def Disp.words : Disp → List Word
  | .short _ => []
  | .long d => [d]

/-- The words of an instruction (R80, R105). -/
def encode : Instr → List Word
  | .addBEaDn src dn => opword 0xd#4 dn 0#3 src.mode src.reg :: src.words .byte
  | .addBDnEa dn dst => opword 0xd#4 dn 4#3 dst.mode dst.reg :: dst.words
  | .addWEaDn src dn => opword 0xd#4 dn 1#3 src.mode src.reg :: src.words .word
  | .addWDnEa dn dst => opword 0xd#4 dn 5#3 dst.mode dst.reg :: dst.words
  | .addLEaDn src dn => opword 0xd#4 dn 2#3 src.mode src.reg :: src.words .long
  | .addLDnEa dn dst => opword 0xd#4 dn 6#3 dst.mode dst.reg :: dst.words
  | .subBEaDn src dn => opword 0x9#4 dn 0#3 src.mode src.reg :: src.words .byte
  | .subBDnEa dn dst => opword 0x9#4 dn 4#3 dst.mode dst.reg :: dst.words
  | .subWEaDn src dn => opword 0x9#4 dn 1#3 src.mode src.reg :: src.words .word
  | .subWDnEa dn dst => opword 0x9#4 dn 5#3 dst.mode dst.reg :: dst.words
  | .subLEaDn src dn => opword 0x9#4 dn 2#3 src.mode src.reg :: src.words .long
  | .subLDnEa dn dst => opword 0x9#4 dn 6#3 dst.mode dst.reg :: dst.words
  | .andBEaDn src dn => opword 0xc#4 dn 0#3 src.mode src.reg :: src.words .byte
  | .andBDnEa dn dst => opword 0xc#4 dn 4#3 dst.mode dst.reg :: dst.words
  | .andWEaDn src dn => opword 0xc#4 dn 1#3 src.mode src.reg :: src.words .word
  | .andWDnEa dn dst => opword 0xc#4 dn 5#3 dst.mode dst.reg :: dst.words
  | .andLEaDn src dn => opword 0xc#4 dn 2#3 src.mode src.reg :: src.words .long
  | .andLDnEa dn dst => opword 0xc#4 dn 6#3 dst.mode dst.reg :: dst.words
  | .orBEaDn src dn => opword 0x8#4 dn 0#3 src.mode src.reg :: src.words .byte
  | .orBDnEa dn dst => opword 0x8#4 dn 4#3 dst.mode dst.reg :: dst.words
  | .orWEaDn src dn => opword 0x8#4 dn 1#3 src.mode src.reg :: src.words .word
  | .orWDnEa dn dst => opword 0x8#4 dn 5#3 dst.mode dst.reg :: dst.words
  | .orLEaDn src dn => opword 0x8#4 dn 2#3 src.mode src.reg :: src.words .long
  | .orLDnEa dn dst => opword 0x8#4 dn 6#3 dst.mode dst.reg :: dst.words
  | .eorB dn dst => opword 0xb#4 dn 4#3 dst.mode dst.reg :: dst.words
  | .eorW dn dst => opword 0xb#4 dn 5#3 dst.mode dst.reg :: dst.words
  | .eorL dn dst => opword 0xb#4 dn 6#3 dst.mode dst.reg :: dst.words
  | .cmpB src dn => opword 0xb#4 dn 0#3 src.mode src.reg :: src.words .byte
  | .cmpW src dn => opword 0xb#4 dn 1#3 src.mode src.reg :: src.words .word
  | .cmpL src dn => opword 0xb#4 dn 2#3 src.mode src.reg :: src.words .long
  | .mulu src dn => opword 0xc#4 dn 3#3 src.mode src.reg :: src.words .word
  | .muls src dn => opword 0xc#4 dn 7#3 src.mode src.reg :: src.words .word
  | .divu src dn => opword 0x8#4 dn 3#3 src.mode src.reg :: src.words .word
  | .divs src dn => opword 0x8#4 dn 7#3 src.mode src.reg :: src.words .word
  | .extW dn => [opword 0x4#4 4#3 2#3 0#3 dn]
  | .extL dn => [opword 0x4#4 4#3 3#3 0#3 dn]
  | .negB dst => opword 0x4#4 2#3 0#3 dst.mode dst.reg :: dst.words
  | .negW dst => opword 0x4#4 2#3 1#3 dst.mode dst.reg :: dst.words
  | .negL dst => opword 0x4#4 2#3 2#3 dst.mode dst.reg :: dst.words
  | .notB dst => opword 0x4#4 3#3 0#3 dst.mode dst.reg :: dst.words
  | .notW dst => opword 0x4#4 3#3 1#3 dst.mode dst.reg :: dst.words
  | .notL dst => opword 0x4#4 3#3 2#3 dst.mode dst.reg :: dst.words
  | .clrB dst => opword 0x4#4 1#3 0#3 dst.mode dst.reg :: dst.words
  | .clrW dst => opword 0x4#4 1#3 1#3 dst.mode dst.reg :: dst.words
  | .clrL dst => opword 0x4#4 1#3 2#3 dst.mode dst.reg :: dst.words
  | .swap dn => [opword 0x4#4 4#3 1#3 0#3 dn]
  | .exgDD dx dy => [opword 0xc#4 dx 5#3 0#3 dy]
  | .exgAA ax ay => [opword 0xc#4 ax 5#3 1#3 ay]
  | .exgDA dx ay => [opword 0xc#4 dx 6#3 1#3 ay]
  | .asrBImm ccc dy => [opword 0xe#4 ccc 0#3 0#3 dy]
  | .asrBReg dx dy => [opword 0xe#4 dx 0#3 4#3 dy]
  | .asrWImm ccc dy => [opword 0xe#4 ccc 1#3 0#3 dy]
  | .asrWReg dx dy => [opword 0xe#4 dx 1#3 4#3 dy]
  | .asrLImm ccc dy => [opword 0xe#4 ccc 2#3 0#3 dy]
  | .asrLReg dx dy => [opword 0xe#4 dx 2#3 4#3 dy]
  | .aslBImm ccc dy => [opword 0xe#4 ccc 4#3 0#3 dy]
  | .aslBReg dx dy => [opword 0xe#4 dx 4#3 4#3 dy]
  | .aslWImm ccc dy => [opword 0xe#4 ccc 5#3 0#3 dy]
  | .aslWReg dx dy => [opword 0xe#4 dx 5#3 4#3 dy]
  | .aslLImm ccc dy => [opword 0xe#4 ccc 6#3 0#3 dy]
  | .aslLReg dx dy => [opword 0xe#4 dx 6#3 4#3 dy]
  | .lsrBImm ccc dy => [opword 0xe#4 ccc 0#3 1#3 dy]
  | .lsrBReg dx dy => [opword 0xe#4 dx 0#3 5#3 dy]
  | .lsrWImm ccc dy => [opword 0xe#4 ccc 1#3 1#3 dy]
  | .lsrWReg dx dy => [opword 0xe#4 dx 1#3 5#3 dy]
  | .lsrLImm ccc dy => [opword 0xe#4 ccc 2#3 1#3 dy]
  | .lsrLReg dx dy => [opword 0xe#4 dx 2#3 5#3 dy]
  | .lslBImm ccc dy => [opword 0xe#4 ccc 4#3 1#3 dy]
  | .lslBReg dx dy => [opword 0xe#4 dx 4#3 5#3 dy]
  | .lslWImm ccc dy => [opword 0xe#4 ccc 5#3 1#3 dy]
  | .lslWReg dx dy => [opword 0xe#4 dx 5#3 5#3 dy]
  | .lslLImm ccc dy => [opword 0xe#4 ccc 6#3 1#3 dy]
  | .lslLReg dx dy => [opword 0xe#4 dx 6#3 5#3 dy]
  | .roxrBImm ccc dy => [opword 0xe#4 ccc 0#3 2#3 dy]
  | .roxrBReg dx dy => [opword 0xe#4 dx 0#3 6#3 dy]
  | .roxrWImm ccc dy => [opword 0xe#4 ccc 1#3 2#3 dy]
  | .roxrWReg dx dy => [opword 0xe#4 dx 1#3 6#3 dy]
  | .roxrLImm ccc dy => [opword 0xe#4 ccc 2#3 2#3 dy]
  | .roxrLReg dx dy => [opword 0xe#4 dx 2#3 6#3 dy]
  | .roxlBImm ccc dy => [opword 0xe#4 ccc 4#3 2#3 dy]
  | .roxlBReg dx dy => [opword 0xe#4 dx 4#3 6#3 dy]
  | .roxlWImm ccc dy => [opword 0xe#4 ccc 5#3 2#3 dy]
  | .roxlWReg dx dy => [opword 0xe#4 dx 5#3 6#3 dy]
  | .roxlLImm ccc dy => [opword 0xe#4 ccc 6#3 2#3 dy]
  | .roxlLReg dx dy => [opword 0xe#4 dx 6#3 6#3 dy]
  | .rorBImm ccc dy => [opword 0xe#4 ccc 0#3 3#3 dy]
  | .rorBReg dx dy => [opword 0xe#4 dx 0#3 7#3 dy]
  | .rorWImm ccc dy => [opword 0xe#4 ccc 1#3 3#3 dy]
  | .rorWReg dx dy => [opword 0xe#4 dx 1#3 7#3 dy]
  | .rorLImm ccc dy => [opword 0xe#4 ccc 2#3 3#3 dy]
  | .rorLReg dx dy => [opword 0xe#4 dx 2#3 7#3 dy]
  | .rolBImm ccc dy => [opword 0xe#4 ccc 4#3 3#3 dy]
  | .rolBReg dx dy => [opword 0xe#4 dx 4#3 7#3 dy]
  | .rolWImm ccc dy => [opword 0xe#4 ccc 5#3 3#3 dy]
  | .rolWReg dx dy => [opword 0xe#4 dx 5#3 7#3 dy]
  | .rolLImm ccc dy => [opword 0xe#4 ccc 6#3 3#3 dy]
  | .rolLReg dx dy => [opword 0xe#4 dx 6#3 7#3 dy]
  | .btstDyn dn src => opword 0x0#4 dn 4#3 src.mode src.reg :: src.words .byte
  | .btstStatic k src => opword 0x0#4 4#3 0#3 src.mode src.reg :: k.setWidth 16 :: src.words .byte
  | .bchgDyn dn dst => opword 0x0#4 dn 5#3 dst.mode dst.reg :: dst.words
  | .bchgStatic k dst => opword 0x0#4 4#3 1#3 dst.mode dst.reg :: k.setWidth 16 :: dst.words
  | .bclrDyn dn dst => opword 0x0#4 dn 6#3 dst.mode dst.reg :: dst.words
  | .bclrStatic k dst => opword 0x0#4 4#3 2#3 dst.mode dst.reg :: k.setWidth 16 :: dst.words
  | .bsetDyn dn dst => opword 0x0#4 dn 7#3 dst.mode dst.reg :: dst.words
  | .bsetStatic k dst => opword 0x0#4 4#3 3#3 dst.mode dst.reg :: k.setWidth 16 :: dst.words
  | .oriB imm dst => opword 0x0#4 0#3 0#3 dst.mode dst.reg :: imm.setWidth 16 :: dst.words
  | .oriW imm dst => opword 0x0#4 0#3 1#3 dst.mode dst.reg :: imm :: dst.words
  | .oriL imm dst => opword 0x0#4 0#3 2#3 dst.mode dst.reg :: (longWords imm ++ dst.words)
  | .andiB imm dst => opword 0x0#4 1#3 0#3 dst.mode dst.reg :: imm.setWidth 16 :: dst.words
  | .andiW imm dst => opword 0x0#4 1#3 1#3 dst.mode dst.reg :: imm :: dst.words
  | .andiL imm dst => opword 0x0#4 1#3 2#3 dst.mode dst.reg :: (longWords imm ++ dst.words)
  | .subiB imm dst => opword 0x0#4 2#3 0#3 dst.mode dst.reg :: imm.setWidth 16 :: dst.words
  | .subiW imm dst => opword 0x0#4 2#3 1#3 dst.mode dst.reg :: imm :: dst.words
  | .subiL imm dst => opword 0x0#4 2#3 2#3 dst.mode dst.reg :: (longWords imm ++ dst.words)
  | .addiB imm dst => opword 0x0#4 3#3 0#3 dst.mode dst.reg :: imm.setWidth 16 :: dst.words
  | .addiW imm dst => opword 0x0#4 3#3 1#3 dst.mode dst.reg :: imm :: dst.words
  | .addiL imm dst => opword 0x0#4 3#3 2#3 dst.mode dst.reg :: (longWords imm ++ dst.words)
  | .eoriB imm dst => opword 0x0#4 5#3 0#3 dst.mode dst.reg :: imm.setWidth 16 :: dst.words
  | .eoriW imm dst => opword 0x0#4 5#3 1#3 dst.mode dst.reg :: imm :: dst.words
  | .eoriL imm dst => opword 0x0#4 5#3 2#3 dst.mode dst.reg :: (longWords imm ++ dst.words)
  | .cmpiB imm dst => opword 0x0#4 6#3 0#3 dst.mode dst.reg :: imm.setWidth 16 :: dst.words
  | .cmpiW imm dst => opword 0x0#4 6#3 1#3 dst.mode dst.reg :: imm :: dst.words
  | .cmpiL imm dst => opword 0x0#4 6#3 2#3 dst.mode dst.reg :: (longWords imm ++ dst.words)
  | .moveB src dst => opword 0x1#4 dst.reg dst.mode src.mode src.reg :: (src.words .byte ++ dst.words)
  | .moveL src dst => opword 0x2#4 dst.reg dst.mode src.mode src.reg :: (src.words .long ++ dst.words)
  | .moveW src dst => opword 0x3#4 dst.reg dst.mode src.mode src.reg :: (src.words .word ++ dst.words)
  | .bra disp => branchOp 0#4 disp :: disp.words
  | .bhi disp => branchOp 2#4 disp :: disp.words
  | .bls disp => branchOp 3#4 disp :: disp.words
  | .bcc disp => branchOp 4#4 disp :: disp.words
  | .bcs disp => branchOp 5#4 disp :: disp.words
  | .bne disp => branchOp 6#4 disp :: disp.words
  | .beq disp => branchOp 7#4 disp :: disp.words
  | .bvc disp => branchOp 8#4 disp :: disp.words
  | .bvs disp => branchOp 9#4 disp :: disp.words
  | .bpl disp => branchOp 10#4 disp :: disp.words
  | .bmi disp => branchOp 11#4 disp :: disp.words
  | .bge disp => branchOp 12#4 disp :: disp.words
  | .blt disp => branchOp 13#4 disp :: disp.words
  | .bgt disp => branchOp 14#4 disp :: disp.words
  | .ble disp => branchOp 15#4 disp :: disp.words
  | .stop imm => [0x4E72#16, imm]

/-- The opword of an instruction: the first word of its encoding. -/
def Instr.opword (i : Instr) : Word := (encode i).headD 0#16

/-- How many extension words an instruction has (R80). -/
def Instr.extWords (i : Instr) : Nat := (encode i).length - 1

/-! ## The interface to the opcode table -/

/-- The five words of an instruction of `nbits` bits whose bits are `w`, the first word in bits 15..0;
every bit above `nbits` is 0. -/
def tableWords (nbits w : Nat) : List Word :=
  let v := w % 2 ^ nbits
  [BitVec.ofNat 16 v, BitVec.ofNat 16 (v / 2 ^ 16), BitVec.ofNat 16 (v / 2 ^ 32),
    BitVec.ofNat 16 (v / 2 ^ 48), BitVec.ofNat 16 (v / 2 ^ 64)]

/-- The two bytes of a word as they lie in memory, the high byte first (R51). -/
def wordBytes (w : Word) : List Byte := [w.extractLsb' 8 8, w.extractLsb' 0 8]

/-- Words from bytes, the high byte first (R51). -/
def bytesWords : List Byte → List Word
  | hi :: lo :: rest => (hi ++ lo) :: bytesWords rest
  | _ => []

/-- The instruction the decoder reads from an opcode-table word laid out in memory order. -/
def decodeTableWord (nbits w : Nat) : Option Instr :=
  match decode (bytesWords ((tableWords nbits w).flatMap wordBytes)) with
  | .ok (i, _) => some i
  | .error _ => none

end Sys2Proof
end

