-- ==== Sys2Proof/Machine/Move.lean ====
section
/-! DEFINITION. MOVE and CLR (R230, R231). -/

namespace Sys2Proof.Machine

/-- MOVE of word and long size from any source. The form without a meaning is refused with
IllegalInstruction (R94, D20); the decoder refuses it before, so a run never gets here with it. -/
def moveAny (sz : Size) (op : Word) (src : AnyEa) (dst : DataAltEa) : M Unit :=
  if moveRefused src dst then raise (.illegalInstruction op)
  else moveEa sz (readAny sz src) dst

/-- `CLR.B`: CLR byte (R231). -/
def execClrB (dst : DataAltEa) (s : State) :
    Host.Outcome State Fault Refusal :=
  execute (clearEa .byte dst) s

/-- `CLR.W`: CLR word (R231). -/
def execClrW (dst : DataAltEa) (s : State) :
    Host.Outcome State Fault Refusal :=
  execute (clearEa .word dst) s

/-- `CLR.L`: CLR long (R231). -/
def execClrL (dst : DataAltEa) (s : State) :
    Host.Outcome State Fault Refusal :=
  execute (clearEa .long dst) s

/-- `MOVE.B`: byte (R230). -/
def execMoveB (src : DataEa) (dst : DataAltEa) (s : State) :
    Host.Outcome State Fault Refusal :=
  execute (moveEa .byte (readData .byte src) dst) s

/-- `MOVE.L`: long (R230). -/
def execMoveL (src : AnyEa) (dst : DataAltEa) (s : State) :
    Host.Outcome State Fault Refusal :=
  execute (moveAny .long (Instr.opword (.moveL src dst)) src dst) s

/-- `MOVE.W`: word (R230). -/
def execMoveW (src : AnyEa) (dst : DataAltEa) (s : State) :
    Host.Outcome State Fault Refusal :=
  execute (moveAny .word (Instr.opword (.moveW src dst)) src dst) s

end Sys2Proof.Machine
end

