-- ==== Sys2Proof/Machine/MulDiv.lean ====
section
/-! DEFINITION. EXT, MULU, MULS, DIVU and DIVS (R142 to R147). -/

namespace Sys2Proof.Machine


/-- EXT.W on a register: the low byte sign-extended to the low word, the upper word kept; N and Z
from the low word (R142). -/
def extendWord (r : Reg) : M Unit := do
  let b ← readD .byte r
  let k ← readCcr
  writeD .word r (b.signExtend 16)
  writeCcr (logicCcr (b.signExtend 16) k)

/-- EXT.L on a register: the low word sign-extended to 32 bits (R143). -/
def extendLong (r : Reg) : M Unit := do
  let w ← readD .word r
  setLongNZ r (w.signExtend 32)

/-- The 32-bit product of two unsigned words (R129, R144). -/
def unsignedProduct (a b : Word) : Long := BitVec.ofNat 32 (a.toNat * b.toNat)

/-- The 32-bit product of two signed words (R129, R145). -/
def signedProduct (a b : Word) : Long := BitVec.ofInt 32 (a.toInt * b.toInt)

/-- The frame of the multiplies: the word at `<ea>` by the low word of `Dn`, the product in all of
`Dn` (R129, R144, R145). -/
def multiplyDn (product : Word → Word → Long) (src : M Word) (r : Reg) : M Unit := do
  let a ← src
  let b ← readD .word r
  setLongNZ r (product a b)

/-- The unsigned quotient and remainder of `n` by `m`, or `none` when the quotient does not fit 16 bits
(R130, R146). -/
def unsignedDivide (n : Long) (m : Word) : Option (Word × Word) :=
  let q := n.toNat / m.toNat
  let rem := n.toNat - q * m.toNat
  if 65535 < q then none else some (BitVec.ofNat 16 q, BitVec.ofNat 16 rem)

/-- The signed quotient, rounded toward zero, and remainder of `n` by `m`, or `none` when the quotient
does not fit 16 bits (R130, R147). -/
def signedDivide (n : Long) (m : Word) : Option (Word × Word) :=
  let q := n.toInt.tdiv m.toInt
  let rem := n.toInt - q * m.toInt
  if q < -32768 ∨ 32767 < q then none else some (BitVec.ofInt 16 q, BitVec.ofInt 16 rem)

/-- The frame of the divides. A zero divisor raises DivideByZero before anything is written (R261). On
overflow `Dn` keeps its value (R146, D18; log 14), V is set, C cleared, and N and Z are free bits (U2;
log 13). Otherwise the remainder goes to the upper and the quotient to the lower word (R130). -/
def divideDn (divide : Long → Word → Option (Word × Word)) (src : M Word) (r : Reg) : M Unit := do
  let m ← src
  let n ← readD .long r
  let k ← readCcr
  if m = 0#16 then raise .divideByZero
  else
    match divide n m with
    | none => do
      let freeN ← drawBit
      let freeZ ← drawBit
      writeCcr { x := k.x, n := freeN, z := freeZ, v := true, c := false }
    | some (q, rem) => do
      writeDLong r (rem ++ q)
      writeCcr { x := k.x, n := q.msb, z := decide (q = 0#16), v := false, c := false }

/-- `MULU.W`: (R144). -/
def execMulu (src : DataEa) (dn : Reg) (s : State) :
    Host.Outcome State Fault Refusal :=
  execute (multiplyDn unsignedProduct (readData .word src) dn) s

/-- `MULS.W`: (R145). -/
def execMuls (src : DataEa) (dn : Reg) (s : State) :
    Host.Outcome State Fault Refusal :=
  execute (multiplyDn signedProduct (readData .word src) dn) s

/-- `DIVU.W`: (R146). -/
def execDivu (src : DataEa) (dn : Reg) (s : State) :
    Host.Outcome State Fault Refusal :=
  execute (divideDn unsignedDivide (readData .word src) dn) s

/-- `DIVS.W`: (R147). -/
def execDivs (src : DataEa) (dn : Reg) (s : State) :
    Host.Outcome State Fault Refusal :=
  execute (divideDn signedDivide (readData .word src) dn) s

/-- `EXT.W`: sign extension (R142). -/
def execExtW (dn : Reg) (s : State) :
    Host.Outcome State Fault Refusal :=
  execute (extendWord dn) s

/-- `EXT.L`: sign extension (R143). -/
def execExtL (dn : Reg) (s : State) :
    Host.Outcome State Fault Refusal :=
  execute (extendLong dn) s

end Sys2Proof.Machine
end

