-- ==== Sys2Proof/Machine/Shift.lean ====
section
/-! DEFINITION. The shifts and rotates ASL, ASR, LSL, LSR, ROL, ROR, ROXL, ROXR on a data register
(R180 to R190): the common frame of R189 over a one-bit step. -/

namespace Sys2Proof.Machine

/-- The eight operations. -/
inductive ShiftOp where
  | asl
  | asr
  | lsl
  | lsr
  | rol
  | ror
  | roxl
  | roxr
deriving DecidableEq, Repr

/-- The one-bit step: the new value and the bit that moved out (the Step lines of R180 to R187). -/
def shiftStep {n : Nat} (op : ShiftOp) (v : BitVec n) (x : Bool) : BitVec n × Bool :=
  match op with
  | .asl => (v <<< 1, v.msb)
  | .asr => (v.sshiftRight 1, v.getLsbD 0)
  | .lsl => (v <<< 1, v.msb)
  | .lsr => (v >>> 1, v.getLsbD 0)
  | .rol => ((v <<< 1) ||| (BitVec.ofBool v.msb).setWidth n, v.msb)
  | .ror => ((v >>> 1) ||| ((BitVec.ofBool (v.getLsbD 0)).setWidth n <<< (n - 1)), v.getLsbD 0)
  | .roxl => ((v <<< 1) ||| (BitVec.ofBool x).setWidth n, v.msb)
  | .roxr => ((v >>> 1) ||| ((BitVec.ofBool x).setWidth n <<< (n - 1)), v.getLsbD 0)

/-- Whether the operation writes X: all but ROL and ROR (R32, R184). -/
def ShiftOp.writesX : ShiftOp → Bool
  | .rol => false
  | .ror => false
  | .asl => true
  | .asr => true
  | .lsl => true
  | .lsr => true
  | .roxl => true
  | .roxr => true

/-- C for a count of zero: X for ROXL and ROXR, cleared otherwise (R189). -/
def ShiftOp.zeroCountC (op : ShiftOp) (x : Bool) : Bool :=
  match op with
  | .roxl => x
  | .roxr => x
  | .asl => false
  | .asr => false
  | .lsl => false
  | .lsr => false
  | .rol => false
  | .ror => false

/-- What the steps carry along: the value, C, X, and whether the most significant bit changed. -/
structure ShiftAcc (n : Nat) where
  v : BitVec n
  c : Bool
  x : Bool
  msbChanged : Bool
deriving DecidableEq, Repr

/-- One step of the loop of R189. -/
def shiftOnce {n : Nat} (op : ShiftOp) (t : ShiftAcc n) : ShiftAcc n :=
  let r := shiftStep op t.v t.x
  { v := r.1
    c := r.2
    x := if op.writesX then r.2 else t.x
    msbChanged := t.msbChanged || (t.v.msb != r.1.msb) }

/-- `repeat cnt times` (R189). -/
def shiftLoop {n : Nat} (op : ShiftOp) : Nat → ShiftAcc n → ShiftAcc n
  | 0, t => t
  | cnt + 1, t => shiftLoop op cnt (shiftOnce op t)

/-- The whole operation on an n-bit value: the loop from its start (R189). -/
def shiftResult {n : Nat} (op : ShiftOp) (v : BitVec n) (cnt : Nat) (x : Bool) : ShiftAcc n :=
  shiftLoop op cnt { v := v, c := op.zeroCountC x, x := x, msbChanged := false }

/-- V after the operation: 0, but for ASL as ASL_V_RULE says (R180, D16; log 15). -/
def shiftV (op : ShiftOp) (msbChanged : Bool) : M Bool :=
  match op, Config.aslVRule with
  | .asl, .msbChanged => return msbChanged
  | .asl, .draw => drawBit
  | _, _ => return false

/-- The common frame of the eight instructions (R189): the count is read before `Dy` is written. -/
def shiftDn (sz : Size) (op : ShiftOp) (count : M Nat) (dy : Reg) : M Unit := do
  let cnt ← count
  let v ← readD sz dy
  let k ← readCcr
  let t := shiftResult op v cnt k.x
  let ov ← shiftV op t.msbChanged
  writeD sz dy t.v
  writeCcr { x := t.x, n := t.v.msb, z := decide (t.v = 0#sz.bits), v := ov, c := t.c }

/-- `ASR.B__n_Dy`: ASR byte, count immediate (R181, R189). -/
def execAsrBImm (ccc : BitVec 3) (dy : Reg) (s : State) :
    Host.Outcome State Fault Refusal :=
  execute (shiftDn .byte .asr (pure (immCount ccc)) dy) s

/-- `ASR.B_Dx_Dy`: ASR byte, count in a register (R181, R189). -/
def execAsrBReg (dx : Reg) (dy : Reg) (s : State) :
    Host.Outcome State Fault Refusal :=
  execute (shiftDn .byte .asr (regCount dx) dy) s

/-- `ASR.W__n_Dy`: ASR word, count immediate (R181, R189). -/
def execAsrWImm (ccc : BitVec 3) (dy : Reg) (s : State) :
    Host.Outcome State Fault Refusal :=
  execute (shiftDn .word .asr (pure (immCount ccc)) dy) s

/-- `ASR.W_Dx_Dy`: ASR word, count in a register (R181, R189). -/
def execAsrWReg (dx : Reg) (dy : Reg) (s : State) :
    Host.Outcome State Fault Refusal :=
  execute (shiftDn .word .asr (regCount dx) dy) s

/-- `ASR.L__n_Dy`: ASR long, count immediate (R181, R189). -/
def execAsrLImm (ccc : BitVec 3) (dy : Reg) (s : State) :
    Host.Outcome State Fault Refusal :=
  execute (shiftDn .long .asr (pure (immCount ccc)) dy) s

/-- `ASR.L_Dx_Dy`: ASR long, count in a register (R181, R189). -/
def execAsrLReg (dx : Reg) (dy : Reg) (s : State) :
    Host.Outcome State Fault Refusal :=
  execute (shiftDn .long .asr (regCount dx) dy) s

/-- `ASL.B__n_Dy`: ASL byte, count immediate (R180, R189). -/
def execAslBImm (ccc : BitVec 3) (dy : Reg) (s : State) :
    Host.Outcome State Fault Refusal :=
  execute (shiftDn .byte .asl (pure (immCount ccc)) dy) s

/-- `ASL.B_Dx_Dy`: ASL byte, count in a register (R180, R189). -/
def execAslBReg (dx : Reg) (dy : Reg) (s : State) :
    Host.Outcome State Fault Refusal :=
  execute (shiftDn .byte .asl (regCount dx) dy) s

/-- `ASL.W__n_Dy`: ASL word, count immediate (R180, R189). -/
def execAslWImm (ccc : BitVec 3) (dy : Reg) (s : State) :
    Host.Outcome State Fault Refusal :=
  execute (shiftDn .word .asl (pure (immCount ccc)) dy) s

/-- `ASL.W_Dx_Dy`: ASL word, count in a register (R180, R189). -/
def execAslWReg (dx : Reg) (dy : Reg) (s : State) :
    Host.Outcome State Fault Refusal :=
  execute (shiftDn .word .asl (regCount dx) dy) s

/-- `ASL.L__n_Dy`: ASL long, count immediate (R180, R189). -/
def execAslLImm (ccc : BitVec 3) (dy : Reg) (s : State) :
    Host.Outcome State Fault Refusal :=
  execute (shiftDn .long .asl (pure (immCount ccc)) dy) s

/-- `ASL.L_Dx_Dy`: ASL long, count in a register (R180, R189). -/
def execAslLReg (dx : Reg) (dy : Reg) (s : State) :
    Host.Outcome State Fault Refusal :=
  execute (shiftDn .long .asl (regCount dx) dy) s

/-- `LSR.B__n_Dy`: LSR byte, count immediate (R183, R189). -/
def execLsrBImm (ccc : BitVec 3) (dy : Reg) (s : State) :
    Host.Outcome State Fault Refusal :=
  execute (shiftDn .byte .lsr (pure (immCount ccc)) dy) s

/-- `LSR.B_Dx_Dy`: LSR byte, count in a register (R183, R189). -/
def execLsrBReg (dx : Reg) (dy : Reg) (s : State) :
    Host.Outcome State Fault Refusal :=
  execute (shiftDn .byte .lsr (regCount dx) dy) s

/-- `LSR.W__n_Dy`: LSR word, count immediate (R183, R189). -/
def execLsrWImm (ccc : BitVec 3) (dy : Reg) (s : State) :
    Host.Outcome State Fault Refusal :=
  execute (shiftDn .word .lsr (pure (immCount ccc)) dy) s

/-- `LSR.W_Dx_Dy`: LSR word, count in a register (R183, R189). -/
def execLsrWReg (dx : Reg) (dy : Reg) (s : State) :
    Host.Outcome State Fault Refusal :=
  execute (shiftDn .word .lsr (regCount dx) dy) s

/-- `LSR.L__n_Dy`: LSR long, count immediate (R183, R189). -/
def execLsrLImm (ccc : BitVec 3) (dy : Reg) (s : State) :
    Host.Outcome State Fault Refusal :=
  execute (shiftDn .long .lsr (pure (immCount ccc)) dy) s

/-- `LSR.L_Dx_Dy`: LSR long, count in a register (R183, R189). -/
def execLsrLReg (dx : Reg) (dy : Reg) (s : State) :
    Host.Outcome State Fault Refusal :=
  execute (shiftDn .long .lsr (regCount dx) dy) s

/-- `LSL.B__n_Dy`: LSL byte, count immediate (R182, R189). -/
def execLslBImm (ccc : BitVec 3) (dy : Reg) (s : State) :
    Host.Outcome State Fault Refusal :=
  execute (shiftDn .byte .lsl (pure (immCount ccc)) dy) s

/-- `LSL.B_Dx_Dy`: LSL byte, count in a register (R182, R189). -/
def execLslBReg (dx : Reg) (dy : Reg) (s : State) :
    Host.Outcome State Fault Refusal :=
  execute (shiftDn .byte .lsl (regCount dx) dy) s

/-- `LSL.W__n_Dy`: LSL word, count immediate (R182, R189). -/
def execLslWImm (ccc : BitVec 3) (dy : Reg) (s : State) :
    Host.Outcome State Fault Refusal :=
  execute (shiftDn .word .lsl (pure (immCount ccc)) dy) s

/-- `LSL.W_Dx_Dy`: LSL word, count in a register (R182, R189). -/
def execLslWReg (dx : Reg) (dy : Reg) (s : State) :
    Host.Outcome State Fault Refusal :=
  execute (shiftDn .word .lsl (regCount dx) dy) s

/-- `LSL.L__n_Dy`: LSL long, count immediate (R182, R189). -/
def execLslLImm (ccc : BitVec 3) (dy : Reg) (s : State) :
    Host.Outcome State Fault Refusal :=
  execute (shiftDn .long .lsl (pure (immCount ccc)) dy) s

/-- `LSL.L_Dx_Dy`: LSL long, count in a register (R182, R189). -/
def execLslLReg (dx : Reg) (dy : Reg) (s : State) :
    Host.Outcome State Fault Refusal :=
  execute (shiftDn .long .lsl (regCount dx) dy) s

/-- `ROXR.B__n_Dy`: ROXR byte, count immediate (R187, R189). -/
def execRoxrBImm (ccc : BitVec 3) (dy : Reg) (s : State) :
    Host.Outcome State Fault Refusal :=
  execute (shiftDn .byte .roxr (pure (immCount ccc)) dy) s

/-- `ROXR.B_Dx_Dy`: ROXR byte, count in a register (R187, R189). -/
def execRoxrBReg (dx : Reg) (dy : Reg) (s : State) :
    Host.Outcome State Fault Refusal :=
  execute (shiftDn .byte .roxr (regCount dx) dy) s

/-- `ROXR.W__n_Dy`: ROXR word, count immediate (R187, R189). -/
def execRoxrWImm (ccc : BitVec 3) (dy : Reg) (s : State) :
    Host.Outcome State Fault Refusal :=
  execute (shiftDn .word .roxr (pure (immCount ccc)) dy) s

/-- `ROXR.W_Dx_Dy`: ROXR word, count in a register (R187, R189). -/
def execRoxrWReg (dx : Reg) (dy : Reg) (s : State) :
    Host.Outcome State Fault Refusal :=
  execute (shiftDn .word .roxr (regCount dx) dy) s

/-- `ROXR.L__n_Dy`: ROXR long, count immediate (R187, R189). -/
def execRoxrLImm (ccc : BitVec 3) (dy : Reg) (s : State) :
    Host.Outcome State Fault Refusal :=
  execute (shiftDn .long .roxr (pure (immCount ccc)) dy) s

/-- `ROXR.L_Dx_Dy`: ROXR long, count in a register (R187, R189). -/
def execRoxrLReg (dx : Reg) (dy : Reg) (s : State) :
    Host.Outcome State Fault Refusal :=
  execute (shiftDn .long .roxr (regCount dx) dy) s

/-- `ROXL.B__n_Dy`: ROXL byte, count immediate (R186, R189). -/
def execRoxlBImm (ccc : BitVec 3) (dy : Reg) (s : State) :
    Host.Outcome State Fault Refusal :=
  execute (shiftDn .byte .roxl (pure (immCount ccc)) dy) s

/-- `ROXL.B_Dx_Dy`: ROXL byte, count in a register (R186, R189). -/
def execRoxlBReg (dx : Reg) (dy : Reg) (s : State) :
    Host.Outcome State Fault Refusal :=
  execute (shiftDn .byte .roxl (regCount dx) dy) s

/-- `ROXL.W__n_Dy`: ROXL word, count immediate (R186, R189). -/
def execRoxlWImm (ccc : BitVec 3) (dy : Reg) (s : State) :
    Host.Outcome State Fault Refusal :=
  execute (shiftDn .word .roxl (pure (immCount ccc)) dy) s

/-- `ROXL.W_Dx_Dy`: ROXL word, count in a register (R186, R189). -/
def execRoxlWReg (dx : Reg) (dy : Reg) (s : State) :
    Host.Outcome State Fault Refusal :=
  execute (shiftDn .word .roxl (regCount dx) dy) s

/-- `ROXL.L__n_Dy`: ROXL long, count immediate (R186, R189). -/
def execRoxlLImm (ccc : BitVec 3) (dy : Reg) (s : State) :
    Host.Outcome State Fault Refusal :=
  execute (shiftDn .long .roxl (pure (immCount ccc)) dy) s

/-- `ROXL.L_Dx_Dy`: ROXL long, count in a register (R186, R189). -/
def execRoxlLReg (dx : Reg) (dy : Reg) (s : State) :
    Host.Outcome State Fault Refusal :=
  execute (shiftDn .long .roxl (regCount dx) dy) s

/-- `ROR.B__n_Dy`: ROR byte, count immediate (R185, R189). -/
def execRorBImm (ccc : BitVec 3) (dy : Reg) (s : State) :
    Host.Outcome State Fault Refusal :=
  execute (shiftDn .byte .ror (pure (immCount ccc)) dy) s

/-- `ROR.B_Dx_Dy`: ROR byte, count in a register (R185, R189). -/
def execRorBReg (dx : Reg) (dy : Reg) (s : State) :
    Host.Outcome State Fault Refusal :=
  execute (shiftDn .byte .ror (regCount dx) dy) s

/-- `ROR.W__n_Dy`: ROR word, count immediate (R185, R189). -/
def execRorWImm (ccc : BitVec 3) (dy : Reg) (s : State) :
    Host.Outcome State Fault Refusal :=
  execute (shiftDn .word .ror (pure (immCount ccc)) dy) s

/-- `ROR.W_Dx_Dy`: ROR word, count in a register (R185, R189). -/
def execRorWReg (dx : Reg) (dy : Reg) (s : State) :
    Host.Outcome State Fault Refusal :=
  execute (shiftDn .word .ror (regCount dx) dy) s

/-- `ROR.L__n_Dy`: ROR long, count immediate (R185, R189). -/
def execRorLImm (ccc : BitVec 3) (dy : Reg) (s : State) :
    Host.Outcome State Fault Refusal :=
  execute (shiftDn .long .ror (pure (immCount ccc)) dy) s

/-- `ROR.L_Dx_Dy`: ROR long, count in a register (R185, R189). -/
def execRorLReg (dx : Reg) (dy : Reg) (s : State) :
    Host.Outcome State Fault Refusal :=
  execute (shiftDn .long .ror (regCount dx) dy) s

/-- `ROL.B__n_Dy`: ROL byte, count immediate (R184, R189). -/
def execRolBImm (ccc : BitVec 3) (dy : Reg) (s : State) :
    Host.Outcome State Fault Refusal :=
  execute (shiftDn .byte .rol (pure (immCount ccc)) dy) s

/-- `ROL.B_Dx_Dy`: ROL byte, count in a register (R184, R189). -/
def execRolBReg (dx : Reg) (dy : Reg) (s : State) :
    Host.Outcome State Fault Refusal :=
  execute (shiftDn .byte .rol (regCount dx) dy) s

/-- `ROL.W__n_Dy`: ROL word, count immediate (R184, R189). -/
def execRolWImm (ccc : BitVec 3) (dy : Reg) (s : State) :
    Host.Outcome State Fault Refusal :=
  execute (shiftDn .word .rol (pure (immCount ccc)) dy) s

/-- `ROL.W_Dx_Dy`: ROL word, count in a register (R184, R189). -/
def execRolWReg (dx : Reg) (dy : Reg) (s : State) :
    Host.Outcome State Fault Refusal :=
  execute (shiftDn .word .rol (regCount dx) dy) s

/-- `ROL.L__n_Dy`: ROL long, count immediate (R184, R189). -/
def execRolLImm (ccc : BitVec 3) (dy : Reg) (s : State) :
    Host.Outcome State Fault Refusal :=
  execute (shiftDn .long .rol (pure (immCount ccc)) dy) s

/-- `ROL.L_Dx_Dy`: ROL long, count in a register (R184, R189). -/
def execRolLReg (dx : Reg) (dy : Reg) (s : State) :
    Host.Outcome State Fault Refusal :=
  execute (shiftDn .long .rol (regCount dx) dy) s

end Sys2Proof.Machine
end

