-- ==== Sys2Proof/Machine/Stop.lean ====
section
/-! DEFINITION. STOP (R245). -/

namespace Sys2Proof.Machine

/-- The operand of STOP into `sr_high` and the flags, and the status to `stopped` (R245). -/
def loadSrAndStop (imm : Word) : M Unit := fun s =>
  .ok () (((s.setSrHigh (imm.extractLsb' 8 8)).setCcr (Ccr.ofWord imm)).setStatus .stopped)

/-- STOP: its operand word goes to `sr_high` and the flags, and the status becomes `stopped` (R245).
The machine is in supervisor mode throughout, so nothing looks at `sr_high` and no privilege
violation arises (R35, R265, R271). -/
def stopWith (imm : Word) : M Unit := do
  fetchExt
  loadSrAndStop imm

/-- `STOP`: (R245). -/
def execStop (imm : Word) (s : State) :
    Host.Outcome State Fault Refusal :=
  execute (stopWith imm) s

end Sys2Proof.Machine
end

