-- ==== Sys2Proof/Machine/Dispatch.lean ====
section
/-! DEFINITION. The dispatch: one arm per instruction, each one direct call of its meaning. -/

namespace Sys2Proof.Machine

def exec (i : Instr) (s : State) : Host.Outcome State Fault Refusal :=
  match i with
  | .addBEaDn src dn => Sys2Proof.Machine.execAddBEaDn src dn s
  | .addBDnEa dn dst => Sys2Proof.Machine.execAddBDnEa dn dst s
  | .addWEaDn src dn => Sys2Proof.Machine.execAddWEaDn src dn s
  | .addWDnEa dn dst => Sys2Proof.Machine.execAddWDnEa dn dst s
  | .addLEaDn src dn => Sys2Proof.Machine.execAddLEaDn src dn s
  | .addLDnEa dn dst => Sys2Proof.Machine.execAddLDnEa dn dst s
  | .subBEaDn src dn => Sys2Proof.Machine.execSubBEaDn src dn s
  | .subBDnEa dn dst => Sys2Proof.Machine.execSubBDnEa dn dst s
  | .subWEaDn src dn => Sys2Proof.Machine.execSubWEaDn src dn s
  | .subWDnEa dn dst => Sys2Proof.Machine.execSubWDnEa dn dst s
  | .subLEaDn src dn => Sys2Proof.Machine.execSubLEaDn src dn s
  | .subLDnEa dn dst => Sys2Proof.Machine.execSubLDnEa dn dst s
  | .andBEaDn src dn => Sys2Proof.Machine.execAndBEaDn src dn s
  | .andBDnEa dn dst => Sys2Proof.Machine.execAndBDnEa dn dst s
  | .andWEaDn src dn => Sys2Proof.Machine.execAndWEaDn src dn s
  | .andWDnEa dn dst => Sys2Proof.Machine.execAndWDnEa dn dst s
  | .andLEaDn src dn => Sys2Proof.Machine.execAndLEaDn src dn s
  | .andLDnEa dn dst => Sys2Proof.Machine.execAndLDnEa dn dst s
  | .orBEaDn src dn => Sys2Proof.Machine.execOrBEaDn src dn s
  | .orBDnEa dn dst => Sys2Proof.Machine.execOrBDnEa dn dst s
  | .orWEaDn src dn => Sys2Proof.Machine.execOrWEaDn src dn s
  | .orWDnEa dn dst => Sys2Proof.Machine.execOrWDnEa dn dst s
  | .orLEaDn src dn => Sys2Proof.Machine.execOrLEaDn src dn s
  | .orLDnEa dn dst => Sys2Proof.Machine.execOrLDnEa dn dst s
  | .eorB dn dst => Sys2Proof.Machine.execEorB dn dst s
  | .eorW dn dst => Sys2Proof.Machine.execEorW dn dst s
  | .eorL dn dst => Sys2Proof.Machine.execEorL dn dst s
  | .cmpB src dn => Sys2Proof.Machine.execCmpB src dn s
  | .cmpW src dn => Sys2Proof.Machine.execCmpW src dn s
  | .cmpL src dn => Sys2Proof.Machine.execCmpL src dn s
  | .mulu src dn => Sys2Proof.Machine.execMulu src dn s
  | .muls src dn => Sys2Proof.Machine.execMuls src dn s
  | .divu src dn => Sys2Proof.Machine.execDivu src dn s
  | .divs src dn => Sys2Proof.Machine.execDivs src dn s
  | .extW dn => Sys2Proof.Machine.execExtW dn s
  | .extL dn => Sys2Proof.Machine.execExtL dn s
  | .negB dst => Sys2Proof.Machine.execNegB dst s
  | .negW dst => Sys2Proof.Machine.execNegW dst s
  | .negL dst => Sys2Proof.Machine.execNegL dst s
  | .notB dst => Sys2Proof.Machine.execNotB dst s
  | .notW dst => Sys2Proof.Machine.execNotW dst s
  | .notL dst => Sys2Proof.Machine.execNotL dst s
  | .clrB dst => Sys2Proof.Machine.execClrB dst s
  | .clrW dst => Sys2Proof.Machine.execClrW dst s
  | .clrL dst => Sys2Proof.Machine.execClrL dst s
  | .swap dn => Sys2Proof.Machine.execSwap dn s
  | .exgDD dx dy => Sys2Proof.Machine.execExgDD dx dy s
  | .exgAA ax ay => Sys2Proof.Machine.execExgAA ax ay s
  | .exgDA dx ay => Sys2Proof.Machine.execExgDA dx ay s
  | .asrBImm ccc dy => Sys2Proof.Machine.execAsrBImm ccc dy s
  | .asrBReg dx dy => Sys2Proof.Machine.execAsrBReg dx dy s
  | .asrWImm ccc dy => Sys2Proof.Machine.execAsrWImm ccc dy s
  | .asrWReg dx dy => Sys2Proof.Machine.execAsrWReg dx dy s
  | .asrLImm ccc dy => Sys2Proof.Machine.execAsrLImm ccc dy s
  | .asrLReg dx dy => Sys2Proof.Machine.execAsrLReg dx dy s
  | .aslBImm ccc dy => Sys2Proof.Machine.execAslBImm ccc dy s
  | .aslBReg dx dy => Sys2Proof.Machine.execAslBReg dx dy s
  | .aslWImm ccc dy => Sys2Proof.Machine.execAslWImm ccc dy s
  | .aslWReg dx dy => Sys2Proof.Machine.execAslWReg dx dy s
  | .aslLImm ccc dy => Sys2Proof.Machine.execAslLImm ccc dy s
  | .aslLReg dx dy => Sys2Proof.Machine.execAslLReg dx dy s
  | .lsrBImm ccc dy => Sys2Proof.Machine.execLsrBImm ccc dy s
  | .lsrBReg dx dy => Sys2Proof.Machine.execLsrBReg dx dy s
  | .lsrWImm ccc dy => Sys2Proof.Machine.execLsrWImm ccc dy s
  | .lsrWReg dx dy => Sys2Proof.Machine.execLsrWReg dx dy s
  | .lsrLImm ccc dy => Sys2Proof.Machine.execLsrLImm ccc dy s
  | .lsrLReg dx dy => Sys2Proof.Machine.execLsrLReg dx dy s
  | .lslBImm ccc dy => Sys2Proof.Machine.execLslBImm ccc dy s
  | .lslBReg dx dy => Sys2Proof.Machine.execLslBReg dx dy s
  | .lslWImm ccc dy => Sys2Proof.Machine.execLslWImm ccc dy s
  | .lslWReg dx dy => Sys2Proof.Machine.execLslWReg dx dy s
  | .lslLImm ccc dy => Sys2Proof.Machine.execLslLImm ccc dy s
  | .lslLReg dx dy => Sys2Proof.Machine.execLslLReg dx dy s
  | .roxrBImm ccc dy => Sys2Proof.Machine.execRoxrBImm ccc dy s
  | .roxrBReg dx dy => Sys2Proof.Machine.execRoxrBReg dx dy s
  | .roxrWImm ccc dy => Sys2Proof.Machine.execRoxrWImm ccc dy s
  | .roxrWReg dx dy => Sys2Proof.Machine.execRoxrWReg dx dy s
  | .roxrLImm ccc dy => Sys2Proof.Machine.execRoxrLImm ccc dy s
  | .roxrLReg dx dy => Sys2Proof.Machine.execRoxrLReg dx dy s
  | .roxlBImm ccc dy => Sys2Proof.Machine.execRoxlBImm ccc dy s
  | .roxlBReg dx dy => Sys2Proof.Machine.execRoxlBReg dx dy s
  | .roxlWImm ccc dy => Sys2Proof.Machine.execRoxlWImm ccc dy s
  | .roxlWReg dx dy => Sys2Proof.Machine.execRoxlWReg dx dy s
  | .roxlLImm ccc dy => Sys2Proof.Machine.execRoxlLImm ccc dy s
  | .roxlLReg dx dy => Sys2Proof.Machine.execRoxlLReg dx dy s
  | .rorBImm ccc dy => Sys2Proof.Machine.execRorBImm ccc dy s
  | .rorBReg dx dy => Sys2Proof.Machine.execRorBReg dx dy s
  | .rorWImm ccc dy => Sys2Proof.Machine.execRorWImm ccc dy s
  | .rorWReg dx dy => Sys2Proof.Machine.execRorWReg dx dy s
  | .rorLImm ccc dy => Sys2Proof.Machine.execRorLImm ccc dy s
  | .rorLReg dx dy => Sys2Proof.Machine.execRorLReg dx dy s
  | .rolBImm ccc dy => Sys2Proof.Machine.execRolBImm ccc dy s
  | .rolBReg dx dy => Sys2Proof.Machine.execRolBReg dx dy s
  | .rolWImm ccc dy => Sys2Proof.Machine.execRolWImm ccc dy s
  | .rolWReg dx dy => Sys2Proof.Machine.execRolWReg dx dy s
  | .rolLImm ccc dy => Sys2Proof.Machine.execRolLImm ccc dy s
  | .rolLReg dx dy => Sys2Proof.Machine.execRolLReg dx dy s
  | .btstDyn dn src => Sys2Proof.Machine.execBtstDyn dn src s
  | .btstStatic k src => Sys2Proof.Machine.execBtstStatic k src s
  | .bchgDyn dn dst => Sys2Proof.Machine.execBchgDyn dn dst s
  | .bchgStatic k dst => Sys2Proof.Machine.execBchgStatic k dst s
  | .bclrDyn dn dst => Sys2Proof.Machine.execBclrDyn dn dst s
  | .bclrStatic k dst => Sys2Proof.Machine.execBclrStatic k dst s
  | .bsetDyn dn dst => Sys2Proof.Machine.execBsetDyn dn dst s
  | .bsetStatic k dst => Sys2Proof.Machine.execBsetStatic k dst s
  | .oriB imm dst => Sys2Proof.Machine.execOriB imm dst s
  | .oriW imm dst => Sys2Proof.Machine.execOriW imm dst s
  | .oriL imm dst => Sys2Proof.Machine.execOriL imm dst s
  | .andiB imm dst => Sys2Proof.Machine.execAndiB imm dst s
  | .andiW imm dst => Sys2Proof.Machine.execAndiW imm dst s
  | .andiL imm dst => Sys2Proof.Machine.execAndiL imm dst s
  | .subiB imm dst => Sys2Proof.Machine.execSubiB imm dst s
  | .subiW imm dst => Sys2Proof.Machine.execSubiW imm dst s
  | .subiL imm dst => Sys2Proof.Machine.execSubiL imm dst s
  | .addiB imm dst => Sys2Proof.Machine.execAddiB imm dst s
  | .addiW imm dst => Sys2Proof.Machine.execAddiW imm dst s
  | .addiL imm dst => Sys2Proof.Machine.execAddiL imm dst s
  | .eoriB imm dst => Sys2Proof.Machine.execEoriB imm dst s
  | .eoriW imm dst => Sys2Proof.Machine.execEoriW imm dst s
  | .eoriL imm dst => Sys2Proof.Machine.execEoriL imm dst s
  | .cmpiB imm dst => Sys2Proof.Machine.execCmpiB imm dst s
  | .cmpiW imm dst => Sys2Proof.Machine.execCmpiW imm dst s
  | .cmpiL imm dst => Sys2Proof.Machine.execCmpiL imm dst s
  | .moveB src dst => Sys2Proof.Machine.execMoveB src dst s
  | .moveL src dst => Sys2Proof.Machine.execMoveL src dst s
  | .moveW src dst => Sys2Proof.Machine.execMoveW src dst s
  | .bra disp => Sys2Proof.Machine.execBra disp s
  | .bhi disp => Sys2Proof.Machine.execBhi disp s
  | .bls disp => Sys2Proof.Machine.execBls disp s
  | .bcc disp => Sys2Proof.Machine.execBcc disp s
  | .bcs disp => Sys2Proof.Machine.execBcs disp s
  | .bne disp => Sys2Proof.Machine.execBne disp s
  | .beq disp => Sys2Proof.Machine.execBeq disp s
  | .bvc disp => Sys2Proof.Machine.execBvc disp s
  | .bvs disp => Sys2Proof.Machine.execBvs disp s
  | .bpl disp => Sys2Proof.Machine.execBpl disp s
  | .bmi disp => Sys2Proof.Machine.execBmi disp s
  | .bge disp => Sys2Proof.Machine.execBge disp s
  | .blt disp => Sys2Proof.Machine.execBlt disp s
  | .bgt disp => Sys2Proof.Machine.execBgt disp s
  | .ble disp => Sys2Proof.Machine.execBle disp s
  | .stop imm => Sys2Proof.Machine.execStop imm s

end Sys2Proof.Machine
end

