-- ==== Sys2Proof/Machine/Fetch.lean ====
section
/-! DEFINITION. Fetching and decoding the instruction at pc (R25, R112), and placing an
instruction's words where they are fetched. -/

namespace Sys2Proof.Machine

/-- The `n` words from `addr` upward that the fetch of an instruction can read; from the first word it
cannot read on, zeros. The instruction's own fetches then raise the exception in their place (R65,
R267; log 12). -/
def peekWords (s : State) : Nat → Long → List Word
  | 0, _ => []
  | n + 1, addr =>
    match accessFault s .fetch addr .word with
    | some _ => List.replicate (n + 1) 0#16
    | none => s.valueAt addr .word :: peekWords s n (addr + 2#32)

/-- What stands at pc: an instruction, or the exception its fetch or its decoding raises together with
the state it is raised in. -/
inductive Fetched where
  | instr (i : Instr)
  | exception (e : Exc) (s : State)
deriving DecidableEq, Repr

/-- Fetch the opword, then decode it with the four words after it (R80, R112, R264). -/
def fetchInstr (s : State) : Fetched :=
  match fetch16 s with
  | .error e s' => .exception e s'
  | .ok w s' =>
    match decode (w :: peekWords s' 4 s'.pc) with
    | .ok (i, _) => .instr i
    | .error _ => .exception (.illegalInstruction w) s'

/-- Memory with words stored from `addr` upward, each high byte first (R51). -/
def placeWords : List Word → Long → Memory → Memory
  | [], _, m => m
  | w :: ws, addr, m =>
    placeWords ws (addr + 2#32) (Memory.writeBytes m (busAddr addr) 2 w.toNat)

/-- The ten bytes from pc upward hold memory. -/
def fetchMapped (s : State) (pc : Long) : Bool :=
  (List.range 10).all fun i => inRegions s.memMap (byteAddr (busAddr pc) i)

/-- The state with the words of an instruction placed at pc and ready to be fetched: running, at an
even pc, in mapped memory. Each of the three is changed only where it does not hold already. -/
def placeInstr (s : State) (ws : List Word) : State :=
  let pc := if s.pc.getLsbD 0 then s.pc - 1#32 else s.pc
  { s with
    pc := pc
    mem := placeWords ws pc s.mem
    memMap := if fetchMapped s pc then s.memMap else ⟨0, 2 ^ Config.addrBits⟩ :: s.memMap
    status := .running }

end Sys2Proof.Machine
end

