-- ==== Sys2Proof/Machine/Step.lean ====
section
/-! DEFINITION. One step of the machine (R39, R112). -/

namespace Sys2Proof.Machine

/-- One step: enabled only in `running` (R39, R293); it runs the instruction at pc, or takes the
exception its fetch or decoding raises. -/
def step (s : State) : Host.Outcome State Fault Refusal :=
  match s.status with
  | .stopped => .fault .haltedByStop
  | .faulted _ => .fault .haltedByException
  | .running =>
    match fetchInstr s with
    | .instr i => exec i s
    | .exception e s' => .next (takeException e s.pc s')

/-- The state with an instruction of `nbits` bits whose bits are `w` stored where the next step fetches
(log 6). -/
def State.withFetchWord (s : State) (nbits w : Nat) : State := placeInstr s (tableWords nbits w)

end Sys2Proof.Machine
end

