-- ==== Sys2Proof/Certificates/Slice0/Footprint.lean ====
section
/-! DEFINITION. The footprint of every instruction: the registers and flags it may write and the
memory operand it stores to, read off its operands and the tables of the spec (R23, R32, R56). The
frame statements say that nothing outside it changes. And the operands of every instruction in the
order it reads them, for the statements of which exception it takes (R65, R267). -/

namespace Sys2Proof.Claims

open Sys2Proof.Machine

/-- The address registers a mode updates: those of `(An)+` and `-(An)` (R94). -/
def memUpdates : MemEa → List Reg
  | .ind _ => []
  | .postInc r => [r]
  | .preDec r => [r]
  | .disp _ _ => []
  | .index _ _ => []
  | .absW _ => []
  | .absL _ => []

/-- `memUpdates` of a data alterable operand. -/
def altUpdates : DataAltEa → List Reg
  | .dn _ => []
  | .mem m => memUpdates m

/-- `memUpdates` of a data operand. -/
def dataUpdates : DataEa → List Reg
  | .alt e => altUpdates e
  | .pcDisp _ => []
  | .pcIndex _ => []
  | .imm _ => []

/-- `memUpdates` of any operand. -/
def anyUpdates : AnyEa → List Reg
  | .an _ => []
  | .data e => dataUpdates e

/-- The data register a destination names. -/
def altDregs : DataAltEa → List Reg
  | .dn r => [r]
  | .mem _ => []

/-- Which flags an instruction may write: the columns of R32. -/
structure FlagSet where
  x : Bool
  n : Bool
  z : Bool
  v : Bool
  c : Bool

/-- X, N, Z, V, C: ADD, SUB, NEG and the shifts that write X. -/
def allFlags : FlagSet := ⟨true, true, true, true, true⟩
/-- N, Z, V, C: the logic instructions, MOVE, the compares, the multiplies and divides, ROL, ROR. -/
def nzvcFlags : FlagSet := ⟨false, true, true, true, true⟩
/-- Z: the bit instructions. -/
def zFlag : FlagSet := ⟨false, false, true, false, false⟩
/-- None: EXG and the branches. -/
def noFlags : FlagSet := ⟨false, false, false, false, false⟩

/-- A store: its size, its destination mode, and what the instruction does before it resolves the
destination (reads its source or its immediate). -/
structure Store where
  size : Size
  dst : MemEa
  before : M Unit

/-- What an instruction may write. -/
structure Footprint where
  dregs : List Reg
  aregs : List Reg
  flags : FlagSet
  store : Option Store

/-- The store of a destination, none for a register. -/
def altStore (sz : Size) (before : M Unit) : DataAltEa → Option Store
  | .dn _ => none
  | .mem m => some ⟨sz, m, before⟩

/-- Read a source and forget its value. -/
def forget {α : Type} (m : M α) : M Unit := do
  let _ ← m
  return ()

/-- The footprint of every instruction. -/
def footprint : Instr → Footprint
  | .addBEaDn src dn => ⟨[dn], dataUpdates src, allFlags, none⟩
  | .addBDnEa _ dst => ⟨[], memUpdates dst, allFlags, some ⟨.byte, dst, pure ()⟩⟩
  | .addWEaDn src dn => ⟨[dn], anyUpdates src, allFlags, none⟩
  | .addWDnEa _ dst => ⟨[], memUpdates dst, allFlags, some ⟨.word, dst, pure ()⟩⟩
  | .addLEaDn src dn => ⟨[dn], anyUpdates src, allFlags, none⟩
  | .addLDnEa _ dst => ⟨[], memUpdates dst, allFlags, some ⟨.long, dst, pure ()⟩⟩
  | .subBEaDn src dn => ⟨[dn], dataUpdates src, allFlags, none⟩
  | .subBDnEa _ dst => ⟨[], memUpdates dst, allFlags, some ⟨.byte, dst, pure ()⟩⟩
  | .subWEaDn src dn => ⟨[dn], anyUpdates src, allFlags, none⟩
  | .subWDnEa _ dst => ⟨[], memUpdates dst, allFlags, some ⟨.word, dst, pure ()⟩⟩
  | .subLEaDn src dn => ⟨[dn], anyUpdates src, allFlags, none⟩
  | .subLDnEa _ dst => ⟨[], memUpdates dst, allFlags, some ⟨.long, dst, pure ()⟩⟩
  | .andBEaDn src dn => ⟨[dn], dataUpdates src, nzvcFlags, none⟩
  | .andBDnEa _ dst => ⟨[], memUpdates dst, nzvcFlags, some ⟨.byte, dst, pure ()⟩⟩
  | .andWEaDn src dn => ⟨[dn], dataUpdates src, nzvcFlags, none⟩
  | .andWDnEa _ dst => ⟨[], memUpdates dst, nzvcFlags, some ⟨.word, dst, pure ()⟩⟩
  | .andLEaDn src dn => ⟨[dn], dataUpdates src, nzvcFlags, none⟩
  | .andLDnEa _ dst => ⟨[], memUpdates dst, nzvcFlags, some ⟨.long, dst, pure ()⟩⟩
  | .orBEaDn src dn => ⟨[dn], dataUpdates src, nzvcFlags, none⟩
  | .orBDnEa _ dst => ⟨[], memUpdates dst, nzvcFlags, some ⟨.byte, dst, pure ()⟩⟩
  | .orWEaDn src dn => ⟨[dn], dataUpdates src, nzvcFlags, none⟩
  | .orWDnEa _ dst => ⟨[], memUpdates dst, nzvcFlags, some ⟨.word, dst, pure ()⟩⟩
  | .orLEaDn src dn => ⟨[dn], dataUpdates src, nzvcFlags, none⟩
  | .orLDnEa _ dst => ⟨[], memUpdates dst, nzvcFlags, some ⟨.long, dst, pure ()⟩⟩
  | .eorB _ dst => ⟨altDregs dst, altUpdates dst, nzvcFlags, altStore .byte (pure ()) dst⟩
  | .eorW _ dst => ⟨altDregs dst, altUpdates dst, nzvcFlags, altStore .word (pure ()) dst⟩
  | .eorL _ dst => ⟨altDregs dst, altUpdates dst, nzvcFlags, altStore .long (pure ()) dst⟩
  | .cmpB src _ => ⟨[], dataUpdates src, nzvcFlags, none⟩
  | .cmpW src _ => ⟨[], anyUpdates src, nzvcFlags, none⟩
  | .cmpL src _ => ⟨[], anyUpdates src, nzvcFlags, none⟩
  | .mulu src dn => ⟨[dn], dataUpdates src, nzvcFlags, none⟩
  | .muls src dn => ⟨[dn], dataUpdates src, nzvcFlags, none⟩
  | .divu src dn => ⟨[dn], dataUpdates src, nzvcFlags, none⟩
  | .divs src dn => ⟨[dn], dataUpdates src, nzvcFlags, none⟩
  | .extW dn => ⟨[dn], [], nzvcFlags, none⟩
  | .extL dn => ⟨[dn], [], nzvcFlags, none⟩
  | .negB dst => ⟨altDregs dst, altUpdates dst, allFlags, altStore .byte (pure ()) dst⟩
  | .negW dst => ⟨altDregs dst, altUpdates dst, allFlags, altStore .word (pure ()) dst⟩
  | .negL dst => ⟨altDregs dst, altUpdates dst, allFlags, altStore .long (pure ()) dst⟩
  | .notB dst => ⟨altDregs dst, altUpdates dst, nzvcFlags, altStore .byte (pure ()) dst⟩
  | .notW dst => ⟨altDregs dst, altUpdates dst, nzvcFlags, altStore .word (pure ()) dst⟩
  | .notL dst => ⟨altDregs dst, altUpdates dst, nzvcFlags, altStore .long (pure ()) dst⟩
  | .clrB dst => ⟨altDregs dst, altUpdates dst, nzvcFlags, altStore .byte (pure ()) dst⟩
  | .clrW dst => ⟨altDregs dst, altUpdates dst, nzvcFlags, altStore .word (pure ()) dst⟩
  | .clrL dst => ⟨altDregs dst, altUpdates dst, nzvcFlags, altStore .long (pure ()) dst⟩
  | .swap dn => ⟨[dn], [], nzvcFlags, none⟩
  | .exgDD dx dy => ⟨[dx, dy], [], noFlags, none⟩
  | .exgAA ax ay => ⟨[], [ax, ay], noFlags, none⟩
  | .exgDA dx ay => ⟨[dx], [ay], noFlags, none⟩
  | .asrBImm _ dy => ⟨[dy], [], allFlags, none⟩
  | .asrBReg _ dy => ⟨[dy], [], allFlags, none⟩
  | .asrWImm _ dy => ⟨[dy], [], allFlags, none⟩
  | .asrWReg _ dy => ⟨[dy], [], allFlags, none⟩
  | .asrLImm _ dy => ⟨[dy], [], allFlags, none⟩
  | .asrLReg _ dy => ⟨[dy], [], allFlags, none⟩
  | .aslBImm _ dy => ⟨[dy], [], allFlags, none⟩
  | .aslBReg _ dy => ⟨[dy], [], allFlags, none⟩
  | .aslWImm _ dy => ⟨[dy], [], allFlags, none⟩
  | .aslWReg _ dy => ⟨[dy], [], allFlags, none⟩
  | .aslLImm _ dy => ⟨[dy], [], allFlags, none⟩
  | .aslLReg _ dy => ⟨[dy], [], allFlags, none⟩
  | .lsrBImm _ dy => ⟨[dy], [], allFlags, none⟩
  | .lsrBReg _ dy => ⟨[dy], [], allFlags, none⟩
  | .lsrWImm _ dy => ⟨[dy], [], allFlags, none⟩
  | .lsrWReg _ dy => ⟨[dy], [], allFlags, none⟩
  | .lsrLImm _ dy => ⟨[dy], [], allFlags, none⟩
  | .lsrLReg _ dy => ⟨[dy], [], allFlags, none⟩
  | .lslBImm _ dy => ⟨[dy], [], allFlags, none⟩
  | .lslBReg _ dy => ⟨[dy], [], allFlags, none⟩
  | .lslWImm _ dy => ⟨[dy], [], allFlags, none⟩
  | .lslWReg _ dy => ⟨[dy], [], allFlags, none⟩
  | .lslLImm _ dy => ⟨[dy], [], allFlags, none⟩
  | .lslLReg _ dy => ⟨[dy], [], allFlags, none⟩
  | .roxrBImm _ dy => ⟨[dy], [], allFlags, none⟩
  | .roxrBReg _ dy => ⟨[dy], [], allFlags, none⟩
  | .roxrWImm _ dy => ⟨[dy], [], allFlags, none⟩
  | .roxrWReg _ dy => ⟨[dy], [], allFlags, none⟩
  | .roxrLImm _ dy => ⟨[dy], [], allFlags, none⟩
  | .roxrLReg _ dy => ⟨[dy], [], allFlags, none⟩
  | .roxlBImm _ dy => ⟨[dy], [], allFlags, none⟩
  | .roxlBReg _ dy => ⟨[dy], [], allFlags, none⟩
  | .roxlWImm _ dy => ⟨[dy], [], allFlags, none⟩
  | .roxlWReg _ dy => ⟨[dy], [], allFlags, none⟩
  | .roxlLImm _ dy => ⟨[dy], [], allFlags, none⟩
  | .roxlLReg _ dy => ⟨[dy], [], allFlags, none⟩
  | .rorBImm _ dy => ⟨[dy], [], nzvcFlags, none⟩
  | .rorBReg _ dy => ⟨[dy], [], nzvcFlags, none⟩
  | .rorWImm _ dy => ⟨[dy], [], nzvcFlags, none⟩
  | .rorWReg _ dy => ⟨[dy], [], nzvcFlags, none⟩
  | .rorLImm _ dy => ⟨[dy], [], nzvcFlags, none⟩
  | .rorLReg _ dy => ⟨[dy], [], nzvcFlags, none⟩
  | .rolBImm _ dy => ⟨[dy], [], nzvcFlags, none⟩
  | .rolBReg _ dy => ⟨[dy], [], nzvcFlags, none⟩
  | .rolWImm _ dy => ⟨[dy], [], nzvcFlags, none⟩
  | .rolWReg _ dy => ⟨[dy], [], nzvcFlags, none⟩
  | .rolLImm _ dy => ⟨[dy], [], nzvcFlags, none⟩
  | .rolLReg _ dy => ⟨[dy], [], nzvcFlags, none⟩
  | .btstDyn _ src => ⟨[], dataUpdates src, zFlag, none⟩
  | .btstStatic _ src => ⟨[], dataUpdates src, zFlag, none⟩
  | .bchgDyn _ dst => ⟨altDregs dst, altUpdates dst, zFlag, altStore .byte (pure ()) dst⟩
  | .bchgStatic _ dst => ⟨altDregs dst, altUpdates dst, zFlag, altStore .byte (fetchExt) dst⟩
  | .bclrDyn _ dst => ⟨altDregs dst, altUpdates dst, zFlag, altStore .byte (pure ()) dst⟩
  | .bclrStatic _ dst => ⟨altDregs dst, altUpdates dst, zFlag, altStore .byte (fetchExt) dst⟩
  | .bsetDyn _ dst => ⟨altDregs dst, altUpdates dst, zFlag, altStore .byte (pure ()) dst⟩
  | .bsetStatic _ dst => ⟨altDregs dst, altUpdates dst, zFlag, altStore .byte (fetchExt) dst⟩
  | .oriB _ dst => ⟨altDregs dst, altUpdates dst, nzvcFlags, altStore .byte (fetchImm .byte) dst⟩
  | .oriW _ dst => ⟨altDregs dst, altUpdates dst, nzvcFlags, altStore .word (fetchImm .word) dst⟩
  | .oriL _ dst => ⟨altDregs dst, altUpdates dst, nzvcFlags, altStore .long (fetchImm .long) dst⟩
  | .andiB _ dst => ⟨altDregs dst, altUpdates dst, nzvcFlags, altStore .byte (fetchImm .byte) dst⟩
  | .andiW _ dst => ⟨altDregs dst, altUpdates dst, nzvcFlags, altStore .word (fetchImm .word) dst⟩
  | .andiL _ dst => ⟨altDregs dst, altUpdates dst, nzvcFlags, altStore .long (fetchImm .long) dst⟩
  | .subiB _ dst => ⟨altDregs dst, altUpdates dst, allFlags, altStore .byte (fetchImm .byte) dst⟩
  | .subiW _ dst => ⟨altDregs dst, altUpdates dst, allFlags, altStore .word (fetchImm .word) dst⟩
  | .subiL _ dst => ⟨altDregs dst, altUpdates dst, allFlags, altStore .long (fetchImm .long) dst⟩
  | .addiB _ dst => ⟨altDregs dst, altUpdates dst, allFlags, altStore .byte (fetchImm .byte) dst⟩
  | .addiW _ dst => ⟨altDregs dst, altUpdates dst, allFlags, altStore .word (fetchImm .word) dst⟩
  | .addiL _ dst => ⟨altDregs dst, altUpdates dst, allFlags, altStore .long (fetchImm .long) dst⟩
  | .eoriB _ dst => ⟨altDregs dst, altUpdates dst, nzvcFlags, altStore .byte (fetchImm .byte) dst⟩
  | .eoriW _ dst => ⟨altDregs dst, altUpdates dst, nzvcFlags, altStore .word (fetchImm .word) dst⟩
  | .eoriL _ dst => ⟨altDregs dst, altUpdates dst, nzvcFlags, altStore .long (fetchImm .long) dst⟩
  | .cmpiB _ dst => ⟨[], altUpdates dst, nzvcFlags, none⟩
  | .cmpiW _ dst => ⟨[], altUpdates dst, nzvcFlags, none⟩
  | .cmpiL _ dst => ⟨[], altUpdates dst, nzvcFlags, none⟩
  | .moveB src dst => ⟨altDregs dst, dataUpdates src ++ altUpdates dst, nzvcFlags, altStore .byte (forget (readData .byte src)) dst⟩
  | .moveL src dst => ⟨altDregs dst, anyUpdates src ++ altUpdates dst, nzvcFlags, altStore .long (forget (readAny .long src)) dst⟩
  | .moveW src dst => ⟨altDregs dst, anyUpdates src ++ altUpdates dst, nzvcFlags, altStore .word (forget (readAny .word src)) dst⟩
  | .bra _ => ⟨[], [], noFlags, none⟩
  | .bhi _ => ⟨[], [], noFlags, none⟩
  | .bls _ => ⟨[], [], noFlags, none⟩
  | .bcc _ => ⟨[], [], noFlags, none⟩
  | .bcs _ => ⟨[], [], noFlags, none⟩
  | .bne _ => ⟨[], [], noFlags, none⟩
  | .beq _ => ⟨[], [], noFlags, none⟩
  | .bvc _ => ⟨[], [], noFlags, none⟩
  | .bvs _ => ⟨[], [], noFlags, none⟩
  | .bpl _ => ⟨[], [], noFlags, none⟩
  | .bmi _ => ⟨[], [], noFlags, none⟩
  | .bge _ => ⟨[], [], noFlags, none⟩
  | .blt _ => ⟨[], [], noFlags, none⟩
  | .bgt _ => ⟨[], [], noFlags, none⟩
  | .ble _ => ⟨[], [], noFlags, none⟩
  | .stop _ => ⟨[], [], allFlags, none⟩

/-- How an instruction uses its operands, in the order of R65: what it reads or fetches first (its
source, immediate, bit number, displacement or operand word), then a second operand that may lie in
memory, and whether that one is read and is written. -/
structure OperandUse where
  size : Size
  source : M Unit
  memory : Option MemEa
  reads : Bool
  writes : Bool

/-- The memory operand of a data alterable mode. -/
def altMem : DataAltEa → Option MemEa
  | .dn _ => none
  | .mem m => some m

/-- A source alone: `OP <ea>,Dn`, a bit test, a displacement, the operand word of STOP. -/
def sourceOnly {α : Type} (src : M α) : OperandUse := ⟨.byte, forget src, none, false, false⟩

/-- Registers alone: no extension word, no memory. -/
def registersOnly : OperandUse := sourceOnly (pure () : M Unit)

/-- A source, then a memory operand that is compared: read, not written. -/
def compares {α : Type} (sz : Size) (src : M α) (m : Option MemEa) : OperandUse :=
  ⟨sz, forget src, m, true, false⟩

/-- A source, then a memory operand that is read and written (R58). -/
def modifies {α : Type} (sz : Size) (src : M α) (m : Option MemEa) : OperandUse :=
  ⟨sz, forget src, m, true, true⟩

/-- A source, then a memory operand that is written only: MOVE (R56), CLR (log 17). -/
def stores {α : Type} (sz : Size) (src : M α) (m : Option MemEa) : OperandUse :=
  ⟨sz, forget src, m, false, true⟩

/-- How every instruction uses its operands (R56, R65). -/
def operandUse : Instr → OperandUse
  | .addBEaDn src _ => sourceOnly (readData .byte src)
  | .addBDnEa dn dst => modifies .byte (readD .byte dn) (some dst)
  | .addWEaDn src _ => sourceOnly (readAny .word src)
  | .addWDnEa dn dst => modifies .word (readD .word dn) (some dst)
  | .addLEaDn src _ => sourceOnly (readAny .long src)
  | .addLDnEa dn dst => modifies .long (readD .long dn) (some dst)
  | .subBEaDn src _ => sourceOnly (readData .byte src)
  | .subBDnEa dn dst => modifies .byte (readD .byte dn) (some dst)
  | .subWEaDn src _ => sourceOnly (readAny .word src)
  | .subWDnEa dn dst => modifies .word (readD .word dn) (some dst)
  | .subLEaDn src _ => sourceOnly (readAny .long src)
  | .subLDnEa dn dst => modifies .long (readD .long dn) (some dst)
  | .andBEaDn src _ => sourceOnly (readData .byte src)
  | .andBDnEa dn dst => modifies .byte (readD .byte dn) (some dst)
  | .andWEaDn src _ => sourceOnly (readData .word src)
  | .andWDnEa dn dst => modifies .word (readD .word dn) (some dst)
  | .andLEaDn src _ => sourceOnly (readData .long src)
  | .andLDnEa dn dst => modifies .long (readD .long dn) (some dst)
  | .orBEaDn src _ => sourceOnly (readData .byte src)
  | .orBDnEa dn dst => modifies .byte (readD .byte dn) (some dst)
  | .orWEaDn src _ => sourceOnly (readData .word src)
  | .orWDnEa dn dst => modifies .word (readD .word dn) (some dst)
  | .orLEaDn src _ => sourceOnly (readData .long src)
  | .orLDnEa dn dst => modifies .long (readD .long dn) (some dst)
  | .eorB dn dst => modifies .byte (readD .byte dn) (altMem dst)
  | .eorW dn dst => modifies .word (readD .word dn) (altMem dst)
  | .eorL dn dst => modifies .long (readD .long dn) (altMem dst)
  | .cmpB src _ => sourceOnly (readData .byte src)
  | .cmpW src _ => sourceOnly (readAny .word src)
  | .cmpL src _ => sourceOnly (readAny .long src)
  | .mulu src _ => sourceOnly (readData .word src)
  | .muls src _ => sourceOnly (readData .word src)
  | .divu src _ => sourceOnly (readData .word src)
  | .divs src _ => sourceOnly (readData .word src)
  | .extW _ => registersOnly
  | .extL _ => registersOnly
  | .negB dst => modifies .byte (pure () : M Unit) (altMem dst)
  | .negW dst => modifies .word (pure () : M Unit) (altMem dst)
  | .negL dst => modifies .long (pure () : M Unit) (altMem dst)
  | .notB dst => modifies .byte (pure () : M Unit) (altMem dst)
  | .notW dst => modifies .word (pure () : M Unit) (altMem dst)
  | .notL dst => modifies .long (pure () : M Unit) (altMem dst)
  | .clrB dst => stores .byte (pure () : M Unit) (altMem dst)
  | .clrW dst => stores .word (pure () : M Unit) (altMem dst)
  | .clrL dst => stores .long (pure () : M Unit) (altMem dst)
  | .swap _ => registersOnly
  | .exgDD _ _ => registersOnly
  | .exgAA _ _ => registersOnly
  | .exgDA _ _ => registersOnly
  | .asrBImm _ _ => registersOnly
  | .asrBReg _ _ => registersOnly
  | .asrWImm _ _ => registersOnly
  | .asrWReg _ _ => registersOnly
  | .asrLImm _ _ => registersOnly
  | .asrLReg _ _ => registersOnly
  | .aslBImm _ _ => registersOnly
  | .aslBReg _ _ => registersOnly
  | .aslWImm _ _ => registersOnly
  | .aslWReg _ _ => registersOnly
  | .aslLImm _ _ => registersOnly
  | .aslLReg _ _ => registersOnly
  | .lsrBImm _ _ => registersOnly
  | .lsrBReg _ _ => registersOnly
  | .lsrWImm _ _ => registersOnly
  | .lsrWReg _ _ => registersOnly
  | .lsrLImm _ _ => registersOnly
  | .lsrLReg _ _ => registersOnly
  | .lslBImm _ _ => registersOnly
  | .lslBReg _ _ => registersOnly
  | .lslWImm _ _ => registersOnly
  | .lslWReg _ _ => registersOnly
  | .lslLImm _ _ => registersOnly
  | .lslLReg _ _ => registersOnly
  | .roxrBImm _ _ => registersOnly
  | .roxrBReg _ _ => registersOnly
  | .roxrWImm _ _ => registersOnly
  | .roxrWReg _ _ => registersOnly
  | .roxrLImm _ _ => registersOnly
  | .roxrLReg _ _ => registersOnly
  | .roxlBImm _ _ => registersOnly
  | .roxlBReg _ _ => registersOnly
  | .roxlWImm _ _ => registersOnly
  | .roxlWReg _ _ => registersOnly
  | .roxlLImm _ _ => registersOnly
  | .roxlLReg _ _ => registersOnly
  | .rorBImm _ _ => registersOnly
  | .rorBReg _ _ => registersOnly
  | .rorWImm _ _ => registersOnly
  | .rorWReg _ _ => registersOnly
  | .rorLImm _ _ => registersOnly
  | .rorLReg _ _ => registersOnly
  | .rolBImm _ _ => registersOnly
  | .rolBReg _ _ => registersOnly
  | .rolWImm _ _ => registersOnly
  | .rolWReg _ _ => registersOnly
  | .rolLImm _ _ => registersOnly
  | .rolLReg _ _ => registersOnly
  | .btstDyn dn src => sourceOnly (dynamicBit dn >>= fun _ => readData .byte src)
  | .btstStatic k src => sourceOnly (staticBit k >>= fun _ => readData .byte src)
  | .bchgDyn dn dst => modifies .byte (dynamicBit dn) (altMem dst)
  | .bchgStatic k dst => modifies .byte (staticBit k) (altMem dst)
  | .bclrDyn dn dst => modifies .byte (dynamicBit dn) (altMem dst)
  | .bclrStatic k dst => modifies .byte (staticBit k) (altMem dst)
  | .bsetDyn dn dst => modifies .byte (dynamicBit dn) (altMem dst)
  | .bsetStatic k dst => modifies .byte (staticBit k) (altMem dst)
  | .oriB imm dst => modifies .byte (readImm .byte imm) (altMem dst)
  | .oriW imm dst => modifies .word (readImm .word imm) (altMem dst)
  | .oriL imm dst => modifies .long (readImm .long imm) (altMem dst)
  | .andiB imm dst => modifies .byte (readImm .byte imm) (altMem dst)
  | .andiW imm dst => modifies .word (readImm .word imm) (altMem dst)
  | .andiL imm dst => modifies .long (readImm .long imm) (altMem dst)
  | .subiB imm dst => modifies .byte (readImm .byte imm) (altMem dst)
  | .subiW imm dst => modifies .word (readImm .word imm) (altMem dst)
  | .subiL imm dst => modifies .long (readImm .long imm) (altMem dst)
  | .addiB imm dst => modifies .byte (readImm .byte imm) (altMem dst)
  | .addiW imm dst => modifies .word (readImm .word imm) (altMem dst)
  | .addiL imm dst => modifies .long (readImm .long imm) (altMem dst)
  | .eoriB imm dst => modifies .byte (readImm .byte imm) (altMem dst)
  | .eoriW imm dst => modifies .word (readImm .word imm) (altMem dst)
  | .eoriL imm dst => modifies .long (readImm .long imm) (altMem dst)
  | .cmpiB imm dst => compares .byte (readImm .byte imm) (altMem dst)
  | .cmpiW imm dst => compares .word (readImm .word imm) (altMem dst)
  | .cmpiL imm dst => compares .long (readImm .long imm) (altMem dst)
  | .moveB src dst => stores .byte (readData .byte src) (altMem dst)
  | .moveL src dst => if moveRefused src dst then registersOnly else stores .long (readAny .long src) (altMem dst)
  | .moveW src dst => if moveRefused src dst then registersOnly else stores .word (readAny .word src) (altMem dst)
  | .bra disp => sourceOnly (readDisp disp)
  | .bhi disp => sourceOnly (readDisp disp)
  | .bls disp => sourceOnly (readDisp disp)
  | .bcc disp => sourceOnly (readDisp disp)
  | .bcs disp => sourceOnly (readDisp disp)
  | .bne disp => sourceOnly (readDisp disp)
  | .beq disp => sourceOnly (readDisp disp)
  | .bvc disp => sourceOnly (readDisp disp)
  | .bvs disp => sourceOnly (readDisp disp)
  | .bpl disp => sourceOnly (readDisp disp)
  | .bmi disp => sourceOnly (readDisp disp)
  | .bge disp => sourceOnly (readDisp disp)
  | .blt disp => sourceOnly (readDisp disp)
  | .bgt disp => sourceOnly (readDisp disp)
  | .ble disp => sourceOnly (readDisp disp)
  | .stop _ => sourceOnly fetchExt

end Sys2Proof.Claims
end

