-- ==== Sys2Proof/Machine/Launch.lean ====
section
/-! DEFINITION. The launch state of a program (R40, R291): what the environment chooses for a run, what
the spec leaves unspecified, and the state a run starts in. -/

namespace Sys2Proof.Machine

/-- What the environment gives a run (R7, R60, R291). -/
structure Program where
  /-- `ENTRY`, the address of the first instruction: the operand of the program's `END` (R291). -/
  entry : Long
  /-- `MemMap` (R60). -/
  memMap : List Region
  /-- `ProgramText` (R60, R68). -/
  progText : List Region
  /-- The assembled image: the bytes that instructions and `DC` data place, in the order of the text, a
  later byte at an address replacing an earlier one (log 10). -/
  image : List Host.Cell
deriving DecidableEq, Repr

/-- What the table of R40 leaves unspecified: every register, every flag, every byte of memory outside
the image. A claim holds for all values of these (R41). -/
structure LaunchValues where
  d : Vector Long 8
  a : Vector Long 8
  ccr : Ccr
  mem : Memory
  /-- The model's own field (log 13). -/
  freeCount : Nat
deriving DecidableEq, Repr

/-- `DC.B`: bytes placed from `org` upward (R291). -/
def bytesAt (org : Nat) : List Byte → List Host.Cell
  | [] => []
  | b :: bs => (org, b) :: bytesAt (org + 1) bs

/-- Instruction words and `DC.W`: words placed from `org` upward, each high byte first (R51). -/
def wordsAt (org : Nat) : List Word → List Host.Cell
  | [] => []
  | w :: ws =>
    (org, w.extractLsb' 8 8) :: (org + 1, w.extractLsb' 0 8) :: wordsAt (org + 2) ws

/-- Memory with the bytes of an image placed in it, in order. -/
def Memory.load (m : Memory) : List Host.Cell → Memory
  | [] => m
  | (x, v) :: rest => Memory.load (Memory.write m (byteAddr x 0) v) rest

/-- A program that can be launched: ENTRY is even and in `MemMap` (R291), and so is every byte of the
image (R50). -/
def Program.wf (p : Program) : Bool :=
  !p.entry.getLsbD 0 && inRegions p.memMap (byteAddr p.entry.toNat 0) &&
    p.image.all fun c => inRegions p.memMap (byteAddr c.1 0)

/-- The launch state (R40, R291): pc = ENTRY, status running, sr_high = $27 (supervisor mode, mask 7),
memory holding the image, everything else as it happens to be. -/
def State.launch (p : Program) (u : LaunchValues) : State where
  d := u.d
  a := u.a
  pc := p.entry
  ccr := u.ccr
  srHigh := 0x27#8
  mem := Memory.load u.mem p.image
  memMap := p.memMap
  progText := p.progText
  status := .running
  freeCount := u.freeCount

end Sys2Proof.Machine
end

