-- ==== Sys2Proof/Safety.lean ====
section
/-! DEFINITION. What counts as a safe state and a safe run, and the invariant of the machine, in the
terms the statements use. -/

namespace Sys2Proof.Machine

/-- No exception was taken. -/
def State.notFaulted (s : State) : Bool :=
  match s.status with
  | .running => true
  | .stopped => true
  | .faulted _ => false

/-- A final state: no step is enabled (R293, U16). -/
def State.final (s : State) : Bool :=
  match s.status with
  | .running => false
  | .stopped => true
  | .faulted _ => true

/-- The invariant of every run: memory is in its canonical form, pc is even (R26), and while the machine
runs sr_high is $27, that is T = 0, S = 1 and mask 7 (R35, R271). -/
def State.Inv (s : State) : Prop :=
  Memory.wf s.mem = true ∧ s.pc.getLsbD 0 = false ∧
    (s.status = .running → s.srHigh = 0x27#8)

/-- `k` steps from `s` all answer a next state, the last of them `t`. -/
def runs : Nat → State → State → Prop
  | 0, s, t => s = t
  | k + 1, s, t => ∃ u, step s = .next u ∧ runs k u t

/-- A safe run from `s`: no state it reaches has taken an exception. -/
def SafeFrom (s : State) : Prop := ∀ k t, runs k s t → t.notFaulted = true

end Sys2Proof.Machine
end

