-- ==== Sys2Proof/Certificates/Slice0/Vocabulary.lean ====
section
/-! DEFINITION. The words the statements are written in: the spec's laws as relations between
operands, result and flags, stated on numbers and bits and not with the model's own functions, and the
shapes in which an instruction completes together with its frame. -/

namespace Sys2Proof.Claims

open Sys2Proof.Machine

/-! ## The spec's laws -/

/-- A signed value of width n: between TMin and TMax (R122). -/
def SignedFits (n : Nat) (x : Int) : Prop := -(2 ^ (n - 1) : Int) ≤ x ∧ x < (2 ^ (n - 1) : Int)

/-- `NZ_n(r)`: N is the sign of the result, Z says it is zero (R13). -/
def NZ {n : Nat} (r : BitVec n) (k : Ccr) : Prop :=
  (k.n = true ↔ r.toInt < 0) ∧ (k.z = true ↔ r.toNat = 0)

/-- A law: source, destination, flags before, result, flags after. -/
abbrev Law := {n : Nat} → BitVec n → BitVec n → Ccr → BitVec n → Ccr → Prop

/-- Addition (R125): the sum modulo 2^n; C the carry out; V exactly when the signed sum does not fit;
X the same as C. -/
def AddLaw : Law := fun {n} a b _ r k =>
  r.toNat = (a.toNat + b.toNat) % 2 ^ n ∧ (k.c = true ↔ 2 ^ n ≤ a.toNat + b.toNat) ∧
    (k.v = true ↔ ¬SignedFits n (a.toInt + b.toInt)) ∧ k.x = k.c ∧ NZ r k

/-- N, Z, V and C of the subtraction destination less source (R126): C exactly when a borrow is needed;
V exactly when the signed difference does not fit. -/
def DiffFlags {n : Nat} (a b r : BitVec n) (k : Ccr) : Prop :=
  (r.toNat : Int) = ((b.toNat : Int) - a.toNat) % 2 ^ n ∧ (k.c = true ↔ b.toNat < a.toNat) ∧
    (k.v = true ↔ ¬SignedFits n (b.toInt - a.toInt)) ∧ NZ r k

/-- Subtraction (R126): X the same as C. -/
def SubLaw : Law := fun a b _ r k => DiffFlags a b r k ∧ k.x = k.c

/-- N and Z from the result, V and C cleared, X kept (R169). -/
def LogicFlags {n : Nat} (r : BitVec n) (old k : Ccr) : Prop :=
  NZ r k ∧ k.v = false ∧ k.c = false ∧ k.x = old.x

/-- A logic instruction: every bit of the result is the table of R171 applied to the bits in the same
position (`f`), the flags as R169. -/
def LogicLaw (f : Bool → Bool → Bool) : Law := fun {n} a b old r k =>
  (∀ i, i < n → r.getLsbD i = f (a.getLsbD i) (b.getLsbD i)) ∧ LogicFlags r old k

/-! ## What an instruction leaves unchanged -/

/-- Everything but the data registers and the flags. -/
def SameButDataCcr (s t : State) : Prop :=
  t.a = s.a ∧ t.pc = s.pc ∧ t.srHigh = s.srHigh ∧ t.mem = s.mem ∧ t.memMap = s.memMap ∧
    t.progText = s.progText ∧ t.status = s.status ∧ t.freeCount = s.freeCount

/-- Everything but memory and the flags. -/
def SameButMemCcr (s t : State) : Prop :=
  t.d = s.d ∧ t.a = s.a ∧ t.pc = s.pc ∧ t.srHigh = s.srHigh ∧ t.memMap = s.memMap ∧
    t.progText = s.progText ∧ t.status = s.status ∧ t.freeCount = s.freeCount

/-- Everything but the flags. -/
def SameButCcr (s t : State) : Prop := t.d = s.d ∧ SameButDataCcr s t

/-- `D[r]` holds `v` in its low n bits and keeps the bits above (R128); every other register, all of
memory and all else but the flags is as in `s`. -/
def DnBecomes (sz : Size) (s t : State) (r : Reg) (v : BitVec sz.bits) : Prop :=
  (∀ i, i < sz.bits → (t.dreg r).getLsbD i = v.getLsbD i) ∧
    (∀ i, sz.bits ≤ i → (t.dreg r).getLsbD i = (s.dreg r).getLsbD i) ∧
    (∀ q, q ≠ r → t.dreg q = s.dreg q) ∧ SameButDataCcr s t

/-- Byte `x` is one of the `sz` bytes stored at `addr` (R53, R61). -/
def StoredByte (sz : Size) (addr : Long) (x : Nat) : Prop :=
  ∃ i, i < sz.bytes ∧ x = byteAddr (busAddr addr) i

/-- Memory holds `v` at `addr`, every other byte of memory and all else but the flags is as in `s`. -/
def MemBecomes (sz : Size) (s t : State) (addr : Long) (v : BitVec sz.bits) : Prop :=
  t.valueAt addr sz = v ∧ (∀ x, ¬StoredByte sz addr x → t.byteAt x = s.byteAt x) ∧
    SameButMemCcr s t

/-! ## How an instruction completes -/

/-- `OP src,Dn` answers a next state for every state in which the source can be read (the state `s1`
with value `a` after that read): `Dn` becomes the law's result and the flags the law's flags. -/
def CompletesToDn (law : Law) (sz : Size) (src : M (BitVec sz.bits)) (i : Instr) (r : Reg) : Prop :=
  ∀ s s1 a, src s.afterOpword = .ok a s1 →
    ∃ t v, exec i s = .next t ∧ DnBecomes sz s1 t r v ∧
      law a ((s1.dreg r).setWidth sz.bits) s1.ccr v t.ccr

/-- `OP src,<ea>` with `<ea>` in memory answers a next state for every state in which the source can be
read, the address `addr` be computed, and the operand be read and written there: memory at `addr`
becomes the law's result and the flags the law's flags. -/
def CompletesToMem (law : Law) (sz : Size) (src : M (BitVec sz.bits)) (i : Instr) (m : MemEa) :
    Prop :=
  ∀ s s1 s2 a addr, src s.afterOpword = .ok a s1 → resolveMem sz m s1 = .ok addr s2 →
    writeFault s2 addr sz = none →
    ∃ t v, exec i s = .next t ∧ MemBecomes sz s2 t addr v ∧
      law a (s2.valueAt addr sz) s2.ccr v t.ccr

/-- `OP src,<ea>` for a data alterable `<ea>`. -/
def CompletesToEa (law : Law) (sz : Size) (src : M (BitVec sz.bits)) (i : Instr)
    (dst : DataAltEa) : Prop :=
  match dst with
  | .dn r => CompletesToDn law sz src i r
  | .mem m => CompletesToMem law sz src i m

/-- `OP <ea>,Dn`, `OP Dn,<ea>` and `OPI #imm,<ea>` of an operation at its three sizes, given as the
constructors' names; the byte form of `<ea>,Dn` takes `DataEa`. -/
def CompletesAllForms (law : Law)
    (bTo : DataEa → Reg → Instr) (wTo lTo : AnyEa → Reg → Instr)
    (bMem wMem lMem : Reg → MemEa → Instr)
    (bImm : Byte → DataAltEa → Instr) (wImm : Word → DataAltEa → Instr)
    (lImm : Long → DataAltEa → Instr) : Prop :=
  (∀ e r, CompletesToDn law .byte (readData .byte e) (bTo e r) r) ∧
  (∀ e r, CompletesToDn law .word (readAny .word e) (wTo e r) r) ∧
  (∀ e r, CompletesToDn law .long (readAny .long e) (lTo e r) r) ∧
  (∀ m r, CompletesToMem law .byte (readD .byte r) (bMem r m) m) ∧
  (∀ m r, CompletesToMem law .word (readD .word r) (wMem r m) m) ∧
  (∀ m r, CompletesToMem law .long (readD .long r) (lMem r m) m) ∧
  (∀ v e, CompletesToEa law .byte (readImm .byte v) (bImm v e) e) ∧
  (∀ v e, CompletesToEa law .word (readImm .word v) (wImm v e) e) ∧
  (∀ v e, CompletesToEa law .long (readImm .long v) (lImm v e) e)

/-- A source of word and long size of a logic instruction excludes `An`. -/
def CompletesLogicForms (f : Bool → Bool → Bool)
    (bTo wTo lTo : DataEa → Reg → Instr) (bMem wMem lMem : Reg → MemEa → Instr)
    (bImm : Byte → DataAltEa → Instr) (wImm : Word → DataAltEa → Instr)
    (lImm : Long → DataAltEa → Instr) : Prop :=
  (∀ e r, CompletesToDn (LogicLaw f) .byte (readData .byte e) (bTo e r) r) ∧
  (∀ e r, CompletesToDn (LogicLaw f) .word (readData .word e) (wTo e r) r) ∧
  (∀ e r, CompletesToDn (LogicLaw f) .long (readData .long e) (lTo e r) r) ∧
  (∀ m r, CompletesToMem (LogicLaw f) .byte (readD .byte r) (bMem r m) m) ∧
  (∀ m r, CompletesToMem (LogicLaw f) .word (readD .word r) (wMem r m) m) ∧
  (∀ m r, CompletesToMem (LogicLaw f) .long (readD .long r) (lMem r m) m) ∧
  (∀ v e, CompletesToEa (LogicLaw f) .byte (readImm .byte v) (bImm v e) e) ∧
  (∀ v e, CompletesToEa (LogicLaw f) .word (readImm .word v) (wImm v e) e) ∧
  (∀ v e, CompletesToEa (LogicLaw f) .long (readImm .long v) (lImm v e) e)

/-- A one-operand instruction: `law` is used with the operand as its source. On a data register it
completes in every state; in memory wherever the operand's address can be computed and the operand
be read and written. -/
def CompletesUnary (law : Law) (sz : Size) (i : DataAltEa → Instr) : Prop :=
  (∀ s r, ∃ t v, exec (i (.dn r)) s = .next t ∧ DnBecomes sz s.afterOpword t r v ∧
    law ((s.dreg r).setWidth sz.bits) (0#sz.bits) s.ccr v t.ccr) ∧
  (∀ s s1 m addr, resolveMem sz m s.afterOpword = .ok addr s1 → writeFault s1 addr sz = none →
    ∃ t v, exec (i (.mem m)) s = .next t ∧ MemBecomes sz s1 t addr v ∧
      law (s1.valueAt addr sz) (0#sz.bits) s1.ccr v t.ccr)

/-- A comparison of source `a` with destination `b`: only N, Z, V and C are written, as a subtraction
sets them (R232). -/
def Compared {n : Nat} (a b : BitVec n) (s t : State) : Prop :=
  SameButCcr s t ∧ t.ccr.x = s.ccr.x ∧ DiffFlags a b (b - a) t.ccr

/-- `CMP <ea>,Dn`. -/
def CompletesCompareDn (sz : Size) (src : M (BitVec sz.bits)) (i : Instr) (r : Reg) : Prop :=
  ∀ s s1 a, src s.afterOpword = .ok a s1 →
    ∃ t, exec i s = .next t ∧ Compared a ((s1.dreg r).setWidth sz.bits) s1 t

/-- `CMPI #imm,<ea>`: `s1` is the state after the immediate was fetched. -/
def CompletesCompareImm (sz : Size) (v : BitVec sz.bits) (i : DataAltEa → Instr) : Prop :=
  ∀ s s1, fetchImm sz s.afterOpword = .ok () s1 →
    (∀ r, ∃ t, exec (i (.dn r)) s = .next t ∧ Compared v ((s1.dreg r).setWidth sz.bits) s1 t) ∧
    (∀ m addr s2, resolveMem sz m s1 = .ok addr s2 → accessFault s2 .read addr sz = none →
      ∃ t, exec (i (.mem m)) s = .next t ∧ Compared v (s2.valueAt addr sz) s2 t)

/-! ## Shifts and rotates -/

/-- A shift law: value, count, X before, result, flags after. -/
abbrev ShiftLaw := {n : Nat} → BitVec n → Nat → Bool → BitVec n → Ccr → Prop

/-- Both count forms at one size: the instruction completes in every state, only `Dy` and the flags
change, and value, count and X are related to the result and the flags by the law. -/
def CompletesShift (law : ShiftLaw) (sz : Size) (imm reg : BitVec 3 → Reg → Instr) : Prop :=
  (∀ s ccc y, ∃ t v, exec (imm ccc y) s = .next t ∧ DnBecomes sz s.afterOpword t y v ∧
    law ((s.dreg y).setWidth sz.bits) (if ccc.toNat = 0 then 8 else ccc.toNat) s.ccr.x v t.ccr) ∧
  (∀ s x y, ∃ t v, exec (reg x y) s = .next t ∧ DnBecomes sz s.afterOpword t y v ∧
    law ((s.dreg y).setWidth sz.bits) ((s.dreg x).toNat % 64) s.ccr.x v t.ccr)

/-- X is C after a shift by at least one, unaffected by a count of zero (R189). -/
def XFollowsC (cnt : Nat) (x : Bool) (k : Ccr) : Prop := k.x = if cnt = 0 then x else k.c

/-- ASL (R180, R190, R131): times 2^cnt; C the last bit out; V exactly when the signed product does not
fit. -/
def AslLaw : ShiftLaw := fun {n} v cnt x r k =>
  r.toNat = v.toNat * 2 ^ cnt % 2 ^ n ∧
    k.c = (if cnt = 0 then false else if cnt ≤ n then v.getLsbD (n - cnt) else false) ∧
    (k.v = true ↔ ¬SignedFits n (v.toInt * 2 ^ cnt)) ∧ XFollowsC cnt x k ∧ NZ r k

/-- LSL (R182, R190): as ASL with V always cleared. -/
def LslLaw : ShiftLaw := fun {n} v cnt x r k =>
  r.toNat = v.toNat * 2 ^ cnt % 2 ^ n ∧
    k.c = (if cnt = 0 then false else if cnt ≤ n then v.getLsbD (n - cnt) else false) ∧
    k.v = false ∧ XFollowsC cnt x k ∧ NZ r k

/-- ASR (R181, R190, R131): the floor of the signed value by 2^cnt. -/
def AsrLaw : ShiftLaw := fun {n} v cnt x r k =>
  r.toInt = v.toInt.fdiv (2 ^ cnt) ∧
    k.c = (if cnt = 0 then false else if cnt ≤ n then v.getLsbD (cnt - 1) else v.getLsbD (n - 1)) ∧
    k.v = false ∧ XFollowsC cnt x k ∧ NZ r k

/-- LSR (R183, R190): the floor of the unsigned value by 2^cnt. -/
def LsrLaw : ShiftLaw := fun {n} v cnt x r k =>
  r.toNat = v.toNat / 2 ^ cnt ∧
    k.c = (if cnt = 0 then false else if cnt ≤ n then v.getLsbD (cnt - 1) else false) ∧
    k.v = false ∧ XFollowsC cnt x k ∧ NZ r k

/-- ROL (R184, R190): bit i goes to bit (i + cnt) mod n; C is bit 0 of the result; X not affected. -/
def RolLaw : ShiftLaw := fun {n} v cnt x r k =>
  (∀ i, i < n → r.getLsbD ((i + cnt) % n) = v.getLsbD i) ∧
    k.c = (if cnt = 0 then false else r.getLsbD 0) ∧ k.v = false ∧ k.x = x ∧ NZ r k

/-- ROR (R185, R190): bit (i + cnt) mod n goes to bit i; C is the top bit of the result; X not
affected. -/
def RorLaw : ShiftLaw := fun {n} v cnt x r k =>
  (∀ i, i < n → r.getLsbD i = v.getLsbD ((i + cnt) % n)) ∧
    k.c = (if cnt = 0 then false else r.getLsbD (n - 1)) ∧ k.v = false ∧ k.x = x ∧ NZ r k

/-- Bit i of the ring of n+1 bits, the value with X on top (R186). -/
def ringBit {n : Nat} (v : BitVec n) (x : Bool) (i : Nat) : Bool :=
  if i < n then v.getLsbD i else x

/-- ROXL (R186, R190): the ring turned left by cnt; C is the new X for every count, zero included. -/
def RoxlLaw : ShiftLaw := fun {n} v cnt x r k =>
  (∀ i, i ≤ n → ringBit r k.x ((i + cnt) % (n + 1)) = ringBit v x i) ∧ k.c = k.x ∧
    k.v = false ∧ NZ r k

/-- ROXR (R187, R190): the ring turned right by cnt; C is the new X for every count, zero included. -/
def RoxrLaw : ShiftLaw := fun {n} v cnt x r k =>
  (∀ i, i ≤ n → ringBit r k.x i = ringBit v x ((i + cnt) % (n + 1))) ∧ k.c = k.x ∧
    k.v = false ∧ NZ r k

/-! ## Bits -/

/-- Bit `b` of `new` is `bit`, every other bit is as in `old`. -/
def BitBecomes {n : Nat} (old new : BitVec n) (b : Nat) (bit : Bool) : Prop :=
  new.getLsbD b = bit ∧ ∀ i, i ≠ b → new.getLsbD i = old.getLsbD i

/-- Only Z changes, and it says that the tested bit was zero (R214). -/
def ZTests (bit : Bool) (old k : Ccr) : Prop := k = { old with z := !bit }

/-- A bit instruction that writes: `f` gives the new bit from the old. `number` reads the bit number,
taken modulo 32 for a data register and modulo 8 in memory. -/
def CompletesBitChange (f : Bool → Bool) (number : M Nat) (i : DataAltEa → Instr) : Prop :=
  ∀ s s1 k, number s.afterOpword = .ok k s1 →
    (∀ r, ∃ t v, exec (i (.dn r)) s = .next t ∧ DnBecomes .long s1 t r v ∧
      BitBecomes (s1.dreg r) v (k % 32) (f ((s1.dreg r).getLsbD (k % 32))) ∧
      ZTests ((s1.dreg r).getLsbD (k % 32)) s1.ccr t.ccr) ∧
    (∀ m addr s2, resolveMem .byte m s1 = .ok addr s2 → writeFault s2 addr .byte = none →
      ∃ t v, exec (i (.mem m)) s = .next t ∧ MemBecomes .byte s2 t addr v ∧
        BitBecomes (s2.valueAt addr .byte) v (k % 8)
          (f ((s2.valueAt addr .byte).getLsbD (k % 8))) ∧
        ZTests ((s2.valueAt addr .byte).getLsbD (k % 8)) s2.ccr t.ccr)

/-- BTST: nothing but Z is written. -/
def CompletesBitTest (number : M Nat) (i : DataEa → Instr) : Prop :=
  ∀ s s1 k, number s.afterOpword = .ok k s1 →
    (∀ r, ∃ t, exec (i (.alt (.dn r))) s = .next t ∧ SameButCcr s1 t ∧
      ZTests ((s1.dreg r).getLsbD (k % 32)) s1.ccr t.ccr) ∧
    (∀ e v s2, (∀ r, e ≠ .alt (.dn r)) → readData .byte e s1 = .ok v s2 →
      ∃ t, exec (i e) s = .next t ∧ SameButCcr s2 t ∧
        ZTests (v.getLsbD (k % 8)) s2.ccr t.ccr)

/-! ## Branches -/

/-- The displacement of a branch as a 32-bit value (R100). -/
def dispValue : Disp → Long
  | .short d => d.signExtend 32
  | .long d => d.signExtend 32

/-- How far pc is past the opword when the branch is not taken (R240). -/
def dispBytes : Disp → Long
  | .short _ => 0#32
  | .long _ => 2#32

/-- The words of the displacement can be fetched in `s`, pc standing after the opword. -/
def DispReadable (d : Disp) (s : State) : Prop :=
  match d with
  | .short _ => True
  | .long _ => accessFault s .fetch s.pc .word = none

/-- A branch whose condition is `cond` of the flags: taken, it sets pc to the address of the opword plus
2 plus the displacement if that is even, and takes AddressError with nothing else written if it is
odd; not taken, it goes on behind its words. Nothing else changes. (Displacement 0 in a long branch: log
26.) -/
def CompletesBranch (cond : Ccr → Prop) (i : Disp → Instr) : Prop :=
  ∀ s d, DispReadable d s.afterOpword →
    (cond s.ccr → (s.pc + 2#32 + dispValue d).toNat % 2 = 0 →
      exec (i d) s = .next (s.setPc (s.pc + 2#32 + dispValue d))) ∧
    (cond s.ccr → (s.pc + 2#32 + dispValue d).toNat % 2 = 1 →
      exec (i d) s = .next (takeException (.addressError (s.pc + 2#32 + dispValue d) .fetch) s.pc
        (s.setPc (s.pc + 2#32 + dispBytes d)))) ∧
    (¬cond s.ccr → exec (i d) s = .next (s.setPc (s.pc + 2#32 + dispBytes d)))

/-- The branches with the conditions of the table of R239. -/
def branchTable : List ((Ccr → Prop) × (Disp → Instr)) :=
  [(fun _ => True, .bra), (fun k => k.c = false ∧ k.z = false, .bhi),
    (fun k => k.c = true ∨ k.z = true, .bls), (fun k => k.c = false, .bcc),
    (fun k => k.c = true, .bcs), (fun k => k.z = false, .bne), (fun k => k.z = true, .beq),
    (fun k => k.v = false, .bvc), (fun k => k.v = true, .bvs), (fun k => k.n = false, .bpl),
    (fun k => k.n = true, .bmi), (fun k => k.n = k.v, .bge), (fun k => k.n ≠ k.v, .blt),
    (fun k => k.z = false ∧ k.n = k.v, .bgt), (fun k => k.z = true ∨ k.n ≠ k.v, .ble)]

/-! ## Effective addresses -/

/-- The index register's value (R95). -/
def indexOf (s : State) (ix : IndexExt) : Long :=
  let v := if ix.isAddr then s.areg ix.xn else s.dreg ix.xn
  if ix.long then v else (v.extractLsb' 0 16).signExtend 32

/-- The step of `(An)+` and `-(An)` (R91): 1, 2 or 4 bytes, but 2 for a byte through A7. -/
def stepOf (sz : Size) (r : Reg) : Long :=
  match sz with
  | .byte => if r = 7#3 then 2#32 else 1#32
  | .word => 2#32
  | .long => 4#32

/-- The address each memory alterable mode names, pc standing at its first extension word (R91). -/
def addressOf (sz : Size) (s : State) : MemEa → Long
  | .ind r => s.areg r
  | .postInc r => s.areg r
  | .preDec r => s.areg r - stepOf sz r
  | .disp r d => s.areg r + d.signExtend 32
  | .index r ix => s.areg r + indexOf s ix + ix.d8.signExtend 32
  | .absW w => w.signExtend 32
  | .absL a => a

/-- How many extension words the mode has (R92). -/
def wordsOf : MemEa → Nat
  | .ind _ => 0
  | .postInc _ => 0
  | .preDec _ => 0
  | .disp _ _ => 1
  | .index _ _ => 1
  | .absW _ => 1
  | .absL _ => 2

/-- The state after the mode was resolved: pc past its extension words, `(An)+` and `-(An)` applied. -/
def resolved (sz : Size) (s : State) : MemEa → State
  | .ind _ => s
  | .postInc r => s.setA r (s.areg r + stepOf sz r)
  | .preDec r => s.setA r (s.areg r - stepOf sz r)
  | .disp _ _ => s.setPc (s.pc + 2#32)
  | .index _ _ => s.setPc (s.pc + 2#32)
  | .absW _ => s.setPc (s.pc + 2#32)
  | .absL _ => s.setPc (s.pc + 4#32)

/-- The next `n` words at pc can be fetched. -/
def Fetchable (s : State) (n : Nat) : Prop :=
  ∀ k, k < n → accessFault s .fetch (s.pc + BitVec.ofNat 32 (2 * k)) .word = none

/-- Of the next `n` words at pc, a part of an instruction fetches one after the other: where word `k` is
the first that cannot be fetched, it raises what MemRead raises there, pc at that word and nothing
else changed (R65, R94, R267; where pc stands is log 9). -/
def StopsAtFetch {α : Type} (m : M α) (n : Nat) (s : State) : Prop :=
  ∀ k e, k < n → Fetchable s k →
    memRead .fetch (s.pc + BitVec.ofNat 32 (2 * k)) .word s = .error e s →
    m s = .error e (s.setPc (s.pc + BitVec.ofNat 32 (2 * k)))

/-! ## The image of a program -/

/-- The byte an image places at address `x`, the last one if it places several (R291). -/
def imageByte : List Host.Cell → Nat → Option Byte
  | [], _ => none
  | (a, v) :: rest, x =>
    match imageByte rest x with
    | some w => some w
    | none => if byteAddr a 0 = x then some v else none

end Sys2Proof.Claims
end

