-- ==== Sys2Proof/Certificates/Slice0/Obligations.lean ====
section
/-! DEFINITION. The statements for the provers, in the words of Vocabulary.lean. -/

open Sys2Proof Sys2Proof.Machine Sys2Proof.Claims

/-- For every well-formed instruction, whatever words follow, the decoder reads from its encoding
exactly that instruction and leaves exactly the words that follow. (R80, R83, R105, R112) -/
def Obligations.DecodeOfEncode : Prop :=
  ∀ (i : Instr) (rest : List Word), i.wf = true → decode (encode i ++ rest) = .ok (i, rest)

/-- If the decoder reads an instruction from an opword and the words after it, the instruction is
well-formed, its encoding begins with exactly that opword (no bit of the opword is dropped), and
exactly its number of extension words, at most four, is consumed. (R80, R105, R110, R112) -/
def Obligations.EncodeOfDecode : Prop :=
  ∀ (w : Word) (ws rest : List Word) (i : Instr), decode (w :: ws) = .ok (i, rest) →
    i.wf = true ∧ i.opword = w ∧ i.extWords ≤ 4 ∧
      ∃ ext : List Word, ext.length = i.extWords ∧ ws = ext ++ rest

/-- ADD.L D1,D0 (D081), ADD.W #$1234,D0 (D07C 1234), MOVE.W D0,2(A0) (3140 0002), EXG D0,A1 (C189),
ROXR.W #4,D0 (E850), BTST #12,(A0) (0810 000C), BNE *-12 (66F2), MOVE.L $2004,D0 (2039 0000 2004)
and STOP #$2700 (4E72 2700) decode so. (30_encoding.md R117, 95_test_vectors.md section 2) -/
def Obligations.DecodesSpecWords : Prop :=
  decode [0xD081#16] = .ok (.addLEaDn (.data (.alt (.dn 1#3))) 0#3, []) ∧
  decode [0xD07C#16, 0x1234#16] = .ok (.addWEaDn (.data (.imm 0x1234#32)) 0#3, []) ∧
  decode [0x3140#16, 0x0002#16] =
    .ok (.moveW (.data (.alt (.dn 0#3))) (.mem (.disp 0#3 2#16)), []) ∧
  decode [0xC189#16] = .ok (.exgDA 0#3 1#3, []) ∧
  decode [0xE850#16] = .ok (.roxrWImm 4#3 0#3, []) ∧
  decode [0x0810#16, 0x000C#16] = .ok (.btstStatic 12#8 (.alt (.mem (.ind 0#3))), []) ∧
  decode [0x66F2#16] = .ok (.bne (.short 0xF2#8), []) ∧
  decode [0x2039#16, 0x0000#16, 0x2004#16] =
    .ok (.moveL (.data (.alt (.mem (.absL 0x2004#32)))) (.dn 0#3), []) ∧
  decode [0x4E72#16, 0x2700#16] = .ok (.stop 0x2700#16, [])

/-- BSR, ADDA.W, the memory shift, ORI to CCR, RTE, NOP, MOVEQ, ADDQ, TST, ADDX, MOVEA, lines A and F,
ADD.B A1,D0, BSET #4,#imm and MOVE.L A0,-(A0) are read as no instruction. (R106, R110,
95_test_vectors.md section 2, "Refused opwords") -/
def Obligations.RefusedOpwords : Prop :=
  ∀ (w : Word), w ∈ [0x6100#16, 0xD0C0#16, 0xE3D0#16, 0x003C#16, 0x4E73#16, 0x4E71#16, 0x7000#16,
      0x5200#16, 0x4A00#16, 0xD101#16, 0x2040#16, 0xA000#16, 0xF000#16, 0xD009#16, 0x08FC#16,
      0x2108#16] →
    ∀ (ws rest : List Word) (i : Instr), decode (w :: ws) ≠ .ok (i, rest)

/-- In a running state whose opword can be fetched and whose words decode to an instruction i, step at
that state is exec of i at that state (exec itself moves pc past the words). (R25, R112,
70_reset_and_hazards.md R293) -/
def Obligations.StepRunsDecodedInstruction : Prop :=
  ∀ (s : State) (i : Instr) (rest : List Word), s.status = .running →
    accessFault s .fetch s.pc .word = none →
    decode (s.valueAt s.pc .word :: peekWords s.afterOpword 4 (s.pc + 2#32)) = .ok (i, rest) →
    step s = exec i s

/-- For every running state whose memory holds, as big-endian words from pc upward, the encoding of a
well-formed instruction, all of them fetchable: step at that state is exec of that instruction at
that state, whatever stands behind it. (R51, R80, R112) -/
def Obligations.EncodedInstructionRuns : Prop :=
  ∀ (s : State) (i : Instr), s.status = .running → i.wf = true →
    (∀ (k : Nat) (w : Word), (encode i)[k]? = some w →
      accessFault s .fetch (s.pc + BitVec.ofNat 32 (2 * k)) .word = none ∧
        s.valueAt (s.pc + BitVec.ofNat 32 (2 * k)) .word = w) →
    step s = exec i s

/-- In a running state: at an odd pc the step takes AddressError (fetch, the bus address, the
instruction address pc) and changes nothing else; at an even pc with an unmapped byte of the
opword it takes BusError (fetch) at the first such byte and changes nothing else; if the opword is
fetched and the decoder refuses it, the step takes IllegalInstruction with the opword and pc, and
only pc has moved past the opword. That pc stands past the opword alone when the refusal is for a
reserved brief extension word is the reading of log 11. (R26, R262, R263, R264, R267,
notes/assumptions/11.md) -/
def Obligations.FetchAndDecodeExceptions : Prop :=
  ∀ (s : State), s.status = .running →
    (busAddr s.pc % 2 = 1 → step s = .next (takeException
      (.addressError (BitVec.ofNat 32 (busAddr s.pc)) .fetch) s.pc s)) ∧
    (busAddr s.pc % 2 = 0 → inRegions s.memMap (busAddr s.pc) = false →
      step s = .next (takeException (.busError (BitVec.ofNat 32 (busAddr s.pc)) .fetch) s.pc s)) ∧
    (busAddr s.pc % 2 = 0 → inRegions s.memMap (busAddr s.pc) = true →
      inRegions s.memMap (byteAddr (busAddr s.pc) 1) = false →
      step s = .next (takeException
        (.busError (BitVec.ofNat 32 (busAddr s.pc + 1)) .fetch) s.pc s)) ∧
    (accessFault s .fetch s.pc .word = none →
      (∀ i rest, decode (s.valueAt s.pc .word :: peekWords s.afterOpword 4 (s.pc + 2#32))
        ≠ .ok (i, rest)) →
      step s = .next (takeException (.illegalInstruction (s.valueAt s.pc .word)) s.pc
        s.afterOpword))

/-- A running state always has a next state: no instruction is refused and none stops with a fault. A
stopped state and a faulted state have none: the step answers the fault that says why. (R39, R268,
93_implementation_defined.md U16) -/
def Obligations.StepEnabledOnlyWhileRunning : Prop :=
  (∀ s : State, s.status = .running → ∃ t, step s = .next t) ∧
  (∀ s : State, s.status = .stopped → step s = .fault .haltedByStop) ∧
  (∀ (s : State) (r : ExcRecord), s.status = .faulted r → step s = .fault .haltedByException)

/-- If a step from a running state gives a state that is no longer running, then either the
instruction at pc was STOP and the state is stopped, or the state is faulted with the address of
that instruction in its record. (R39, R245, R293) -/
def Obligations.OnlyStopAndExceptionsEndARun : Prop :=
  ∀ s t : State, s.status = .running → step s = .next t → t.status ≠ .running →
    (t.status = .stopped ∧ ∃ imm, fetchInstr s = .instr (.stop imm)) ∨
      ∃ e, t.status = .faulted ⟨e, s.pc⟩

/-- For every running state: if the step ends faulted, the record holds the address of the
instruction, and every data register, every flag, sr_high, every byte of memory, the map and the
program text are as before the step. Only pc and an address register of an (An)+ or -(An) operand
may have changed. (R149, R268, R58) -/
def Obligations.ExceptionWritesNothing : Prop :=
  ∀ (s t : State) (r : ExcRecord), s.status = .running → step s = .next t →
    t.status = .faulted r →
    r.instrAddr = s.pc ∧ t.d = s.d ∧ t.ccr = s.ccr ∧ t.srHigh = s.srHigh ∧ t.mem = s.mem ∧
      t.memMap = s.memMap ∧ t.progText = s.progText ∧ t.freeCount = s.freeCount ∧
      (∀ i, fetchInstr s = .instr i → ∀ q, q ∉ (footprint i).aregs → t.areg q = s.areg q) ∧
      ((∀ i, fetchInstr s ≠ .instr i) → t.a = s.a)

/-- From every state, whatever sr_high holds, no step takes PrivilegeViolation, at any address. (R260,
R265, R271, 92_eei_decisions.md D12) -/
def Obligations.PrivilegeViolationNeverRaised : Prop :=
  ∀ (s t : State) (pc : Long), step s = .next t → t.status ≠ .faulted ⟨.privilegeViolation, pc⟩

/-- At launch the status is running and sr_high is $27 (S set, T clear, mask 7), as the table of R40
says. The value of pc and the zeros of the registers are the model's choices (log 2, 3) and are
not claimed here. (R40, notes/assumptions/2.md, notes/assumptions/3.md) -/
def Obligations.ResetIsTheLaunchState : Prop :=
  State.reset.status = .running ∧ State.reset.srHigh = 0x27#8 ∧
  State.reset.srHigh.getLsbD 5 = true ∧ State.reset.srHigh.getLsbD 7 = false ∧
  State.reset.srHigh.extractLsb' 0 3 = 7#3

/-- The launch state has canonical memory, an even pc, and sr_high = $27 (supervisor mode, T clear,
mask 7). That pc is the even address $1000 is the model's choice (log 2). (R26, R40, R291,
notes/assumptions/2.md) -/
def Obligations.ResetKeepsInvariant : Prop :=
  State.reset.Inv

/-- From every state of the invariant (memory canonical, pc even, sr_high = $27 while the status is
running), reached or not, a step that answers a next state gives a state of the invariant. (R26,
R35, R271, R240) -/
def Obligations.StepKeepsInvariant : Prop :=
  ∀ s t : State, s.Inv → step s = .next t → t.Inv

/-- For every state and every step that answers a next state: MemMap and ProgramText are as before,
and every byte that lies in ProgramText, or does not lie in MemMap, reads as before. (R53, R60,
R68) -/
def Obligations.ProgramTextIsNeverWritten : Prop :=
  ∀ s t : State, step s = .next t →
    t.memMap = s.memMap ∧ t.progText = s.progText ∧
      ∀ x, (inRegions s.progText x = true ∨ inRegions s.memMap x = false) →
        t.byteAt x = s.byteAt x

/-- For every instruction and state, if exec answers a next state: every data register the instruction
does not name as its destination, every address register it does not update ((An)+, -(An), EXG) is
unchanged; sr_high is unchanged unless it is STOP; MemMap and ProgramText are unchanged; the count
of free bits is unchanged unless it is a divide. (R23, R94, R149, R161, R245) -/
def Obligations.RegisterFrame : Prop :=
  ∀ (i : Instr) (s t : State), exec i s = .next t →
    (∀ q, q ∉ (footprint i).dregs → t.dreg q = s.dreg q) ∧
    (∀ q, q ∉ (footprint i).aregs → t.areg q = s.areg q) ∧
    ((∀ imm, i ≠ .stop imm) → t.srHigh = s.srHigh) ∧
    t.memMap = s.memMap ∧ t.progText = s.progText ∧
    ((∀ e r, i ≠ .divu e r ∧ i ≠ .divs e r) → t.freeCount = s.freeCount)

/-- For every instruction and state, if exec answers a next state, each of X, N, Z, V, C that the
table of R32 marks as not affected for that instruction is as before. (R32, R169, R214) -/
def Obligations.FlagFrame : Prop :=
  ∀ (i : Instr) (s t : State), exec i s = .next t →
    ((footprint i).flags.x = false → t.ccr.x = s.ccr.x) ∧
    ((footprint i).flags.n = false → t.ccr.n = s.ccr.n) ∧
    ((footprint i).flags.z = false → t.ccr.z = s.ccr.z) ∧
    ((footprint i).flags.v = false → t.ccr.v = s.ccr.v) ∧
    ((footprint i).flags.c = false → t.ccr.c = s.ccr.c)

/-- For every instruction and state, if exec answers a next state: a form that stores nothing leaves
all of memory as it is; a form that stores to a memory operand changes at most the operand's bytes
at the address its destination mode gives, resolved in the state after the source or immediate was
read; if that address cannot be computed, memory is as before. (R53, R56, R58) -/
def Obligations.MemoryFrame : Prop :=
  ∀ (i : Instr) (s t : State), exec i s = .next t →
    ((footprint i).store = none → t.mem = s.mem) ∧
    (∀ st, (footprint i).store = some st →
      (∀ s1 addr s2, st.before s.afterOpword = .ok () s1 →
        resolveMem st.size st.dst s1 = .ok addr s2 →
        ∀ x, ¬StoredByte st.size addr x → t.byteAt x = s.byteAt x) ∧
      ((∀ s1 addr s2, st.before s.afterOpword = .ok () s1 →
        resolveMem st.size st.dst s1 ≠ .ok addr s2) → t.mem = s.mem))

/-- For every state, address and width: a word or long read at an odd address raises AddressError with
that bus address; otherwise an unmapped byte raises BusError with the first such byte's address;
otherwise the value is the bytes from the address upward, the first byte highest, and the state is
unchanged. That an access across the top of the 24-bit space goes on at byte 0 is the reading of
log 7. (R52, R54, R61, R262, notes/assumptions/7.md) -/
def Obligations.MemReadRule : Prop :=
  ∀ (s : State) (acc : Access) (addr : Long),
    (∀ sz, sz ≠ Size.byte → busAddr addr % 2 = 1 → memRead acc addr sz s =
      .error (.addressError (BitVec.ofNat 32 (busAddr addr)) acc) s) ∧
    (∀ sz i, (sz = Size.byte ∨ busAddr addr % 2 = 0) → i < sz.bytes →
      (∀ j, j < i → inRegions s.memMap (byteAddr (busAddr addr) j) = true) →
      inRegions s.memMap (byteAddr (busAddr addr) i) = false →
      memRead acc addr sz s = .error (.busError (BitVec.ofNat 32 (busAddr addr + i)) acc) s) ∧
    (∀ sz, (sz = Size.byte ∨ busAddr addr % 2 = 0) →
      (∀ j, j < sz.bytes → inRegions s.memMap (byteAddr (busAddr addr) j) = true) →
      memRead acc addr sz s = .ok (s.valueAt addr sz) s) ∧
    s.valueAt addr .byte = s.byteAt (byteAddr (busAddr addr) 0) ∧
    s.valueAt addr .word =
      s.byteAt (byteAddr (busAddr addr) 0) ++ s.byteAt (byteAddr (busAddr addr) 1) ∧
    s.valueAt addr .long = s.byteAt (byteAddr (busAddr addr) 0) ++
      s.byteAt (byteAddr (busAddr addr) 1) ++ s.byteAt (byteAddr (busAddr addr) 2) ++
      s.byteAt (byteAddr (busAddr addr) 3)

/-- For every state, address, width and value: an odd word or long address raises AddressError
(write); then an unmapped byte raises BusError (write) at the first such byte; then a byte in
ProgramText raises SelfModify at the first such byte; in each case nothing is written. Otherwise
byte i of the operand holds the value's bits 8(k-i)-1 .. 8(k-1-i), every other byte is as before,
and nothing but memory changes. That an access across the top of the 24-bit space goes on at byte
0, for the program text check too, is the reading of log 7. (R53, R54, R61,
notes/assumptions/7.md) -/
def Obligations.MemWriteRule : Prop :=
  ∀ (s : State) (addr : Long) (sz : Size) (v : BitVec sz.bits),
    (sz ≠ .byte → busAddr addr % 2 = 1 → memWrite addr sz v s =
      .error (.addressError (BitVec.ofNat 32 (busAddr addr)) .write) s) ∧
    ((sz = .byte ∨ busAddr addr % 2 = 0) →
      (∀ i, i < sz.bytes →
        (∀ j, j < i → inRegions s.memMap (byteAddr (busAddr addr) j) = true) →
        inRegions s.memMap (byteAddr (busAddr addr) i) = false →
        memWrite addr sz v s = .error (.busError (BitVec.ofNat 32 (busAddr addr + i)) .write) s) ∧
      ((∀ j, j < sz.bytes → inRegions s.memMap (byteAddr (busAddr addr) j) = true) →
        (∀ i, i < sz.bytes →
          (∀ j, j < i → inRegions s.progText (byteAddr (busAddr addr) j) = false) →
          inRegions s.progText (byteAddr (busAddr addr) i) = true →
          memWrite addr sz v s = .error (.selfModify (BitVec.ofNat 32 (busAddr addr + i))) s) ∧
        ((∀ j, j < sz.bytes → inRegions s.progText (byteAddr (busAddr addr) j) = false) →
          ∃ t, memWrite addr sz v s = .ok () t ∧
            (∀ i, i < sz.bytes → t.byteAt (byteAddr (busAddr addr) i) =
              v.extractLsb' (8 * (sz.bytes - 1 - i)) 8) ∧
            (∀ x, ¬StoredByte sz addr x → t.byteAt x = s.byteAt x) ∧
            SameButMemCcr s t ∧ t.ccr = s.ccr)))

/-- After a write that answers, a read of the same width at the same address answers the stored value,
and a byte read at a stored word sees the half that lies there: the high byte at the lower
address. (R51, R52, R53, R65) -/
def Obligations.ReadAfterWrite : Prop :=
  ∀ (s t : State) (addr : Long) (acc : Access),
    (∀ (sz : Size) (v : BitVec sz.bits), memWrite addr sz v s = .ok () t →
      memRead acc addr sz t = .ok v t) ∧
    (∀ v : Word, memWrite addr .word v s = .ok () t →
      memRead acc addr .byte t = .ok (v.extractLsb' 8 8) t ∧
      memRead acc (addr + 1#32) .byte t = .ok (v.extractLsb' 0 8) t)

/-- Reads and writes at addr and at addr plus any multiple of 2^24 answer alike in every state
(ADDR_BITS at the spec's default 24, log 7). (R61, notes/assumptions/7.md) -/
def Obligations.HighAddressBitsIgnored : Prop :=
  ∀ (s : State) (addr : Long) (k : Nat) (acc : Access) (sz : Size) (v : BitVec sz.bits),
    memRead acc (addr + BitVec.ofNat 32 (k * 2 ^ 24)) sz s = memRead acc addr sz s ∧
    memWrite (addr + BitVec.ofNat 32 (k * 2 ^ 24)) sz v s = memWrite addr sz v s

/-- For every state in which its extension words can be fetched, a memory alterable mode resolves to
the address of the table of R91 (the index register sized as R95 says), pc moves past its
extension words, (An)+ and -(An) step the register by the operand size, a byte through A7 by 2,
and nothing else changes. (R91, R92, R94, R95) -/
def Obligations.EffectiveAddressOfEachMode : Prop :=
  ∀ (sz : Size) (s : State) (m : MemEa), Fetchable s (wordsOf m) →
    resolveMem sz m s = .ok (addressOf sz s m) (resolved sz s m)

/-- For every state and size: reading a data register, and an address register at word and long size,
gives the register's low n bits, reading memory is MemRead, an immediate gives its low n bits once
its words are fetched; writing a data register replaces its low n bits and leaves bits 31..n and
everything else unchanged, writing memory is MemWrite. No other location can be written. (R97) -/
def Obligations.LocationsReadAndWrite : Prop :=
  ∀ (s : State) (sz : Size),
    (∀ r, ∃ v, readLoc sz (.dreg r) s = .ok v s ∧
      ∀ i, i < sz.bits → v.getLsbD i = (s.dreg r).getLsbD i) ∧
    (∀ r, sz ≠ .byte → ∃ v, readAny sz (.an r) s = .ok v s ∧
      ∀ i, i < sz.bits → v.getLsbD i = (s.areg r).getLsbD i) ∧
    (∀ a, readLoc sz (.mem a) s = memRead .read a sz s) ∧
    (∀ w, Fetchable s (if sz = .long then 2 else 1) → ∃ v t, readData sz (.imm w) s = .ok v t ∧
      ∀ i, i < sz.bits → v.getLsbD i = w.getLsbD i) ∧
    (∀ r v, ∃ t, writeLoc sz (.dreg r) v s = .ok () t ∧ DnBecomes sz s t r v ∧ t.ccr = s.ccr) ∧
    (∀ a v, writeLoc sz (.mem a) v s = memWrite a sz v s) ∧
    (∀ l : Loc, (∃ r, l = .dreg r) ∨ ∃ a, l = .mem a)

/-- Dn and An give their low bits, #imm gives the constant once its words can be fetched, a memory
mode gives the value at its address, and a program-relative mode the value at pc plus the
displacement (and index), pc standing at the extension word. (R91, R92, R94, R96, R97) -/
def Obligations.SourceOperandValues : Prop :=
  ∀ (sz : Size) (s : State),
    (∀ r, readAny sz (.data (.alt (.dn r))) s = .ok ((s.dreg r).setWidth sz.bits) s) ∧
    (∀ r, readAny sz (.an r) s = .ok ((s.areg r).setWidth sz.bits) s) ∧
    (∀ v, Fetchable s (if sz = .long then 2 else 1) → readAny sz (.data (.imm v)) s =
      .ok (v.setWidth sz.bits) (s.setPc (s.pc + if sz = .long then 4#32 else 2#32))) ∧
    (∀ m addr s1, resolveMem sz m s = .ok addr s1 → accessFault s1 .read addr sz = none →
      readAny sz (.data (.alt (.mem m))) s = .ok (s1.valueAt addr sz) s1) ∧
    (∀ d, Fetchable s 1 → accessFault s .read (s.pc + d.signExtend 32) sz = none →
      readAny sz (.data (.pcDisp d)) s =
        .ok (s.valueAt (s.pc + d.signExtend 32) sz) (s.setPc (s.pc + 2#32))) ∧
    (∀ ix, Fetchable s 1 →
      accessFault s .read (s.pc + indexOf s ix + ix.d8.signExtend 32) sz = none →
      readAny sz (.data (.pcIndex ix)) s =
        .ok (s.valueAt (s.pc + indexOf s ix + ix.d8.signExtend 32) sz) (s.setPc (s.pc + 2#32)))

/-- addBEaDn, addWEaDn, addLEaDn, addBDnEa, addWDnEa, addLDnEa, addiB, addiW, addiL: wherever the
operands can be read and the destination be written, the instruction answers a next state in which
the destination holds the sum modulo 2^n (a register keeps its upper bits), C is the carry out, V
says that the signed sum does not fit, X is C, N and Z are from the result, and nothing else
changes after the operand reads. (R125, R128, R140, R233) -/
def Obligations.AddCompletes : Prop :=
  CompletesAllForms AddLaw .addBEaDn .addWEaDn .addLEaDn .addBDnEa .addWDnEa .addLDnEa
    .addiB .addiW .addiL

/-- subBEaDn, subWEaDn, subLEaDn, subBDnEa, subWDnEa, subLDnEa, subiB, subiW, subiL: as ADD with the
difference destination less source; C says that a borrow is needed, V that the signed difference
does not fit, X is C. (R126, R128, R141, R234) -/
def Obligations.SubCompletes : Prop :=
  CompletesAllForms SubLaw .subBEaDn .subWEaDn .subLEaDn .subBDnEa .subWDnEa .subLDnEa
    .subiB .subiW .subiL

/-- negB, negW, negL on a data register complete in every state, and on a memory operand wherever it
can be read and written: the result is 0 - a modulo 2^n with a subtraction's flags, nothing else
changes. (R126, R148) -/
def Obligations.NegCompletes : Prop :=
  CompletesUnary SubLaw .byte .negB ∧ CompletesUnary SubLaw .word .negW ∧
  CompletesUnary SubLaw .long .negL

/-- cmpB, cmpW, cmpL, cmpiB, cmpiW, cmpiL complete wherever their operands can be read; N, Z, V, C are
those of destination less source, X is kept, and no register, no byte of memory and nothing else
changes after the operand reads. (R126, R232, R238) -/
def Obligations.CompareCompletes : Prop :=
  (∀ e r, CompletesCompareDn .byte (readData .byte e) (.cmpB e r) r) ∧
  (∀ e r, CompletesCompareDn .word (readAny .word e) (.cmpW e r) r) ∧
  (∀ e r, CompletesCompareDn .long (readAny .long e) (.cmpL e r) r) ∧
  (∀ v, CompletesCompareImm .byte v (.cmpiB v)) ∧
  (∀ v, CompletesCompareImm .word v (.cmpiW v)) ∧
  (∀ v, CompletesCompareImm .long v (.cmpiL v))

/-- extW and extL complete in every state: the low word (the long word) becomes the value with the
same signed reading as the low byte (the low word) before; EXT.W keeps the upper word; N and Z are
from the result, V and C cleared, X kept, nothing else changes. (R124, R142, R143) -/
def Obligations.ExtCompletes : Prop :=
  ∀ (s : State) (r : Reg),
    (∃ t v, exec (.extW r) s = .next t ∧ DnBecomes .word s.afterOpword t r v ∧
      v.toInt = ((s.dreg r).setWidth 8).toInt ∧ LogicFlags v s.ccr t.ccr) ∧
    (∃ t v, exec (.extL r) s = .next t ∧ DnBecomes .long s.afterOpword t r v ∧
      v.toInt = ((s.dreg r).setWidth 16).toInt ∧ LogicFlags v s.ccr t.ccr)

/-- mulu and muls complete wherever the source word can be read: all of Dn becomes the exact product
of the source and the low word of Dn (unsigned: the products of the unsigned readings; signed: of
the signed readings), N and Z from the 32 bits, V and C cleared, X kept; the low words of the two
products are the same. (R129, R144, R145) -/
def Obligations.MultiplyCompletes : Prop :=
  ∀ (e : DataEa) (r : Reg) (s s1 : State) (a : Word), readData .word e s.afterOpword = .ok a s1 →
    ∃ t t' u v, exec (.mulu e r) s = .next t ∧ DnBecomes .long s1 t r u ∧
      u.toNat = a.toNat * ((s1.dreg r).setWidth 16).toNat ∧ LogicFlags u s1.ccr t.ccr ∧
      exec (.muls e r) s = .next t' ∧ DnBecomes .long s1 t' r v ∧
      v.toInt = a.toInt * ((s1.dreg r).setWidth 16).toInt ∧ LogicFlags v s1.ccr t'.ccr ∧
      u.extractLsb' 0 16 = v.extractLsb' 0 16

/-- divu completes wherever the source word can be read, is not zero, and the unsigned quotient fits
16 bits: Dn becomes remainder : quotient with quotient * divisor + remainder = dividend and
remainder < divisor; N is bit 15 of the quotient, Z says it is zero, V and C are cleared, X kept,
nothing else changes. (R130, R146) -/
def Obligations.DivuCompletes : Prop :=
  ∀ (e : DataEa) (r : Reg) (s s1 : State) (m : Word), readData .word e s.afterOpword = .ok m s1 →
    m.toNat ≠ 0 → (s1.dreg r).toNat < 65536 * m.toNat →
    ∃ t v, exec (.divu e r) s = .next t ∧ DnBecomes .long s1 t r v ∧
      (v.extractLsb' 0 16).toNat * m.toNat + (v.extractLsb' 16 16).toNat = (s1.dreg r).toNat ∧
      (v.extractLsb' 16 16).toNat < m.toNat ∧
      LogicFlags (v.extractLsb' 0 16) s1.ccr t.ccr

/-- divs completes wherever the source word can be read, is not zero, and the signed quotient fits 16
bits: Dn becomes remainder : quotient with quotient * divisor + remainder = dividend, the
remainder smaller in size than the divisor and zero or of the dividend's sign; N is the sign of
the quotient, Z says it is zero, V and C are cleared, X kept, nothing else changes. (R130, R147) -/
def Obligations.DivsCompletes : Prop :=
  ∀ (e : DataEa) (r : Reg) (s s1 : State) (m : Word), readData .word e s.afterOpword = .ok m s1 →
    m.toInt ≠ 0 → -32768 ≤ (s1.dreg r).toInt.tdiv m.toInt →
    (s1.dreg r).toInt.tdiv m.toInt ≤ 32767 →
    ∃ t v, exec (.divs e r) s = .next t ∧ DnBecomes .long s1 t r v ∧
      (v.extractLsb' 0 16).toInt * m.toInt + (v.extractLsb' 16 16).toInt = (s1.dreg r).toInt ∧
      (v.extractLsb' 16 16).toInt.natAbs < m.toInt.natAbs ∧
      0 ≤ (v.extractLsb' 16 16).toInt * (s1.dreg r).toInt ∧
      LogicFlags (v.extractLsb' 0 16) s1.ccr t.ccr

/-- Where the source word can be read, is not zero and the true quotient does not fit 16 bits, divu
(and divs) completes with V set, C cleared, X kept, every register and all of memory as after the
operand read; N and Z are the next two free bits, of which nothing is claimed. That Dn is kept is
the spec's decision D18 (log 14), the free bits are the model's form of 'undefined' (log 13).
(R130, R146, R147, notes/assumptions/13.md, notes/assumptions/14.md) -/
def Obligations.DivideOverflowCompletes : Prop :=
  ∀ (e : DataEa) (r : Reg) (s s1 : State) (m : Word), readData .word e s.afterOpword = .ok m s1 →
    (m.toNat ≠ 0 → 65536 * m.toNat ≤ (s1.dreg r).toNat →
      ∃ t, exec (.divu e r) s = .next t ∧ t.d = s1.d ∧ t.a = s1.a ∧ t.pc = s1.pc ∧
        t.mem = s1.mem ∧ t.srHigh = s1.srHigh ∧ t.status = s1.status ∧
        t.ccr.x = s1.ccr.x ∧ t.ccr.v = true ∧ t.ccr.c = false) ∧
    (m.toInt ≠ 0 → ((s1.dreg r).toInt.tdiv m.toInt < -32768 ∨
        32767 < (s1.dreg r).toInt.tdiv m.toInt) →
      ∃ t, exec (.divs e r) s = .next t ∧ t.d = s1.d ∧ t.a = s1.a ∧ t.pc = s1.pc ∧
        t.mem = s1.mem ∧ t.srHigh = s1.srHigh ∧ t.status = s1.status ∧
        t.ccr.x = s1.ccr.x ∧ t.ccr.v = true ∧ t.ccr.c = false)

/-- Where the source word can be read and is zero, whatever the dividend, divu and divs take
DivideByZero with the address of the instruction in the record; the state is otherwise the one
after the operand read: no data register, flag or byte of memory changes. (R261) -/
def Obligations.DivideByZeroTraps : Prop :=
  ∀ (e : DataEa) (r : Reg) (s s1 : State), readData .word e s.afterOpword = .ok (0#16) s1 →
    exec (.divu e r) s = .next (takeException .divideByZero s.pc s1) ∧
    exec (.divs e r) s = .next (takeException .divideByZero s.pc s1)

/-- swap, exgDD, exgAA, exgDA complete in every state. SWAP puts each word of Dn in the other's place,
sets N and Z from the 32 bits, clears V and C, keeps X. EXG exchanges the two registers (one
register with itself stays as it is) and affects no flag. Nothing else changes but pc. (R160,
R161) -/
def Obligations.SwapAndExgComplete : Prop :=
  ∀ s : State,
    (∀ r, ∃ t v, exec (.swap r) s = .next t ∧ DnBecomes .long s.afterOpword t r v ∧
      v.extractLsb' 16 16 = (s.dreg r).extractLsb' 0 16 ∧
      v.extractLsb' 0 16 = (s.dreg r).extractLsb' 16 16 ∧ LogicFlags v s.ccr t.ccr) ∧
    (∀ x y, ∃ t, exec (.exgDD x y) s = .next t ∧ t.dreg x = s.dreg y ∧ t.dreg y = s.dreg x ∧
      (∀ q, q ≠ x → q ≠ y → t.dreg q = s.dreg q) ∧ t.ccr = s.ccr ∧
      SameButDataCcr s.afterOpword t) ∧
    (∀ x y, ∃ t, exec (.exgAA x y) s = .next t ∧ t.areg x = s.areg y ∧ t.areg y = s.areg x ∧
      (∀ q, q ≠ x → q ≠ y → t.areg q = s.areg q) ∧ t.ccr = s.ccr ∧ t.d = s.d ∧
      t.pc = s.pc + 2#32 ∧ t.srHigh = s.srHigh ∧ t.mem = s.mem ∧ t.memMap = s.memMap ∧
      t.progText = s.progText ∧ t.status = s.status ∧ t.freeCount = s.freeCount) ∧
    (∀ x y, ∃ t, exec (.exgDA x y) s = .next t ∧ t.dreg x = s.areg y ∧ t.areg y = s.dreg x ∧
      (∀ q, q ≠ x → t.dreg q = s.dreg q) ∧ (∀ q, q ≠ y → t.areg q = s.areg q) ∧
      t.ccr = s.ccr ∧ t.pc = s.pc + 2#32 ∧ t.srHigh = s.srHigh ∧ t.mem = s.mem ∧
      t.memMap = s.memMap ∧ t.progText = s.progText ∧ t.status = s.status ∧
      t.freeCount = s.freeCount)

/-- andBEaDn .. andLDnEa, orBEaDn .. orLDnEa, eorB, eorW, eorL, andiB .. andiL, oriB .. oriL, eoriB ..
eoriL: wherever the operands can be read and the destination be written, every bit of the result
is the truth table applied to the bits in its position, N and Z are from the n-bit result, V and C
cleared, X kept, and nothing else changes after the operand reads. (R128, R165, R166, R167, R169,
R171, R235, R236, R237) -/
def Obligations.LogicCompletes : Prop :=
  CompletesLogicForms (fun x y => x && y) .andBEaDn .andWEaDn .andLEaDn .andBDnEa .andWDnEa
    .andLDnEa .andiB .andiW .andiL ∧
  CompletesLogicForms (fun x y => x || y) .orBEaDn .orWEaDn .orLEaDn .orBDnEa .orWDnEa
    .orLDnEa .oriB .oriW .oriL ∧
  (∀ r e, CompletesToEa (LogicLaw fun x y => x != y) .byte (readD .byte r) (.eorB r e) e) ∧
  (∀ r e, CompletesToEa (LogicLaw fun x y => x != y) .word (readD .word r) (.eorW r e) e) ∧
  (∀ r e, CompletesToEa (LogicLaw fun x y => x != y) .long (readD .long r) (.eorL r e) e) ∧
  (∀ v e, CompletesToEa (LogicLaw fun x y => x != y) .byte (readImm .byte v) (.eoriB v e) e) ∧
  (∀ v e, CompletesToEa (LogicLaw fun x y => x != y) .word (readImm .word v) (.eoriW v e) e) ∧
  (∀ v e, CompletesToEa (LogicLaw fun x y => x != y) .long (readImm .long v) (.eoriL v e) e)

/-- notB, notW, notL on a data register complete in every state, and on a memory operand wherever it
can be read and written: every bit of the n-bit operand is inverted, flags as the logic
instructions, nothing else changes. (R168, R169, R171) -/
def Obligations.NotCompletes : Prop :=
  CompletesUnary (LogicLaw fun x _ => !x) .byte .notB ∧
  CompletesUnary (LogicLaw fun x _ => !x) .word .notW ∧
  CompletesUnary (LogicLaw fun x _ => !x) .long .notL

/-- aslBImm, aslBReg, aslWImm, aslWReg, aslLImm, aslLReg complete in every state, the count being 1 to
8 (field 0 meaning 8) or D[x] modulo 64: the result is the value times 2^cnt modulo 2^n, C the
last bit out (0 for a count of zero or above the width), V says exactly that the signed product
does not fit, X is C but kept for a count of zero, N and Z from the result, the bits of Dy above
the width and everything else but the flags and pc unchanged. V is ASL_V_RULE at the spec's
default (log 15). (R180, R188, R189, R190, notes/assumptions/15.md) -/
def Obligations.AslCompletes : Prop :=
  CompletesShift AslLaw .byte .aslBImm .aslBReg ∧
  CompletesShift AslLaw .word .aslWImm .aslWReg ∧
  CompletesShift AslLaw .long .aslLImm .aslLReg

/-- asrBImm, asrBReg, asrWImm, asrWReg, asrLImm, asrLReg complete in every state, the count being 1 to
8 (field 0 meaning 8) or D[x] modulo 64: the result is the floor of the signed value by 2^cnt, C
the last bit out (the sign above the width, 0 for a count of zero), V cleared, X is C but kept for
a count of zero, N and Z from the result, the bits of Dy above the width and everything else but
the flags and pc unchanged. (R181, R188, R189, R190) -/
def Obligations.AsrCompletes : Prop :=
  CompletesShift AsrLaw .byte .asrBImm .asrBReg ∧
  CompletesShift AsrLaw .word .asrWImm .asrWReg ∧
  CompletesShift AsrLaw .long .asrLImm .asrLReg

/-- lslBImm, lslBReg, lslWImm, lslWReg, lslLImm, lslLReg complete in every state, the count being 1 to
8 (field 0 meaning 8) or D[x] modulo 64: as ASL with V always cleared, N and Z from the result,
the bits of Dy above the width and everything else but the flags and pc unchanged. (R182, R188,
R189, R190) -/
def Obligations.LslCompletes : Prop :=
  CompletesShift LslLaw .byte .lslBImm .lslBReg ∧
  CompletesShift LslLaw .word .lslWImm .lslWReg ∧
  CompletesShift LslLaw .long .lslLImm .lslLReg

/-- lsrBImm, lsrBReg, lsrWImm, lsrWReg, lsrLImm, lsrLReg complete in every state, the count being 1 to
8 (field 0 meaning 8) or D[x] modulo 64: the result is the floor of the unsigned value by 2^cnt, C
the last bit out (0 for a count of zero or above the width), V cleared, X is C but kept for a
count of zero, N and Z from the result, the bits of Dy above the width and everything else but the
flags and pc unchanged. (R183, R188, R189, R190) -/
def Obligations.LsrCompletes : Prop :=
  CompletesShift LsrLaw .byte .lsrBImm .lsrBReg ∧
  CompletesShift LsrLaw .word .lsrWImm .lsrWReg ∧
  CompletesShift LsrLaw .long .lsrLImm .lsrLReg

/-- rolBImm, rolBReg, rolWImm, rolWReg, rolLImm, rolLReg complete in every state, the count being 1 to
8 (field 0 meaning 8) or D[x] modulo 64: every bit moves up by cnt around the n bits, C is bit 0
of the result (0 for a count of zero), V cleared, X not affected, N and Z from the result, the
bits of Dy above the width and everything else but the flags and pc unchanged. (R184, R188, R189,
R190) -/
def Obligations.RolCompletes : Prop :=
  CompletesShift RolLaw .byte .rolBImm .rolBReg ∧
  CompletesShift RolLaw .word .rolWImm .rolWReg ∧
  CompletesShift RolLaw .long .rolLImm .rolLReg

/-- rorBImm, rorBReg, rorWImm, rorWReg, rorLImm, rorLReg complete in every state, the count being 1 to
8 (field 0 meaning 8) or D[x] modulo 64: every bit moves down by cnt around the n bits, C is the
top bit of the result (0 for a count of zero), V cleared, X not affected, N and Z from the result,
the bits of Dy above the width and everything else but the flags and pc unchanged. (R185, R188,
R189, R190) -/
def Obligations.RorCompletes : Prop :=
  CompletesShift RorLaw .byte .rorBImm .rorBReg ∧
  CompletesShift RorLaw .word .rorWImm .rorWReg ∧
  CompletesShift RorLaw .long .rorLImm .rorLReg

/-- roxlBImm, roxlBReg, roxlWImm, roxlWReg, roxlLImm, roxlLReg complete in every state, the count
being 1 to 8 (field 0 meaning 8) or D[x] modulo 64: the ring of the n bits with X on top turns
left by cnt, C is the new X for every count, V cleared, N and Z from the result, the bits of Dy
above the width and everything else but the flags and pc unchanged. (R186, R188, R189, R190) -/
def Obligations.RoxlCompletes : Prop :=
  CompletesShift RoxlLaw .byte .roxlBImm .roxlBReg ∧
  CompletesShift RoxlLaw .word .roxlWImm .roxlWReg ∧
  CompletesShift RoxlLaw .long .roxlLImm .roxlLReg

/-- roxrBImm, roxrBReg, roxrWImm, roxrWReg, roxrLImm, roxrLReg complete in every state, the count
being 1 to 8 (field 0 meaning 8) or D[x] modulo 64: the ring of the n bits with X on top turns
right by cnt, C is the new X for every count, V cleared, N and Z from the result, the bits of Dy
above the width and everything else but the flags and pc unchanged. (R187, R188, R189, R190) -/
def Obligations.RoxrCompletes : Prop :=
  CompletesShift RoxrLaw .byte .roxrBImm .roxrBReg ∧
  CompletesShift RoxrLaw .word .roxrWImm .roxrWReg ∧
  CompletesShift RoxrLaw .long .roxrLImm .roxrLReg

/-- btstDyn and btstStatic complete wherever the bit number and the operand can be read: Z says that
the bit (number modulo 32 of a data register, modulo 8 of a byte otherwise) is zero; X, N, V, C,
every register and all of memory are as after the operand read. (R210, R214) -/
def Obligations.BitTestCompletes : Prop :=
  (∀ n, CompletesBitTest (dynamicBit n) (.btstDyn n)) ∧
  (∀ k, CompletesBitTest (staticBit k) (.btstStatic k))

/-- bchgDyn, bchgStatic, bclrDyn, bclrStatic, bsetDyn, bsetStatic complete wherever the bit number can
be read and the operand be read and written: the bit (number modulo 32 of a data register, modulo
8 of a byte in memory) is inverted, cleared or set, every other bit of the operand is kept, Z says
that the bit was zero, and nothing else changes after the operand reads. (R211, R212, R213, R214) -/
def Obligations.BitChangeCompletes : Prop :=
  (∀ n, CompletesBitChange (fun b => !b) (dynamicBit n) (.bchgDyn n)) ∧
  (∀ k, CompletesBitChange (fun b => !b) (staticBit k) (.bchgStatic k)) ∧
  (∀ n, CompletesBitChange (fun _ => false) (dynamicBit n) (.bclrDyn n)) ∧
  (∀ k, CompletesBitChange (fun _ => false) (staticBit k) (.bclrStatic k)) ∧
  (∀ n, CompletesBitChange (fun _ => true) (dynamicBit n) (.bsetDyn n)) ∧
  (∀ k, CompletesBitChange (fun _ => true) (staticBit k) (.bsetStatic k))

/-- For every bit 0 to 7 of a data register: BCLR, BSET and BCHG with that bit number leave the same
data registers, address registers, memory and pc as ANDI.B, ORI.B and EORI.B with the mask of that
bit, wherever the extension word can be fetched; X is the same on both sides. (R170, R215) -/
def Obligations.BitInstructionsMatchMasks : Prop :=
  ∀ (s : State) (k : Byte) (r : Reg), k.toNat < 8 → Fetchable s.afterOpword 1 →
    (∃ t u, exec (.bclrStatic k (.dn r)) s = .next t ∧
      exec (.andiB (~~~(1#8 <<< k.toNat)) (.dn r)) s = .next u ∧
      t.d = u.d ∧ t.a = u.a ∧ t.mem = u.mem ∧ t.pc = u.pc ∧ t.ccr.x = u.ccr.x) ∧
    (∃ t u, exec (.bsetStatic k (.dn r)) s = .next t ∧
      exec (.oriB (1#8 <<< k.toNat) (.dn r)) s = .next u ∧
      t.d = u.d ∧ t.a = u.a ∧ t.mem = u.mem ∧ t.pc = u.pc ∧ t.ccr.x = u.ccr.x) ∧
    (∃ t u, exec (.bchgStatic k (.dn r)) s = .next t ∧
      exec (.eoriB (1#8 <<< k.toNat) (.dn r)) s = .next u ∧
      t.d = u.d ∧ t.a = u.a ∧ t.mem = u.mem ∧ t.pc = u.pc ∧ t.ccr.x = u.ccr.x)

/-- moveB, moveW, moveL complete wherever the source can be read and the destination be written, for
every pair of operands but the refused one (source An, destination (An)+ or -(An) on the same
register): the destination holds the source's n bits (a register keeps its upper bits), N and Z
are from it, V and C cleared, X kept, nothing else changes after the operands are resolved. The
destination is resolved in the state after the source was read. (R94, R128, R230) -/
def Obligations.MoveCompletes : Prop :=
  (∀ src dst, CompletesToEa (fun a _ old r k => r = a ∧ LogicFlags r old k) .byte
      (readData .byte src) (.moveB src dst) dst) ∧
  (∀ src dst, moveRefused src dst = false →
    CompletesToEa (fun a _ old r k => r = a ∧ LogicFlags r old k) .word
      (readAny .word src) (.moveW src dst) dst) ∧
  (∀ src dst, moveRefused src dst = false →
    CompletesToEa (fun a _ old r k => r = a ∧ LogicFlags r old k) .long
      (readAny .long src) (.moveL src dst) dst)

/-- moveW and moveL with source An and destination (An)+ or -(An) on the same register take
IllegalInstruction with the instruction's opword and address; no register, flag or byte of memory
changes, pc is past the opword (log 11). The decoder refuses their words too. (R94, R264,
93_implementation_defined.md U8, notes/assumptions/11.md) -/
def Obligations.MoveSameRegisterRefused : Prop :=
  ∀ (s : State) (r : Reg) (m : MemEa), m = .postInc r ∨ m = .preDec r →
    exec (.moveW (.an r) (.mem m)) s = .next (takeException
      (.illegalInstruction (Instr.opword (.moveW (.an r) (.mem m)))) s.pc s.afterOpword) ∧
    exec (.moveL (.an r) (.mem m)) s = .next (takeException
      (.illegalInstruction (Instr.opword (.moveL (.an r) (.mem m)))) s.pc s.afterOpword) ∧
    decode (encode (.moveW (.an r) (.mem m))) = .error .moveSameRegister ∧
    decode (encode (.moveL (.an r) (.mem m))) = .error .moveSameRegister

/-- clrB, clrW, clrL on a data register complete in every state, and on a memory operand wherever its
address can be computed and it can be written: the operand becomes zero (a register keeps the bits
above the size), Z is set, N, V, C cleared, X kept, nothing else changes. (R231) -/
def Obligations.ClrCompletes : Prop :=
  CompletesUnary (fun _ _ old r k => r.toNat = 0 ∧ k = ⟨old.x, false, true, false, false⟩) .byte .clrB ∧
  CompletesUnary (fun _ _ old r k => r.toNat = 0 ∧ k = ⟨old.x, false, true, false, false⟩) .word .clrW ∧
  CompletesUnary (fun _ _ old r k => r.toNat = 0 ∧ k = ⟨old.x, false, true, false, false⟩) .long .clrL

/-- bra, bhi, bls, bcc, bcs, bne, beq, bvc, bvs, bpl, bmi, bge, blt, bgt, ble with the conditions of
the table of R239: wherever the displacement word, if there is one, can be fetched, a branch whose
condition holds sets pc to the address of the opword plus 2 plus the displacement, or takes
AddressError if that is odd; a branch whose condition does not hold goes on behind its words. No
flag, no register, no byte of memory changes. Where pc stands after the exception, behind the
branch's words, is the model's reading (DEDUCED, log 9). That a taken long branch with
displacement 0 goes to its own extension word is the model's choice where R240 contradicts itself
(log 26). (R26, R100, R239, R240, R241, notes/assumptions/9.md, notes/assumptions/26.md) -/
def Obligations.BranchesComplete : Prop :=
  CompletesBranch (fun _ => True) .bra ∧
  CompletesBranch (fun k => k.c = false ∧ k.z = false) .bhi ∧
  CompletesBranch (fun k => k.c = true ∨ k.z = true) .bls ∧
  CompletesBranch (fun k => k.c = false) .bcc ∧ CompletesBranch (fun k => k.c = true) .bcs ∧
  CompletesBranch (fun k => k.z = false) .bne ∧ CompletesBranch (fun k => k.z = true) .beq ∧
  CompletesBranch (fun k => k.v = false) .bvc ∧ CompletesBranch (fun k => k.v = true) .bvs ∧
  CompletesBranch (fun k => k.n = false) .bpl ∧ CompletesBranch (fun k => k.n = true) .bmi ∧
  CompletesBranch (fun k => k.n = k.v) .bge ∧ CompletesBranch (fun k => k.n ≠ k.v) .blt ∧
  CompletesBranch (fun k => k.z = false ∧ k.n = k.v) .bgt ∧
  CompletesBranch (fun k => k.z = true ∨ k.n ≠ k.v) .ble

/-- With the flags a comparison of source a with destination b leaves, at every width of at least one
bit: HI, LS, CC, CS hold exactly when b > a, b <= a, b >= a, b < a as unsigned numbers; GE, LT,
GT, LE exactly when b >= a, b < a, b > a, b <= a as signed numbers; EQ and NE when they are equal
and not. (R126, R239) -/
def Obligations.ConditionsAfterCompare : Prop :=
  ∀ (n : Nat) (a b : BitVec n) (k : Ccr), 0 < n →
    let f := cmpCcr a b (b - a) k
    (f.hi = true ↔ a.toNat < b.toNat) ∧ (f.ls = true ↔ b.toNat ≤ a.toNat) ∧
    (f.cc = true ↔ a.toNat ≤ b.toNat) ∧ (f.cs = true ↔ b.toNat < a.toNat) ∧
    (f.ge = true ↔ a.toInt ≤ b.toInt) ∧ (f.lt = true ↔ b.toInt < a.toInt) ∧
    (f.gt = true ↔ a.toInt < b.toInt) ∧ (f.le = true ↔ b.toInt ≤ a.toInt) ∧
    (f.eq = true ↔ a = b) ∧ (f.ne = true ↔ a ≠ b)

/-- Wherever its operand word can be fetched, whatever sr_high held, stop completes: sr_high becomes
bits 15..8 of the operand (bit 13 clear or not), X, N, Z, V, C its bits 4..0, the status is
stopped, pc stands behind the operand word, and no data or address register and no byte of memory
changes. (R245, R293, R35) -/
def Obligations.StopCompletes : Prop :=
  ∀ (s : State) (imm : Word), Fetchable s.afterOpword 1 →
    ∃ t, exec (.stop imm) s = .next t ∧ t.status = .stopped ∧ t.pc = s.pc + 4#32 ∧
      t.srHigh = imm.extractLsb' 8 8 ∧
      t.ccr = ⟨imm.getLsbD 4, imm.getLsbD 3, imm.getLsbD 2, imm.getLsbD 1, imm.getLsbD 0⟩ ∧
      t.d = s.d ∧ t.a = s.a ∧ t.mem = s.mem ∧ t.memMap = s.memMap ∧ t.progText = s.progText ∧
      t.freeCount = s.freeCount

/-- For every state that steps and every byte v: the same state with v in sr_high takes the same step.
If the step stopped the machine, STOP has written sr_high and the next states are equal; otherwise
they are equal but for sr_high, which is v in the second, an exception and its record included. So
no trace bit, mode bit or interrupt mask is ever consulted. (R35, R245, R271, 92_eei_decisions.md
D11, 92_eei_decisions.md D12) -/
def Obligations.SrHighIsReadByNothing : Prop :=
  ∀ (s t : State) (v : Byte), step s = .next t →
    (t.status = .stopped → step (s.setSrHigh v) = .next t) ∧
    (t.status ≠ .stopped → step (s.setSrHigh v) = .next (t.setSrHigh v))

/-- For every size and state: if the words of an operand (a mode's extension words, an immediate, a
bit number, a displacement, STOP's operand) can be fetched up to some word and MemRead raises for
that word, the operand raises exactly that exception, pc at that word and nothing else changed; a
memory operand that cannot be resolved raises when it is read; one whose address is computed
raises what MemRead raises there, in the state after its update of An; a program-relative one what
MemRead raises at its address, pc past its word. A source of any mode reads as a data source does.
The state left is the model's reading (DEDUCED, log 9): pc where the fetches left it, and the
update of (An)+ made when the operand is resolved, as the pseudocode of R94 has it, where R65 puts
it after the read; R149 and R268 call both unobservable. (R52, R65, R92, R94, R99, R100, R149,
R267, R268, notes/assumptions/9.md) -/
def Obligations.OperandExceptions : Prop :=
  ∀ (sz : Size) (s : State),
    (∀ m, StopsAtFetch (resolveMem sz m) (wordsOf m) s) ∧
    (∀ v, StopsAtFetch (readImm sz v) (if sz = .long then 2 else 1) s) ∧
    (∀ v, StopsAtFetch (readData sz (.imm v)) (if sz = .long then 2 else 1) s) ∧
    (∀ d, StopsAtFetch (readData sz (.pcDisp d)) 1 s) ∧
    (∀ ix, StopsAtFetch (readData sz (.pcIndex ix)) 1 s) ∧
    (∀ k, StopsAtFetch (staticBit k) 1 s) ∧ (∀ d, StopsAtFetch (readDisp (.long d)) 1 s) ∧
    StopsAtFetch fetchExt 1 s ∧
    (∀ m e s1, resolveMem sz m s = .error e s1 →
      readData sz (.alt (.mem m)) s = .error e s1) ∧
    (∀ m addr s1 e s2, resolveMem sz m s = .ok addr s1 → memRead .read addr sz s1 = .error e s2 →
      readData sz (.alt (.mem m)) s = .error e s2) ∧
    (∀ d e s2, Fetchable s 1 →
      memRead .read (s.pc + d.signExtend 32) sz (s.setPc (s.pc + 2#32)) = .error e s2 →
      readData sz (.pcDisp d) s = .error e s2) ∧
    (∀ ix e s2, Fetchable s 1 →
      memRead .read (s.pc + indexOf s ix + ix.d8.signExtend 32) sz (s.setPc (s.pc + 2#32)) =
        .error e s2 →
      readData sz (.pcIndex ix) s = .error e s2) ∧
    (∀ e, readAny sz (.data e) s = readData sz e s)

/-- For every instruction and state: if its source (or immediate, bit number, displacement, operand
word) raises, the instruction takes that exception with the address of the instruction, in the
state the source left; if the source is read and the address of the memory operand raises, it
takes that one; if the address is computed and the operand is read there (not by MOVE and CLR) and
MemRead raises, that one; if the operand is written there (not by CMPI), its read did not raise,
and MemWrite raises whatever the value, that one: AddressError, BusError or SelfModify.
OperandExceptions, MemReadRule and MemWriteRule say which they are. Two clauses are the model's
reading (DEDUCED): that CLR does not read, so that the record of a faulting CLR has the access
write (log 17; R56 lists a read that a model may omit, R231 calls it unobservable), and the state
each exception is taken in, pc and (An)+ or -(An) updates kept (log 9; R149 and R268 call them
unobservable). (R56, R58, R65, R94, R149, R231, R267, R268, notes/assumptions/9.md,
notes/assumptions/17.md) -/
def Obligations.OperandExceptionsAreTaken : Prop :=
  ∀ (i : Instr) (s : State),
    (∀ e s1, (operandUse i).source s.afterOpword = .error e s1 →
      exec i s = .next (takeException e s.pc s1)) ∧
    (∀ s1 m, (operandUse i).source s.afterOpword = .ok () s1 → (operandUse i).memory = some m →
      (∀ e s2, resolveMem (operandUse i).size m s1 = .error e s2 →
        exec i s = .next (takeException e s.pc s2)) ∧
      (∀ addr s2, resolveMem (operandUse i).size m s1 = .ok addr s2 →
        (∀ e s3, (operandUse i).reads = true →
          memRead .read addr (operandUse i).size s2 = .error e s3 →
          exec i s = .next (takeException e s.pc s3)) ∧
        (∀ v e s3, (operandUse i).writes = true →
          ((operandUse i).reads = true →
            ∃ old s4, memRead .read addr (operandUse i).size s2 = .ok old s4) →
          memWrite addr (operandUse i).size v s2 = .error e s3 →
          exec i s = .next (takeException e s.pc s3))))

/-- For every state: MemRead and MemWrite of a word or long at an odd address raise AddressError and
perform nothing, the state being as it was; so does the fetch of an instruction word at an odd pc,
and a running machine's step there takes AddressError with nothing else changed; each of the
fifteen branches whose condition holds and whose target is odd takes it, with nothing but pc
changed. (R262) -/
def Obligations.AddressErrorRule : Prop :=
  ∀ s : State,
    (∀ acc addr sz, sz ≠ Size.byte → addr.toNat % 2 = 1 →
      ∃ a, memRead acc addr sz s = .error (.addressError a acc) s) ∧
    (∀ addr sz v, sz ≠ Size.byte → addr.toNat % 2 = 1 →
      ∃ a, memWrite addr sz v s = .error (.addressError a .write) s) ∧
    (s.pc.toNat % 2 = 1 → ∃ a, fetch16 s = .error (.addressError a .fetch) s ∧
      (s.status = .running → step s = .next (takeException (.addressError a .fetch) s.pc s))) ∧
    (∀ b ∈ branchTable, ∀ d, DispReadable d s.afterOpword → b.1 s.ccr →
      (s.pc + 2#32 + dispValue d).toNat % 2 = 1 →
      ∃ a p, exec (b.2 d) s = .next (takeException (.addressError a .fetch) s.pc (s.setPc p)))

/-- For every program (any ENTRY, $400 or another, any MemMap, ProgramText and image) and every value
of what R40 leaves unspecified: at launch pc = ENTRY, the status is running, sr_high is $27, every
register and flag has its unspecified value, a byte the image places reads as the image has it
(the last placed there, log 10) and every other byte as before; if ENTRY is even and ENTRY and the
image lie in MemMap, the launch state meets the invariant, and where the image holds the words of
a well-formed instruction at ENTRY, high byte first, the first step runs that instruction. (R26,
R40, R41, R51, R291, notes/assumptions/10.md) -/
def Obligations.LaunchState : Prop :=
  ∀ (p : Program) (u : LaunchValues),
    (State.launch p u).pc = p.entry ∧ (State.launch p u).status = .running ∧
    (State.launch p u).srHigh = 0x27#8 ∧ (State.launch p u).d = u.d ∧
    (State.launch p u).a = u.a ∧ (State.launch p u).ccr = u.ccr ∧
    (State.launch p u).memMap = p.memMap ∧ (State.launch p u).progText = p.progText ∧
    (∀ x, (State.launch p u).byteAt x = (imageByte p.image x).getD (Memory.read u.mem x)) ∧
    (p.wf = true → Memory.wf u.mem = true → (State.launch p u).Inv) ∧
    (p.wf = true → ∀ i : Instr, i.wf = true →
      (∀ (k : Nat) (w : Word), (encode i)[k]? = some w →
        imageByte p.image (byteAddr p.entry.toNat (2 * k)) = some (w.extractLsb' 8 8) ∧
        imageByte p.image (byteAddr p.entry.toNat (2 * k + 1)) = some (w.extractLsb' 0 8)) →
      step (State.launch p u) = exec i (State.launch p u))
end

