-- ==== Sys2Proof/Laws/State.lean ====
section
/-! SUPPORT. One lemma per field and update of the state, true by rfl, and what a register reads as
after an update, so that no proof unfolds a record update. -/

namespace Sys2Proof.Machine

variable (s : State)

@[simp] theorem State.setD_d (r : Reg) (v : Long) :
    (s.setD r v).d = s.d.set r.toNat v r.isLt := rfl
@[simp] theorem State.setD_a (r : Reg) (v : Long) :
    (s.setD r v).a = s.a := rfl
@[simp] theorem State.setD_pc (r : Reg) (v : Long) :
    (s.setD r v).pc = s.pc := rfl
@[simp] theorem State.setD_ccr (r : Reg) (v : Long) :
    (s.setD r v).ccr = s.ccr := rfl
@[simp] theorem State.setD_srHigh (r : Reg) (v : Long) :
    (s.setD r v).srHigh = s.srHigh := rfl
@[simp] theorem State.setD_mem (r : Reg) (v : Long) :
    (s.setD r v).mem = s.mem := rfl
@[simp] theorem State.setD_memMap (r : Reg) (v : Long) :
    (s.setD r v).memMap = s.memMap := rfl
@[simp] theorem State.setD_progText (r : Reg) (v : Long) :
    (s.setD r v).progText = s.progText := rfl
@[simp] theorem State.setD_status (r : Reg) (v : Long) :
    (s.setD r v).status = s.status := rfl
@[simp] theorem State.setD_freeCount (r : Reg) (v : Long) :
    (s.setD r v).freeCount = s.freeCount := rfl

@[simp] theorem State.setA_d (r : Reg) (v : Long) :
    (s.setA r v).d = s.d := rfl
@[simp] theorem State.setA_a (r : Reg) (v : Long) :
    (s.setA r v).a = s.a.set r.toNat v r.isLt := rfl
@[simp] theorem State.setA_pc (r : Reg) (v : Long) :
    (s.setA r v).pc = s.pc := rfl
@[simp] theorem State.setA_ccr (r : Reg) (v : Long) :
    (s.setA r v).ccr = s.ccr := rfl
@[simp] theorem State.setA_srHigh (r : Reg) (v : Long) :
    (s.setA r v).srHigh = s.srHigh := rfl
@[simp] theorem State.setA_mem (r : Reg) (v : Long) :
    (s.setA r v).mem = s.mem := rfl
@[simp] theorem State.setA_memMap (r : Reg) (v : Long) :
    (s.setA r v).memMap = s.memMap := rfl
@[simp] theorem State.setA_progText (r : Reg) (v : Long) :
    (s.setA r v).progText = s.progText := rfl
@[simp] theorem State.setA_status (r : Reg) (v : Long) :
    (s.setA r v).status = s.status := rfl
@[simp] theorem State.setA_freeCount (r : Reg) (v : Long) :
    (s.setA r v).freeCount = s.freeCount := rfl

@[simp] theorem State.setPc_d (v : Long) :
    (s.setPc v).d = s.d := rfl
@[simp] theorem State.setPc_a (v : Long) :
    (s.setPc v).a = s.a := rfl
@[simp] theorem State.setPc_pc (v : Long) :
    (s.setPc v).pc = v := rfl
@[simp] theorem State.setPc_ccr (v : Long) :
    (s.setPc v).ccr = s.ccr := rfl
@[simp] theorem State.setPc_srHigh (v : Long) :
    (s.setPc v).srHigh = s.srHigh := rfl
@[simp] theorem State.setPc_mem (v : Long) :
    (s.setPc v).mem = s.mem := rfl
@[simp] theorem State.setPc_memMap (v : Long) :
    (s.setPc v).memMap = s.memMap := rfl
@[simp] theorem State.setPc_progText (v : Long) :
    (s.setPc v).progText = s.progText := rfl
@[simp] theorem State.setPc_status (v : Long) :
    (s.setPc v).status = s.status := rfl
@[simp] theorem State.setPc_freeCount (v : Long) :
    (s.setPc v).freeCount = s.freeCount := rfl

@[simp] theorem State.setCcr_d (k : Ccr) :
    (s.setCcr k).d = s.d := rfl
@[simp] theorem State.setCcr_a (k : Ccr) :
    (s.setCcr k).a = s.a := rfl
@[simp] theorem State.setCcr_pc (k : Ccr) :
    (s.setCcr k).pc = s.pc := rfl
@[simp] theorem State.setCcr_ccr (k : Ccr) :
    (s.setCcr k).ccr = k := rfl
@[simp] theorem State.setCcr_srHigh (k : Ccr) :
    (s.setCcr k).srHigh = s.srHigh := rfl
@[simp] theorem State.setCcr_mem (k : Ccr) :
    (s.setCcr k).mem = s.mem := rfl
@[simp] theorem State.setCcr_memMap (k : Ccr) :
    (s.setCcr k).memMap = s.memMap := rfl
@[simp] theorem State.setCcr_progText (k : Ccr) :
    (s.setCcr k).progText = s.progText := rfl
@[simp] theorem State.setCcr_status (k : Ccr) :
    (s.setCcr k).status = s.status := rfl
@[simp] theorem State.setCcr_freeCount (k : Ccr) :
    (s.setCcr k).freeCount = s.freeCount := rfl

@[simp] theorem State.setMem_d (m : Memory) :
    (s.setMem m).d = s.d := rfl
@[simp] theorem State.setMem_a (m : Memory) :
    (s.setMem m).a = s.a := rfl
@[simp] theorem State.setMem_pc (m : Memory) :
    (s.setMem m).pc = s.pc := rfl
@[simp] theorem State.setMem_ccr (m : Memory) :
    (s.setMem m).ccr = s.ccr := rfl
@[simp] theorem State.setMem_srHigh (m : Memory) :
    (s.setMem m).srHigh = s.srHigh := rfl
@[simp] theorem State.setMem_mem (m : Memory) :
    (s.setMem m).mem = m := rfl
@[simp] theorem State.setMem_memMap (m : Memory) :
    (s.setMem m).memMap = s.memMap := rfl
@[simp] theorem State.setMem_progText (m : Memory) :
    (s.setMem m).progText = s.progText := rfl
@[simp] theorem State.setMem_status (m : Memory) :
    (s.setMem m).status = s.status := rfl
@[simp] theorem State.setMem_freeCount (m : Memory) :
    (s.setMem m).freeCount = s.freeCount := rfl

@[simp] theorem State.setFreeCount_d (k : Nat) :
    (s.setFreeCount k).d = s.d := rfl
@[simp] theorem State.setFreeCount_a (k : Nat) :
    (s.setFreeCount k).a = s.a := rfl
@[simp] theorem State.setFreeCount_pc (k : Nat) :
    (s.setFreeCount k).pc = s.pc := rfl
@[simp] theorem State.setFreeCount_ccr (k : Nat) :
    (s.setFreeCount k).ccr = s.ccr := rfl
@[simp] theorem State.setFreeCount_srHigh (k : Nat) :
    (s.setFreeCount k).srHigh = s.srHigh := rfl
@[simp] theorem State.setFreeCount_mem (k : Nat) :
    (s.setFreeCount k).mem = s.mem := rfl
@[simp] theorem State.setFreeCount_memMap (k : Nat) :
    (s.setFreeCount k).memMap = s.memMap := rfl
@[simp] theorem State.setFreeCount_progText (k : Nat) :
    (s.setFreeCount k).progText = s.progText := rfl
@[simp] theorem State.setFreeCount_status (k : Nat) :
    (s.setFreeCount k).status = s.status := rfl
@[simp] theorem State.setFreeCount_freeCount (k : Nat) :
    (s.setFreeCount k).freeCount = k := rfl

@[simp] theorem State.setSrHigh_d (v : Byte) :
    (s.setSrHigh v).d = s.d := rfl
@[simp] theorem State.setSrHigh_a (v : Byte) :
    (s.setSrHigh v).a = s.a := rfl
@[simp] theorem State.setSrHigh_pc (v : Byte) :
    (s.setSrHigh v).pc = s.pc := rfl
@[simp] theorem State.setSrHigh_ccr (v : Byte) :
    (s.setSrHigh v).ccr = s.ccr := rfl
@[simp] theorem State.setSrHigh_srHigh (v : Byte) :
    (s.setSrHigh v).srHigh = v := rfl
@[simp] theorem State.setSrHigh_mem (v : Byte) :
    (s.setSrHigh v).mem = s.mem := rfl
@[simp] theorem State.setSrHigh_memMap (v : Byte) :
    (s.setSrHigh v).memMap = s.memMap := rfl
@[simp] theorem State.setSrHigh_progText (v : Byte) :
    (s.setSrHigh v).progText = s.progText := rfl
@[simp] theorem State.setSrHigh_status (v : Byte) :
    (s.setSrHigh v).status = s.status := rfl
@[simp] theorem State.setSrHigh_freeCount (v : Byte) :
    (s.setSrHigh v).freeCount = s.freeCount := rfl

@[simp] theorem State.setStatus_d (v : Status) :
    (s.setStatus v).d = s.d := rfl
@[simp] theorem State.setStatus_a (v : Status) :
    (s.setStatus v).a = s.a := rfl
@[simp] theorem State.setStatus_pc (v : Status) :
    (s.setStatus v).pc = s.pc := rfl
@[simp] theorem State.setStatus_ccr (v : Status) :
    (s.setStatus v).ccr = s.ccr := rfl
@[simp] theorem State.setStatus_srHigh (v : Status) :
    (s.setStatus v).srHigh = s.srHigh := rfl
@[simp] theorem State.setStatus_mem (v : Status) :
    (s.setStatus v).mem = s.mem := rfl
@[simp] theorem State.setStatus_memMap (v : Status) :
    (s.setStatus v).memMap = s.memMap := rfl
@[simp] theorem State.setStatus_progText (v : Status) :
    (s.setStatus v).progText = s.progText := rfl
@[simp] theorem State.setStatus_status (v : Status) :
    (s.setStatus v).status = v := rfl
@[simp] theorem State.setStatus_freeCount (v : Status) :
    (s.setStatus v).freeCount = s.freeCount := rfl

@[simp] theorem State.afterOpword_d :
    s.afterOpword.d = s.d := rfl
@[simp] theorem State.afterOpword_a :
    s.afterOpword.a = s.a := rfl
@[simp] theorem State.afterOpword_pc :
    s.afterOpword.pc = s.pc + 2#32 := rfl
@[simp] theorem State.afterOpword_ccr :
    s.afterOpword.ccr = s.ccr := rfl
@[simp] theorem State.afterOpword_srHigh :
    s.afterOpword.srHigh = s.srHigh := rfl
@[simp] theorem State.afterOpword_mem :
    s.afterOpword.mem = s.mem := rfl
@[simp] theorem State.afterOpword_memMap :
    s.afterOpword.memMap = s.memMap := rfl
@[simp] theorem State.afterOpword_progText :
    s.afterOpword.progText = s.progText := rfl
@[simp] theorem State.afterOpword_status :
    s.afterOpword.status = s.status := rfl
@[simp] theorem State.afterOpword_freeCount :
    s.afterOpword.freeCount = s.freeCount := rfl

@[simp] theorem State.storeAt_d (addr : Long) (sz : Size) (v : BitVec sz.bits) :
    (s.storeAt addr sz v).d = s.d := rfl
@[simp] theorem State.storeAt_a (addr : Long) (sz : Size) (v : BitVec sz.bits) :
    (s.storeAt addr sz v).a = s.a := rfl
@[simp] theorem State.storeAt_pc (addr : Long) (sz : Size) (v : BitVec sz.bits) :
    (s.storeAt addr sz v).pc = s.pc := rfl
@[simp] theorem State.storeAt_ccr (addr : Long) (sz : Size) (v : BitVec sz.bits) :
    (s.storeAt addr sz v).ccr = s.ccr := rfl
@[simp] theorem State.storeAt_srHigh (addr : Long) (sz : Size) (v : BitVec sz.bits) :
    (s.storeAt addr sz v).srHigh = s.srHigh := rfl
@[simp] theorem State.storeAt_mem (addr : Long) (sz : Size) (v : BitVec sz.bits) :
    (s.storeAt addr sz v).mem = Memory.writeBytes s.mem (busAddr addr) sz.bytes v.toNat := rfl
@[simp] theorem State.storeAt_memMap (addr : Long) (sz : Size) (v : BitVec sz.bits) :
    (s.storeAt addr sz v).memMap = s.memMap := rfl
@[simp] theorem State.storeAt_progText (addr : Long) (sz : Size) (v : BitVec sz.bits) :
    (s.storeAt addr sz v).progText = s.progText := rfl
@[simp] theorem State.storeAt_status (addr : Long) (sz : Size) (v : BitVec sz.bits) :
    (s.storeAt addr sz v).status = s.status := rfl
@[simp] theorem State.storeAt_freeCount (addr : Long) (sz : Size) (v : BitVec sz.bits) :
    (s.storeAt addr sz v).freeCount = s.freeCount := rfl

@[simp] theorem takeException_d (e : Exc) (pc : Long) :
    (takeException e pc s).d = s.d := rfl
@[simp] theorem takeException_a (e : Exc) (pc : Long) :
    (takeException e pc s).a = s.a := rfl
@[simp] theorem takeException_pc (e : Exc) (pc : Long) :
    (takeException e pc s).pc = s.pc := rfl
@[simp] theorem takeException_ccr (e : Exc) (pc : Long) :
    (takeException e pc s).ccr = s.ccr := rfl
@[simp] theorem takeException_srHigh (e : Exc) (pc : Long) :
    (takeException e pc s).srHigh = s.srHigh := rfl
@[simp] theorem takeException_mem (e : Exc) (pc : Long) :
    (takeException e pc s).mem = s.mem := rfl
@[simp] theorem takeException_memMap (e : Exc) (pc : Long) :
    (takeException e pc s).memMap = s.memMap := rfl
@[simp] theorem takeException_progText (e : Exc) (pc : Long) :
    (takeException e pc s).progText = s.progText := rfl
@[simp] theorem takeException_status (e : Exc) (pc : Long) :
    (takeException e pc s).status = .faulted ⟨e, pc⟩ := rfl
@[simp] theorem takeException_freeCount (e : Exc) (pc : Long) :
    (takeException e pc s).freeCount = s.freeCount := rfl

/-! ## Registers -/

@[simp] theorem State.setD_dreg_same (r : Reg) (v : Long) : (s.setD r v).dreg r = v := by
  simp [State.dreg]

theorem State.setD_dreg (r q : Reg) (v : Long) :
    (s.setD r v).dreg q = if r = q then v else s.dreg q := by
  simp only [State.dreg, State.setD_d, Vector.getElem_set, ← BitVec.toNat_inj]

theorem State.setD_dreg_other {r q : Reg} (v : Long) (h : q ≠ r) :
    (s.setD r v).dreg q = s.dreg q := by
  rw [State.setD_dreg, if_neg (Ne.symm h)]

@[simp] theorem State.setA_areg_same (r : Reg) (v : Long) : (s.setA r v).areg r = v := by
  simp [State.areg]

theorem State.setA_areg (r q : Reg) (v : Long) :
    (s.setA r v).areg q = if r = q then v else s.areg q := by
  simp only [State.areg, State.setA_a, Vector.getElem_set, ← BitVec.toNat_inj]

theorem State.setA_areg_other {r q : Reg} (v : Long) (h : q ≠ r) :
    (s.setA r v).areg q = s.areg q := by
  rw [State.setA_areg, if_neg (Ne.symm h)]

@[simp] theorem State.setD_areg (r : Reg) (v : Long) (q : Reg) : (s.setD r v).areg q = s.areg q := rfl
@[simp] theorem State.setD_byteAt (r : Reg) (v : Long) (x : Nat) : (s.setD r v).byteAt x = s.byteAt x := rfl
@[simp] theorem State.setD_valueAt (r : Reg) (v : Long) (x : Long) (z : Size) :
    (s.setD r v).valueAt x z = s.valueAt x z := rfl
@[simp] theorem State.setA_dreg (r : Reg) (v : Long) (q : Reg) : (s.setA r v).dreg q = s.dreg q := rfl
@[simp] theorem State.setA_byteAt (r : Reg) (v : Long) (x : Nat) : (s.setA r v).byteAt x = s.byteAt x := rfl
@[simp] theorem State.setA_valueAt (r : Reg) (v : Long) (x : Long) (z : Size) :
    (s.setA r v).valueAt x z = s.valueAt x z := rfl
@[simp] theorem State.setPc_dreg (v : Long) (q : Reg) : (s.setPc v).dreg q = s.dreg q := rfl
@[simp] theorem State.setPc_areg (v : Long) (q : Reg) : (s.setPc v).areg q = s.areg q := rfl
@[simp] theorem State.setPc_byteAt (v : Long) (x : Nat) : (s.setPc v).byteAt x = s.byteAt x := rfl
@[simp] theorem State.setPc_valueAt (v : Long) (x : Long) (z : Size) :
    (s.setPc v).valueAt x z = s.valueAt x z := rfl
@[simp] theorem State.setCcr_dreg (k : Ccr) (q : Reg) : (s.setCcr k).dreg q = s.dreg q := rfl
@[simp] theorem State.setCcr_areg (k : Ccr) (q : Reg) : (s.setCcr k).areg q = s.areg q := rfl
@[simp] theorem State.setCcr_byteAt (k : Ccr) (x : Nat) : (s.setCcr k).byteAt x = s.byteAt x := rfl
@[simp] theorem State.setCcr_valueAt (k : Ccr) (x : Long) (z : Size) :
    (s.setCcr k).valueAt x z = s.valueAt x z := rfl
@[simp] theorem State.setMem_dreg (m : Memory) (q : Reg) : (s.setMem m).dreg q = s.dreg q := rfl
@[simp] theorem State.setMem_areg (m : Memory) (q : Reg) : (s.setMem m).areg q = s.areg q := rfl
@[simp] theorem State.setFreeCount_dreg (k : Nat) (q : Reg) : (s.setFreeCount k).dreg q = s.dreg q := rfl
@[simp] theorem State.setFreeCount_areg (k : Nat) (q : Reg) : (s.setFreeCount k).areg q = s.areg q := rfl
@[simp] theorem State.setFreeCount_byteAt (k : Nat) (x : Nat) : (s.setFreeCount k).byteAt x = s.byteAt x := rfl
@[simp] theorem State.setFreeCount_valueAt (k : Nat) (x : Long) (z : Size) :
    (s.setFreeCount k).valueAt x z = s.valueAt x z := rfl
@[simp] theorem State.setSrHigh_dreg (v : Byte) (q : Reg) : (s.setSrHigh v).dreg q = s.dreg q := rfl
@[simp] theorem State.setSrHigh_areg (v : Byte) (q : Reg) : (s.setSrHigh v).areg q = s.areg q := rfl
@[simp] theorem State.setSrHigh_byteAt (v : Byte) (x : Nat) : (s.setSrHigh v).byteAt x = s.byteAt x := rfl
@[simp] theorem State.setSrHigh_valueAt (v : Byte) (x : Long) (z : Size) :
    (s.setSrHigh v).valueAt x z = s.valueAt x z := rfl
@[simp] theorem State.setStatus_dreg (v : Status) (q : Reg) : (s.setStatus v).dreg q = s.dreg q := rfl
@[simp] theorem State.setStatus_areg (v : Status) (q : Reg) : (s.setStatus v).areg q = s.areg q := rfl
@[simp] theorem State.setStatus_byteAt (v : Status) (x : Nat) : (s.setStatus v).byteAt x = s.byteAt x := rfl
@[simp] theorem State.setStatus_valueAt (v : Status) (x : Long) (z : Size) :
    (s.setStatus v).valueAt x z = s.valueAt x z := rfl
@[simp] theorem State.afterOpword_dreg (q : Reg) : s.afterOpword.dreg q = s.dreg q := rfl
@[simp] theorem State.afterOpword_areg (q : Reg) : s.afterOpword.areg q = s.areg q := rfl
@[simp] theorem State.afterOpword_byteAt (x : Nat) : s.afterOpword.byteAt x = s.byteAt x := rfl
@[simp] theorem State.afterOpword_valueAt (x : Long) (z : Size) :
    s.afterOpword.valueAt x z = s.valueAt x z := rfl
@[simp] theorem State.storeAt_dreg (addr : Long) (sz : Size) (v : BitVec sz.bits) (q : Reg) : (s.storeAt addr sz v).dreg q = s.dreg q := rfl
@[simp] theorem State.storeAt_areg (addr : Long) (sz : Size) (v : BitVec sz.bits) (q : Reg) : (s.storeAt addr sz v).areg q = s.areg q := rfl
@[simp] theorem takeException_dreg (e : Exc) (pc : Long) (q : Reg) :
    (takeException e pc s).dreg q = s.dreg q := rfl
@[simp] theorem takeException_areg (e : Exc) (pc : Long) (q : Reg) :
    (takeException e pc s).areg q = s.areg q := rfl
@[simp] theorem takeException_byteAt (e : Exc) (pc : Long) (x : Nat) :
    (takeException e pc s).byteAt x = s.byteAt x := rfl

end Sys2Proof.Machine
end

