-- ==== Sys2Proof/Laws/Memory.lean ====
section
/-! SUPPORT. The laws of memory: what a byte reads as after a write, that every operation keeps the
canonical form, that canonical memories which read alike are equal, and the same for the big-endian
wider values. -/

namespace Sys2Proof.Machine

/-! ## One byte -/

@[simp] theorem Memory.read_nil (x : Nat) : Memory.read [] x = unlistedByte := rfl

theorem Memory.read_cons (b : Nat) (w : Byte) (rest : Memory) (x : Nat) :
    Memory.read ((b, w) :: rest) x = if b = x then w else Memory.read rest x := rfl

theorem Memory.read_erase (m : Memory) (a x : Nat) :
    Memory.read (Memory.erase m a) x = if x = a then unlistedByte else Memory.read m x := by
  induction m with
  | nil => simp [Memory.erase]
  | cons e rest ih =>
    obtain ⟨b, w⟩ := e
    simp only [Memory.erase]
    split
    · subst b
      rw [ih, Memory.read_cons]
      split <;> simp_all [eq_comm]
    · rw [Memory.read_cons, Memory.read_cons, ih]
      by_cases hx : x = a
      · subst hx; simp_all
      · simp [hx]

theorem Memory.read_insert (m : Memory) (a x : Nat) (v : Byte) :
    Memory.read (Memory.insert m a v) x = if x = a then v else Memory.read m x := by
  induction m with
  | nil => simp [Memory.insert, Memory.read_cons, eq_comm]
  | cons e rest ih =>
    obtain ⟨b, w⟩ := e
    simp only [Memory.insert]
    split
    · simp [Memory.read_cons, eq_comm]
    · split
      · subst b
        simp only [Memory.read_cons]
        by_cases hx : a = x
        · rw [if_pos hx, if_pos hx.symm]
        · rw [if_neg hx, if_neg (Ne.symm hx), if_neg hx]
      · rw [Memory.read_cons, Memory.read_cons, ih]
        by_cases hx : x = a
        · subst hx; simp_all
          intro h; simp_all
        · simp [hx]

/-- Reading after a write: the byte written there, every other byte as before. -/
theorem Memory.read_write (m : Memory) (a x : Nat) (v : Byte) :
    Memory.read (Memory.write m a v) x = if x = a then v else Memory.read m x := by
  simp only [Memory.write]
  split
  · rw [Memory.read_erase, ‹v = _›]
  · rw [Memory.read_insert]

@[simp] theorem Memory.read_write_same (m : Memory) (a : Nat) (v : Byte) :
    Memory.read (Memory.write m a v) a = v := by simp [Memory.read_write]

theorem Memory.read_write_other {m : Memory} {a x : Nat} (v : Byte) (h : x ≠ a) :
    Memory.read (Memory.write m a v) x = Memory.read m x := by simp [Memory.read_write, h]

/-! ## The canonical form -/

theorem Memory.wfAbove_cons {lo a : Nat} {v : Byte} {rest : Memory} :
    Memory.wfAbove lo ((a, v) :: rest) = true ↔
      lo ≤ a ∧ a < 2 ^ Config.addrBits ∧ v ≠ unlistedByte ∧ Memory.wfAbove (a + 1) rest = true := by
  simp [Memory.wfAbove, and_assoc]

theorem Memory.wfAbove_mono {m : Memory} {lo hi : Nat} (h : lo ≤ hi)
    (hm : Memory.wfAbove hi m = true) : Memory.wfAbove lo m = true := by
  cases m with
  | nil => rfl
  | cons e rest =>
    obtain ⟨a, v⟩ := e
    rw [Memory.wfAbove_cons] at hm ⊢
    exact ⟨by omega, hm.2⟩

theorem Memory.wfAbove_erase {m : Memory} {lo : Nat} (a : Nat) (h : Memory.wfAbove lo m = true) :
    Memory.wfAbove lo (Memory.erase m a) = true := by
  induction m generalizing lo with
  | nil => rfl
  | cons e rest ih =>
    obtain ⟨b, w⟩ := e
    rw [Memory.wfAbove_cons] at h
    simp only [Memory.erase]
    split
    · exact Memory.wfAbove_mono (by omega) (ih h.2.2.2)
    · exact Memory.wfAbove_cons.2 ⟨h.1, h.2.1, h.2.2.1, ih h.2.2.2⟩

theorem Memory.wfAbove_insert {m : Memory} {lo a : Nat} {v : Byte} (hlo : lo ≤ a)
    (ha : a < 2 ^ Config.addrBits) (hv : v ≠ unlistedByte) (h : Memory.wfAbove lo m = true) :
    Memory.wfAbove lo (Memory.insert m a v) = true := by
  induction m generalizing lo with
  | nil => exact Memory.wfAbove_cons.2 ⟨hlo, ha, hv, rfl⟩
  | cons e rest ih =>
    obtain ⟨b, w⟩ := e
    rw [Memory.wfAbove_cons] at h
    simp only [Memory.insert]
    split
    · exact Memory.wfAbove_cons.2 ⟨hlo, ha, hv, Memory.wfAbove_cons.2 ⟨by omega, h.2⟩⟩
    · split
      · subst b; exact Memory.wfAbove_cons.2 ⟨hlo, ha, hv, h.2.2.2⟩
      · exact Memory.wfAbove_cons.2 ⟨h.1, h.2.1, h.2.2.1, ih (by omega) h.2.2.2⟩

/-- A write keeps the canonical form. -/
theorem Memory.wf_write {m : Memory} {a : Nat} (v : Byte) (ha : a < 2 ^ Config.addrBits)
    (h : Memory.wf m = true) : Memory.wf (Memory.write m a v) = true := by
  simp only [Memory.write]
  split
  · exact Memory.wfAbove_erase a h
  · exact Memory.wfAbove_insert (Nat.zero_le a) ha ‹_› h

theorem Memory.read_below {m : Memory} {lo x : Nat} (h : Memory.wfAbove lo m = true)
    (hx : x < lo) : Memory.read m x = unlistedByte := by
  induction m generalizing lo with
  | nil => rfl
  | cons e rest ih =>
    obtain ⟨b, w⟩ := e
    rw [Memory.wfAbove_cons] at h
    rw [Memory.read_cons, if_neg (by omega), ih h.2.2.2 (by omega)]

theorem Memory.eq_of_read_above {m m' : Memory} {lo : Nat} (h : Memory.wfAbove lo m = true)
    (h' : Memory.wfAbove lo m' = true) (heq : ∀ x, Memory.read m x = Memory.read m' x) :
    m = m' := by
  induction m generalizing lo m' with
  | nil =>
    cases m' with
    | nil => rfl
    | cons e rest =>
      obtain ⟨a, v⟩ := e
      have := heq a
      rw [Memory.wfAbove_cons] at h'
      simp [Memory.read_cons] at this
      exact absurd this.symm h'.2.2.1
  | cons e rest ih =>
    obtain ⟨a, v⟩ := e
    cases m' with
    | nil =>
      have := heq a
      rw [Memory.wfAbove_cons] at h
      simp [Memory.read_cons] at this
      exact absurd this h.2.2.1
    | cons e' rest' =>
      obtain ⟨b, w⟩ := e'
      rw [Memory.wfAbove_cons] at h h'
      have hab : a = b := by
        rcases Nat.lt_trichotomy a b with hlt | heq' | hgt
        · have := heq a
          rw [Memory.read_cons, if_pos rfl, Memory.read_cons, if_neg (by omega),
            Memory.read_below h'.2.2.2 (by omega)] at this
          exact absurd this h.2.2.1
        · exact heq'
        · have := heq b
          rw [Memory.read_cons, if_neg (by omega), Memory.read_below h.2.2.2 (by omega),
            Memory.read_cons, if_pos rfl] at this
          exact absurd this.symm h'.2.2.1
      subst hab
      have hvw : v = w := by simpa [Memory.read_cons] using heq a
      subst hvw
      have : rest = rest' := by
        refine ih h.2.2.2 h'.2.2.2 fun x => ?_
        by_cases hx : a = x
        · subst hx
          rw [Memory.read_below h.2.2.2 (by omega), Memory.read_below h'.2.2.2 (by omega)]
        · simpa [Memory.read_cons, hx] using heq x
      rw [this]

/-- Canonical memories that read alike are the same data. -/
theorem Memory.eq_of_read {m m' : Memory} (h : Memory.wf m = true) (h' : Memory.wf m' = true)
    (heq : ∀ x, Memory.read m x = Memory.read m' x) : m = m' :=
  Memory.eq_of_read_above h h' heq

/-! ## Wider values -/

theorem byteAddr_lt (a i : Nat) : byteAddr a i < 2 ^ Config.addrBits :=
  Nat.mod_lt _ (Nat.two_pow_pos _)

theorem byteAddr_inj {a i j : Nat} (hi : i < 4) (hj : j < 4) (h : byteAddr a i = byteAddr a j) :
    i = j := by
  simp only [byteAddr, Config.addrBits] at h
  omega

theorem Memory.readBytes_lt (m : Memory) (a k : Nat) : Memory.readBytes m a k < 256 ^ k := by
  induction k with
  | zero => simp [Memory.readBytes]
  | succ k ih =>
    have := (Memory.read m (byteAddr a k)).isLt
    simp only [Memory.readBytes, Nat.pow_succ]
    omega

theorem Memory.readBytes_congr {m m' : Memory} {a k : Nat}
    (h : ∀ i, i < k → Memory.read m (byteAddr a i) = Memory.read m' (byteAddr a i)) :
    Memory.readBytes m a k = Memory.readBytes m' a k := by
  induction k with
  | zero => rfl
  | succ k ih =>
    simp only [Memory.readBytes]
    rw [ih fun i hi => h i (by omega), h k (by omega)]

/-- A byte outside the stored ones reads as before. -/
theorem Memory.read_writeBytes_other {m : Memory} {a k v x : Nat}
    (h : ∀ i, i < k → x ≠ byteAddr a i) :
    Memory.read (Memory.writeBytes m a k v) x = Memory.read m x := by
  induction k generalizing v with
  | zero => rfl
  | succ k ih =>
    simp only [Memory.writeBytes]
    rw [Memory.read_write_other _ (h k (by omega)), ih fun i hi => h i (by omega)]

/-- Byte `i` of the `k` stored ones: the first holds the highest bits (R51). -/
theorem Memory.read_writeBytes_byte {m : Memory} {a k v i : Nat} (hk : k ≤ 4) (hi : i < k) :
    Memory.read (Memory.writeBytes m a k v) (byteAddr a i)
      = BitVec.ofNat 8 (v / 256 ^ (k - 1 - i)) := by
  induction k generalizing v with
  | zero => omega
  | succ k ih =>
    simp only [Memory.writeBytes, Memory.read_write]
    by_cases hik : i = k
    · subst hik; simp
    · rw [if_neg fun h => hik (byteAddr_inj (by omega) (by omega) h), ih (by omega) (by omega),
        Nat.div_div_eq_div_mul, ← Nat.pow_succ']
      congr 3
      omega

/-- A stored value reads back, cut to its bytes (R52, R53). -/
theorem Memory.readBytes_writeBytes {m : Memory} {a k v : Nat} (hk : k ≤ 4) :
    Memory.readBytes (Memory.writeBytes m a k v) a k = v % 256 ^ k := by
  induction k generalizing v with
  | zero => simp [Memory.readBytes, Nat.mod_one]
  | succ k ih =>
    simp only [Memory.readBytes, Memory.writeBytes, Memory.read_write_same]
    have : Memory.readBytes
        (Memory.write (Memory.writeBytes m a k (v / 256)) (byteAddr a k) (BitVec.ofNat 8 v)) a k
        = Memory.readBytes (Memory.writeBytes m a k (v / 256)) a k :=
      Memory.readBytes_congr fun i hi =>
        Memory.read_write_other _ fun h => by have := byteAddr_inj (by omega) (by omega) h; omega
    rw [this, ih (by omega), Nat.pow_succ', Nat.mod_mul, BitVec.toNat_ofNat]
    omega

/-- Storing a wider value keeps the canonical form. -/
theorem Memory.wf_writeBytes {m : Memory} (a k v : Nat) (h : Memory.wf m = true) :
    Memory.wf (Memory.writeBytes m a k v) = true := by
  induction k generalizing v with
  | zero => exact h
  | succ k ih => exact Memory.wf_write _ (byteAddr_lt a k) (ih _)

/-! ## The state's memory -/

theorem State.storeAt_byteAt_other {s : State} {addr : Long} {sz : Size} {v : BitVec sz.bits}
    {x : Nat} (h : ∀ i, i < sz.bytes → x ≠ byteAddr (busAddr addr) i) :
    (s.storeAt addr sz v).byteAt x = s.byteAt x :=
  Memory.read_writeBytes_other h

@[simp] theorem State.storeAt_valueAt_same (s : State) (addr : Long) (sz : Size)
    (v : BitVec sz.bits) : (s.storeAt addr sz v).valueAt addr sz = v := by
  have hv := v.isLt
  have hb : sz.bytes ≤ 4 := by cases sz <;> decide
  have hp : 256 ^ sz.bytes = 2 ^ sz.bits := by cases sz <;> rfl
  simp only [State.valueAt, State.storeAt_mem, Memory.readBytes_writeBytes hb, hp]
  rw [Nat.mod_eq_of_lt hv, BitVec.ofNat_toNat, BitVec.setWidth_eq]

/-- The reset memory is canonical. -/
theorem reset_mem_wf : Memory.wf State.reset.mem = true := rfl

end Sys2Proof.Machine
end

