-- ==== Sys2Proof/Laws/Ops.lean ====
section
/-! SUPPORT. One lemma per named operation that says what it answers, how parts of an instruction
compose, and a package for properties that every part keeps (`Keeps`). -/

namespace Sys2Proof.Machine

/-! ## Composition -/

@[simp] theorem M.pure_apply {α : Type} (a : α) (s : State) : (pure a : M α) s = .ok a s := rfl

theorem M.bind_apply {α β : Type} (m : M α) (f : α → M β) (s : State) :
    (m >>= f) s = match m s with
      | .ok a s' => f a s'
      | .error e s' => .error e s' := by
  show EStateM.bind m f s = _
  unfold EStateM.bind
  cases m s <;> rfl

theorem M.bind_ok {α β : Type} {m : M α} {f : α → M β} {s s' : State} {a : α}
    (h : m s = .ok a s') : (m >>= f) s = f a s' := by rw [M.bind_apply, h]

theorem M.bind_error {α β : Type} {m : M α} {f : α → M β} {s s' : State} {e : Exc}
    (h : m s = .error e s') : (m >>= f) s = .error e s' := by rw [M.bind_apply, h]

/-- A composition that answers: both parts answered. -/
theorem M.bind_eq_ok {α β : Type} {m : M α} {f : α → M β} {s t : State} {b : β} :
    (m >>= f) s = .ok b t ↔ ∃ a s', m s = .ok a s' ∧ f a s' = .ok b t := by
  rw [M.bind_apply]
  cases h : m s <;> simp

/-- A composition that raises: the first part raised, or it answered and the second raised. -/
theorem M.bind_eq_error {α β : Type} {m : M α} {f : α → M β} {s t : State} {e : Exc} :
    (m >>= f) s = .error e t ↔
      m s = .error e t ∨ ∃ a s', m s = .ok a s' ∧ f a s' = .error e t := by
  rw [M.bind_apply]
  cases h : m s <;> simp

/-! ## Partial register writes (R128) -/

/-- A partial write replaces the low bits. -/
theorem insertLow_low {n i : Nat} (old : Long) (v : BitVec n) (hi : i < n) (hn : n ≤ 32) :
    (insertLow old v).getLsbD i = v.getLsbD i := by
  have h : i < 32 := by omega
  simp [insertLow, hi, h]

/-- A partial write keeps the bits above. -/
theorem insertLow_high {n i : Nat} (old : Long) (v : BitVec n) (hi : n ≤ i) :
    (insertLow old v).getLsbD i = old.getLsbD i := by
  have hv : v.getLsbD i = false := BitVec.getLsbD_of_ge v i hi
  simp only [insertLow, BitVec.getLsbD_or, BitVec.getLsbD_shiftLeft, BitVec.getLsbD_ushiftRight,
    BitVec.getLsbD_setWidth, hv, Bool.and_false, Bool.or_false]
  by_cases h : i < 32
  · simp [h, show ¬i < n by omega, show n + (i - n) = i by omega]
  · simp [h, BitVec.getLsbD_of_ge old i (by omega)]

/-! ## The operations that always answer -/

section
variable (s : State)

@[simp] theorem readD_apply (sz : Size) (r : Reg) :
    readD sz r s = .ok ((s.dreg r).setWidth sz.bits) s := rfl
@[simp] theorem readA_apply (sz : Size) (r : Reg) :
    readA sz r s = .ok ((s.areg r).setWidth sz.bits) s := rfl
@[simp] theorem readALong_apply (r : Reg) : readALong r s = .ok (s.areg r) s := rfl
@[simp] theorem writeD_apply (sz : Size) (r : Reg) (v : BitVec sz.bits) :
    writeD sz r v s = .ok () (s.setD r (insertLow (s.dreg r) v)) := rfl
@[simp] theorem writeDLong_apply (r : Reg) (v : Long) : writeDLong r v s = .ok () (s.setD r v) := rfl
@[simp] theorem writeALong_apply (r : Reg) (v : Long) : writeALong r v s = .ok () (s.setA r v) := rfl
@[simp] theorem readPc_apply : readPc s = .ok s.pc s := rfl
@[simp] theorem writePc_apply (v : Long) : writePc v s = .ok () (s.setPc v) := rfl
@[simp] theorem readCcr_apply : readCcr s = .ok s.ccr s := rfl
@[simp] theorem writeCcr_apply (k : Ccr) : writeCcr k s = .ok () (s.setCcr k) := rfl
@[simp] theorem raise_apply {α : Type} (e : Exc) : (raise e : M α) s = .error e s := rfl
@[simp] theorem drawBit_apply :
    drawBit s = .ok (Config.freeBit s.freeCount) (s.setFreeCount (s.freeCount + 1)) := rfl
@[simp] theorem regCount_apply (r : Reg) :
    regCount r s = .ok ((s.dreg r).toNat % Config.shiftCountMod) s := rfl
@[simp] theorem dynamicBit_apply (r : Reg) : dynamicBit r s = .ok (s.dreg r).toNat s := rfl

end

/-! ## Memory accesses -/

theorem memRead_apply (access : Access) (addr : Long) (sz : Size) (s : State) :
    memRead access addr sz s = match accessFault s access addr sz with
      | some e => .error e s
      | none => .ok (s.valueAt addr sz) s := rfl

theorem memWrite_apply (addr : Long) (sz : Size) (v : BitVec sz.bits) (s : State) :
    memWrite addr sz v s = match writeFault s addr sz with
      | some e => .error e s
      | none => .ok () (s.storeAt addr sz v) := rfl

/-- A read that answers passed its checks and left the state alone. -/
theorem memRead_eq_ok {access : Access} {addr : Long} {sz : Size} {s t : State}
    {v : BitVec sz.bits} :
    memRead access addr sz s = .ok v t ↔
      accessFault s access addr sz = none ∧ v = s.valueAt addr sz ∧ t = s := by
  rw [memRead_apply]
  cases h : accessFault s access addr sz <;> simp [eq_comm]

/-- A read that raises left the state alone. -/
theorem memRead_eq_error {access : Access} {addr : Long} {sz : Size} {s t : State} {e : Exc} :
    memRead access addr sz s = .error e t ↔ accessFault s access addr sz = some e ∧ t = s := by
  rw [memRead_apply]
  cases h : accessFault s access addr sz <;> simp [eq_comm]

/-- A write that answers passed its checks and stored the value. -/
theorem memWrite_eq_ok {addr : Long} {sz : Size} {v : BitVec sz.bits} {s t : State} {u : Unit} :
    memWrite addr sz v s = .ok u t ↔ writeFault s addr sz = none ∧ t = s.storeAt addr sz v := by
  rw [memWrite_apply]
  cases h : writeFault s addr sz <;> simp [eq_comm]

/-- A write that raises wrote nothing. -/
theorem memWrite_eq_error {addr : Long} {sz : Size} {v : BitVec sz.bits} {s t : State} {e : Exc} :
    memWrite addr sz v s = .error e t ↔ writeFault s addr sz = some e ∧ t = s := by
  rw [memWrite_apply]
  cases h : writeFault s addr sz <;> simp [eq_comm]

/-- What the checks of an access look at: the map alone. -/
theorem accessFault_congr {s t : State} (h : t.memMap = s.memMap) (access : Access) (addr : Long)
    (sz : Size) : accessFault t access addr sz = accessFault s access addr sz := by
  simp only [accessFault, h]

theorem writeFault_congr {s t : State} (h : t.memMap = s.memMap) (h' : t.progText = s.progText)
    (addr : Long) (sz : Size) : writeFault t addr sz = writeFault s addr sz := by
  simp only [writeFault, accessFault_congr h, h']

theorem firstByte_eq_none {p : Nat → Bool} {a k : Nat} :
    firstByte p a k = none ↔ ∀ i, i < k → p (byteAddr a i) = false := by
  induction k with
  | zero => simp [firstByte]
  | succ k ih =>
    simp only [firstByte]
    cases hf : firstByte p a k with
    | some b =>
      simp only [reduceCtorEq, false_iff]
      intro h
      have := ih.2 fun i hi => h i (by omega)
      rw [this] at hf
      exact absurd hf (by simp)
    | none =>
      have hall := ih.1 hf
      by_cases hp : p (byteAddr a k)
      · simp only [hp, if_true, reduceCtorEq, false_iff]
        intro h
        simp [h k (by omega)] at hp
      · simp only [hp, Bool.false_eq_true, if_false, true_iff]
        intro i hi
        by_cases hik : i = k
        · subst hik; simpa using hp
        · exact hall i (by omega)

/-- An access passes its checks exactly when it is aligned and every byte is mapped. -/
theorem accessFault_eq_none {s : State} {access : Access} {addr : Long} {sz : Size} :
    accessFault s access addr sz = none ↔
      (sz = .byte ∨ busAddr addr % 2 = 0) ∧
        ∀ i, i < sz.bytes → inRegions s.memMap (byteAddr (busAddr addr) i) = true := by
  have hm : firstByte (fun b => !inRegions s.memMap b) (busAddr addr) sz.bytes = none ↔
      ∀ i, i < sz.bytes → inRegions s.memMap (byteAddr (busAddr addr) i) = true := by
    rw [firstByte_eq_none]; simp
  simp only [accessFault]
  split
  · rename_i h
    simp only [reduceCtorEq, false_iff, not_and]
    intro h'
    rcases h' with h' | h'
    · exact absurd h' h.1
    · omega
  · rename_i h
    rw [← hm]
    have hal : sz = .byte ∨ busAddr addr % 2 = 0 := by
      by_cases hs : sz = .byte
      · exact .inl hs
      · right
        have : ¬busAddr addr % 2 = 1 := fun h' => h ⟨hs, h'⟩
        omega
    split <;> simp_all

/-- A write passes its checks exactly when the access does and no byte is program text. -/
theorem writeFault_eq_none {s : State} {addr : Long} {sz : Size} :
    writeFault s addr sz = none ↔
      accessFault s .write addr sz = none ∧
        ∀ i, i < sz.bytes → inRegions s.progText (byteAddr (busAddr addr) i) = false := by
  have hm : firstByte (fun b => inRegions s.progText b) (busAddr addr) sz.bytes = none ↔
      ∀ i, i < sz.bytes → inRegions s.progText (byteAddr (busAddr addr) i) = false :=
    firstByte_eq_none
  rw [← hm]
  simp only [writeFault]
  split
  · simp_all
  · split <;> simp_all

/-! ## Fetching -/

/-- A fetch that answers: the word at pc, and pc moved on. -/
theorem fetch16_eq_ok {s t : State} {w : Word} :
    fetch16 s = .ok w t ↔
      accessFault s .fetch s.pc .word = none ∧ w = s.valueAt s.pc .word ∧
        t = s.setPc (s.pc + 2#32) := by
  simp only [fetch16, M.bind_apply, readPc_apply, memRead_apply]
  cases h : accessFault s .fetch s.pc .word <;> simp [eq_comm]

/-- A fetch that raises left the state alone. -/
theorem fetch16_eq_error {s t : State} {e : Exc} :
    fetch16 s = .error e t ↔ accessFault s .fetch s.pc .word = some e ∧ t = s := by
  simp only [fetch16, M.bind_apply, readPc_apply, memRead_apply]
  cases h : accessFault s .fetch s.pc .word <;> simp [eq_comm]

theorem fetchExt_eq_ok {s t : State} {u : Unit} :
    fetchExt s = .ok u t ↔
      accessFault s .fetch s.pc .word = none ∧ t = s.setPc (s.pc + 2#32) := by
  simp only [fetchExt, M.bind_eq_ok, fetch16_eq_ok]
  constructor
  · rintro ⟨w, s', ⟨h, -, rfl⟩, h'⟩
    simp only [M.pure_apply, EStateM.Result.ok.injEq] at h'
    exact ⟨h, h'.2.symm⟩
  · rintro ⟨h, rfl⟩
    exact ⟨_, _, ⟨h, rfl, rfl⟩, rfl⟩

theorem fetchExt_eq_error {s t : State} {e : Exc} :
    fetchExt s = .error e t ↔ accessFault s .fetch s.pc .word = some e ∧ t = s := by
  simp only [fetchExt, M.bind_eq_error, fetch16_eq_error]
  simp

/-! ## Completing an instruction -/

/-- An instruction's body that answers `s'` gives the next state `s'`. -/
theorem execute_of_ok {m : M Unit} {s s' : State} (h : m s.afterOpword = .ok () s') :
    execute m s = .next s' := by simp [execute, complete, h]

/-- An instruction's body that raises takes the exception. -/
theorem execute_of_error {m : M Unit} {s s' : State} {e : Exc}
    (h : m s.afterOpword = .error e s') : execute m s = .next (takeException e s.pc s') := by
  simp [execute, complete, h]

/-- An instruction always answers a next state: its own, or the one an exception leaves. -/
theorem execute_eq_next {m : M Unit} {s t : State} :
    execute m s = .next t ↔ m s.afterOpword = .ok () t ∨
      ∃ e s', m s.afterOpword = .error e s' ∧ t = takeException e s.pc s' := by
  simp only [execute, complete]
  cases h : m s.afterOpword <;> simp [eq_comm]

/-! ## Properties that every part keeps -/

/-- Whatever the part answers or raises, the state before and the state after are related by `R`. -/
def Keeps {α : Type} (R : State → State → Prop) (m : M α) : Prop :=
  ∀ s, match m s with
    | .ok _ t => R s t
    | .error _ t => R s t

theorem Keeps.ok {α : Type} {R : State → State → Prop} {m : M α} (h : Keeps R m) {s t : State}
    {a : α} (hm : m s = .ok a t) : R s t := by
  have := h s
  rwa [hm] at this

theorem Keeps.error {α : Type} {R : State → State → Prop} {m : M α} (h : Keeps R m) {s t : State}
    {e : Exc} (hm : m s = .error e t) : R s t := by
  have := h s
  rwa [hm] at this

theorem Keeps.pure {α : Type} {R : State → State → Prop} (hr : ∀ s, R s s) (a : α) :
    Keeps R (pure a : M α) := fun s => hr s

theorem Keeps.bind {α β : Type} {R : State → State → Prop} {m : M α} {f : α → M β}
    (ht : ∀ s t u, R s t → R t u → R s u) (hm : Keeps R m) (hf : ∀ a, Keeps R (f a)) :
    Keeps R (m >>= f) := by
  intro s
  cases hs : (m >>= f) s with
  | ok b u =>
    obtain ⟨a, t, h, h'⟩ := M.bind_eq_ok.1 hs
    exact ht _ _ _ (hm.ok h) ((hf a).ok h')
  | error e u =>
    rcases M.bind_eq_error.1 hs with h | ⟨a, t, h, h'⟩
    · exact hm.error h
    · exact ht _ _ _ (hm.ok h) ((hf a).error h')

end Sys2Proof.Machine
end

