-- ==== Sys2Proof/Laws/Operands.lean ====
section
/-! SUPPORT. What evaluating an operand can do: one lemma per shared operation of Operands.lean, the
case that answers and the case that raises. -/

namespace Sys2Proof

/-- The address register a mode updates satisfies `P` (`(An)+` and `-(An)`, R94). -/
def MemEa.UpdatesIn (P : Reg → Prop) (m : MemEa) : Prop :=
  ∀ r, m = .postInc r ∨ m = .preDec r → P r

/-- `MemEa.UpdatesIn` of a data alterable mode. -/
def DataAltEa.UpdatesIn (P : Reg → Prop) (e : DataAltEa) : Prop :=
  ∀ m, e = .mem m → m.UpdatesIn P

/-- `MemEa.UpdatesIn` of a data mode. -/
def DataEa.UpdatesIn (P : Reg → Prop) (e : DataEa) : Prop :=
  ∀ a, e = .alt a → a.UpdatesIn P

/-- `MemEa.UpdatesIn` of any mode. -/
def AnyEa.UpdatesIn (P : Reg → Prop) (e : AnyEa) : Prop :=
  ∀ a, e = .data a → a.UpdatesIn P

theorem MemEa.updatesIn_true (m : MemEa) : m.UpdatesIn fun _ => True := fun _ _ => trivial
theorem DataAltEa.updatesIn_true (e : DataAltEa) : e.UpdatesIn fun _ => True :=
  fun m _ => m.updatesIn_true
theorem DataEa.updatesIn_true (e : DataEa) : e.UpdatesIn fun _ => True :=
  fun a _ => a.updatesIn_true
theorem AnyEa.updatesIn_true (e : AnyEa) : e.UpdatesIn fun _ => True :=
  fun a _ => a.updatesIn_true

end Sys2Proof

namespace Sys2Proof.Machine

/-- All that a fetch of extension words or the resolution of an operand leaves alone. -/
structure SameData (s t : State) : Prop where
  d : t.d = s.d
  ccr : t.ccr = s.ccr
  srHigh : t.srHigh = s.srHigh
  mem : t.mem = s.mem
  memMap : t.memMap = s.memMap
  progText : t.progText = s.progText
  status : t.status = s.status
  freeCount : t.freeCount = s.freeCount
  /-- pc moves by whole words. -/
  pc : t.pc.getLsbD 0 = s.pc.getLsbD 0

theorem SameData.refl (s : State) : SameData s s := ⟨rfl, rfl, rfl, rfl, rfl, rfl, rfl, rfl, rfl⟩

theorem SameData.trans {s t u : State} (h : SameData s t) (h' : SameData t u) : SameData s u :=
  ⟨h'.d.trans h.d, h'.ccr.trans h.ccr, h'.srHigh.trans h.srHigh, h'.mem.trans h.mem,
    h'.memMap.trans h.memMap, h'.progText.trans h.progText, h'.status.trans h.status,
    h'.freeCount.trans h.freeCount, h'.pc.trans h.pc⟩

/-- Moving pc by a word keeps its parity. -/
theorem pc_add_two (x : Long) : (x + 2#32).getLsbD 0 = x.getLsbD 0 := by
  simp only [← BitVec.testBit_toNat, Nat.testBit_zero, BitVec.toNat_add, BitVec.toNat_ofNat]
  congr 1
  simp only [eq_iff_iff]
  omega

theorem SameData.setA (s : State) (r : Reg) (v : Long) : SameData s (s.setA r v) :=
  ⟨rfl, rfl, rfl, rfl, rfl, rfl, rfl, rfl, rfl⟩

theorem SameData.setPc (s : State) : SameData s (s.setPc (s.pc + 2#32)) :=
  ⟨rfl, rfl, rfl, rfl, rfl, rfl, rfl, rfl, pc_add_two s.pc⟩

theorem SameData.fault {s t : State} (h : SameData s t) (acc : Access) (addr : Long) (sz : Size) :
    accessFault t acc addr sz = accessFault s acc addr sz := accessFault_congr h.memMap acc addr sz

theorem SameData.dreg {s t : State} (h : SameData s t) (r : Reg) : t.dreg r = s.dreg r := by
  simp only [State.dreg, h.d]

theorem SameData.byteAt {s t : State} (h : SameData s t) (x : Nat) : t.byteAt x = s.byteAt x := by
  simp only [State.byteAt, h.mem]

theorem SameData.valueAt {s t : State} (h : SameData s t) (addr : Long) (sz : Size) :
    t.valueAt addr sz = s.valueAt addr sz := by simp only [State.valueAt, h.mem]

/-! ## What every operand operation keeps -/

theorem Keeps.of_ok {α : Type} {R : State → State → Prop} {m : M α} (f : State → α)
    (g : State → State) (h : ∀ s, m s = .ok (f s) (g s)) (hr : ∀ s, R s (g s)) : Keeps R m := by
  intro s
  rw [h s]
  exact hr s

/-- A relation between states that survives what evaluating an operand does: fetching a word and
updating an address register that satisfies `P`. -/
structure OperandRel (P : Reg → Prop) (R : State → State → Prop) : Prop where
  refl : ∀ s, R s s
  trans : ∀ s t u, R s t → R t u → R s u
  setPc : ∀ s, R s (s.setPc (s.pc + 2#32))
  setA : ∀ s r v, P r → R s (s.setA r v)

section
variable {P : Reg → Prop} {R : State → State → Prop}

theorem OperandRel.bind (hR : OperandRel P R) {α β : Type} {m : M α} {f : α → M β}
    (hm : Keeps R m) (hf : ∀ a, Keeps R (f a)) : Keeps R (m >>= f) := Keeps.bind hR.trans hm hf

theorem OperandRel.pure (hR : OperandRel P R) {α : Type} (a : α) : Keeps R (pure a : M α) :=
  Keeps.pure hR.refl a

theorem OperandRel.readD (hR : OperandRel P R) (sz : Size) (r : Reg) : Keeps R (readD sz r) :=
  fun s => hR.refl s

theorem OperandRel.readA (hR : OperandRel P R) (sz : Size) (r : Reg) : Keeps R (readA sz r) :=
  fun s => hR.refl s

theorem OperandRel.readALong (hR : OperandRel P R) (r : Reg) : Keeps R (readALong r) :=
  fun s => hR.refl s

theorem OperandRel.readPc (hR : OperandRel P R) : Keeps R readPc := fun s => hR.refl s

theorem OperandRel.readCcr (hR : OperandRel P R) : Keeps R readCcr := fun s => hR.refl s

theorem OperandRel.raise (hR : OperandRel P R) {α : Type} (e : Exc) : Keeps R (raise e : M α) :=
  fun s => hR.refl s

theorem OperandRel.regCount (hR : OperandRel P R) (r : Reg) : Keeps R (regCount r) :=
  fun s => hR.refl s

theorem OperandRel.dynamicBit (hR : OperandRel P R) (r : Reg) : Keeps R (dynamicBit r) :=
  fun s => hR.refl s

theorem OperandRel.memRead (hR : OperandRel P R) (acc : Access) (addr : Long) (sz : Size) :
    Keeps R (memRead acc addr sz) := by
  intro s
  rw [memRead_apply]
  cases accessFault s acc addr sz <;> exact hR.refl s

theorem OperandRel.fetchExt (hR : OperandRel P R) : Keeps R fetchExt := by
  intro s
  cases h : Sys2Proof.Machine.fetchExt s with
  | ok u t => rw [(fetchExt_eq_ok.1 h).2]; exact hR.setPc s
  | error e t => rw [(fetchExt_eq_error.1 h).2]; exact hR.refl s

theorem OperandRel.indexEa (hR : OperandRel P R) (base : Long) (ix : IndexExt) :
    Keeps R (indexEa base ix) := hR.bind hR.fetchExt fun _ => fun s => hR.refl s

theorem OperandRel.resolveMem (hR : OperandRel P R) (sz : Size) {m : MemEa}
    (hm : m.UpdatesIn P) : Keeps R (resolveMem sz m) := by
  cases m with
  | ind r => exact hR.readALong r
  | postInc r =>
    exact hR.bind (hR.readALong r) fun _ =>
      hR.bind (fun s => hR.setA s r _ (hm r (.inl rfl))) fun _ => hR.pure _
  | preDec r =>
    exact hR.bind (hR.readALong r) fun _ =>
      hR.bind (fun s => hR.setA s r _ (hm r (.inr rfl))) fun _ => hR.pure _
  | disp r d => exact hR.bind (hR.readALong r) fun _ => hR.bind hR.fetchExt fun _ => hR.pure _
  | index r ix => exact hR.bind (hR.readALong r) fun _ => hR.indexEa _ ix
  | absW w => exact hR.bind hR.fetchExt fun _ => hR.pure _
  | absL a => exact hR.bind hR.fetchExt fun _ => hR.bind hR.fetchExt fun _ => hR.pure _

theorem OperandRel.resolve (hR : OperandRel P R) (sz : Size) {e : DataAltEa}
    (he : e.UpdatesIn P) : Keeps R (resolve sz e) := by
  cases e with
  | dn r => exact hR.pure _
  | mem m => exact hR.bind (hR.resolveMem sz (he m rfl)) fun _ => hR.pure _

theorem OperandRel.readLoc (hR : OperandRel P R) (sz : Size) (l : Loc) : Keeps R (readLoc sz l) := by
  cases l with
  | dreg r => exact hR.readD sz r
  | mem a => exact hR.memRead .read a sz

theorem OperandRel.fetchImm (hR : OperandRel P R) (sz : Size) : Keeps R (fetchImm sz) := by
  cases sz with
  | byte => exact hR.fetchExt
  | word => exact hR.fetchExt
  | long => exact hR.bind hR.fetchExt fun _ => hR.fetchExt

theorem OperandRel.readImm (hR : OperandRel P R) (sz : Size) (v : BitVec sz.bits) :
    Keeps R (readImm sz v) := hR.bind (hR.fetchImm sz) fun _ => hR.pure _

theorem OperandRel.readData (hR : OperandRel P R) (sz : Size) {e : DataEa} (he : e.UpdatesIn P) :
    Keeps R (readData sz e) := by
  cases e with
  | alt e => exact hR.bind (hR.resolve sz (he e rfl)) fun l => hR.readLoc sz l
  | pcDisp d =>
    exact hR.bind hR.readPc fun _ => hR.bind hR.fetchExt fun _ => hR.memRead .read _ sz
  | pcIndex ix =>
    exact hR.bind hR.readPc fun _ => hR.bind (hR.indexEa _ ix) fun _ => hR.memRead .read _ sz
  | imm v => exact hR.readImm sz _

theorem OperandRel.readAny (hR : OperandRel P R) (sz : Size) {e : AnyEa} (he : e.UpdatesIn P) :
    Keeps R (readAny sz e) := by
  cases e with
  | an r => exact hR.readA sz r
  | data e => exact hR.readData sz (he e rfl)

theorem OperandRel.staticBit (hR : OperandRel P R) (k : Byte) : Keeps R (staticBit k) :=
  hR.bind hR.fetchExt fun _ => hR.pure _

theorem OperandRel.readDisp (hR : OperandRel P R) (d : Disp) : Keeps R (readDisp d) := by
  cases d with
  | short d => exact hR.pure _
  | long d => exact hR.bind hR.fetchExt fun _ => hR.pure _

end

/-- Operands leave all but pc and the address registers alone. -/
theorem sameData_operandRel (P : Reg → Prop) : OperandRel P SameData where
  refl := SameData.refl
  trans _ _ _ := SameData.trans
  setPc := SameData.setPc
  setA s r v _ := SameData.setA s r v

/-- Address registers outside `P` are unchanged. -/
def OnlyA (P : Reg → Prop) (s t : State) : Prop := ∀ q, ¬P q → t.areg q = s.areg q

/-- Operands leave alone every address register they do not update. -/
theorem onlyA_operandRel (P : Reg → Prop) : OperandRel P (OnlyA P) where
  refl _ _ _ := rfl
  trans _ _ _ h h' q hq := (h' q hq).trans (h q hq)
  setPc _ _ _ := rfl
  setA s _ v hr _ hq := State.setA_areg_other s v fun h => hq (h ▸ hr)

/-- What a memory operand leaves alone when it is resolved. -/
theorem resolveMem_sameData {sz : Size} {m : MemEa} {s t : State} {addr : Long}
    (h : resolveMem sz m s = .ok addr t) : SameData s t :=
  ((sameData_operandRel _).resolveMem sz m.updatesIn_true).ok h

theorem readData_sameData {sz : Size} {e : DataEa} {s t : State} {v : BitVec sz.bits}
    (h : readData sz e s = .ok v t) : SameData s t :=
  ((sameData_operandRel _).readData sz e.updatesIn_true).ok h

theorem readAny_sameData {sz : Size} {e : AnyEa} {s t : State} {v : BitVec sz.bits}
    (h : readAny sz e s = .ok v t) : SameData s t :=
  ((sameData_operandRel _).readAny sz e.updatesIn_true).ok h

/-- `index_ea` fetches its word, then adds base, index and displacement (R95). -/
theorem indexEa_apply (base : Long) (ix : IndexExt) (s : State) :
    indexEa base ix s = match fetchExt s with
      | .error e t => .error e t
      | .ok _ t => .ok (base + t.indexValue ix + ix.d8.signExtend 32) t := by
  unfold indexEa
  refine (M.bind_apply _ _ s).trans ?_
  cases fetchExt s <;> rfl

/-! ## The words an operand fetches -/

/-- The next `k` extension words can be fetched. -/
def CanFetch (s : State) (k : Nat) : Prop :=
  ∀ j, j < k → accessFault s .fetch (s.pc + BitVec.ofNat 32 (2 * j)) .word = none

theorem fetchExt_of_canFetch {s : State} (h : accessFault s .fetch s.pc .word = none) :
    fetchExt s = .ok () (s.setPc (s.pc + 2#32)) := fetchExt_eq_ok.2 ⟨h, rfl⟩

/-- A byte or word immediate is one word, a long immediate two (R92). -/
theorem fetchImm_eq_ok {sz : Size} {s t : State} {u : Unit} :
    fetchImm sz s = .ok u t ↔
      accessFault s .fetch s.pc .word = none ∧
        (match sz with
          | .byte => t = s.setPc (s.pc + 2#32)
          | .word => t = s.setPc (s.pc + 2#32)
          | .long => accessFault s .fetch (s.pc + 2#32) .word = none ∧
              t = s.setPc (s.pc + 2#32 + 2#32)) := by
  cases sz with
  | byte => exact fetchExt_eq_ok
  | word => exact fetchExt_eq_ok
  | long =>
    simp only [fetchImm, M.bind_eq_ok, fetchExt_eq_ok]
    constructor
    · rintro ⟨_, s1, ⟨h, rfl⟩, h', rfl⟩
      exact ⟨h, h', rfl⟩
    · rintro ⟨h, h', rfl⟩
      exact ⟨(), _, ⟨h, rfl⟩, h', rfl⟩

/-- An immediate that answers is the constant, its words fetched (R96). -/
theorem readImm_eq_ok {sz : Size} {v w : BitVec sz.bits} {s t : State} :
    readImm sz v s = .ok w t ↔ w = v ∧ fetchImm sz s = .ok () t := by
  simp only [readImm, M.bind_eq_ok, M.pure_apply, EStateM.Result.ok.injEq]
  constructor
  · rintro ⟨_, s1, h, rfl, rfl⟩
    exact ⟨rfl, h⟩
  · rintro ⟨rfl, h⟩
    exact ⟨(), _, h, rfl, rfl⟩

/-- A static bit number that answers is the constant, its word fetched (R99). -/
theorem staticBit_eq_ok {b : Byte} {s t : State} {k : Nat} :
    staticBit b s = .ok k t ↔ k = b.toNat ∧ fetchExt s = .ok () t := by
  simp only [staticBit, M.bind_eq_ok, M.pure_apply, EStateM.Result.ok.injEq]
  constructor
  · rintro ⟨_, s1, h, rfl, rfl⟩
    exact ⟨rfl, h⟩
  · rintro ⟨rfl, h⟩
    exact ⟨(), _, h, rfl, rfl⟩

end Sys2Proof.Machine
end

