-- ==== Sys2Proof/Laws/Forms.lean ====
section
/-! SUPPORT. What the shared frames of the instruction families do, one equation each: the state they
answer when their operands answer, and the operand's exception otherwise. -/

namespace Sys2Proof.Machine

/-- The checks of an access do not depend on what it is for. -/
theorem accessFault_none_iff {s : State} {acc acc' : Access} {addr : Long} {sz : Size} :
    accessFault s acc addr sz = none ↔ accessFault s acc' addr sz = none := by
  rw [accessFault_eq_none, accessFault_eq_none]

/-- Where an operand can be written it can be read. -/
theorem accessFault_of_writeFault {s : State} {acc : Access} {addr : Long} {sz : Size}
    (h : writeFault s addr sz = none) : accessFault s acc addr sz = none :=
  accessFault_none_iff.1 (writeFault_eq_none.1 h).1

section
variable {sz : Size} {s : State}

@[simp] theorem resolve_dn_apply (r : Reg) : resolve sz (.dn r) s = .ok (.dreg r) s := rfl

theorem resolve_mem_apply (m : MemEa) : resolve sz (.mem m) s = match resolveMem sz m s with
    | .ok addr t => .ok (.mem addr) t
    | .error e t => .error e t := by
  simp only [resolve, M.bind_apply]
  cases resolveMem sz m s <;> rfl

@[simp] theorem readLoc_dreg_apply (r : Reg) :
    readLoc sz (.dreg r) s = .ok ((s.dreg r).setWidth sz.bits) s := rfl

@[simp] theorem readLoc_mem (addr : Long) : readLoc sz (.mem addr) = memRead .read addr sz := rfl

@[simp] theorem writeLoc_dreg_apply (r : Reg) (v : BitVec sz.bits) :
    writeLoc sz (.dreg r) v s = .ok () (s.setD r (insertLow (s.dreg r) v)) := rfl

@[simp] theorem writeLoc_mem (addr : Long) (v : BitVec sz.bits) :
    writeLoc sz (.mem addr) v = memWrite addr sz v := rfl

/-! ## Two operands -/

/-- `OP <ea>,Dn` (R140). -/
theorem aluToDn_apply (f : Alu) (src : M (BitVec sz.bits)) (r : Reg) :
    aluToDn sz f src r s = match src s with
      | .ok a t =>
        let p := f a ((t.dreg r).setWidth sz.bits) t.ccr
        .ok () ((t.setD r (insertLow (t.dreg r) p.1)).setCcr p.2)
      | .error e t => .error e t := by
  simp only [aluToDn, M.bind_apply]
  cases src s <;> rfl

/-- `OP src,Dn` through a data alterable destination. -/
theorem aluToEa_dn_apply (f : Alu) (src : M (BitVec sz.bits)) (r : Reg) :
    aluToEa sz f src (.dn r) s = aluToDn sz f src r s := by
  rw [aluToDn_apply]
  simp only [aluToEa, M.bind_apply]
  cases src s <;> rfl

/-- `OP src,<ea>` on memory: source, address, read, write, in this order (R58, R94). -/
theorem aluToEa_mem_apply (f : Alu) (src : M (BitVec sz.bits)) (m : MemEa) :
    aluToEa sz f src (.mem m) s = match src s with
      | .error e t => .error e t
      | .ok a s1 => match resolveMem sz m s1 with
        | .error e t => .error e t
        | .ok addr t => match accessFault t .read addr sz with
          | some e => .error e t
          | none => match writeFault t addr sz with
            | some e => .error e t
            | none =>
              let p := f a (t.valueAt addr sz) t.ccr
              .ok () ((t.storeAt addr sz p.1).setCcr p.2) := by
  simp only [aluToEa, M.bind_apply, resolve_mem_apply]
  cases src s with
  | error e t => rfl
  | ok a s1 =>
    simp only
    cases resolveMem sz m s1 with
    | error e t => rfl
    | ok addr t =>
      simp only [readLoc_mem, writeLoc_mem, memRead_apply, memWrite_apply, readCcr_apply,
        writeCcr_apply]
      cases accessFault t .read addr sz with
      | some e => rfl
      | none =>
        simp only
        cases writeFault t addr sz <;> rfl

/-- `CMP <ea>,Dn` (R232). -/
theorem compareDn_apply (src : M (BitVec sz.bits)) (r : Reg) :
    compareDn sz src r s = match src s with
      | .ok a t =>
        let b := (t.dreg r).setWidth sz.bits
        .ok () (t.setCcr (cmpCcr a b (b - a) t.ccr))
      | .error e t => .error e t := by
  simp only [compareDn, M.bind_apply]
  cases src s <;> rfl

theorem compareEa_dn_apply (src : M (BitVec sz.bits)) (r : Reg) :
    compareEa sz src (.dn r) s = compareDn sz src r s := by
  rw [compareDn_apply]
  simp only [compareEa, M.bind_apply]
  cases src s <;> rfl

/-- `CMPI #imm,<ea>` on memory (R238). -/
theorem compareEa_mem_apply (src : M (BitVec sz.bits)) (m : MemEa) :
    compareEa sz src (.mem m) s = match src s with
      | .error e t => .error e t
      | .ok a s1 => match resolveMem sz m s1 with
        | .error e t => .error e t
        | .ok addr t => match accessFault t .read addr sz with
          | some e => .error e t
          | none =>
            let b := t.valueAt addr sz
            .ok () (t.setCcr (cmpCcr a b (b - a) t.ccr)) := by
  simp only [compareEa, M.bind_apply, resolve_mem_apply]
  cases src s with
  | error e t => rfl
  | ok a s1 =>
    simp only
    cases resolveMem sz m s1 with
    | error e t => rfl
    | ok addr t =>
      simp only [readLoc_mem, memRead_apply, readCcr_apply, writeCcr_apply]
      cases accessFault t .read addr sz <;> rfl

/-! ## One operand -/

@[simp] theorem unaryEa_dn_apply (f : Alu1) (r : Reg) :
    unaryEa sz f (.dn r) s =
      .ok () ((s.setD r (insertLow (s.dreg r) (f ((s.dreg r).setWidth sz.bits) s.ccr).1)).setCcr
        (f ((s.dreg r).setWidth sz.bits) s.ccr).2) := rfl

/-- `OP <ea>` on memory (R58, R148, R168). -/
theorem unaryEa_mem_apply (f : Alu1) (m : MemEa) :
    unaryEa sz f (.mem m) s = match resolveMem sz m s with
      | .error e t => .error e t
      | .ok addr t => match accessFault t .read addr sz with
        | some e => .error e t
        | none => match writeFault t addr sz with
          | some e => .error e t
          | none =>
            let p := f (t.valueAt addr sz) t.ccr
            .ok () ((t.storeAt addr sz p.1).setCcr p.2) := by
  simp only [unaryEa, M.bind_apply, resolve_mem_apply]
  cases resolveMem sz m s with
  | error e t => rfl
  | ok addr t =>
    simp only [readLoc_mem, writeLoc_mem, memRead_apply, memWrite_apply, readCcr_apply,
      writeCcr_apply]
    cases accessFault t .read addr sz with
    | some e => rfl
    | none =>
      simp only
      cases writeFault t addr sz <;> rfl

@[simp] theorem clearEa_dn_apply (r : Reg) :
    clearEa sz (.dn r) s =
      .ok () ((s.setD r (insertLow (s.dreg r) (0#sz.bits))).setCcr
        (logicCcr (0#sz.bits) s.ccr)) := rfl

/-- `CLR <ea>` on memory (R231). -/
theorem clearEa_mem_apply (m : MemEa) :
    clearEa sz (.mem m) s = match resolveMem sz m s with
      | .error e t => .error e t
      | .ok addr t => match writeFault t addr sz with
        | some e => .error e t
        | none =>
          .ok () ((t.storeAt addr sz (0#sz.bits)).setCcr (logicCcr (0#sz.bits) t.ccr)) := by
  simp only [clearEa, M.bind_apply, resolve_mem_apply]
  cases resolveMem sz m s with
  | error e t => rfl
  | ok addr t =>
    simp only [writeLoc_mem, memWrite_apply, readCcr_apply, writeCcr_apply]
    cases writeFault t addr sz <;> rfl

/-! ## MOVE -/

theorem moveEa_dn_apply (src : M (BitVec sz.bits)) (r : Reg) :
    moveEa sz src (.dn r) s = match src s with
      | .ok v t => .ok () ((t.setD r (insertLow (t.dreg r) v)).setCcr (logicCcr v t.ccr))
      | .error e t => .error e t := by
  simp only [moveEa, M.bind_apply]
  cases src s <;> rfl

theorem moveEa_mem_apply (src : M (BitVec sz.bits)) (m : MemEa) :
    moveEa sz src (.mem m) s = match src s with
      | .error e t => .error e t
      | .ok v s1 => match resolveMem sz m s1 with
        | .error e t => .error e t
        | .ok addr t => match writeFault t addr sz with
          | some e => .error e t
          | none => .ok () ((t.storeAt addr sz v).setCcr (logicCcr v t.ccr)) := by
  simp only [moveEa, M.bind_apply, resolve_mem_apply]
  cases src s with
  | error e t => rfl
  | ok v s1 =>
    simp only
    cases resolveMem sz m s1 with
    | error e t => rfl
    | ok addr t =>
      simp only [writeLoc_mem, memWrite_apply, readCcr_apply, writeCcr_apply]
      cases writeFault t addr sz <;> rfl

/-! ## Registers -/

@[simp] theorem setLongNZ_apply (r : Reg) (v : Long) :
    setLongNZ r v s = .ok () ((s.setD r v).setCcr (logicCcr v s.ccr)) := rfl

@[simp] theorem extendWord_apply (r : Reg) :
    extendWord r s =
      .ok () ((s.setD r (insertLow (s.dreg r) (((s.dreg r).setWidth 8).signExtend 16))).setCcr
        (logicCcr (((s.dreg r).setWidth 8).signExtend 16) s.ccr)) := rfl

@[simp] theorem extendLong_apply (r : Reg) :
    extendLong r s =
      .ok () ((s.setD r (((s.dreg r).setWidth 16).signExtend 32)).setCcr
        (logicCcr (((s.dreg r).setWidth 16).signExtend 32) s.ccr)) := rfl

theorem multiplyDn_apply (product : Word → Word → Long) (src : M Word) (r : Reg) :
    multiplyDn product src r s = match src s with
      | .ok a t =>
        let p := product a ((t.dreg r).setWidth 16)
        .ok () ((t.setD r p).setCcr (logicCcr p t.ccr))
      | .error e t => .error e t := by
  simp only [multiplyDn, M.bind_apply]
  cases src s <;> rfl

/-- The divides: zero divisor, overflow with two free bits, quotient and remainder (R146, R147). -/
theorem divideDn_apply (divide : Long → Word → Option (Word × Word)) (src : M Word) (r : Reg) :
    divideDn divide src r s = match src s with
      | .error e t => .error e t
      | .ok m t =>
        if m = 0#16 then .error .divideByZero t
        else match divide (t.dreg r) m with
          | none => .ok () ((t.setFreeCount (t.freeCount + 1 + 1)).setCcr
              { x := t.ccr.x, n := Config.freeBit t.freeCount
                z := Config.freeBit (t.freeCount + 1), v := true, c := false })
          | some (q, rem) => .ok () ((t.setD r (rem ++ q)).setCcr
              { x := t.ccr.x, n := q.msb, z := decide (q = 0#16), v := false, c := false }) := by
  simp only [divideDn, M.bind_apply]
  cases src s with
  | error e t => rfl
  | ok m t =>
    simp only [readD_apply, readCcr_apply]
    by_cases hm : m = 0#16
    · simp only [hm, if_true]
      rfl
    · simp only [hm, if_false]
      have : (t.dreg r).setWidth Size.long.bits = t.dreg r := BitVec.setWidth_eq _
      rw [this]
      cases divide (t.dreg r) m <;> rfl

/-! ## Shifts -/

/-- V is 0, but for ASL with the spec's default rule: the most significant bit changed (R180). -/
theorem shiftV_eq (op : ShiftOp) (b : Bool) :
    shiftV op b = pure (match op with
      | .asl => b
      | _ => false) := by cases op <;> rfl

theorem shiftDn_apply (op : ShiftOp) (count : M Nat) (dy : Reg) {cnt : Nat}
    (hc : count s = .ok cnt s) :
    shiftDn sz op count dy s =
      (let t := shiftResult op ((s.dreg dy).setWidth sz.bits) cnt s.ccr.x
       .ok () ((s.setD dy (insertLow (s.dreg dy) t.v)).setCcr
         { x := t.x, n := t.v.msb, z := decide (t.v = 0#sz.bits)
           v := (match op with
             | .asl => t.msbChanged
             | _ => false)
           c := t.c })) := by
  simp only [shiftDn, M.bind_apply, hc, readD_apply, readCcr_apply, shiftV_eq, M.pure_apply,
    writeD_apply, writeCcr_apply]

/-! ## Bits -/

@[simp] theorem writeBitZ_apply (b : Bool) :
    writeBitZ b s = .ok () (s.setCcr { s.ccr with z := !b }) := rfl

theorem changeBit_dn_apply (op : BitOp) (number : M Nat) (r : Reg) :
    changeBit op number (.dn r) s = match number s with
      | .error e t => .error e t
      | .ok k t =>
        let b := k % Config.bitNumModReg
        .ok () ((t.setD r (bitNew op (t.dreg r) b)).setCcr
          { t.ccr with z := !(t.dreg r).getLsbD b }) := by
  simp only [changeBit, M.bind_apply]
  cases number s with
  | error e t => rfl
  | ok k t =>
    have : (t.dreg r).setWidth Size.long.bits = t.dreg r := BitVec.setWidth_eq _
    simp only [resolve_dn_apply, readD_apply, M.bind_apply, this]
    rfl

theorem changeBit_mem_apply (op : BitOp) (number : M Nat) (m : MemEa) :
    changeBit op number (.mem m) s = match number s with
      | .error e t => .error e t
      | .ok k s1 => match resolveMem .byte m s1 with
        | .error e t => .error e t
        | .ok addr t => match accessFault t .read addr .byte with
          | some e => .error e t
          | none => match writeFault t addr .byte with
            | some e => .error e t
            | none =>
              let b := k % Config.bitNumModMem
              .ok () ((t.storeAt addr .byte (bitNew op (t.valueAt addr .byte) b)).setCcr
                { t.ccr with z := !(t.valueAt addr .byte).getLsbD b }) := by
  simp only [changeBit, M.bind_apply, resolve_mem_apply]
  cases number s with
  | error e t => rfl
  | ok k s1 =>
    simp only
    cases resolveMem .byte m s1 with
    | error e t => rfl
    | ok addr t =>
      simp only [M.bind_apply, memRead_apply, memWrite_apply, writeBitZ_apply]
      cases accessFault t .read addr .byte with
      | some e => rfl
      | none =>
        simp only
        cases writeFault t addr .byte <;> rfl

theorem testBit_dn_apply (number : M Nat) (r : Reg) :
    testBit number (.alt (.dn r)) s = match number s with
      | .error e t => .error e t
      | .ok k t => .ok () (t.setCcr
          { t.ccr with z := !(t.dreg r).getLsbD (k % Config.bitNumModReg) }) := by
  simp only [testBit, M.bind_apply]
  cases number s with
  | error e t => rfl
  | ok k t =>
    have : (t.dreg r).setWidth Size.long.bits = t.dreg r := BitVec.setWidth_eq _
    simp only [readD_apply, this]
    rfl

theorem testBit_other_apply (number : M Nat) (e : DataEa) (he : ∀ r, e ≠ .alt (.dn r)) :
    testBit number e s = match number s with
      | .error x t => .error x t
      | .ok k s1 => match readData .byte e s1 with
        | .error x t => .error x t
        | .ok v t => .ok () (t.setCcr
            { t.ccr with z := !v.getLsbD (k % Config.bitNumModMem) }) := by
  have hbody : ∀ (v : Byte) (t : State) (k : Nat),
      writeBitZ (v.getLsbD (k % Config.bitNumModMem)) t =
        .ok () (t.setCcr { t.ccr with z := !v.getLsbD (k % Config.bitNumModMem) }) :=
    fun _ _ _ => rfl
  simp only [testBit, M.bind_apply]
  cases number s with
  | error e t => rfl
  | ok k s1 =>
    rcases e with (_ | m) | d | ix | v
    · exact absurd rfl (he _)
    all_goals
      simp only
      cases readData .byte _ s1 <;> rfl

/-! ## Branches and STOP -/

theorem readDisp_short_apply (d : Byte) : readDisp (.short d) s = .ok (d.signExtend 32) s := rfl

/-- A branch: the displacement is fetched, then the condition looked at (R240). -/
theorem branch_apply (cond : Ccr → Bool) (disp : Disp) :
    branch cond disp s = match readDisp disp s with
      | .error e t => .error e t
      | .ok d t =>
        if cond t.ccr then
          if (s.pc + d).getLsbD 0 then .error (.addressError (s.pc + d) .fetch) t
          else .ok () (t.setPc (s.pc + d))
        else .ok () t := by
  simp only [branch, M.bind_apply, readPc_apply]
  cases readDisp disp s with
  | error e t => rfl
  | ok d t =>
    simp only [readCcr_apply]
    split
    · split <;> rfl
    · rfl

/-- STOP: the operand fetch, the load (R245). -/
theorem stopWith_apply (imm : Word) :
    stopWith imm s =
      match fetchExt s with
      | .error e t => .error e t
      | .ok _ t =>
        .ok () (((t.setSrHigh (imm.extractLsb' 8 8)).setCcr (Ccr.ofWord imm)).setStatus .stopped) := by
  rw [stopWith, M.bind_apply]
  cases fetchExt s <;> rfl

end

/-! ## Keeping a relation -/

section
variable {P : Reg → Prop} {R : State → State → Prop} {sz : Size}

theorem keeps_aluToDn (f : Alu) {src : M (BitVec sz.bits)} {r : Reg} (hR : OperandRel P R)
    (hsrc : Keeps R src)
    (hw : ∀ s v (a b : BitVec sz.bits), R s ((s.setD r v).setCcr (f a b s.ccr).2)) :
    Keeps R (aluToDn sz f src r) := by
  intro s
  rw [aluToDn_apply]
  cases h : src s with
  | error e t => exact hsrc.error h
  | ok a t => exact hR.trans _ _ _ (hsrc.ok h) (hw _ _ _ _)

theorem keeps_aluToEa (f : Alu) {src : M (BitVec sz.bits)} {dst : DataAltEa} (hR : OperandRel P R)
    (hsrc : Keeps R src) (hdst : dst.UpdatesIn P)
    (hw : ∀ r, dst = .dn r → ∀ s v (a b : BitVec sz.bits),
      R s ((s.setD r v).setCcr (f a b s.ccr).2))
    (hm : ∀ s addr v (a b : BitVec sz.bits), writeFault s addr sz = none →
      R s ((s.storeAt addr sz v).setCcr (f a b s.ccr).2)) :
    Keeps R (aluToEa sz f src dst) := by
  cases dst with
  | dn r =>
    intro s
    rw [aluToEa_dn_apply]
    exact keeps_aluToDn f hR hsrc (hw r rfl) s
  | mem m =>
    intro s
    rw [aluToEa_mem_apply]
    cases h : src s with
    | error e t => exact hsrc.error h
    | ok a s1 =>
      have h1 := hsrc.ok h
      have hres := hR.resolveMem sz (hdst m rfl)
      simp only
      cases h2 : resolveMem sz m s1 with
      | error e t => exact hR.trans _ _ _ h1 (hres.error h2)
      | ok addr t =>
        have h3 := hR.trans _ _ _ h1 (hres.ok h2)
        simp only
        cases accessFault t .read addr sz with
        | some e => exact h3
        | none =>
          simp only
          cases h4 : writeFault t addr sz with
          | some e => exact h3
          | none => exact hR.trans _ _ _ h3 (hm _ _ _ _ _ h4)

theorem keeps_compareEa {src : M (BitVec sz.bits)} {dst : DataAltEa} (hR : OperandRel P R)
    (hsrc : Keeps R src) (hdst : dst.UpdatesIn P)
    (hw : ∀ s (a b : BitVec sz.bits), R s (s.setCcr (cmpCcr a b (b - a) s.ccr))) :
    Keeps R (compareEa sz src dst) := by
  cases dst with
  | dn r =>
    intro s
    rw [compareEa_dn_apply, compareDn_apply]
    cases h : src s with
    | error e t => exact hsrc.error h
    | ok a t => exact hR.trans _ _ _ (hsrc.ok h) (hw _ _ _)
  | mem m =>
    intro s
    rw [compareEa_mem_apply]
    cases h : src s with
    | error e t => exact hsrc.error h
    | ok a s1 =>
      have h1 := hsrc.ok h
      have hres := hR.resolveMem sz (hdst m rfl)
      simp only
      cases h2 : resolveMem sz m s1 with
      | error e t => exact hR.trans _ _ _ h1 (hres.error h2)
      | ok addr t =>
        have h3 := hR.trans _ _ _ h1 (hres.ok h2)
        simp only
        cases accessFault t .read addr sz with
        | some e => exact h3
        | none => exact hR.trans _ _ _ h3 (hw _ _ _)

theorem keeps_compareDn {src : M (BitVec sz.bits)} {r : Reg} (hR : OperandRel P R)
    (hsrc : Keeps R src)
    (hw : ∀ s (a b : BitVec sz.bits), R s (s.setCcr (cmpCcr a b (b - a) s.ccr))) :
    Keeps R (compareDn sz src r) := by
  intro s
  rw [compareDn_apply]
  cases h : src s with
  | error e t => exact hsrc.error h
  | ok a t => exact hR.trans _ _ _ (hsrc.ok h) (hw _ _ _)

theorem keeps_unaryEa (f : Alu1) {dst : DataAltEa} (hR : OperandRel P R) (hdst : dst.UpdatesIn P)
    (hw : ∀ r, dst = .dn r → ∀ s v (a : BitVec sz.bits), R s ((s.setD r v).setCcr (f a s.ccr).2))
    (hm : ∀ s addr v (a : BitVec sz.bits), writeFault s addr sz = none →
      R s ((s.storeAt addr sz v).setCcr (f a s.ccr).2)) :
    Keeps R (unaryEa sz f dst) := by
  cases dst with
  | dn r => exact fun s => hw r rfl s _ _
  | mem m =>
    intro s
    rw [unaryEa_mem_apply]
    have hres := hR.resolveMem sz (hdst m rfl)
    cases h2 : resolveMem sz m s with
    | error e t => exact hres.error h2
    | ok addr t =>
      have h3 := hres.ok h2
      simp only
      cases accessFault t .read addr sz with
      | some e => exact h3
      | none =>
        simp only
        cases h4 : writeFault t addr sz with
        | some e => exact h3
        | none => exact hR.trans _ _ _ h3 (hm _ _ _ _ h4)

theorem keeps_clearEa {dst : DataAltEa} (hR : OperandRel P R) (hdst : dst.UpdatesIn P)
    (hw : ∀ r, dst = .dn r → ∀ s v, R s ((s.setD r v).setCcr (logicCcr (0#sz.bits) s.ccr)))
    (hm : ∀ s addr v, writeFault s addr sz = none →
      R s ((s.storeAt addr sz v).setCcr (logicCcr (0#sz.bits) s.ccr))) :
    Keeps R (clearEa sz dst) := by
  cases dst with
  | dn r => exact fun s => hw r rfl s _
  | mem m =>
    intro s
    rw [clearEa_mem_apply]
    have hres := hR.resolveMem sz (hdst m rfl)
    cases h2 : resolveMem sz m s with
    | error e t => exact hres.error h2
    | ok addr t =>
      simp only
      cases h4 : writeFault t addr sz with
      | some e => exact hres.ok h2
      | none => exact hR.trans _ _ _ (hres.ok h2) (hm _ _ _ h4)

theorem keeps_moveEa {src : M (BitVec sz.bits)} {dst : DataAltEa} (hR : OperandRel P R)
    (hsrc : Keeps R src) (hdst : dst.UpdatesIn P)
    (hw : ∀ r, dst = .dn r → ∀ s v (a : BitVec sz.bits),
      R s ((s.setD r v).setCcr (logicCcr a s.ccr)))
    (hm : ∀ s addr v (a : BitVec sz.bits), writeFault s addr sz = none →
      R s ((s.storeAt addr sz v).setCcr (logicCcr a s.ccr))) :
    Keeps R (moveEa sz src dst) := by
  cases dst with
  | dn r =>
    intro s
    rw [moveEa_dn_apply]
    cases h : src s with
    | error e t => exact hsrc.error h
    | ok a t => exact hR.trans _ _ _ (hsrc.ok h) (hw r rfl _ _ _)
  | mem m =>
    intro s
    rw [moveEa_mem_apply]
    cases h : src s with
    | error e t => exact hsrc.error h
    | ok a s1 =>
      have h1 := hsrc.ok h
      have hres := hR.resolveMem sz (hdst m rfl)
      simp only
      cases h2 : resolveMem sz m s1 with
      | error e t => exact hR.trans _ _ _ h1 (hres.error h2)
      | ok addr t =>
        have h3 := hR.trans _ _ _ h1 (hres.ok h2)
        simp only
        cases h4 : writeFault t addr sz with
        | some e => exact h3
        | none => exact hR.trans _ _ _ h3 (hm _ _ _ _ h4)

theorem keeps_multiplyDn (product : Word → Word → Long) {src : M Word} {r : Reg}
    (hR : OperandRel P R) (hsrc : Keeps R src)
    (hw : ∀ s v, R s ((s.setD r v).setCcr (logicCcr v s.ccr))) :
    Keeps R (multiplyDn product src r) := by
  intro s
  rw [multiplyDn_apply]
  cases h : src s with
  | error e t => exact hsrc.error h
  | ok a t => exact hR.trans _ _ _ (hsrc.ok h) (hw _ _)

theorem keeps_divideDn (divide : Long → Word → Option (Word × Word)) {src : M Word} {r : Reg}
    (hR : OperandRel P R) (hsrc : Keeps R src)
    (hw : ∀ s v n z, R s ((s.setD r v).setCcr ⟨s.ccr.x, n, z, false, false⟩))
    (ho : ∀ s k n z, R s ((s.setFreeCount k).setCcr ⟨s.ccr.x, n, z, true, false⟩)) :
    Keeps R (divideDn divide src r) := by
  intro s
  rw [divideDn_apply]
  cases h : src s with
  | error e t => exact hsrc.error h
  | ok m t =>
    by_cases hm : m = 0#16
    · simp only [hm, if_true]
      exact hsrc.ok h
    · simp only [hm, if_false]
      cases divide (t.dreg r) m with
      | none => exact hR.trans _ _ _ (hsrc.ok h) (ho _ _ _ _)
      | some p => exact hR.trans _ _ _ (hsrc.ok h) (hw _ _ _ _)

theorem keeps_shiftDn {op : ShiftOp} {count : M Nat} {dy : Reg}
    (hc : ∀ s, ∃ cnt, count s = .ok cnt s)
    (hw : ∀ s (v : Long) (t : ShiftAcc sz.bits) (cnt : Nat) (b : Bool),
      t = shiftResult op ((s.dreg dy).setWidth sz.bits) cnt s.ccr.x →
      R s ((s.setD dy v).setCcr ⟨t.x, t.v.msb, decide (t.v = 0#sz.bits), b, t.c⟩)) :
    Keeps R (shiftDn sz op count dy) := by
  intro s
  obtain ⟨cnt, h⟩ := hc s
  rw [shiftDn_apply op count dy h]
  exact hw _ _ _ cnt _ rfl

theorem keeps_changeBit {op : BitOp} {number : M Nat} {dst : DataAltEa} (hR : OperandRel P R)
    (hn : Keeps R number) (hdst : dst.UpdatesIn P)
    (hw : ∀ r, dst = .dn r → ∀ s v b, R s ((s.setD r v).setCcr { s.ccr with z := b }))
    (hm : ∀ s addr v b, writeFault s addr .byte = none →
      R s ((s.storeAt addr .byte v).setCcr { s.ccr with z := b })) :
    Keeps R (changeBit op number dst) := by
  cases dst with
  | dn r =>
    intro s
    rw [changeBit_dn_apply]
    cases h : number s with
    | error e t => exact hn.error h
    | ok k t => exact hR.trans _ _ _ (hn.ok h) (hw r rfl _ _ _)
  | mem m =>
    intro s
    rw [changeBit_mem_apply]
    cases h : number s with
    | error e t => exact hn.error h
    | ok k s1 =>
      have h1 := hn.ok h
      have hres := hR.resolveMem .byte (hdst m rfl)
      simp only
      cases h2 : resolveMem .byte m s1 with
      | error e t => exact hR.trans _ _ _ h1 (hres.error h2)
      | ok addr t =>
        have h3 := hR.trans _ _ _ h1 (hres.ok h2)
        simp only
        cases accessFault t .read addr .byte with
        | some e => exact h3
        | none =>
          simp only
          cases h4 : writeFault t addr .byte with
          | some e => exact h3
          | none => exact hR.trans _ _ _ h3 (hm _ _ _ _ h4)

theorem keeps_testBit {number : M Nat} {e : DataEa} (hR : OperandRel P R) (hn : Keeps R number)
    (he : e.UpdatesIn P) (hw : ∀ s b, R s (s.setCcr { s.ccr with z := b })) :
    Keeps R (testBit number e) := by
  intro s
  by_cases hd : ∃ r, e = .alt (.dn r)
  · obtain ⟨r, rfl⟩ := hd
    rw [testBit_dn_apply]
    cases h : number s with
    | error e t => exact hn.error h
    | ok k t => exact hR.trans _ _ _ (hn.ok h) (hw _ _)
  · rw [testBit_other_apply number e fun r hr => hd ⟨r, hr⟩]
    cases h : number s with
    | error e t => exact hn.error h
    | ok k s1 =>
      have hr := hR.readData .byte he
      simp only
      cases h2 : readData .byte e s1 with
      | error e t => exact hR.trans _ _ _ (hn.ok h) (hr.error h2)
      | ok v t => exact hR.trans _ _ _ (hR.trans _ _ _ (hn.ok h) (hr.ok h2)) (hw _ _)

theorem keeps_branch {cond : Ccr → Bool} {disp : Disp} (hR : OperandRel P R)
    (hw : ∀ s v, v.getLsbD 0 = false → R s (s.setPc v)) : Keeps R (branch cond disp) := by
  intro s
  rw [branch_apply]
  have hd := hR.readDisp disp
  cases h : readDisp disp s with
  | error e t => exact hd.error h
  | ok d t =>
    by_cases hc : cond t.ccr = true
    · by_cases hodd : (s.pc + d).getLsbD 0 = true
      · simp only [hc, hodd, if_true]
        exact hd.ok h
      · simp only [hc, hodd, if_true, Bool.false_eq_true, if_false]
        exact hR.trans _ _ _ (hd.ok h) (hw _ _ (by simpa using hodd))
    · simp only [hc, Bool.false_eq_true, if_false]
      exact hd.ok h

theorem keeps_stopWith {imm : Word} (hR : OperandRel P R)
    (hw : ∀ s, R s (((s.setSrHigh (imm.extractLsb' 8 8)).setCcr (Ccr.ofWord imm)).setStatus
      .stopped)) : Keeps R (stopWith imm) := by
  intro s
  rw [stopWith_apply]
  cases h : fetchExt s with
  | error e t => exact hR.fetchExt.error h
  | ok u t => exact hR.trans _ _ _ (hR.fetchExt.ok h) (hw _)

end

end Sys2Proof.Machine
end

