-- ==== Sys2Proof/Laws/Body.lean ====
section
/-! SUPPORT. The body of every instruction as one function, so that a proof over all instructions takes
`exec` apart once. -/

namespace Sys2Proof.Machine

/-- What an instruction does after its opword was fetched. -/
def body : Instr → M Unit
  | .addBEaDn src dn => aluToDn .byte aluAdd (readData .byte src) dn
  | .addBDnEa dn dst => aluToEa .byte aluAdd (readD .byte dn) (.mem dst)
  | .addWEaDn src dn => aluToDn .word aluAdd (readAny .word src) dn
  | .addWDnEa dn dst => aluToEa .word aluAdd (readD .word dn) (.mem dst)
  | .addLEaDn src dn => aluToDn .long aluAdd (readAny .long src) dn
  | .addLDnEa dn dst => aluToEa .long aluAdd (readD .long dn) (.mem dst)
  | .subBEaDn src dn => aluToDn .byte aluSub (readData .byte src) dn
  | .subBDnEa dn dst => aluToEa .byte aluSub (readD .byte dn) (.mem dst)
  | .subWEaDn src dn => aluToDn .word aluSub (readAny .word src) dn
  | .subWDnEa dn dst => aluToEa .word aluSub (readD .word dn) (.mem dst)
  | .subLEaDn src dn => aluToDn .long aluSub (readAny .long src) dn
  | .subLDnEa dn dst => aluToEa .long aluSub (readD .long dn) (.mem dst)
  | .andBEaDn src dn => aluToDn .byte aluAnd (readData .byte src) dn
  | .andBDnEa dn dst => aluToEa .byte aluAnd (readD .byte dn) (.mem dst)
  | .andWEaDn src dn => aluToDn .word aluAnd (readData .word src) dn
  | .andWDnEa dn dst => aluToEa .word aluAnd (readD .word dn) (.mem dst)
  | .andLEaDn src dn => aluToDn .long aluAnd (readData .long src) dn
  | .andLDnEa dn dst => aluToEa .long aluAnd (readD .long dn) (.mem dst)
  | .orBEaDn src dn => aluToDn .byte aluOr (readData .byte src) dn
  | .orBDnEa dn dst => aluToEa .byte aluOr (readD .byte dn) (.mem dst)
  | .orWEaDn src dn => aluToDn .word aluOr (readData .word src) dn
  | .orWDnEa dn dst => aluToEa .word aluOr (readD .word dn) (.mem dst)
  | .orLEaDn src dn => aluToDn .long aluOr (readData .long src) dn
  | .orLDnEa dn dst => aluToEa .long aluOr (readD .long dn) (.mem dst)
  | .eorB dn dst => aluToEa .byte aluEor (readD .byte dn) dst
  | .eorW dn dst => aluToEa .word aluEor (readD .word dn) dst
  | .eorL dn dst => aluToEa .long aluEor (readD .long dn) dst
  | .cmpB src dn => compareDn .byte (readData .byte src) dn
  | .cmpW src dn => compareDn .word (readAny .word src) dn
  | .cmpL src dn => compareDn .long (readAny .long src) dn
  | .mulu src dn => multiplyDn unsignedProduct (readData .word src) dn
  | .muls src dn => multiplyDn signedProduct (readData .word src) dn
  | .divu src dn => divideDn unsignedDivide (readData .word src) dn
  | .divs src dn => divideDn signedDivide (readData .word src) dn
  | .extW dn => extendWord dn
  | .extL dn => extendLong dn
  | .negB dst => unaryEa .byte aluNeg dst
  | .negW dst => unaryEa .word aluNeg dst
  | .negL dst => unaryEa .long aluNeg dst
  | .notB dst => unaryEa .byte aluNot dst
  | .notW dst => unaryEa .word aluNot dst
  | .notL dst => unaryEa .long aluNot dst
  | .clrB dst => clearEa .byte dst
  | .clrW dst => clearEa .word dst
  | .clrL dst => clearEa .long dst
  | .swap dn => swapDn dn
  | .exgDD dx dy => exchangeDD dx dy
  | .exgAA ax ay => exchangeAA ax ay
  | .exgDA dx ay => exchangeDA dx ay
  | .asrBImm ccc dy => shiftDn .byte .asr (pure (immCount ccc)) dy
  | .asrBReg dx dy => shiftDn .byte .asr (regCount dx) dy
  | .asrWImm ccc dy => shiftDn .word .asr (pure (immCount ccc)) dy
  | .asrWReg dx dy => shiftDn .word .asr (regCount dx) dy
  | .asrLImm ccc dy => shiftDn .long .asr (pure (immCount ccc)) dy
  | .asrLReg dx dy => shiftDn .long .asr (regCount dx) dy
  | .aslBImm ccc dy => shiftDn .byte .asl (pure (immCount ccc)) dy
  | .aslBReg dx dy => shiftDn .byte .asl (regCount dx) dy
  | .aslWImm ccc dy => shiftDn .word .asl (pure (immCount ccc)) dy
  | .aslWReg dx dy => shiftDn .word .asl (regCount dx) dy
  | .aslLImm ccc dy => shiftDn .long .asl (pure (immCount ccc)) dy
  | .aslLReg dx dy => shiftDn .long .asl (regCount dx) dy
  | .lsrBImm ccc dy => shiftDn .byte .lsr (pure (immCount ccc)) dy
  | .lsrBReg dx dy => shiftDn .byte .lsr (regCount dx) dy
  | .lsrWImm ccc dy => shiftDn .word .lsr (pure (immCount ccc)) dy
  | .lsrWReg dx dy => shiftDn .word .lsr (regCount dx) dy
  | .lsrLImm ccc dy => shiftDn .long .lsr (pure (immCount ccc)) dy
  | .lsrLReg dx dy => shiftDn .long .lsr (regCount dx) dy
  | .lslBImm ccc dy => shiftDn .byte .lsl (pure (immCount ccc)) dy
  | .lslBReg dx dy => shiftDn .byte .lsl (regCount dx) dy
  | .lslWImm ccc dy => shiftDn .word .lsl (pure (immCount ccc)) dy
  | .lslWReg dx dy => shiftDn .word .lsl (regCount dx) dy
  | .lslLImm ccc dy => shiftDn .long .lsl (pure (immCount ccc)) dy
  | .lslLReg dx dy => shiftDn .long .lsl (regCount dx) dy
  | .roxrBImm ccc dy => shiftDn .byte .roxr (pure (immCount ccc)) dy
  | .roxrBReg dx dy => shiftDn .byte .roxr (regCount dx) dy
  | .roxrWImm ccc dy => shiftDn .word .roxr (pure (immCount ccc)) dy
  | .roxrWReg dx dy => shiftDn .word .roxr (regCount dx) dy
  | .roxrLImm ccc dy => shiftDn .long .roxr (pure (immCount ccc)) dy
  | .roxrLReg dx dy => shiftDn .long .roxr (regCount dx) dy
  | .roxlBImm ccc dy => shiftDn .byte .roxl (pure (immCount ccc)) dy
  | .roxlBReg dx dy => shiftDn .byte .roxl (regCount dx) dy
  | .roxlWImm ccc dy => shiftDn .word .roxl (pure (immCount ccc)) dy
  | .roxlWReg dx dy => shiftDn .word .roxl (regCount dx) dy
  | .roxlLImm ccc dy => shiftDn .long .roxl (pure (immCount ccc)) dy
  | .roxlLReg dx dy => shiftDn .long .roxl (regCount dx) dy
  | .rorBImm ccc dy => shiftDn .byte .ror (pure (immCount ccc)) dy
  | .rorBReg dx dy => shiftDn .byte .ror (regCount dx) dy
  | .rorWImm ccc dy => shiftDn .word .ror (pure (immCount ccc)) dy
  | .rorWReg dx dy => shiftDn .word .ror (regCount dx) dy
  | .rorLImm ccc dy => shiftDn .long .ror (pure (immCount ccc)) dy
  | .rorLReg dx dy => shiftDn .long .ror (regCount dx) dy
  | .rolBImm ccc dy => shiftDn .byte .rol (pure (immCount ccc)) dy
  | .rolBReg dx dy => shiftDn .byte .rol (regCount dx) dy
  | .rolWImm ccc dy => shiftDn .word .rol (pure (immCount ccc)) dy
  | .rolWReg dx dy => shiftDn .word .rol (regCount dx) dy
  | .rolLImm ccc dy => shiftDn .long .rol (pure (immCount ccc)) dy
  | .rolLReg dx dy => shiftDn .long .rol (regCount dx) dy
  | .btstDyn dn src => testBit (dynamicBit dn) src
  | .btstStatic k src => testBit (staticBit k) src
  | .bchgDyn dn dst => changeBit .chg (dynamicBit dn) dst
  | .bchgStatic k dst => changeBit .chg (staticBit k) dst
  | .bclrDyn dn dst => changeBit .clr (dynamicBit dn) dst
  | .bclrStatic k dst => changeBit .clr (staticBit k) dst
  | .bsetDyn dn dst => changeBit .set (dynamicBit dn) dst
  | .bsetStatic k dst => changeBit .set (staticBit k) dst
  | .oriB imm dst => aluToEa .byte aluOr (readImm .byte imm) dst
  | .oriW imm dst => aluToEa .word aluOr (readImm .word imm) dst
  | .oriL imm dst => aluToEa .long aluOr (readImm .long imm) dst
  | .andiB imm dst => aluToEa .byte aluAnd (readImm .byte imm) dst
  | .andiW imm dst => aluToEa .word aluAnd (readImm .word imm) dst
  | .andiL imm dst => aluToEa .long aluAnd (readImm .long imm) dst
  | .subiB imm dst => aluToEa .byte aluSub (readImm .byte imm) dst
  | .subiW imm dst => aluToEa .word aluSub (readImm .word imm) dst
  | .subiL imm dst => aluToEa .long aluSub (readImm .long imm) dst
  | .addiB imm dst => aluToEa .byte aluAdd (readImm .byte imm) dst
  | .addiW imm dst => aluToEa .word aluAdd (readImm .word imm) dst
  | .addiL imm dst => aluToEa .long aluAdd (readImm .long imm) dst
  | .eoriB imm dst => aluToEa .byte aluEor (readImm .byte imm) dst
  | .eoriW imm dst => aluToEa .word aluEor (readImm .word imm) dst
  | .eoriL imm dst => aluToEa .long aluEor (readImm .long imm) dst
  | .cmpiB imm dst => compareEa .byte (readImm .byte imm) dst
  | .cmpiW imm dst => compareEa .word (readImm .word imm) dst
  | .cmpiL imm dst => compareEa .long (readImm .long imm) dst
  | .moveB src dst => moveEa .byte (readData .byte src) dst
  | .moveL src dst => moveAny .long (Instr.opword (.moveL src dst)) src dst
  | .moveW src dst => moveAny .word (Instr.opword (.moveW src dst)) src dst
  | .bra disp => branch Ccr.always disp
  | .bhi disp => branch Ccr.hi disp
  | .bls disp => branch Ccr.ls disp
  | .bcc disp => branch Ccr.cc disp
  | .bcs disp => branch Ccr.cs disp
  | .bne disp => branch Ccr.ne disp
  | .beq disp => branch Ccr.eq disp
  | .bvc disp => branch Ccr.vc disp
  | .bvs disp => branch Ccr.vs disp
  | .bpl disp => branch Ccr.pl disp
  | .bmi disp => branch Ccr.mi disp
  | .bge disp => branch Ccr.ge disp
  | .blt disp => branch Ccr.lt disp
  | .bgt disp => branch Ccr.gt disp
  | .ble disp => branch Ccr.le disp
  | .stop imm => stopWith imm

/-- Every instruction is the execution of its body. -/
theorem exec_eq_execute (i : Instr) (s : State) : exec i s = execute (body i) s := by
  cases i <;> rfl

/-- An instruction never stops or is refused: it answers a next state, its own or an exception's. -/
theorem exec_eq_next {i : Instr} {s t : State} :
    exec i s = .next t ↔ body i s.afterOpword = .ok () t ∨
      ∃ e s', body i s.afterOpword = .error e s' ∧ t = takeException e s.pc s' := by
  rw [exec_eq_execute, execute_eq_next]

/-- What a relation that every body keeps says of a next state. -/
theorem exec_keeps {R : State → State → Prop} {i : Instr} {s t : State} (hR : Keeps R (body i))
    (h : exec i s = .next t) :
    R s.afterOpword t ∨ ∃ e s', R s.afterOpword s' ∧ t = takeException e s.pc s' := by
  rcases exec_eq_next.1 h with hb | ⟨e, s', hb, rfl⟩
  · exact .inl (hR.ok hb)
  · exact .inr ⟨e, s', hR.error hb, rfl⟩

/-- A step that answers in a running state: the instruction at pc, or an exception of its fetch. -/
theorem step_eq_next {s t : State} (hs : s.status = .running) :
    step s = .next t ↔ (∃ i, fetchInstr s = .instr i ∧ exec i s = .next t) ∨
      ∃ e s', fetchInstr s = .exception e s' ∧ t = takeException e s.pc s' := by
  simp only [step, hs]
  cases h : fetchInstr s with
  | instr i => simp
  | exception e s' => simp [eq_comm]

/-- A step answers a next state only from a running state. -/
theorem running_of_step {s t : State} (h : step s = .next t) : s.status = .running := by
  cases hs : s.status with
  | running => rfl
  | stopped => simp [step, hs] at h
  | faulted r => simp [step, hs] at h

/-- What a fetch that raises leaves: the state itself, or the state after the opword. -/
theorem fetchInstr_exception {s s' : State} {e : Exc} (h : fetchInstr s = .exception e s') :
    s' = s ∨ s' = s.afterOpword := by
  simp only [fetchInstr] at h
  cases hf : fetch16 s with
  | error e' t =>
    rw [hf] at h
    simp only [Fetched.exception.injEq] at h
    exact .inl (h.2 ▸ (fetch16_eq_error.1 hf).2)
  | ok w t =>
    rw [hf] at h
    simp only at h
    split at h
    · exact absurd h (by simp)
    · simp only [Fetched.exception.injEq] at h
      exact .inr (h.2 ▸ (fetch16_eq_ok.1 hf).2.2)

end Sys2Proof.Machine
end

