-- ==== Sys2Proof/Laws/Decode.lean ====
section
/-! SUPPORT. The fields of an opword, and the round trips of the parts of an instruction: extension
words, immediates, effective addresses. -/

namespace Sys2Proof

/-! ## Fields -/

section
variable (g : BitVec 4) (f om mode reg : BitVec 3)

@[simp] theorem opword_group : (opword g f om mode reg).extractLsb' 12 4 = g := by
  apply BitVec.eq_of_getLsbD_eq
  intro i hi
  simp only [opword, BitVec.getLsbD_extractLsb', BitVec.getLsbD_append]
  interval_cases i <;> rfl

@[simp] theorem opword_f : (opword g f om mode reg).extractLsb' 9 3 = f := by
  apply BitVec.eq_of_getLsbD_eq
  intro i hi
  simp only [opword, BitVec.getLsbD_extractLsb', BitVec.getLsbD_append]
  interval_cases i <;> rfl

@[simp] theorem opword_om : (opword g f om mode reg).extractLsb' 6 3 = om := by
  apply BitVec.eq_of_getLsbD_eq
  intro i hi
  simp only [opword, BitVec.getLsbD_extractLsb', BitVec.getLsbD_append]
  interval_cases i <;> rfl

@[simp] theorem opword_mode : (opword g f om mode reg).extractLsb' 3 3 = mode := by
  apply BitVec.eq_of_getLsbD_eq
  intro i hi
  simp only [opword, BitVec.getLsbD_extractLsb', BitVec.getLsbD_append]
  interval_cases i <;> rfl

@[simp] theorem opword_reg : (opword g f om mode reg).extractLsb' 0 3 = reg := by
  apply BitVec.eq_of_getLsbD_eq
  intro i hi
  simp only [opword, BitVec.getLsbD_extractLsb', BitVec.getLsbD_append]
  interval_cases i <;> rfl

end

/-- An opword is made of its five fields. -/
theorem opword_fields (w : Word) :
    opword (w.extractLsb' 12 4) (w.extractLsb' 9 3) (w.extractLsb' 6 3) (w.extractLsb' 3 3)
      (w.extractLsb' 0 3) = w := by
  apply BitVec.eq_of_getLsbD_eq
  intro i hi
  simp only [opword, BitVec.getLsbD_extractLsb', BitVec.getLsbD_append]
  interval_cases i <;> rfl

/-! ## Extension words -/

section
variable (rest : List Word)

@[simp] theorem takeWord_cons (w : Word) : takeWord (w :: rest) = .ok (w, rest) := rfl

@[simp] theorem takeLong_longWords (v : Long) : takeLong (longWords v ++ rest) = .ok (v, rest) := by
  have : v.extractLsb' 16 16 ++ v.extractLsb' 0 16 = v := by
    apply BitVec.eq_of_getLsbD_eq
    intro i hi
    simp only [BitVec.getLsbD_extractLsb', BitVec.getLsbD_append]
    interval_cases i <;> rfl
  simp only [longWords, List.cons_append, List.nil_append, takeLong]
  exact congrArg (fun x => Except.ok (x, rest)) this

@[simp] theorem takeByte_cons (b : Byte) :
    takeByte (b.setWidth 16 :: rest) = .ok (b, rest) := by
  simp [takeByte, DecodeRes.map']

@[simp] theorem takeIndex_word (ix : IndexExt) : takeIndex (ix.word :: rest) = .ok (ix, rest) := by
  obtain ⟨a, x, l, d⟩ := ix
  have h0 : (IndexExt.word ⟨a, x, l, d⟩).extractLsb' 8 3 = 0#3 := by
    apply BitVec.eq_of_getLsbD_eq
    intro i hi
    simp only [IndexExt.word, BitVec.getLsbD_extractLsb', BitVec.getLsbD_append]
    interval_cases i <;> rfl
  have h1 : (IndexExt.word ⟨a, x, l, d⟩).getLsbD 15 = a := by
    simp only [IndexExt.word, BitVec.getLsbD_append]
    cases a <;> rfl
  have h2 : (IndexExt.word ⟨a, x, l, d⟩).extractLsb' 12 3 = x := by
    apply BitVec.eq_of_getLsbD_eq
    intro i hi
    simp only [IndexExt.word, BitVec.getLsbD_extractLsb', BitVec.getLsbD_append]
    interval_cases i <;> rfl
  have h3 : (IndexExt.word ⟨a, x, l, d⟩).getLsbD 11 = l := by
    simp only [IndexExt.word, BitVec.getLsbD_append]
    cases l <;> rfl
  have h4 : (IndexExt.word ⟨a, x, l, d⟩).extractLsb' 0 8 = d := by
    apply BitVec.eq_of_getLsbD_eq
    intro i hi
    simp only [IndexExt.word, BitVec.getLsbD_extractLsb', BitVec.getLsbD_append]
    interval_cases i <;> rfl
  simp only [takeIndex, takeWord_cons, h0, if_true, h1, h2, h3, h4]

/-- The immediate of `#imm` at its size comes back. -/
theorem takeImm_immWords (sz : Size) (v : Long) (h : v.toNat < 2 ^ sz.bits) :
    takeImm sz (immWords sz v ++ rest) = .ok (v, rest) := by
  cases sz with
  | byte =>
    simp only [takeImm, immWords, List.cons_append, List.nil_append, takeByte_cons, DecodeRes.map']
    congr 2
    exact BitVec.eq_of_toNat_eq (by simp [BitVec.toNat_setWidth]; simp [Size.bits] at h; omega)
  | word =>
    simp only [takeImm, immWords, List.cons_append, List.nil_append, takeWord_cons, DecodeRes.map']
    congr 2
    exact BitVec.eq_of_toNat_eq (by simp [BitVec.toNat_setWidth]; simp [Size.bits] at h; omega)
  | long => exact takeLong_longWords rest v

/-! ## Effective addresses -/

@[simp] theorem decodeMemEa_words (m : MemEa) :
    decodeMemEa m.mode m.reg (m.words ++ rest) = .ok (m, rest) := by
  cases m <;>
    simp [decodeMemEa, MemEa.mode, MemEa.reg, MemEa.words, DecodeRes.map']

theorem MemEa.mode_ne_zero (m : MemEa) : m.mode ≠ 0#3 := by cases m <;> simp [MemEa.mode]

theorem MemEa.mode_ne_one (m : MemEa) : m.mode ≠ 1#3 := by cases m <;> simp [MemEa.mode]

@[simp] theorem decodeDataAltEa_words (e : DataAltEa) :
    decodeDataAltEa e.mode e.reg (e.words ++ rest) = .ok (e, rest) := by
  cases e with
  | dn r => simp [decodeDataAltEa, DataAltEa.mode, DataAltEa.reg, DataAltEa.words]
  | mem m =>
    have hm := m.mode_ne_zero
    simp [decodeDataAltEa, DataAltEa.mode, DataAltEa.reg, DataAltEa.words, hm, DecodeRes.map']

/-- A data alterable mode has no register field 2, 3 or 4 beside mode 7. -/
theorem DataAltEa.mode_reg (e : DataAltEa) :
    ¬(e.mode = 7#3 ∧ e.reg = 2#3) ∧ ¬(e.mode = 7#3 ∧ e.reg = 3#3) ∧
      ¬(e.mode = 7#3 ∧ e.reg = 4#3) := by
  rcases e with _ | m
  · simp [DataAltEa.mode]
  · cases m <;> simp [DataAltEa.mode, DataAltEa.reg, MemEa.mode, MemEa.reg]

theorem DataAltEa.mode_ne_one (e : DataAltEa) : e.mode ≠ 1#3 := by
  rcases e with _ | m
  · simp [DataAltEa.mode]
  · cases m <;> simp [DataAltEa.mode, MemEa.mode]

theorem DataEa.mode_ne_one (e : DataEa) : e.mode ≠ 1#3 := by
  cases e with
  | alt e => exact e.mode_ne_one
  | pcDisp d => simp [DataEa.mode]
  | pcIndex ix => simp [DataEa.mode]
  | imm v => simp [DataEa.mode]

theorem decodeDataEa_words (sz : Size) (e : DataEa) (h : e.immFits sz = true) :
    decodeDataEa sz e.mode e.reg (e.words sz ++ rest) = .ok (e, rest) := by
  cases e with
  | alt e =>
    obtain ⟨h2, h3, h4⟩ := e.mode_reg
    simp only [decodeDataEa, DataEa.mode, DataEa.reg, DataEa.words, if_neg h2, if_neg h3, if_neg h4,
      decodeDataAltEa_words, DecodeRes.map']
  | pcDisp d => simp [decodeDataEa, DataEa.mode, DataEa.reg, DataEa.words, DecodeRes.map']
  | pcIndex ix => simp [decodeDataEa, DataEa.mode, DataEa.reg, DataEa.words, DecodeRes.map']
  | imm v =>
    simp only [DataEa.immFits, decide_eq_true_eq] at h
    simp [decodeDataEa, DataEa.mode, DataEa.reg, DataEa.words, DecodeRes.map',
      takeImm_immWords rest sz v h]

theorem decodeAnyEa_words (sz : Size) (e : AnyEa) (h : e.immFits sz = true) :
    decodeAnyEa sz e.mode e.reg (e.words sz ++ rest) = .ok (e, rest) := by
  cases e with
  | an r => simp [decodeAnyEa, AnyEa.mode, AnyEa.reg, AnyEa.words]
  | data e =>
    simp only [decodeAnyEa, AnyEa.mode, AnyEa.reg, AnyEa.words, if_neg e.mode_ne_one,
      decodeDataEa_words rest sz e h, DecodeRes.map']

end

/-! ## What a decoded part tells about its words -/

/-- A decoder that answered through `map'` answered before. -/
theorem DecodeRes.map'_eq_ok {α β : Type} {k : α → β} {r : DecodeRes α} {b : β}
    {rest : List Word} :
    DecodeRes.map' k r = .ok (b, rest) ↔ ∃ a, r = .ok (a, rest) ∧ b = k a := by
  cases r with
  | error e => simp [DecodeRes.map']
  | ok p =>
    obtain ⟨a, r⟩ := p
    simp only [DecodeRes.map', Except.ok.injEq, Prod.mk.injEq]
    constructor
    · rintro ⟨rfl, rfl⟩
      exact ⟨a, ⟨rfl, rfl⟩, rfl⟩
    · rintro ⟨_, ⟨rfl, rfl⟩, rfl⟩
      exact ⟨rfl, rfl⟩

/-- `n` words stood in front of the rest. -/
def Took (n : Nat) (ws rest : List Word) : Prop := ∃ ext : List Word, ext.length = n ∧ ws = ext ++ rest

theorem Took.zero (ws : List Word) : Took 0 ws ws := ⟨[], rfl, rfl⟩

theorem Took.trans {m n : Nat} {ws ws' rest : List Word} (h : Took m ws ws')
    (h' : Took n ws' rest) : Took (m + n) ws rest := by
  obtain ⟨e, rfl, rfl⟩ := h
  obtain ⟨e', rfl, rfl⟩ := h'
  exact ⟨e ++ e', by simp, by simp⟩

section
variable {ws rest : List Word}

theorem takeWord_took {w : Word} (h : takeWord ws = .ok (w, rest)) : Took 1 ws rest := by
  cases ws with
  | nil => simp [takeWord] at h
  | cons a b =>
    simp only [takeWord, Except.ok.injEq, Prod.mk.injEq] at h
    exact ⟨[a], rfl, by simp [h.2]⟩

theorem takeLong_took {v : Long} (h : takeLong ws = .ok (v, rest)) : Took 2 ws rest := by
  match ws, h with
  | a :: b :: c, h =>
    simp only [takeLong, Except.ok.injEq, Prod.mk.injEq] at h
    exact ⟨[a, b], rfl, by simp [h.2]⟩

theorem takeByte_took {v : Byte} (h : takeByte ws = .ok (v, rest)) : Took 1 ws rest := by
  obtain ⟨a, ha, -⟩ := DecodeRes.map'_eq_ok.1 h
  exact takeWord_took ha

theorem takeIndex_took {ix : IndexExt} (h : takeIndex ws = .ok (ix, rest)) : Took 1 ws rest := by
  cases hw : takeWord ws with
  | error e => simp [takeIndex, hw] at h
  | ok p =>
    obtain ⟨w, r⟩ := p
    simp only [takeIndex, hw] at h
    split at h
    · simp only [Except.ok.injEq, Prod.mk.injEq] at h
      obtain ⟨-, rfl⟩ := h
      exact takeWord_took hw
    · exact absurd h (by simp)

/-- A decoded immediate fits its size and took its words. -/
theorem takeImm_took {sz : Size} {v : Long} (h : takeImm sz ws = .ok (v, rest)) :
    v.toNat < 2 ^ sz.bits ∧ Took (immWords sz v).length ws rest := by
  cases sz with
  | byte =>
    obtain ⟨b, hb, rfl⟩ := DecodeRes.map'_eq_ok.1 h
    refine ⟨?_, takeByte_took hb⟩
    have := b.isLt
    simp only [BitVec.toNat_setWidth, Size.bits]
    omega
  | word =>
    obtain ⟨w, hw, rfl⟩ := DecodeRes.map'_eq_ok.1 h
    refine ⟨?_, takeWord_took hw⟩
    have := w.isLt
    simp only [BitVec.toNat_setWidth, Size.bits]
    omega
  | long => exact ⟨v.isLt, takeLong_took h⟩

variable {mode reg : BitVec 3}

/-- A decoded memory mode has the fields it was decoded from and took its words. -/
theorem decodeMemEa_took {m : MemEa} (h : decodeMemEa mode reg ws = .ok (m, rest)) :
    m.mode = mode ∧ m.reg = reg ∧ Took m.words.length ws rest := by
  simp only [decodeMemEa] at h
  split at h
  · cases h
    exact ⟨by simp [MemEa.mode, *], rfl, Took.zero _⟩
  split at h
  · cases h
    exact ⟨by simp [MemEa.mode, *], rfl, Took.zero _⟩
  split at h
  · cases h
    exact ⟨by simp [MemEa.mode, *], rfl, Took.zero _⟩
  split at h
  · obtain ⟨d, hd, rfl⟩ := DecodeRes.map'_eq_ok.1 h
    exact ⟨by simp [MemEa.mode, *], rfl, takeWord_took hd⟩
  split at h
  · obtain ⟨ix, hd, rfl⟩ := DecodeRes.map'_eq_ok.1 h
    exact ⟨by simp [MemEa.mode, *], rfl, takeIndex_took hd⟩
  split at h
  · split at h
    · obtain ⟨d, hd, rfl⟩ := DecodeRes.map'_eq_ok.1 h
      exact ⟨by simp [MemEa.mode, *], by simp [MemEa.reg, *], takeWord_took hd⟩
    split at h
    · obtain ⟨v, hd, rfl⟩ := DecodeRes.map'_eq_ok.1 h
      exact ⟨by simp [MemEa.mode, *], by simp [MemEa.reg, *], takeLong_took hd⟩
    · exact absurd h (by simp)
  · exact absurd h (by simp)

theorem decodeDataAltEa_took {e : DataAltEa} (h : decodeDataAltEa mode reg ws = .ok (e, rest)) :
    e.mode = mode ∧ e.reg = reg ∧ Took e.words.length ws rest := by
  simp only [decodeDataAltEa] at h
  split at h
  · cases h
    exact ⟨by simp [DataAltEa.mode, *], rfl, Took.zero _⟩
  · obtain ⟨m, hm, rfl⟩ := DecodeRes.map'_eq_ok.1 h
    exact decodeMemEa_took hm

theorem decodeDataEa_took {sz : Size} {e : DataEa}
    (h : decodeDataEa sz mode reg ws = .ok (e, rest)) :
    e.mode = mode ∧ e.reg = reg ∧ Took (e.words sz).length ws rest ∧ e.immFits sz = true := by
  simp only [decodeDataEa] at h
  split at h
  · obtain ⟨d, hd, rfl⟩ := DecodeRes.map'_eq_ok.1 h
    exact ⟨by simp [DataEa.mode, *], by simp [DataEa.reg, *], takeWord_took hd, rfl⟩
  split at h
  · obtain ⟨d, hd, rfl⟩ := DecodeRes.map'_eq_ok.1 h
    exact ⟨by simp [DataEa.mode, *], by simp [DataEa.reg, *], takeIndex_took hd, rfl⟩
  split at h
  · obtain ⟨v, hd, rfl⟩ := DecodeRes.map'_eq_ok.1 h
    obtain ⟨hv, ht⟩ := takeImm_took hd
    exact ⟨by simp [DataEa.mode, *], by simp [DataEa.reg, *], ht, by simpa [DataEa.immFits] using hv⟩
  · obtain ⟨m, hm, rfl⟩ := DecodeRes.map'_eq_ok.1 h
    obtain ⟨h1, h2, h3⟩ := decodeDataAltEa_took hm
    exact ⟨h1, h2, h3, rfl⟩

theorem decodeAnyEa_took {sz : Size} {e : AnyEa}
    (h : decodeAnyEa sz mode reg ws = .ok (e, rest)) :
    e.mode = mode ∧ e.reg = reg ∧ Took (e.words sz).length ws rest ∧ e.immFits sz = true := by
  simp only [decodeAnyEa] at h
  split at h
  · cases h
    exact ⟨by simp [AnyEa.mode, *], rfl, Took.zero _, rfl⟩
  · obtain ⟨m, hm, rfl⟩ := DecodeRes.map'_eq_ok.1 h
    exact decodeDataEa_took hm

end

end Sys2Proof
end

