-- ==== Sys2Proof/Laws/Flags.lean ====
section
/-! SUPPORT. What the flag computations say: the carry and overflow formulas of R125 and R126 as
statements about unsigned and signed values, N and Z, and the conditions of the branches. -/

namespace Sys2Proof.Machine

/-- N: the most significant bit is the sign (R121). -/
theorem msb_iff_toInt_neg {n : Nat} (r : BitVec n) : r.msb = true ↔ r.toInt < 0 := by
  simp [BitVec.msb_eq_toInt]

/-- Z: the zero pattern is the value zero (R120). -/
theorem eq_zero_iff_toNat {n : Nat} (r : BitVec n) : r = 0#n ↔ r.toNat = 0 := by
  simp [BitVec.toNat_eq]

/-- The formula of V for an addition says exactly that the signed sum does not fit (R125). -/
theorem add_v_iff {n : Nat} (a b : BitVec n) :
    ((a.msb == b.msb) && ((a + b).msb != b.msb)) = true ↔
      ¬(-(2 ^ (n - 1) : Int) ≤ a.toInt + b.toInt ∧ a.toInt + b.toInt < (2 ^ (n - 1) : Int)) := by
  have h : ((a.msb == b.msb) && ((a + b).msb != b.msb)) = a.saddOverflow b := by
    rw [BitVec.saddOverflow_eq]
    cases a.msb <;> cases b.msb <;> cases (a + b).msb <;> rfl
  rw [h, BitVec.saddOverflow]
  simp only [Bool.or_eq_true, decide_eq_true_eq]
  omega

/-- The formula of V for a subtraction says exactly that the signed difference does not fit (R126). -/
theorem sub_v_iff {n : Nat} (a b : BitVec n) :
    ((a.msb != b.msb) && ((b - a).msb == a.msb)) = true ↔
      ¬(-(2 ^ (n - 1) : Int) ≤ b.toInt - a.toInt ∧ b.toInt - a.toInt < (2 ^ (n - 1) : Int)) := by
  have h : ((a.msb != b.msb) && ((b - a).msb == a.msb)) = b.ssubOverflow a := by
    rw [BitVec.ssubOverflow_eq]
    cases a.msb <;> cases b.msb <;> cases (b - a).msb <;> rfl
  rw [h, BitVec.ssubOverflow]
  simp only [Bool.or_eq_true, decide_eq_true_eq]
  omega

/-- The difference as the unsigned readings give it (R126). -/
theorem sub_toNat {n : Nat} (a b : BitVec n) :
    ((b - a).toNat : Int) = ((b.toNat : Int) - a.toNat) % 2 ^ n := by
  rw [BitVec.toNat_sub]
  have ha := a.isLt
  push_cast [Nat.cast_sub ha.le]
  rw [← Int.add_emod_right (((b.toNat : Int) - a.toNat))]
  congr 1
  ring

/-- After a subtraction N differs from V exactly when the signed destination is below the signed
source. -/
theorem sub_n_ne_v_iff {n : Nat} (hn : 0 < n) (a b : BitVec n) :
    ((b - a).msb ≠ ((a.msb != b.msb) && ((b - a).msb == a.msb))) ↔ b.toInt < a.toInt := by
  have hv := sub_v_iff a b
  have hm := msb_iff_toInt_neg (b - a)
  have hd : (b - a).toInt = (b.toInt - a.toInt).bmod (2 ^ n) := BitVec.toInt_sub
  have ha := BitVec.two_mul_toInt_lt (x := a)
  have hb := BitVec.two_mul_toInt_lt (x := b)
  have ha' := BitVec.le_two_mul_toInt (x := a)
  have hb' := BitVec.le_two_mul_toInt (x := b)
  obtain ⟨m, rfl⟩ : ∃ m, n = m + 1 := ⟨n - 1, by omega⟩
  simp only [Nat.add_sub_cancel] at hv
  have hp : (2 : Int) ^ (m + 1) = 2 * 2 ^ m := by ring
  have hq : ((2 ^ (m + 1) : Nat) : Int) = 2 * 2 ^ m := by push_cast; ring
  rw [hp] at ha hb ha' hb'
  have hlo := BitVec.le_two_mul_toInt (x := b - a)
  have hhi := BitVec.two_mul_toInt_lt (x := b - a)
  rw [hp] at hlo hhi
  have hpos : (0 : Int) < 2 ^ m := by positivity
  rw [Int.bmod_def, hq] at hd
  generalize (2 : Int) ^ m = p at *
  generalize ((a.msb != b.msb) && ((b - a).msb == a.msb)) = v at *
  generalize (b - a).msb = s at *
  generalize (b - a).toInt = d at *
  have hd' : d = b.toInt - a.toInt ∨ d = b.toInt - a.toInt + 2 * p ∨
      d = b.toInt - a.toInt - 2 * p := by
    have := Int.emod_add_mul_ediv (b.toInt - a.toInt) (2 * p)
    have hlt := Int.emod_lt_of_pos (b.toInt - a.toInt) (show (0 : Int) < 2 * p by omega)
    have hge := Int.emod_nonneg (b.toInt - a.toInt) (show (2 * p : Int) ≠ 0 by omega)
    have hk : (b.toInt - a.toInt) / (2 * p) = 0 ∨ (b.toInt - a.toInt) / (2 * p) = -1 := by
      have h1 : (b.toInt - a.toInt) / (2 * p) < 1 := Int.ediv_lt_of_lt_mul (by omega) (by omega)
      have h2 : -1 ≤ (b.toInt - a.toInt) / (2 * p) := Int.le_ediv_of_mul_le (by omega) (by omega)
      omega
    rcases hk with hk | hk <;> rw [hk] at this <;> split at hd <;> omega
  cases v <;> cases s <;> simp at hv hm ⊢ <;> omega

/-- A comparison writes N, Z, V and C as a subtraction does and keeps X (R232). -/
@[simp] theorem cmpCcr_x {n : Nat} (a b d : BitVec n) (k : Ccr) : (cmpCcr a b d k).x = k.x := rfl
@[simp] theorem cmpCcr_n {n : Nat} (a b d : BitVec n) (k : Ccr) : (cmpCcr a b d k).n = d.msb := rfl
@[simp] theorem cmpCcr_z {n : Nat} (a b d : BitVec n) (k : Ccr) :
    (cmpCcr a b d k).z = decide (d = 0#n) := rfl
@[simp] theorem cmpCcr_v {n : Nat} (a b d : BitVec n) (k : Ccr) :
    (cmpCcr a b d k).v = ((a.msb != b.msb) && (d.msb == a.msb)) := rfl
@[simp] theorem cmpCcr_c {n : Nat} (a b d : BitVec n) (k : Ccr) :
    (cmpCcr a b d k).c = decide (b.toNat < a.toNat) := rfl

@[simp] theorem subCcr_x {n : Nat} (a b d : BitVec n) :
    (subCcr a b d).x = decide (b.toNat < a.toNat) := rfl
@[simp] theorem subCcr_n {n : Nat} (a b d : BitVec n) : (subCcr a b d).n = d.msb := rfl
@[simp] theorem subCcr_z {n : Nat} (a b d : BitVec n) : (subCcr a b d).z = decide (d = 0#n) := rfl
@[simp] theorem subCcr_v {n : Nat} (a b d : BitVec n) :
    (subCcr a b d).v = ((a.msb != b.msb) && (d.msb == a.msb)) := rfl
@[simp] theorem subCcr_c {n : Nat} (a b d : BitVec n) :
    (subCcr a b d).c = decide (b.toNat < a.toNat) := rfl

@[simp] theorem addCcr_x {n : Nat} (a b r : BitVec n) :
    (addCcr a b r).x = decide (2 ^ n ≤ a.toNat + b.toNat) := rfl
@[simp] theorem addCcr_n {n : Nat} (a b r : BitVec n) : (addCcr a b r).n = r.msb := rfl
@[simp] theorem addCcr_z {n : Nat} (a b r : BitVec n) : (addCcr a b r).z = decide (r = 0#n) := rfl
@[simp] theorem addCcr_v {n : Nat} (a b r : BitVec n) :
    (addCcr a b r).v = ((a.msb == b.msb) && (r.msb != b.msb)) := rfl
@[simp] theorem addCcr_c {n : Nat} (a b r : BitVec n) :
    (addCcr a b r).c = decide (2 ^ n ≤ a.toNat + b.toNat) := rfl

@[simp] theorem logicCcr_x {n : Nat} (r : BitVec n) (k : Ccr) : (logicCcr r k).x = k.x := rfl
@[simp] theorem logicCcr_n {n : Nat} (r : BitVec n) (k : Ccr) : (logicCcr r k).n = r.msb := rfl
@[simp] theorem logicCcr_z {n : Nat} (r : BitVec n) (k : Ccr) :
    (logicCcr r k).z = decide (r = 0#n) := rfl
@[simp] theorem logicCcr_v {n : Nat} (r : BitVec n) (k : Ccr) : (logicCcr r k).v = false := rfl
@[simp] theorem logicCcr_c {n : Nat} (r : BitVec n) (k : Ccr) : (logicCcr r k).c = false := rfl

end Sys2Proof.Machine
end

