-- ==== Sys2Proof/Laws/Launch.lean ====
section
/-! SUPPORT. The launch state: one lemma per field, what memory reads as after the image was placed, and
`State.reset` as one launch. -/

namespace Sys2Proof.Machine

section
variable (p : Program) (u : LaunchValues)

@[simp] theorem launch_d : (State.launch p u).d = u.d := rfl
@[simp] theorem launch_a : (State.launch p u).a = u.a := rfl
@[simp] theorem launch_pc : (State.launch p u).pc = p.entry := rfl
@[simp] theorem launch_ccr : (State.launch p u).ccr = u.ccr := rfl
@[simp] theorem launch_srHigh : (State.launch p u).srHigh = 0x27#8 := rfl
@[simp] theorem launch_mem : (State.launch p u).mem = Memory.load u.mem p.image := rfl
@[simp] theorem launch_memMap : (State.launch p u).memMap = p.memMap := rfl
@[simp] theorem launch_progText : (State.launch p u).progText = p.progText := rfl
@[simp] theorem launch_status : (State.launch p u).status = .running := rfl
@[simp] theorem launch_freeCount : (State.launch p u).freeCount = u.freeCount := rfl

end

/-- A program that can be launched has an even entry in the map, and its image in the map (R291). -/
theorem Program.wf_iff {p : Program} :
    p.wf = true ↔ p.entry.getLsbD 0 = false ∧
      inRegions p.memMap (byteAddr p.entry.toNat 0) = true ∧
      ∀ c ∈ p.image, inRegions p.memMap (byteAddr c.1 0) = true := by
  simp [Program.wf, and_assoc]

/-- Placing an image keeps the canonical form. -/
theorem Memory.wf_load {m : Memory} (cells : List Host.Cell) (h : Memory.wf m = true) :
    Memory.wf (Memory.load m cells) = true := by
  induction cells generalizing m with
  | nil => exact h
  | cons c rest ih => exact ih (Memory.wf_write _ (byteAddr_lt _ _) h)

/-- A byte the image does not name reads as before. -/
theorem Memory.read_load_other {m : Memory} {cells : List Host.Cell} {x : Nat}
    (h : ∀ c ∈ cells, byteAddr c.1 0 ≠ x) :
    Memory.read (Memory.load m cells) x = Memory.read m x := by
  induction cells generalizing m with
  | nil => rfl
  | cons c rest ih =>
    rw [List.forall_mem_cons] at h
    exact (ih h.2).trans (Memory.read_write_other _ (Ne.symm h.1))

/-- Placing one image after another. -/
theorem Memory.load_append (m : Memory) (xs ys : List Host.Cell) :
    Memory.load m (xs ++ ys) = Memory.load (Memory.load m xs) ys := by
  induction xs generalizing m with
  | nil => rfl
  | cons c rest ih => exact ih _

/-- A byte the image names reads as the last cell that names it. -/
theorem Memory.read_load_last {m : Memory} {pre post : List Host.Cell} {a : Nat} {v : Byte}
    (h : ∀ c ∈ post, byteAddr c.1 0 ≠ byteAddr a 0) :
    Memory.read (Memory.load m (pre ++ (a, v) :: post)) (byteAddr a 0) = v := by
  rw [Memory.load_append, Memory.load, Memory.read_load_other h, Memory.read_write_same]

/-- `State.reset` is the launch of no program: ENTRY the first program's, the whole space mapped, zeros
where the spec leaves a value open (log 2 to 5). -/
theorem reset_eq_launch :
    State.reset = State.launch ⟨Config.entry, [⟨0, 2 ^ Config.addrBits⟩], [], []⟩
      ⟨Vector.replicate 8 0#32, Vector.replicate 8 0#32, ⟨false, false, false, false, false⟩, [], 0⟩ :=
  rfl

end Sys2Proof.Machine
end

