-- ==== Sys2Proof/Laws/PerInstr.lean ====
section
/-! SUPPORT. Statements about every instruction as syntax, one lemma per constructor. -/

namespace Sys2Proof

theorem MemEa.words_length (m : MemEa) : m.words.length ≤ 2 := by
  cases m <;> simp [MemEa.words, longWords]

theorem DataAltEa.words_length (e : DataAltEa) : e.words.length ≤ 2 := by
  cases e with
  | dn r => simp [DataAltEa.words]
  | mem m => exact m.words_length

theorem immWords_length (sz : Size) (v : Long) : (immWords sz v).length ≤ 2 := by
  cases sz <;> simp [immWords, longWords]

theorem DataEa.words_length (sz : Size) (e : DataEa) : (e.words sz).length ≤ 2 := by
  cases e with
  | alt e => exact e.words_length
  | pcDisp d => simp [DataEa.words]
  | pcIndex ix => simp [DataEa.words]
  | imm v => exact immWords_length sz v

theorem AnyEa.words_length (sz : Size) (e : AnyEa) : (e.words sz).length ≤ 2 := by
  cases e with
  | an r => simp [AnyEa.words]
  | data e => exact e.words_length sz

theorem Disp.words_length (d : Disp) : d.words.length ≤ 1 := by cases d <;> simp [Disp.words]

theorem longWords_length (v : Long) : (longWords v).length = 2 := rfl

end Sys2Proof

namespace Sys2Proof.Laws.EncodingLength

/-- An instruction is one opword and at most four extension words (R80). -/
def Statement (i : Instr) : Prop := 1 ≤ (encode i).length ∧ (encode i).length ≤ 5

/-- An opword and `n` extension words, `n` at most 4. -/
theorem of_words {i : Instr} {w : Word} {ws : List Word} {n : Nat} (h : encode i = w :: ws)
    (hl : ws.length ≤ n) (hn : n ≤ 4) : Statement i := by
  unfold Statement
  rw [h, List.length_cons]
  exact ⟨Nat.le_add_left 1 _, Nat.succ_le_succ (Nat.le_trans hl hn)⟩

theorem length_cons_le {w : Word} {ws : List Word} {n : Nat} (h : ws.length ≤ n) :
    (w :: ws).length ≤ n + 1 := Nat.succ_le_succ h

theorem length_append_le {a b : List Word} {m n : Nat} (ha : a.length ≤ m) (hb : b.length ≤ n) :
    (a ++ b).length ≤ m + n := by
  rw [List.length_append]
  exact Nat.add_le_add ha hb

theorem longWords_le (v : Long) : (longWords v).length ≤ 2 := Nat.le_refl 2

theorem addBEaDn (src : DataEa) (dn : Reg) : Statement (.addBEaDn src dn) :=
  of_words rfl (src.words_length .byte) (by decide)

theorem addBDnEa (dn : Reg) (dst : MemEa) : Statement (.addBDnEa dn dst) :=
  of_words rfl (dst.words_length) (by decide)

theorem addWEaDn (src : AnyEa) (dn : Reg) : Statement (.addWEaDn src dn) :=
  of_words rfl (src.words_length .word) (by decide)

theorem addWDnEa (dn : Reg) (dst : MemEa) : Statement (.addWDnEa dn dst) :=
  of_words rfl (dst.words_length) (by decide)

theorem addLEaDn (src : AnyEa) (dn : Reg) : Statement (.addLEaDn src dn) :=
  of_words rfl (src.words_length .long) (by decide)

theorem addLDnEa (dn : Reg) (dst : MemEa) : Statement (.addLDnEa dn dst) :=
  of_words rfl (dst.words_length) (by decide)

theorem subBEaDn (src : DataEa) (dn : Reg) : Statement (.subBEaDn src dn) :=
  of_words rfl (src.words_length .byte) (by decide)

theorem subBDnEa (dn : Reg) (dst : MemEa) : Statement (.subBDnEa dn dst) :=
  of_words rfl (dst.words_length) (by decide)

theorem subWEaDn (src : AnyEa) (dn : Reg) : Statement (.subWEaDn src dn) :=
  of_words rfl (src.words_length .word) (by decide)

theorem subWDnEa (dn : Reg) (dst : MemEa) : Statement (.subWDnEa dn dst) :=
  of_words rfl (dst.words_length) (by decide)

theorem subLEaDn (src : AnyEa) (dn : Reg) : Statement (.subLEaDn src dn) :=
  of_words rfl (src.words_length .long) (by decide)

theorem subLDnEa (dn : Reg) (dst : MemEa) : Statement (.subLDnEa dn dst) :=
  of_words rfl (dst.words_length) (by decide)

theorem andBEaDn (src : DataEa) (dn : Reg) : Statement (.andBEaDn src dn) :=
  of_words rfl (src.words_length .byte) (by decide)

theorem andBDnEa (dn : Reg) (dst : MemEa) : Statement (.andBDnEa dn dst) :=
  of_words rfl (dst.words_length) (by decide)

theorem andWEaDn (src : DataEa) (dn : Reg) : Statement (.andWEaDn src dn) :=
  of_words rfl (src.words_length .word) (by decide)

theorem andWDnEa (dn : Reg) (dst : MemEa) : Statement (.andWDnEa dn dst) :=
  of_words rfl (dst.words_length) (by decide)

theorem andLEaDn (src : DataEa) (dn : Reg) : Statement (.andLEaDn src dn) :=
  of_words rfl (src.words_length .long) (by decide)

theorem andLDnEa (dn : Reg) (dst : MemEa) : Statement (.andLDnEa dn dst) :=
  of_words rfl (dst.words_length) (by decide)

theorem orBEaDn (src : DataEa) (dn : Reg) : Statement (.orBEaDn src dn) :=
  of_words rfl (src.words_length .byte) (by decide)

theorem orBDnEa (dn : Reg) (dst : MemEa) : Statement (.orBDnEa dn dst) :=
  of_words rfl (dst.words_length) (by decide)

theorem orWEaDn (src : DataEa) (dn : Reg) : Statement (.orWEaDn src dn) :=
  of_words rfl (src.words_length .word) (by decide)

theorem orWDnEa (dn : Reg) (dst : MemEa) : Statement (.orWDnEa dn dst) :=
  of_words rfl (dst.words_length) (by decide)

theorem orLEaDn (src : DataEa) (dn : Reg) : Statement (.orLEaDn src dn) :=
  of_words rfl (src.words_length .long) (by decide)

theorem orLDnEa (dn : Reg) (dst : MemEa) : Statement (.orLDnEa dn dst) :=
  of_words rfl (dst.words_length) (by decide)

theorem eorB (dn : Reg) (dst : DataAltEa) : Statement (.eorB dn dst) :=
  of_words rfl (dst.words_length) (by decide)

theorem eorW (dn : Reg) (dst : DataAltEa) : Statement (.eorW dn dst) :=
  of_words rfl (dst.words_length) (by decide)

theorem eorL (dn : Reg) (dst : DataAltEa) : Statement (.eorL dn dst) :=
  of_words rfl (dst.words_length) (by decide)

theorem cmpB (src : DataEa) (dn : Reg) : Statement (.cmpB src dn) :=
  of_words rfl (src.words_length .byte) (by decide)

theorem cmpW (src : AnyEa) (dn : Reg) : Statement (.cmpW src dn) :=
  of_words rfl (src.words_length .word) (by decide)

theorem cmpL (src : AnyEa) (dn : Reg) : Statement (.cmpL src dn) :=
  of_words rfl (src.words_length .long) (by decide)

theorem mulu (src : DataEa) (dn : Reg) : Statement (.mulu src dn) :=
  of_words rfl (src.words_length .word) (by decide)

theorem muls (src : DataEa) (dn : Reg) : Statement (.muls src dn) :=
  of_words rfl (src.words_length .word) (by decide)

theorem divu (src : DataEa) (dn : Reg) : Statement (.divu src dn) :=
  of_words rfl (src.words_length .word) (by decide)

theorem divs (src : DataEa) (dn : Reg) : Statement (.divs src dn) :=
  of_words rfl (src.words_length .word) (by decide)

theorem extW (dn : Reg) : Statement (.extW dn) :=
  of_words rfl (Nat.le_refl 0) (by decide)

theorem extL (dn : Reg) : Statement (.extL dn) :=
  of_words rfl (Nat.le_refl 0) (by decide)

theorem negB (dst : DataAltEa) : Statement (.negB dst) :=
  of_words rfl (dst.words_length) (by decide)

theorem negW (dst : DataAltEa) : Statement (.negW dst) :=
  of_words rfl (dst.words_length) (by decide)

theorem negL (dst : DataAltEa) : Statement (.negL dst) :=
  of_words rfl (dst.words_length) (by decide)

theorem notB (dst : DataAltEa) : Statement (.notB dst) :=
  of_words rfl (dst.words_length) (by decide)

theorem notW (dst : DataAltEa) : Statement (.notW dst) :=
  of_words rfl (dst.words_length) (by decide)

theorem notL (dst : DataAltEa) : Statement (.notL dst) :=
  of_words rfl (dst.words_length) (by decide)

theorem clrB (dst : DataAltEa) : Statement (.clrB dst) :=
  of_words rfl (dst.words_length) (by decide)

theorem clrW (dst : DataAltEa) : Statement (.clrW dst) :=
  of_words rfl (dst.words_length) (by decide)

theorem clrL (dst : DataAltEa) : Statement (.clrL dst) :=
  of_words rfl (dst.words_length) (by decide)

theorem swap (dn : Reg) : Statement (.swap dn) :=
  of_words rfl (Nat.le_refl 0) (by decide)

theorem exgDD (dx : Reg) (dy : Reg) : Statement (.exgDD dx dy) :=
  of_words rfl (Nat.le_refl 0) (by decide)

theorem exgAA (ax : Reg) (ay : Reg) : Statement (.exgAA ax ay) :=
  of_words rfl (Nat.le_refl 0) (by decide)

theorem exgDA (dx : Reg) (ay : Reg) : Statement (.exgDA dx ay) :=
  of_words rfl (Nat.le_refl 0) (by decide)

theorem asrBImm (ccc : BitVec 3) (dy : Reg) : Statement (.asrBImm ccc dy) :=
  of_words rfl (Nat.le_refl 0) (by decide)

theorem asrBReg (dx : Reg) (dy : Reg) : Statement (.asrBReg dx dy) :=
  of_words rfl (Nat.le_refl 0) (by decide)

theorem asrWImm (ccc : BitVec 3) (dy : Reg) : Statement (.asrWImm ccc dy) :=
  of_words rfl (Nat.le_refl 0) (by decide)

theorem asrWReg (dx : Reg) (dy : Reg) : Statement (.asrWReg dx dy) :=
  of_words rfl (Nat.le_refl 0) (by decide)

theorem asrLImm (ccc : BitVec 3) (dy : Reg) : Statement (.asrLImm ccc dy) :=
  of_words rfl (Nat.le_refl 0) (by decide)

theorem asrLReg (dx : Reg) (dy : Reg) : Statement (.asrLReg dx dy) :=
  of_words rfl (Nat.le_refl 0) (by decide)

theorem aslBImm (ccc : BitVec 3) (dy : Reg) : Statement (.aslBImm ccc dy) :=
  of_words rfl (Nat.le_refl 0) (by decide)

theorem aslBReg (dx : Reg) (dy : Reg) : Statement (.aslBReg dx dy) :=
  of_words rfl (Nat.le_refl 0) (by decide)

theorem aslWImm (ccc : BitVec 3) (dy : Reg) : Statement (.aslWImm ccc dy) :=
  of_words rfl (Nat.le_refl 0) (by decide)

theorem aslWReg (dx : Reg) (dy : Reg) : Statement (.aslWReg dx dy) :=
  of_words rfl (Nat.le_refl 0) (by decide)

theorem aslLImm (ccc : BitVec 3) (dy : Reg) : Statement (.aslLImm ccc dy) :=
  of_words rfl (Nat.le_refl 0) (by decide)

theorem aslLReg (dx : Reg) (dy : Reg) : Statement (.aslLReg dx dy) :=
  of_words rfl (Nat.le_refl 0) (by decide)

theorem lsrBImm (ccc : BitVec 3) (dy : Reg) : Statement (.lsrBImm ccc dy) :=
  of_words rfl (Nat.le_refl 0) (by decide)

theorem lsrBReg (dx : Reg) (dy : Reg) : Statement (.lsrBReg dx dy) :=
  of_words rfl (Nat.le_refl 0) (by decide)

theorem lsrWImm (ccc : BitVec 3) (dy : Reg) : Statement (.lsrWImm ccc dy) :=
  of_words rfl (Nat.le_refl 0) (by decide)

theorem lsrWReg (dx : Reg) (dy : Reg) : Statement (.lsrWReg dx dy) :=
  of_words rfl (Nat.le_refl 0) (by decide)

theorem lsrLImm (ccc : BitVec 3) (dy : Reg) : Statement (.lsrLImm ccc dy) :=
  of_words rfl (Nat.le_refl 0) (by decide)

theorem lsrLReg (dx : Reg) (dy : Reg) : Statement (.lsrLReg dx dy) :=
  of_words rfl (Nat.le_refl 0) (by decide)

theorem lslBImm (ccc : BitVec 3) (dy : Reg) : Statement (.lslBImm ccc dy) :=
  of_words rfl (Nat.le_refl 0) (by decide)

theorem lslBReg (dx : Reg) (dy : Reg) : Statement (.lslBReg dx dy) :=
  of_words rfl (Nat.le_refl 0) (by decide)

theorem lslWImm (ccc : BitVec 3) (dy : Reg) : Statement (.lslWImm ccc dy) :=
  of_words rfl (Nat.le_refl 0) (by decide)

theorem lslWReg (dx : Reg) (dy : Reg) : Statement (.lslWReg dx dy) :=
  of_words rfl (Nat.le_refl 0) (by decide)

theorem lslLImm (ccc : BitVec 3) (dy : Reg) : Statement (.lslLImm ccc dy) :=
  of_words rfl (Nat.le_refl 0) (by decide)

theorem lslLReg (dx : Reg) (dy : Reg) : Statement (.lslLReg dx dy) :=
  of_words rfl (Nat.le_refl 0) (by decide)

theorem roxrBImm (ccc : BitVec 3) (dy : Reg) : Statement (.roxrBImm ccc dy) :=
  of_words rfl (Nat.le_refl 0) (by decide)

theorem roxrBReg (dx : Reg) (dy : Reg) : Statement (.roxrBReg dx dy) :=
  of_words rfl (Nat.le_refl 0) (by decide)

theorem roxrWImm (ccc : BitVec 3) (dy : Reg) : Statement (.roxrWImm ccc dy) :=
  of_words rfl (Nat.le_refl 0) (by decide)

theorem roxrWReg (dx : Reg) (dy : Reg) : Statement (.roxrWReg dx dy) :=
  of_words rfl (Nat.le_refl 0) (by decide)

theorem roxrLImm (ccc : BitVec 3) (dy : Reg) : Statement (.roxrLImm ccc dy) :=
  of_words rfl (Nat.le_refl 0) (by decide)

theorem roxrLReg (dx : Reg) (dy : Reg) : Statement (.roxrLReg dx dy) :=
  of_words rfl (Nat.le_refl 0) (by decide)

theorem roxlBImm (ccc : BitVec 3) (dy : Reg) : Statement (.roxlBImm ccc dy) :=
  of_words rfl (Nat.le_refl 0) (by decide)

theorem roxlBReg (dx : Reg) (dy : Reg) : Statement (.roxlBReg dx dy) :=
  of_words rfl (Nat.le_refl 0) (by decide)

theorem roxlWImm (ccc : BitVec 3) (dy : Reg) : Statement (.roxlWImm ccc dy) :=
  of_words rfl (Nat.le_refl 0) (by decide)

theorem roxlWReg (dx : Reg) (dy : Reg) : Statement (.roxlWReg dx dy) :=
  of_words rfl (Nat.le_refl 0) (by decide)

theorem roxlLImm (ccc : BitVec 3) (dy : Reg) : Statement (.roxlLImm ccc dy) :=
  of_words rfl (Nat.le_refl 0) (by decide)

theorem roxlLReg (dx : Reg) (dy : Reg) : Statement (.roxlLReg dx dy) :=
  of_words rfl (Nat.le_refl 0) (by decide)

theorem rorBImm (ccc : BitVec 3) (dy : Reg) : Statement (.rorBImm ccc dy) :=
  of_words rfl (Nat.le_refl 0) (by decide)

theorem rorBReg (dx : Reg) (dy : Reg) : Statement (.rorBReg dx dy) :=
  of_words rfl (Nat.le_refl 0) (by decide)

theorem rorWImm (ccc : BitVec 3) (dy : Reg) : Statement (.rorWImm ccc dy) :=
  of_words rfl (Nat.le_refl 0) (by decide)

theorem rorWReg (dx : Reg) (dy : Reg) : Statement (.rorWReg dx dy) :=
  of_words rfl (Nat.le_refl 0) (by decide)

theorem rorLImm (ccc : BitVec 3) (dy : Reg) : Statement (.rorLImm ccc dy) :=
  of_words rfl (Nat.le_refl 0) (by decide)

theorem rorLReg (dx : Reg) (dy : Reg) : Statement (.rorLReg dx dy) :=
  of_words rfl (Nat.le_refl 0) (by decide)

theorem rolBImm (ccc : BitVec 3) (dy : Reg) : Statement (.rolBImm ccc dy) :=
  of_words rfl (Nat.le_refl 0) (by decide)

theorem rolBReg (dx : Reg) (dy : Reg) : Statement (.rolBReg dx dy) :=
  of_words rfl (Nat.le_refl 0) (by decide)

theorem rolWImm (ccc : BitVec 3) (dy : Reg) : Statement (.rolWImm ccc dy) :=
  of_words rfl (Nat.le_refl 0) (by decide)

theorem rolWReg (dx : Reg) (dy : Reg) : Statement (.rolWReg dx dy) :=
  of_words rfl (Nat.le_refl 0) (by decide)

theorem rolLImm (ccc : BitVec 3) (dy : Reg) : Statement (.rolLImm ccc dy) :=
  of_words rfl (Nat.le_refl 0) (by decide)

theorem rolLReg (dx : Reg) (dy : Reg) : Statement (.rolLReg dx dy) :=
  of_words rfl (Nat.le_refl 0) (by decide)

theorem btstDyn (dn : Reg) (src : DataEa) : Statement (.btstDyn dn src) :=
  of_words rfl (src.words_length .byte) (by decide)

theorem btstStatic (k : Byte) (src : DataEa) : Statement (.btstStatic k src) :=
  of_words rfl (length_cons_le (src.words_length .byte)) (by decide)

theorem bchgDyn (dn : Reg) (dst : DataAltEa) : Statement (.bchgDyn dn dst) :=
  of_words rfl (dst.words_length) (by decide)

theorem bchgStatic (k : Byte) (dst : DataAltEa) : Statement (.bchgStatic k dst) :=
  of_words rfl (length_cons_le (dst.words_length)) (by decide)

theorem bclrDyn (dn : Reg) (dst : DataAltEa) : Statement (.bclrDyn dn dst) :=
  of_words rfl (dst.words_length) (by decide)

theorem bclrStatic (k : Byte) (dst : DataAltEa) : Statement (.bclrStatic k dst) :=
  of_words rfl (length_cons_le (dst.words_length)) (by decide)

theorem bsetDyn (dn : Reg) (dst : DataAltEa) : Statement (.bsetDyn dn dst) :=
  of_words rfl (dst.words_length) (by decide)

theorem bsetStatic (k : Byte) (dst : DataAltEa) : Statement (.bsetStatic k dst) :=
  of_words rfl (length_cons_le (dst.words_length)) (by decide)

theorem oriB (imm : Byte) (dst : DataAltEa) : Statement (.oriB imm dst) :=
  of_words rfl (length_cons_le (dst.words_length)) (by decide)

theorem oriW (imm : Word) (dst : DataAltEa) : Statement (.oriW imm dst) :=
  of_words rfl (length_cons_le (dst.words_length)) (by decide)

theorem oriL (imm : Long) (dst : DataAltEa) : Statement (.oriL imm dst) :=
  of_words rfl (length_append_le (longWords_le imm) (dst.words_length)) (by decide)

theorem andiB (imm : Byte) (dst : DataAltEa) : Statement (.andiB imm dst) :=
  of_words rfl (length_cons_le (dst.words_length)) (by decide)

theorem andiW (imm : Word) (dst : DataAltEa) : Statement (.andiW imm dst) :=
  of_words rfl (length_cons_le (dst.words_length)) (by decide)

theorem andiL (imm : Long) (dst : DataAltEa) : Statement (.andiL imm dst) :=
  of_words rfl (length_append_le (longWords_le imm) (dst.words_length)) (by decide)

theorem subiB (imm : Byte) (dst : DataAltEa) : Statement (.subiB imm dst) :=
  of_words rfl (length_cons_le (dst.words_length)) (by decide)

theorem subiW (imm : Word) (dst : DataAltEa) : Statement (.subiW imm dst) :=
  of_words rfl (length_cons_le (dst.words_length)) (by decide)

theorem subiL (imm : Long) (dst : DataAltEa) : Statement (.subiL imm dst) :=
  of_words rfl (length_append_le (longWords_le imm) (dst.words_length)) (by decide)

theorem addiB (imm : Byte) (dst : DataAltEa) : Statement (.addiB imm dst) :=
  of_words rfl (length_cons_le (dst.words_length)) (by decide)

theorem addiW (imm : Word) (dst : DataAltEa) : Statement (.addiW imm dst) :=
  of_words rfl (length_cons_le (dst.words_length)) (by decide)

theorem addiL (imm : Long) (dst : DataAltEa) : Statement (.addiL imm dst) :=
  of_words rfl (length_append_le (longWords_le imm) (dst.words_length)) (by decide)

theorem eoriB (imm : Byte) (dst : DataAltEa) : Statement (.eoriB imm dst) :=
  of_words rfl (length_cons_le (dst.words_length)) (by decide)

theorem eoriW (imm : Word) (dst : DataAltEa) : Statement (.eoriW imm dst) :=
  of_words rfl (length_cons_le (dst.words_length)) (by decide)

theorem eoriL (imm : Long) (dst : DataAltEa) : Statement (.eoriL imm dst) :=
  of_words rfl (length_append_le (longWords_le imm) (dst.words_length)) (by decide)

theorem cmpiB (imm : Byte) (dst : DataAltEa) : Statement (.cmpiB imm dst) :=
  of_words rfl (length_cons_le (dst.words_length)) (by decide)

theorem cmpiW (imm : Word) (dst : DataAltEa) : Statement (.cmpiW imm dst) :=
  of_words rfl (length_cons_le (dst.words_length)) (by decide)

theorem cmpiL (imm : Long) (dst : DataAltEa) : Statement (.cmpiL imm dst) :=
  of_words rfl (length_append_le (longWords_le imm) (dst.words_length)) (by decide)

theorem moveB (src : DataEa) (dst : DataAltEa) : Statement (.moveB src dst) :=
  of_words rfl (length_append_le (src.words_length .byte) (dst.words_length)) (by decide)

theorem moveL (src : AnyEa) (dst : DataAltEa) : Statement (.moveL src dst) :=
  of_words rfl (length_append_le (src.words_length .long) (dst.words_length)) (by decide)

theorem moveW (src : AnyEa) (dst : DataAltEa) : Statement (.moveW src dst) :=
  of_words rfl (length_append_le (src.words_length .word) (dst.words_length)) (by decide)

theorem bra (disp : Disp) : Statement (.bra disp) :=
  of_words rfl (disp.words_length) (by decide)

theorem bhi (disp : Disp) : Statement (.bhi disp) :=
  of_words rfl (disp.words_length) (by decide)

theorem bls (disp : Disp) : Statement (.bls disp) :=
  of_words rfl (disp.words_length) (by decide)

theorem bcc (disp : Disp) : Statement (.bcc disp) :=
  of_words rfl (disp.words_length) (by decide)

theorem bcs (disp : Disp) : Statement (.bcs disp) :=
  of_words rfl (disp.words_length) (by decide)

theorem bne (disp : Disp) : Statement (.bne disp) :=
  of_words rfl (disp.words_length) (by decide)

theorem beq (disp : Disp) : Statement (.beq disp) :=
  of_words rfl (disp.words_length) (by decide)

theorem bvc (disp : Disp) : Statement (.bvc disp) :=
  of_words rfl (disp.words_length) (by decide)

theorem bvs (disp : Disp) : Statement (.bvs disp) :=
  of_words rfl (disp.words_length) (by decide)

theorem bpl (disp : Disp) : Statement (.bpl disp) :=
  of_words rfl (disp.words_length) (by decide)

theorem bmi (disp : Disp) : Statement (.bmi disp) :=
  of_words rfl (disp.words_length) (by decide)

theorem bge (disp : Disp) : Statement (.bge disp) :=
  of_words rfl (disp.words_length) (by decide)

theorem blt (disp : Disp) : Statement (.blt disp) :=
  of_words rfl (disp.words_length) (by decide)

theorem bgt (disp : Disp) : Statement (.bgt disp) :=
  of_words rfl (disp.words_length) (by decide)

theorem ble (disp : Disp) : Statement (.ble disp) :=
  of_words rfl (disp.words_length) (by decide)

theorem stop (imm : Word) : Statement (.stop imm) :=
  of_words rfl (Nat.le_refl 1) (by decide)

end Sys2Proof.Laws.EncodingLength
end

