-- ==== Sys2Proof/Laws/Shift.lean ====
section
/-! SUPPORT. The loop of the shifts: its last step, what it does to X, and the bits of a one-bit step. -/

namespace Sys2Proof.Machine

/-- The loop's last step may be taken out instead of its first. -/
theorem shiftLoop_succ_last {n : Nat} (op : ShiftOp) (cnt : Nat) (t : ShiftAcc n) :
    shiftLoop op (cnt + 1) t = shiftOnce op (shiftLoop op cnt t) := by
  induction cnt generalizing t with
  | zero => rfl
  | succ cnt ih => exact ih (shiftOnce op t)

@[simp] theorem shiftResult_zero {n : Nat} (op : ShiftOp) (v : BitVec n) (x : Bool) :
    shiftResult op v 0 x = ⟨v, op.zeroCountC x, x, false⟩ := rfl

/-- One more step (R189). -/
theorem shiftResult_succ {n : Nat} (op : ShiftOp) (v : BitVec n) (cnt : Nat) (x : Bool) :
    shiftResult op v (cnt + 1) x = shiftOnce op (shiftResult op v cnt x) :=
  shiftLoop_succ_last op cnt _

/-- ROL and ROR keep X (R184, R185). -/
theorem shiftResult_x_kept {n : Nat} {op : ShiftOp} (h : op.writesX = false) (v : BitVec n)
    (cnt : Nat) (x : Bool) : (shiftResult op v cnt x).x = x := by
  induction cnt with
  | zero => rfl
  | succ cnt ih => rw [shiftResult_succ]; simp [shiftOnce, h, ih]

/-- The others set X to the last bit moved out (R189). -/
theorem shiftResult_x_eq_c {n : Nat} {op : ShiftOp} (h : op.writesX = true) (v : BitVec n)
    (cnt : Nat) (x : Bool) :
    (shiftResult op v (cnt + 1) x).x = (shiftResult op v (cnt + 1) x).c := by
  rw [shiftResult_succ]
  simp [shiftOnce, h]

/-- ROXL and ROXR: C is X for every count (R189). -/
theorem shiftResult_rox_c {n : Nat} {op : ShiftOp} (h : op = .roxl ∨ op = .roxr) (v : BitVec n)
    (cnt : Nat) (x : Bool) : (shiftResult op v cnt x).c = (shiftResult op v cnt x).x := by
  cases cnt with
  | zero => rcases h with rfl | rfl <;> rfl
  | succ cnt => exact (shiftResult_x_eq_c (by rcases h with rfl | rfl <;> rfl) v cnt x).symm

/-- A left step by one: the bits move up, bit 0 is the bit moved in. -/
theorem shiftStep_rol_bit {n i : Nat} (v : BitVec n) (x : Bool) (hi : i < n) :
    (shiftStep .rol v x).1.getLsbD i = if i = 0 then v.msb else v.getLsbD (i - 1) := by
  rcases Nat.eq_zero_or_pos i with rfl | hp
  · simp [shiftStep, hi]
  · have h0 : i ≠ 0 := by omega
    simp [shiftStep, hi, h0, BitVec.getLsbD_ofBool]
    exact (BitVec.getLsbD_eq_getElem (by omega)).symm

theorem shiftStep_roxl_bit {n i : Nat} (v : BitVec n) (x : Bool) (hi : i < n) :
    (shiftStep .roxl v x).1.getLsbD i = if i = 0 then x else v.getLsbD (i - 1) := by
  rcases Nat.eq_zero_or_pos i with rfl | hp
  · simp [shiftStep, hi]
  · have h0 : i ≠ 0 := by omega
    simp [shiftStep, hi, h0, BitVec.getLsbD_ofBool]
    exact (BitVec.getLsbD_eq_getElem (by omega)).symm

/-- A right step by one: the bits move down, the top bit is the bit moved in. -/
theorem shiftStep_ror_bit {n i : Nat} (v : BitVec n) (x : Bool) (hi : i < n) :
    (shiftStep .ror v x).1.getLsbD i = if i + 1 = n then v.getLsbD 0 else v.getLsbD (i + 1) := by
  by_cases h : i + 1 = n
  · subst h
    simp [shiftStep, Nat.add_comm 1 i]
  · have h1 : i < n - 1 := by omega
    simp [shiftStep, hi, h, h1, Nat.add_comm 1 i]

theorem shiftStep_roxr_bit {n i : Nat} (v : BitVec n) (x : Bool) (hi : i < n) :
    (shiftStep .roxr v x).1.getLsbD i = if i + 1 = n then x else v.getLsbD (i + 1) := by
  by_cases h : i + 1 = n
  · subst h
    simp [shiftStep, Nat.add_comm 1 i]
  · have h1 : i < n - 1 := by omega
    simp [shiftStep, hi, h, h1, Nat.add_comm 1 i]

end Sys2Proof.Machine
end

