-- ==== Sys2Proof/Tests/Slice0.lean ====
section
/-! SUPPORT. Tests: what the well-formedness checks refuse, a word for every instruction, rows of the
spec's test vectors, and for every statement with hypotheses a state and operands that meet them. -/

namespace Sys2Proof.Tests

open Sys2Proof.Machine Sys2Proof.Claims

/-! ## Well-formedness: an ill-formed term for each check -/

/-- The immediate of a byte operation is a byte (R92). -/
theorem test_wf_refuses_wide_byte_immediate :
    Instr.wf (.addBEaDn (.imm 0x100#32) 0#3) = false ∧
      Instr.wf (.addBEaDn (.imm 0xFF#32) 0#3) = true := by decide

/-- The immediate of a word operation is a word (R92). -/
theorem test_wf_refuses_wide_word_immediate :
    Instr.wf (.moveW (.data (.imm 0x10000#32)) (.dn 0#3)) = false ∧
      Instr.wf (.moveW (.data (.imm 0xFFFF#32)) (.dn 0#3)) = true := by decide

/-- `BTST #n,<ea>` does not take `#imm` (R105). -/
theorem test_wf_refuses_static_btst_of_immediate :
    Instr.wf (.btstStatic 1#8 (.imm 1#32)) = false ∧ Instr.wf (.btstDyn 1#3 (.imm 1#32)) = true := by
  decide

/-- A short displacement is not 0 (R240). -/
theorem test_wf_refuses_short_zero_displacement :
    Instr.wf (.bne (.short 0#8)) = false ∧ Instr.wf (.bne (.long 0#16)) = true := by decide

/-- MOVE from `An` to `(An)+` or `-(An)` of the same register (R94). -/
theorem test_wf_refuses_move_same_register :
    Instr.wf (.moveL (.an 3#3) (.mem (.preDec 3#3))) = false ∧
      Instr.wf (.moveW (.an 3#3) (.mem (.postInc 3#3))) = false ∧
      Instr.wf (.moveL (.an 3#3) (.mem (.preDec 4#3))) = true := by decide

/-! ## Helpers -/

/-- Flags written as the spec prints them, XNZVC (R31). -/
def flags (w : BitVec 5) : Ccr :=
  ⟨w.getLsbD 4, w.getLsbD 3, w.getLsbD 2, w.getLsbD 1, w.getLsbD 0⟩

/-- The launch state with flags, and an instruction's words at pc as program text. -/
def start (pc : Long) (k : BitVec 5) (ws : List Word) : State :=
  { placeInstr (State.reset.setPc pc) ws with
    ccr := flags k
    progText := [⟨pc.toNat, 2 * ws.length⟩] }

/-- A state with one byte of memory set. -/
def put (s : State) (a : Nat) (b : Byte) : State := s.setMem (Memory.write s.mem a b)

/-- One step answers a next state with a property. -/
def after (s : State) (p : State → Bool) : Bool :=
  match step s with
  | .next t => p t
  | .fault _ => false
  | .refused _ => false

/-! ## Decoding: one word for every instruction, written out from the bits of opcode_table.json -/

theorem test_decode_add :
    decode [0xDA3A#16, 0x7FFF#16] = .ok (.addBEaDn (.pcDisp 0x7FFF#16) 5#3, []) ∧
    decode [0xDB15#16] = .ok (.addBDnEa 5#3 (.ind 5#3), []) ∧
    decode [0xDA4E#16] = .ok (.addWEaDn (.an 6#3) 5#3, []) ∧
    decode [0xDB5E#16] = .ok (.addWDnEa 5#3 (.postInc 6#3), []) ∧
    decode [0xDABA#16, 0x7FFF#16] = .ok (.addLEaDn (.data (.pcDisp 0x7FFF#16)) 5#3, []) ∧
    decode [0xDBA7#16] = .ok (.addLDnEa 5#3 (.preDec 7#3), []) := by
  decide

theorem test_decode_sub :
    decode [0x9A3C#16, 0x0080#16] = .ok (.subBEaDn (.imm 0x80#32) 5#3, []) ∧
    decode [0x9B29#16, 0xFFFE#16] = .ok (.subBDnEa 5#3 (.disp 1#3 0xFFFE#16), []) ∧
    decode [0x9A7C#16, 0xBEEF#16] = .ok (.subWEaDn (.data (.imm 0xBEEF#32)) 5#3, []) ∧
    decode [0x9B72#16, 0xB8F0#16] =
      .ok (.subWDnEa 5#3 (.index 2#3 ⟨true, 3#3, true, 0xF0#8⟩), []) ∧
    decode [0x9ABB#16, 0x4007#16] =
      .ok (.subLEaDn (.data (.pcIndex ⟨false, 4#3, false, 0x07#8⟩)) 5#3, []) ∧
    decode [0x9BB8#16, 0x8000#16] = .ok (.subLDnEa 5#3 (.absW 0x8000#16), []) := by
  decide

theorem test_decode_and :
    decode [0xCA3B#16, 0x4007#16] =
      .ok (.andBEaDn (.pcIndex ⟨false, 4#3, false, 0x07#8⟩) 5#3, []) ∧
    decode [0xCB39#16, 0x0012#16, 0x3456#16] = .ok (.andBDnEa 5#3 (.absL 0x00123456#32), []) ∧
    decode [0xCA44#16] = .ok (.andWEaDn (.alt (.dn 4#3)) 5#3, []) ∧
    decode [0xCB55#16] = .ok (.andWDnEa 5#3 (.ind 5#3), []) ∧
    decode [0xCA95#16] = .ok (.andLEaDn (.alt (.mem (.ind 5#3))) 5#3, []) ∧
    decode [0xCB9E#16] = .ok (.andLDnEa 5#3 (.postInc 6#3), []) := by
  decide

theorem test_decode_or :
    decode [0x8A1E#16] = .ok (.orBEaDn (.alt (.mem (.postInc 6#3))) 5#3, []) ∧
    decode [0x8B27#16] = .ok (.orBDnEa 5#3 (.preDec 7#3), []) ∧
    decode [0x8A67#16] = .ok (.orWEaDn (.alt (.mem (.preDec 7#3))) 5#3, []) ∧
    decode [0x8B69#16, 0xFFFE#16] = .ok (.orWDnEa 5#3 (.disp 1#3 0xFFFE#16), []) ∧
    decode [0x8AA9#16, 0xFFFE#16] = .ok (.orLEaDn (.alt (.mem (.disp 1#3 0xFFFE#16))) 5#3, []) ∧
    decode [0x8BB2#16, 0xB8F0#16] =
      .ok (.orLDnEa 5#3 (.index 2#3 ⟨true, 3#3, true, 0xF0#8⟩), []) := by
  decide

theorem test_decode_eor :
    decode [0xBB04#16] = .ok (.eorB 5#3 (.dn 4#3), []) ∧
    decode [0xBB55#16] = .ok (.eorW 5#3 (.mem (.ind 5#3)), []) ∧
    decode [0xBB9E#16] = .ok (.eorL 5#3 (.mem (.postInc 6#3)), []) := by
  decide

theorem test_decode_cmp :
    decode [0xBA32#16, 0xB8F0#16] =
      .ok (.cmpB (.alt (.mem (.index 2#3 ⟨true, 3#3, true, 0xF0#8⟩))) 5#3, []) ∧
    decode [0xBA44#16] = .ok (.cmpW (.data (.alt (.dn 4#3))) 5#3, []) ∧
    decode [0xBA95#16] = .ok (.cmpL (.data (.alt (.mem (.ind 5#3)))) 5#3, []) := by
  decide

theorem test_decode_multiply_divide :
    decode [0xCAF8#16, 0x8000#16] = .ok (.mulu (.alt (.mem (.absW 0x8000#16))) 5#3, []) ∧
    decode [0xCBF9#16, 0x0012#16, 0x3456#16] =
      .ok (.muls (.alt (.mem (.absL 0x00123456#32))) 5#3, []) ∧
    decode [0x8AFA#16, 0x7FFF#16] = .ok (.divu (.pcDisp 0x7FFF#16) 5#3, []) ∧
    decode [0x8BFC#16, 0xBEEF#16] = .ok (.divs (.imm 0xBEEF#32) 5#3, []) := by
  decide

theorem test_decode_ext_swap_exg :
    decode [0x4885#16] = .ok (.extW 5#3, []) ∧
    decode [0x48C5#16] = .ok (.extL 5#3, []) ∧
    decode [0x4845#16] = .ok (.swap 5#3, []) ∧
    decode [0xCB42#16] = .ok (.exgDD 5#3 2#3, []) ∧
    decode [0xCB4A#16] = .ok (.exgAA 5#3 2#3, []) ∧
    decode [0xCB8A#16] = .ok (.exgDA 5#3 2#3, []) := by
  decide

theorem test_decode_neg_not_clr :
    decode [0x4427#16] = .ok (.negB (.mem (.preDec 7#3)), []) ∧
    decode [0x4469#16, 0xFFFE#16] = .ok (.negW (.mem (.disp 1#3 0xFFFE#16)), []) ∧
    decode [0x44B2#16, 0xB8F0#16] =
      .ok (.negL (.mem (.index 2#3 ⟨true, 3#3, true, 0xF0#8⟩)), []) ∧
    decode [0x4638#16, 0x8000#16] = .ok (.notB (.mem (.absW 0x8000#16)), []) ∧
    decode [0x4679#16, 0x0012#16, 0x3456#16] = .ok (.notW (.mem (.absL 0x00123456#32)), []) ∧
    decode [0x4684#16] = .ok (.notL (.dn 4#3), []) ∧
    decode [0x4215#16] = .ok (.clrB (.mem (.ind 5#3)), []) ∧
    decode [0x425E#16] = .ok (.clrW (.mem (.postInc 6#3)), []) ∧
    decode [0x42A7#16] = .ok (.clrL (.mem (.preDec 7#3)), []) := by
  decide

theorem test_decode_shift_asr :
    decode [0xEA02#16] = .ok (.asrBImm 5#3 2#3, []) ∧
    decode [0xEA22#16] = .ok (.asrBReg 5#3 2#3, []) ∧
    decode [0xEA42#16] = .ok (.asrWImm 5#3 2#3, []) ∧
    decode [0xEA62#16] = .ok (.asrWReg 5#3 2#3, []) ∧
    decode [0xEA82#16] = .ok (.asrLImm 5#3 2#3, []) ∧
    decode [0xEAA2#16] = .ok (.asrLReg 5#3 2#3, []) := by
  decide

theorem test_decode_shift_asl :
    decode [0xEB02#16] = .ok (.aslBImm 5#3 2#3, []) ∧
    decode [0xEB22#16] = .ok (.aslBReg 5#3 2#3, []) ∧
    decode [0xEB42#16] = .ok (.aslWImm 5#3 2#3, []) ∧
    decode [0xEB62#16] = .ok (.aslWReg 5#3 2#3, []) ∧
    decode [0xEB82#16] = .ok (.aslLImm 5#3 2#3, []) ∧
    decode [0xEBA2#16] = .ok (.aslLReg 5#3 2#3, []) := by
  decide

theorem test_decode_shift_lsr :
    decode [0xEA0A#16] = .ok (.lsrBImm 5#3 2#3, []) ∧
    decode [0xEA2A#16] = .ok (.lsrBReg 5#3 2#3, []) ∧
    decode [0xEA4A#16] = .ok (.lsrWImm 5#3 2#3, []) ∧
    decode [0xEA6A#16] = .ok (.lsrWReg 5#3 2#3, []) ∧
    decode [0xEA8A#16] = .ok (.lsrLImm 5#3 2#3, []) ∧
    decode [0xEAAA#16] = .ok (.lsrLReg 5#3 2#3, []) := by
  decide

theorem test_decode_shift_lsl :
    decode [0xEB0A#16] = .ok (.lslBImm 5#3 2#3, []) ∧
    decode [0xEB2A#16] = .ok (.lslBReg 5#3 2#3, []) ∧
    decode [0xEB4A#16] = .ok (.lslWImm 5#3 2#3, []) ∧
    decode [0xEB6A#16] = .ok (.lslWReg 5#3 2#3, []) ∧
    decode [0xEB8A#16] = .ok (.lslLImm 5#3 2#3, []) ∧
    decode [0xEBAA#16] = .ok (.lslLReg 5#3 2#3, []) := by
  decide

theorem test_decode_rotate_roxr :
    decode [0xEA12#16] = .ok (.roxrBImm 5#3 2#3, []) ∧
    decode [0xEA32#16] = .ok (.roxrBReg 5#3 2#3, []) ∧
    decode [0xEA52#16] = .ok (.roxrWImm 5#3 2#3, []) ∧
    decode [0xEA72#16] = .ok (.roxrWReg 5#3 2#3, []) ∧
    decode [0xEA92#16] = .ok (.roxrLImm 5#3 2#3, []) ∧
    decode [0xEAB2#16] = .ok (.roxrLReg 5#3 2#3, []) := by
  decide

theorem test_decode_rotate_roxl :
    decode [0xEB12#16] = .ok (.roxlBImm 5#3 2#3, []) ∧
    decode [0xEB32#16] = .ok (.roxlBReg 5#3 2#3, []) ∧
    decode [0xEB52#16] = .ok (.roxlWImm 5#3 2#3, []) ∧
    decode [0xEB72#16] = .ok (.roxlWReg 5#3 2#3, []) ∧
    decode [0xEB92#16] = .ok (.roxlLImm 5#3 2#3, []) ∧
    decode [0xEBB2#16] = .ok (.roxlLReg 5#3 2#3, []) := by
  decide

theorem test_decode_rotate_ror :
    decode [0xEA1A#16] = .ok (.rorBImm 5#3 2#3, []) ∧
    decode [0xEA3A#16] = .ok (.rorBReg 5#3 2#3, []) ∧
    decode [0xEA5A#16] = .ok (.rorWImm 5#3 2#3, []) ∧
    decode [0xEA7A#16] = .ok (.rorWReg 5#3 2#3, []) ∧
    decode [0xEA9A#16] = .ok (.rorLImm 5#3 2#3, []) ∧
    decode [0xEABA#16] = .ok (.rorLReg 5#3 2#3, []) := by
  decide

theorem test_decode_rotate_rol :
    decode [0xEB1A#16] = .ok (.rolBImm 5#3 2#3, []) ∧
    decode [0xEB3A#16] = .ok (.rolBReg 5#3 2#3, []) ∧
    decode [0xEB5A#16] = .ok (.rolWImm 5#3 2#3, []) ∧
    decode [0xEB7A#16] = .ok (.rolWReg 5#3 2#3, []) ∧
    decode [0xEB9A#16] = .ok (.rolLImm 5#3 2#3, []) ∧
    decode [0xEBBA#16] = .ok (.rolLReg 5#3 2#3, []) := by
  decide

theorem test_decode_bits :
    decode [0x0B3B#16, 0x4007#16] =
      .ok (.btstDyn 5#3 (.pcIndex ⟨false, 4#3, false, 0x07#8⟩), []) ∧
    decode [0x0804#16, 0x009A#16] = .ok (.btstStatic 0x9A#8 (.alt (.dn 4#3)), []) ∧
    decode [0x0B69#16, 0xFFFE#16] = .ok (.bchgDyn 5#3 (.mem (.disp 1#3 0xFFFE#16)), []) ∧
    decode [0x0872#16, 0x009A#16, 0xB8F0#16] =
      .ok (.bchgStatic 0x9A#8 (.mem (.index 2#3 ⟨true, 3#3, true, 0xF0#8⟩)), []) ∧
    decode [0x0BB8#16, 0x8000#16] = .ok (.bclrDyn 5#3 (.mem (.absW 0x8000#16)), []) ∧
    decode [0x08B9#16, 0x009A#16, 0x0012#16, 0x3456#16] =
      .ok (.bclrStatic 0x9A#8 (.mem (.absL 0x00123456#32)), []) ∧
    decode [0x0BC4#16] = .ok (.bsetDyn 5#3 (.dn 4#3), []) ∧
    decode [0x08D5#16, 0x009A#16] = .ok (.bsetStatic 0x9A#8 (.mem (.ind 5#3)), []) := by
  decide

theorem test_decode_ori :
    decode [0x001E#16, 0x009A#16] = .ok (.oriB 0x9A#8 (.mem (.postInc 6#3)), []) ∧
    decode [0x0067#16, 0x9ABC#16] = .ok (.oriW 0x9ABC#16 (.mem (.preDec 7#3)), []) ∧
    decode [0x00A9#16, 0x9ABC#16, 0xDEF0#16, 0xFFFE#16] =
      .ok (.oriL 0x9ABCDEF0#32 (.mem (.disp 1#3 0xFFFE#16)), []) := by
  decide

theorem test_decode_andi :
    decode [0x0232#16, 0x009A#16, 0xB8F0#16] =
      .ok (.andiB 0x9A#8 (.mem (.index 2#3 ⟨true, 3#3, true, 0xF0#8⟩)), []) ∧
    decode [0x0278#16, 0x9ABC#16, 0x8000#16] =
      .ok (.andiW 0x9ABC#16 (.mem (.absW 0x8000#16)), []) ∧
    decode [0x02B9#16, 0x9ABC#16, 0xDEF0#16, 0x0012#16, 0x3456#16] =
      .ok (.andiL 0x9ABCDEF0#32 (.mem (.absL 0x00123456#32)), []) := by
  decide

theorem test_decode_subi :
    decode [0x0404#16, 0x009A#16] = .ok (.subiB 0x9A#8 (.dn 4#3), []) ∧
    decode [0x0455#16, 0x9ABC#16] = .ok (.subiW 0x9ABC#16 (.mem (.ind 5#3)), []) ∧
    decode [0x049E#16, 0x9ABC#16, 0xDEF0#16] =
      .ok (.subiL 0x9ABCDEF0#32 (.mem (.postInc 6#3)), []) := by
  decide

theorem test_decode_addi :
    decode [0x0627#16, 0x009A#16] = .ok (.addiB 0x9A#8 (.mem (.preDec 7#3)), []) ∧
    decode [0x0669#16, 0x9ABC#16, 0xFFFE#16] =
      .ok (.addiW 0x9ABC#16 (.mem (.disp 1#3 0xFFFE#16)), []) ∧
    decode [0x06B2#16, 0x9ABC#16, 0xDEF0#16, 0xB8F0#16] =
      .ok (.addiL 0x9ABCDEF0#32 (.mem (.index 2#3 ⟨true, 3#3, true, 0xF0#8⟩)), []) := by
  decide

theorem test_decode_eori :
    decode [0x0A38#16, 0x009A#16, 0x8000#16] = .ok (.eoriB 0x9A#8 (.mem (.absW 0x8000#16)), []) ∧
    decode [0x0A79#16, 0x9ABC#16, 0x0012#16, 0x3456#16] =
      .ok (.eoriW 0x9ABC#16 (.mem (.absL 0x00123456#32)), []) ∧
    decode [0x0A84#16, 0x9ABC#16, 0xDEF0#16] = .ok (.eoriL 0x9ABCDEF0#32 (.dn 4#3), []) := by
  decide

theorem test_decode_cmpi :
    decode [0x0C15#16, 0x009A#16] = .ok (.cmpiB 0x9A#8 (.mem (.ind 5#3)), []) ∧
    decode [0x0C5E#16, 0x9ABC#16] = .ok (.cmpiW 0x9ABC#16 (.mem (.postInc 6#3)), []) ∧
    decode [0x0CA7#16, 0x9ABC#16, 0xDEF0#16] =
      .ok (.cmpiL 0x9ABCDEF0#32 (.mem (.preDec 7#3)), []) := by
  decide

theorem test_decode_move :
    decode [0x1355#16, 0xFFFE#16] =
      .ok (.moveB (.alt (.mem (.ind 5#3))) (.mem (.disp 1#3 0xFFFE#16)), []) ∧
    decode [0x259E#16, 0xB8F0#16] =
      .ok (.moveL (.data (.alt (.mem (.postInc 6#3)))) (.mem (.index 2#3 ⟨true, 3#3, true, 0xF0#8⟩)), []) ∧
    decode [0x31E7#16, 0x8000#16] =
      .ok (.moveW (.data (.alt (.mem (.preDec 7#3)))) (.mem (.absW 0x8000#16)), []) := by
  decide

theorem test_decode_branches_1 :
    decode [0x6086#16] = .ok (.bra (.short 0x86#8), []) ∧
    decode [0x6200#16, 0x0102#16] = .ok (.bhi (.long 0x0102#16), []) ∧
    decode [0x6388#16] = .ok (.bls (.short 0x88#8), []) ∧
    decode [0x6400#16, 0x0102#16] = .ok (.bcc (.long 0x0102#16), []) ∧
    decode [0x658A#16] = .ok (.bcs (.short 0x8A#8), []) ∧
    decode [0x6600#16, 0x0102#16] = .ok (.bne (.long 0x0102#16), []) ∧
    decode [0x678C#16] = .ok (.beq (.short 0x8C#8), []) ∧
    decode [0x6800#16, 0x0102#16] = .ok (.bvc (.long 0x0102#16), []) := by
  decide

theorem test_decode_branches_2 :
    decode [0x698E#16] = .ok (.bvs (.short 0x8E#8), []) ∧
    decode [0x6A00#16, 0x0102#16] = .ok (.bpl (.long 0x0102#16), []) ∧
    decode [0x6B90#16] = .ok (.bmi (.short 0x90#8), []) ∧
    decode [0x6C00#16, 0x0102#16] = .ok (.bge (.long 0x0102#16), []) ∧
    decode [0x6D92#16] = .ok (.blt (.short 0x92#8), []) ∧
    decode [0x6E00#16, 0x0102#16] = .ok (.bgt (.long 0x0102#16), []) ∧
    decode [0x6F94#16] = .ok (.ble (.short 0x94#8), []) := by
  decide

theorem test_decode_stop :
    decode [0x4E72#16, 0x9ABC#16] = .ok (.stop 0x9ABC#16, []) := by
  decide

/-! ## Steps: rows of 95_test_vectors.md -/

/-- 95_test_vectors.md, `ADD.B D1,D0`: signed overflow; bits 31..8 kept. -/
theorem test_step_addBEaDn :
    after (((start 0x1000#32 0b00000#5 [0xD001#16]).setD 0#3 0x1234567F#32).setD 1#3 0x1#32) (fun
      t =>
      t.dreg 0#3 == 0x12345680#32 &&
      t.dreg 1#3 == 0x1#32 &&
      t.pc == 0x1002#32 &&
      t.ccr == flags 0b01010#5) = true := by decide

/-- 95_test_vectors.md, `ADD.W D1,D0`. -/
theorem test_step_addWEaDn :
    after (((start 0x1000#32 0b00000#5 [0xD041#16]).setD 0#3 0x7FFF#32).setD 1#3 0x1#32) (fun t =>
      t.dreg 0#3 == 0x8000#32 &&
      t.dreg 1#3 == 0x1#32 &&
      t.pc == 0x1002#32 &&
      t.ccr == flags 0b01010#5) = true := by decide

/-- 95_test_vectors.md, `ADD.W (A0),D0`: odd address. -/
theorem test_step_addWEaDn_corner :
    after (put (put (put (((start 0x1000#32 0b00000#5 [0xD050#16]).setD 0#3 0x1#32).setA 0#3
      0x2001#32) 0x2000 0x0#8) 0x2001 0x0#8) 0x2002 0x0#8) (fun t =>
      t.status == .faulted ⟨.addressError 0x2001#32 .read, 0x1000#32⟩ &&
      t.dreg 0#3 == 0x1#32 &&
      t.areg 0#3 == 0x2001#32 &&
      t.ccr == flags 0b00000#5) = true := by decide

/-- 95_test_vectors.md, `ADD.L D1,D0`: UMax + 1. -/
theorem test_step_addLEaDn :
    after (((start 0x1000#32 0b00000#5 [0xD081#16]).setD 0#3 0xFFFFFFFF#32).setD 1#3 0x1#32) (fun
      t =>
      t.dreg 0#3 == 0x0#32 &&
      t.dreg 1#3 == 0x1#32 &&
      t.pc == 0x1002#32 &&
      t.ccr == flags 0b10101#5) = true := by decide

/-- 95_test_vectors.md, `ADD.W D0,(A0)`: memory destination, big-endian word. -/
theorem test_step_addWDnEa :
    after (put (put (((start 0x1000#32 0b00000#5 [0xD150#16]).setD 0#3 0x10001#32).setA 0#3
      0x2000#32) 0x2000 0xFF#8) 0x2001 0xFF#8) (fun t =>
      t.dreg 0#3 == 0x10001#32 &&
      t.areg 0#3 == 0x2000#32 &&
      t.pc == 0x1002#32 &&
      t.byteAt 0x2000 == 0x0#8 &&
      t.byteAt 0x2001 == 0x0#8 &&
      t.ccr == flags 0b10101#5) = true := by decide

/-- 95_test_vectors.md, `ADD.W D0,(A0)`: store into program text. -/
theorem test_step_addWDnEa_corner :
    after (((start 0x1000#32 0b00000#5 [0xD150#16]).setD 0#3 0x1#32).setA 0#3 0x1000#32) (fun t =>
      t.status == .faulted ⟨.selfModify 0x1000#32, 0x1000#32⟩ &&
      t.dreg 0#3 == 0x1#32 &&
      t.areg 0#3 == 0x1000#32 &&
      t.ccr == flags 0b00000#5) = true := by decide

/-- 95_test_vectors.md, `ADD.B A1,D0`: byte from An refused. -/
theorem test_step_refused :
    after (((start 0x1000#32 0b00000#5 [0xD009#16]).setD 0#3 0x1#32).setA 1#3 0x12348000#32) (fun
      t =>
      t.status == .faulted ⟨.illegalInstruction 0xD009#16, 0x1000#32⟩ &&
      t.dreg 0#3 == 0x1#32 &&
      t.areg 1#3 == 0x12348000#32 &&
      t.ccr == flags 0b00000#5) = true := by decide

/-- 95_test_vectors.md, `MOVE.L A0,-(A0)`: refused form (30_encoding.md rule R94). -/
theorem test_step_refused_corner :
    after ((start 0x1000#32 0b00000#5 [0x2108#16]).setA 0#3 0x2004#32) (fun t =>
      t.status == .faulted ⟨.illegalInstruction 0x2108#16, 0x1000#32⟩ &&
      t.areg 0#3 == 0x2004#32 &&
      t.ccr == flags 0b00000#5) = true := by decide

/-- 95_test_vectors.md, `SUB.B D1,D0`: borrow. -/
theorem test_step_subBEaDn :
    after (((start 0x1000#32 0b00000#5 [0x9001#16]).setD 0#3 0x55555500#32).setD 1#3 0x1#32) (fun
      t =>
      t.dreg 0#3 == 0x555555FF#32 &&
      t.dreg 1#3 == 0x1#32 &&
      t.pc == 0x1002#32 &&
      t.ccr == flags 0b11001#5) = true := by decide

/-- 95_test_vectors.md, `SUB.W D1,D0`. -/
theorem test_step_subWEaDn :
    after (((start 0x1000#32 0b00000#5 [0x9041#16]).setD 0#3 0x8000#32).setD 1#3 0x1#32) (fun t =>
      t.dreg 0#3 == 0x7FFF#32 &&
      t.dreg 1#3 == 0x1#32 &&
      t.pc == 0x1002#32 &&
      t.ccr == flags 0b00010#5) = true := by decide

/-- 95_test_vectors.md, `SUB.L D1,D0`: 0 - TMin. -/
theorem test_step_subLEaDn :
    after (((start 0x1000#32 0b00000#5 [0x9081#16]).setD 0#3 0x0#32).setD 1#3 0x80000000#32) (fun
      t =>
      t.dreg 0#3 == 0x80000000#32 &&
      t.dreg 1#3 == 0x80000000#32 &&
      t.pc == 0x1002#32 &&
      t.ccr == flags 0b11011#5) = true := by decide

/-- 95_test_vectors.md, `EXT.W D2`: X kept, V C cleared. -/
theorem test_step_extW :
    after ((start 0x1000#32 0b10011#5 [0x4882#16]).setD 2#3 0x123400C3#32) (fun t =>
      t.dreg 2#3 == 0x1234FFC3#32 &&
      t.pc == 0x1002#32 &&
      t.ccr == flags 0b11000#5) = true := by decide

/-- 95_test_vectors.md, `EXT.L D2`: S1's figure value, any upper word. -/
theorem test_step_extL :
    after ((start 0x1000#32 0b10011#5 [0x48C2#16]).setD 2#3 0xABCD70C3#32) (fun t =>
      t.dreg 2#3 == 0x70C3#32 &&
      t.pc == 0x1002#32 &&
      t.ccr == flags 0b10000#5) = true := by decide

/-- 95_test_vectors.md, `MULU #64,D0`: S1's example, any upper word. -/
theorem test_step_mulu :
    after ((start 0x1000#32 0b00000#5 [0xC0FC#16, 0x0040#16]).setD 0#3 0xDEADAAAA#32) (fun t =>
      t.dreg 0#3 == 0x2AAA80#32 &&
      t.pc == 0x1004#32 &&
      t.ccr == flags 0b00000#5) = true := by decide

/-- 95_test_vectors.md, `MULS #64,D0`: S1's example. -/
theorem test_step_muls :
    after ((start 0x1000#32 0b00000#5 [0xC1FC#16, 0x0040#16]).setD 0#3 0xDEADAAAA#32) (fun t =>
      t.dreg 0#3 == 0xFFEAAA80#32 &&
      t.pc == 0x1004#32 &&
      t.ccr == flags 0b01000#5) = true := by decide

/-- 95_test_vectors.md, `DIVU #64,D0`: S1's caption: 98309 / 64. -/
theorem test_step_divu :
    after ((start 0x1000#32 0b00000#5 [0x80FC#16, 0x0040#16]).setD 0#3 0x18005#32) (fun t =>
      t.dreg 0#3 == 0x50600#32 &&
      t.pc == 0x1004#32 &&
      t.ccr == flags 0b00000#5) = true := by decide

/-- 95_test_vectors.md, `DIVU #1,D0`: overflow: D0 kept, N Z drawn. -/
theorem test_step_divu_corner :
    after ((start 0x1000#32 0b10001#5 [0x80FC#16, 0x0001#16]).setD 0#3 0x10000#32) (fun t =>
      t.dreg 0#3 == 0x10000#32 &&
      t.pc == 0x1004#32 &&
      t.ccr.x == true &&
      t.ccr.v == true &&
      t.ccr.c == false) = true := by decide

/-- 95_test_vectors.md, `DIVS #64,D0`: S1's caption: -98309 / 64. -/
theorem test_step_divs :
    after ((start 0x1000#32 0b00000#5 [0x81FC#16, 0x0040#16]).setD 0#3 0xFFFE7FFB#32) (fun t =>
      t.dreg 0#3 == 0xFFFBFA00#32 &&
      t.pc == 0x1004#32 &&
      t.ccr == flags 0b01000#5) = true := by decide

/-- 95_test_vectors.md, `DIVS #-1,D0`: overflow. -/
theorem test_step_divs_corner :
    after ((start 0x1000#32 0b00000#5 [0x81FC#16, 0xFFFF#16]).setD 0#3 0x80000000#32) (fun t =>
      t.dreg 0#3 == 0x80000000#32 &&
      t.pc == 0x1004#32 &&
      t.ccr.x == false &&
      t.ccr.v == true &&
      t.ccr.c == false) = true := by decide

/-- 95_test_vectors.md, `NEG.B D0`. -/
theorem test_step_negB :
    after ((start 0x1000#32 0b00000#5 [0x4400#16]).setD 0#3 0x11111101#32) (fun t =>
      t.dreg 0#3 == 0x111111FF#32 &&
      t.pc == 0x1002#32 &&
      t.ccr == flags 0b11001#5) = true := by decide

/-- 95_test_vectors.md, `NEG.W D0`. -/
theorem test_step_negW :
    after ((start 0x1000#32 0b00000#5 [0x4440#16]).setD 0#3 0x8000#32) (fun t =>
      t.dreg 0#3 == 0x8000#32 &&
      t.pc == 0x1002#32 &&
      t.ccr == flags 0b11011#5) = true := by decide

/-- 95_test_vectors.md, `NEG.L D0`. -/
theorem test_step_negL :
    after ((start 0x1000#32 0b00000#5 [0x4480#16]).setD 0#3 0x1#32) (fun t =>
      t.dreg 0#3 == 0xFFFFFFFF#32 &&
      t.pc == 0x1002#32 &&
      t.ccr == flags 0b11001#5) = true := by decide

/-- 95_test_vectors.md, `SWAP D0`: remainder 2 to the low word. -/
theorem test_step_swap :
    after ((start 0x1000#32 0b11111#5 [0x4840#16]).setD 0#3 0x20555#32) (fun t =>
      t.dreg 0#3 == 0x5550002#32 &&
      t.pc == 0x1002#32 &&
      t.ccr == flags 0b10000#5) = true := by decide

/-- 95_test_vectors.md, `EXG D0,D1`: S1's figure. -/
theorem test_step_exgDD :
    after (((start 0x1000#32 0b10101#5 [0xC141#16]).setD 0#3 0x89ABCDEF#32).setD 1#3
      0x11223344#32) (fun t =>
      t.dreg 0#3 == 0x11223344#32 &&
      t.dreg 1#3 == 0x89ABCDEF#32 &&
      t.pc == 0x1002#32 &&
      t.ccr == flags 0b10101#5) = true := by decide

/-- 95_test_vectors.md, `EXG A0,A1`: odd value in An is only a value. -/
theorem test_step_exgAA :
    after (((start 0x1000#32 0b01010#5 [0xC149#16]).setA 0#3 0x2000#32).setA 1#3 0x3001#32) (fun
      t =>
      t.areg 0#3 == 0x3001#32 &&
      t.areg 1#3 == 0x2000#32 &&
      t.pc == 0x1002#32 &&
      t.ccr == flags 0b01010#5) = true := by decide

/-- 95_test_vectors.md, `EXG D0,A1`. -/
theorem test_step_exgDA :
    after (((start 0x1000#32 0b00000#5 [0xC189#16]).setD 0#3 0x89ABCDEF#32).setA 1#3 0x2000#32)
      (fun t =>
      t.dreg 0#3 == 0x2000#32 &&
      t.areg 1#3 == 0x89ABCDEF#32 &&
      t.pc == 0x1002#32 &&
      t.ccr == flags 0b00000#5) = true := by decide

/-- 95_test_vectors.md, `AND.B #%11101111,D0`: S1: same value as BCLR #4,D0. -/
theorem test_step_andBEaDn :
    after ((start 0x1000#32 0b11111#5 [0xC03C#16, 0x00EF#16]).setD 0#3 0x123456FF#32) (fun t =>
      t.dreg 0#3 == 0x123456EF#32 &&
      t.pc == 0x1004#32 &&
      t.ccr == flags 0b11000#5) = true := by decide

/-- 95_test_vectors.md, `AND.W D1,D0`. -/
theorem test_step_andWEaDn :
    after (((start 0x1000#32 0b11011#5 [0xC041#16]).setD 0#3 0xFFFF00FF#32).setD 1#3 0xFF00#32)
      (fun t =>
      t.dreg 0#3 == 0xFFFF0000#32 &&
      t.dreg 1#3 == 0xFF00#32 &&
      t.pc == 0x1002#32 &&
      t.ccr == flags 0b10100#5) = true := by decide

/-- 95_test_vectors.md, `AND.L D0,(A0)`. -/
theorem test_step_andLDnEa :
    after (put (put (put (put (((start 0x1000#32 0b00000#5 [0xC190#16]).setD 0#3
      0xF0F0F0F#32).setA 0#3 0x2000#32) 0x2000 0xFF#8) 0x2001 0x0#8) 0x2002 0xAA#8) 0x2003
      0x55#8) (fun t =>
      t.dreg 0#3 == 0xF0F0F0F#32 &&
      t.areg 0#3 == 0x2000#32 &&
      t.pc == 0x1002#32 &&
      t.byteAt 0x2000 == 0xF#8 &&
      t.byteAt 0x2001 == 0x0#8 &&
      t.byteAt 0x2002 == 0xA#8 &&
      t.byteAt 0x2003 == 0x5#8 &&
      t.ccr == flags 0b00000#5) = true := by decide

/-- 95_test_vectors.md, `OR.B #%11000010,D0`: set bits 1, 6, 7. -/
theorem test_step_orBEaDn :
    after ((start 0x1000#32 0b10011#5 [0x803C#16, 0x00C2#16]).setD 0#3 0x0#32) (fun t =>
      t.dreg 0#3 == 0xC2#32 &&
      t.pc == 0x1004#32 &&
      t.ccr == flags 0b11000#5) = true := by decide

/-- 95_test_vectors.md, `OR.L D1,D0`. -/
theorem test_step_orLEaDn :
    after (((start 0x1000#32 0b11011#5 [0x8081#16]).setD 0#3 0x0#32).setD 1#3 0x0#32) (fun t =>
      t.dreg 0#3 == 0x0#32 &&
      t.dreg 1#3 == 0x0#32 &&
      t.pc == 0x1002#32 &&
      t.ccr == flags 0b10100#5) = true := by decide

/-- 95_test_vectors.md, `EOR.B D1,D0`. -/
theorem test_step_eorB :
    after (((start 0x1000#32 0b10011#5 [0xB300#16]).setD 0#3 0xFF#32).setD 1#3 0xFF#32) (fun t =>
      t.dreg 0#3 == 0x0#32 &&
      t.dreg 1#3 == 0xFF#32 &&
      t.pc == 0x1002#32 &&
      t.ccr == flags 0b10100#5) = true := by decide

/-- 95_test_vectors.md, `EOR.B #%00000011,D0`: invert bits 0 and 1 (EORI). -/
theorem test_step_eoriB :
    after ((start 0x1000#32 0b10011#5 [0x0A00#16, 0x0003#16]).setD 0#3 0xF0#32) (fun t =>
      t.dreg 0#3 == 0xF3#32 &&
      t.pc == 0x1004#32 &&
      t.ccr == flags 0b11000#5) = true := by decide

/-- 95_test_vectors.md, `EOR.L D1,D0`. -/
theorem test_step_eorL :
    after (((start 0x1000#32 0b00000#5 [0xB380#16]).setD 0#3 0x12345678#32).setD 1#3
      0xFFFFFFFF#32) (fun t =>
      t.dreg 0#3 == 0xEDCBA987#32 &&
      t.dreg 1#3 == 0xFFFFFFFF#32 &&
      t.pc == 0x1002#32 &&
      t.ccr == flags 0b01000#5) = true := by decide

/-- 95_test_vectors.md, `NOT.B D0`. -/
theorem test_step_notB :
    after ((start 0x1000#32 0b10011#5 [0x4600#16]).setD 0#3 0x123456F0#32) (fun t =>
      t.dreg 0#3 == 0x1234560F#32 &&
      t.pc == 0x1002#32 &&
      t.ccr == flags 0b10000#5) = true := by decide

/-- 95_test_vectors.md, `NOT.W D0`. -/
theorem test_step_notW :
    after ((start 0x1000#32 0b10011#5 [0x4640#16]).setD 0#3 0x1234FFFF#32) (fun t =>
      t.dreg 0#3 == 0x12340000#32 &&
      t.pc == 0x1002#32 &&
      t.ccr == flags 0b10100#5) = true := by decide

/-- 95_test_vectors.md, `NOT.L D0`. -/
theorem test_step_notL :
    after ((start 0x1000#32 0b00000#5 [0x4680#16]).setD 0#3 0x0#32) (fun t =>
      t.dreg 0#3 == 0xFFFFFFFF#32 &&
      t.pc == 0x1002#32 &&
      t.ccr == flags 0b01000#5) = true := by decide

/-- 95_test_vectors.md, `ASL.B #1,D0`: 64 * 2 overflows a byte. -/
theorem test_step_aslBImm :
    after ((start 0x1000#32 0b00000#5 [0xE300#16]).setD 0#3 0xFFFFFF40#32) (fun t =>
      t.dreg 0#3 == 0xFFFFFF80#32 &&
      t.pc == 0x1002#32 &&
      t.ccr == flags 0b01010#5) = true := by decide

/-- 95_test_vectors.md, `ASL.B #2,D0`: -32 * 4 = -128 fits: V = 0. -/
theorem test_step_aslBImm_corner :
    after ((start 0x1000#32 0b00000#5 [0xE500#16]).setD 0#3 0xE0#32) (fun t =>
      t.dreg 0#3 == 0x80#32 &&
      t.pc == 0x1002#32 &&
      t.ccr == flags 0b11001#5) = true := by decide

/-- 95_test_vectors.md, `ASL.W #2,D0`: 3 * 4. -/
theorem test_step_aslWImm :
    after ((start 0x1000#32 0b00000#5 [0xE540#16]).setD 0#3 0x10003#32) (fun t =>
      t.dreg 0#3 == 0x1000C#32 &&
      t.pc == 0x1002#32 &&
      t.ccr == flags 0b00000#5) = true := by decide

/-- 95_test_vectors.md, `ASL.L #8,D0`. -/
theorem test_step_aslLImm :
    after ((start 0x1000#32 0b00000#5 [0xE180#16]).setD 0#3 0xFFFFFF#32) (fun t =>
      t.dreg 0#3 == 0xFFFFFF00#32 &&
      t.pc == 0x1002#32 &&
      t.ccr == flags 0b01010#5) = true := by decide

/-- 95_test_vectors.md, `ASL.B D1,D0`: count 0: C, V cleared, X kept. -/
theorem test_step_aslBReg :
    after (((start 0x1000#32 0b11111#5 [0xE320#16]).setD 0#3 0x81#32).setD 1#3 0x0#32) (fun t =>
      t.dreg 0#3 == 0x81#32 &&
      t.dreg 1#3 == 0x0#32 &&
      t.pc == 0x1002#32 &&
      t.ccr == flags 0b11000#5) = true := by decide

/-- 95_test_vectors.md, `ASL.B D1,D0`: count above the width: C = 0. -/
theorem test_step_aslBReg_corner :
    after (((start 0x1000#32 0b00000#5 [0xE320#16]).setD 0#3 0x1#32).setD 1#3 0x9#32) (fun t =>
      t.dreg 0#3 == 0x0#32 &&
      t.dreg 1#3 == 0x9#32 &&
      t.pc == 0x1002#32 &&
      t.ccr == flags 0b00110#5) = true := by decide

/-- 95_test_vectors.md, `ASL.L D1,D0`: count = width: C = old bit 0. -/
theorem test_step_aslLReg :
    after (((start 0x1000#32 0b00000#5 [0xE3A0#16]).setD 0#3 0x1#32).setD 1#3 0x20#32) (fun t =>
      t.dreg 0#3 == 0x0#32 &&
      t.dreg 1#3 == 0x20#32 &&
      t.pc == 0x1002#32 &&
      t.ccr == flags 0b10111#5) = true := by decide

/-- 95_test_vectors.md, `ASR.B #1,D0`. -/
theorem test_step_asrBImm :
    after ((start 0x1000#32 0b00000#5 [0xE200#16]).setD 0#3 0x81#32) (fun t =>
      t.dreg 0#3 == 0xC0#32 &&
      t.pc == 0x1002#32 &&
      t.ccr == flags 0b11001#5) = true := by decide

/-- 95_test_vectors.md, `ASR.B #1,D0`: -5 / 2 rounds toward minus infinity: -3. -/
theorem test_step_asrBImm_corner :
    after ((start 0x1000#32 0b00000#5 [0xE200#16]).setD 0#3 0xFB#32) (fun t =>
      t.dreg 0#3 == 0xFD#32 &&
      t.pc == 0x1002#32 &&
      t.ccr == flags 0b11001#5) = true := by decide

/-- 95_test_vectors.md, `ASR.W #8,D0`. -/
theorem test_step_asrWImm :
    after ((start 0x1000#32 0b00000#5 [0xE040#16]).setD 0#3 0x8000#32) (fun t =>
      t.dreg 0#3 == 0xFF80#32 &&
      t.pc == 0x1002#32 &&
      t.ccr == flags 0b01000#5) = true := by decide

/-- 95_test_vectors.md, `ASR.B D1,D0`. -/
theorem test_step_asrBReg :
    after (((start 0x1000#32 0b00000#5 [0xE220#16]).setD 0#3 0x80#32).setD 1#3 0x8#32) (fun t =>
      t.dreg 0#3 == 0xFF#32 &&
      t.dreg 1#3 == 0x8#32 &&
      t.pc == 0x1002#32 &&
      t.ccr == flags 0b11001#5) = true := by decide

/-- 95_test_vectors.md, `ASR.L #1,D0`. -/
theorem test_step_asrLImm :
    after ((start 0x1000#32 0b00000#5 [0xE280#16]).setD 0#3 0x80000001#32) (fun t =>
      t.dreg 0#3 == 0xC0000000#32 &&
      t.pc == 0x1002#32 &&
      t.ccr == flags 0b11001#5) = true := by decide

/-- 95_test_vectors.md, `LSL.B #1,D0`: V stays 0 where ASL sets it. -/
theorem test_step_lslBImm :
    after ((start 0x1000#32 0b00000#5 [0xE308#16]).setD 0#3 0x80#32) (fun t =>
      t.dreg 0#3 == 0x0#32 &&
      t.pc == 0x1002#32 &&
      t.ccr == flags 0b10101#5) = true := by decide

/-- 95_test_vectors.md, `LSL.B D1,D0`. -/
theorem test_step_lslBReg :
    after (((start 0x1000#32 0b00000#5 [0xE328#16]).setD 0#3 0xFF#32).setD 1#3 0x9#32) (fun t =>
      t.dreg 0#3 == 0x0#32 &&
      t.dreg 1#3 == 0x9#32 &&
      t.pc == 0x1002#32 &&
      t.ccr == flags 0b00100#5) = true := by decide

/-- 95_test_vectors.md, `LSL.W D1,D0`: count 0: X kept, C cleared. -/
theorem test_step_lslWReg :
    after (((start 0x1000#32 0b10011#5 [0xE368#16]).setD 0#3 0x8000#32).setD 1#3 0x40#32) (fun t =>
      t.dreg 0#3 == 0x8000#32 &&
      t.dreg 1#3 == 0x40#32 &&
      t.pc == 0x1002#32 &&
      t.ccr == flags 0b11000#5) = true := by decide

/-- 95_test_vectors.md, `LSL.L #1,D1`. -/
theorem test_step_lslLImm :
    after ((start 0x1000#32 0b00000#5 [0xE389#16]).setD 1#3 0x80000001#32) (fun t =>
      t.dreg 1#3 == 0x2#32 &&
      t.pc == 0x1002#32 &&
      t.ccr == flags 0b10001#5) = true := by decide

/-- 95_test_vectors.md, `LSR.B #1,D0`. -/
theorem test_step_lsrBImm :
    after ((start 0x1000#32 0b00000#5 [0xE208#16]).setD 0#3 0x81#32) (fun t =>
      t.dreg 0#3 == 0x40#32 &&
      t.pc == 0x1002#32 &&
      t.ccr == flags 0b10001#5) = true := by decide

/-- 95_test_vectors.md, `LSR.B D1,D0`. -/
theorem test_step_lsrBReg :
    after (((start 0x1000#32 0b00000#5 [0xE228#16]).setD 0#3 0xFF#32).setD 1#3 0x9#32) (fun t =>
      t.dreg 0#3 == 0x0#32 &&
      t.dreg 1#3 == 0x9#32 &&
      t.pc == 0x1002#32 &&
      t.ccr == flags 0b00100#5) = true := by decide

/-- 95_test_vectors.md, `LSR.W #4,D0`. -/
theorem test_step_lsrWImm :
    after ((start 0x1000#32 0b00000#5 [0xE848#16]).setD 0#3 0xFFFF1234#32) (fun t =>
      t.dreg 0#3 == 0xFFFF0123#32 &&
      t.pc == 0x1002#32 &&
      t.ccr == flags 0b00000#5) = true := by decide

/-- 95_test_vectors.md, `LSR.L D1,D0`. -/
theorem test_step_lsrLReg :
    after (((start 0x1000#32 0b00000#5 [0xE2A8#16]).setD 0#3 0x80000000#32).setD 1#3 0x20#32)
      (fun t =>
      t.dreg 0#3 == 0x0#32 &&
      t.dreg 1#3 == 0x20#32 &&
      t.pc == 0x1002#32 &&
      t.ccr == flags 0b10101#5) = true := by decide

/-- 95_test_vectors.md, `ROL.B #1,D0`: X not affected. -/
theorem test_step_rolBImm :
    after ((start 0x1000#32 0b10000#5 [0xE318#16]).setD 0#3 0x81#32) (fun t =>
      t.dreg 0#3 == 0x3#32 &&
      t.pc == 0x1002#32 &&
      t.ccr == flags 0b10001#5) = true := by decide

/-- 95_test_vectors.md, `ROL.B D1,D0`: count 0: C cleared. -/
theorem test_step_rolBReg :
    after (((start 0x1000#32 0b10011#5 [0xE338#16]).setD 0#3 0x81#32).setD 1#3 0x0#32) (fun t =>
      t.dreg 0#3 == 0x81#32 &&
      t.dreg 1#3 == 0x0#32 &&
      t.pc == 0x1002#32 &&
      t.ccr == flags 0b11000#5) = true := by decide

/-- 95_test_vectors.md, `ROL.W D1,D0`: 17 mod 16 = 1 for the value; C = last bit out. -/
theorem test_step_rolWReg :
    after (((start 0x1000#32 0b00000#5 [0xE378#16]).setD 0#3 0x8001#32).setD 1#3 0x11#32) (fun t =>
      t.dreg 0#3 == 0x3#32 &&
      t.dreg 1#3 == 0x11#32 &&
      t.pc == 0x1002#32 &&
      t.ccr == flags 0b00001#5) = true := by decide

/-- 95_test_vectors.md, `ROL.L #1,D0`. -/
theorem test_step_rolLImm :
    after ((start 0x1000#32 0b00000#5 [0xE398#16]).setD 0#3 0x80000000#32) (fun t =>
      t.dreg 0#3 == 0x1#32 &&
      t.pc == 0x1002#32 &&
      t.ccr == flags 0b00001#5) = true := by decide

/-- 95_test_vectors.md, `ROR.B #1,D1`. -/
theorem test_step_rorBImm :
    after ((start 0x1000#32 0b00000#5 [0xE219#16]).setD 1#3 0x1#32) (fun t =>
      t.dreg 1#3 == 0x80#32 &&
      t.pc == 0x1002#32 &&
      t.ccr == flags 0b01001#5) = true := by decide

/-- 95_test_vectors.md, `ROR.W #4,D0`. -/
theorem test_step_rorWImm :
    after ((start 0x1000#32 0b00000#5 [0xE858#16]).setD 0#3 0x1234#32) (fun t =>
      t.dreg 0#3 == 0x4123#32 &&
      t.pc == 0x1002#32 &&
      t.ccr == flags 0b00000#5) = true := by decide

/-- 95_test_vectors.md, `ROR.L D1,D0`. -/
theorem test_step_rorLReg :
    after (((start 0x1000#32 0b00000#5 [0xE2B8#16]).setD 0#3 0x1#32).setD 1#3 0x20#32) (fun t =>
      t.dreg 0#3 == 0x1#32 &&
      t.dreg 1#3 == 0x20#32 &&
      t.pc == 0x1002#32 &&
      t.ccr == flags 0b00000#5) = true := by decide

/-- 95_test_vectors.md, `ROR.L D1,D0`: 128 mod 64 = 0. -/
theorem test_step_rorLReg_corner :
    after (((start 0x1000#32 0b11111#5 [0xE2B8#16]).setD 0#3 0x80000000#32).setD 1#3 0x80#32)
      (fun t =>
      t.dreg 0#3 == 0x80000000#32 &&
      t.dreg 1#3 == 0x80#32 &&
      t.pc == 0x1002#32 &&
      t.ccr == flags 0b11000#5) = true := by decide

/-- 95_test_vectors.md, `ROXL.B #1,D0`. -/
theorem test_step_roxlBImm :
    after ((start 0x1000#32 0b00000#5 [0xE310#16]).setD 0#3 0x80#32) (fun t =>
      t.dreg 0#3 == 0x0#32 &&
      t.pc == 0x1002#32 &&
      t.ccr == flags 0b10101#5) = true := by decide

/-- 95_test_vectors.md, `ROXL.B #1,D0`: X enters bit 0. -/
theorem test_step_roxlBImm_corner :
    after ((start 0x1000#32 0b10000#5 [0xE310#16]).setD 0#3 0x0#32) (fun t =>
      t.dreg 0#3 == 0x1#32 &&
      t.pc == 0x1002#32 &&
      t.ccr == flags 0b00000#5) = true := by decide

/-- 95_test_vectors.md, `ROXL.B D1,D0`: 9 = n + 1: full turn through X. -/
theorem test_step_roxlBReg :
    after (((start 0x1000#32 0b10000#5 [0xE330#16]).setD 0#3 0xA5#32).setD 1#3 0x9#32) (fun t =>
      t.dreg 0#3 == 0xA5#32 &&
      t.dreg 1#3 == 0x9#32 &&
      t.pc == 0x1002#32 &&
      t.ccr == flags 0b11001#5) = true := by decide

/-- 95_test_vectors.md, `ROXL.B D1,D0`: count 0: C = X. -/
theorem test_step_roxlBReg_corner :
    after (((start 0x1000#32 0b10000#5 [0xE330#16]).setD 0#3 0xA5#32).setD 1#3 0x0#32) (fun t =>
      t.dreg 0#3 == 0xA5#32 &&
      t.dreg 1#3 == 0x0#32 &&
      t.pc == 0x1002#32 &&
      t.ccr == flags 0b11001#5) = true := by decide

/-- 95_test_vectors.md, `ROXL.L #1,D0`: low half of a 64-bit shift. -/
theorem test_step_roxlLImm :
    after ((start 0x1000#32 0b10001#5 [0xE390#16]).setD 0#3 0x1#32) (fun t =>
      t.dreg 0#3 == 0x3#32 &&
      t.pc == 0x1002#32 &&
      t.ccr == flags 0b00000#5) = true := by decide

/-- 95_test_vectors.md, `ROXR.B #1,D0`. -/
theorem test_step_roxrBImm :
    after ((start 0x1000#32 0b00000#5 [0xE210#16]).setD 0#3 0x1#32) (fun t =>
      t.dreg 0#3 == 0x0#32 &&
      t.pc == 0x1002#32 &&
      t.ccr == flags 0b10101#5) = true := by decide

/-- 95_test_vectors.md, `ROXR.W #4,D0`. -/
theorem test_step_roxrWImm :
    after ((start 0x1000#32 0b10000#5 [0xE850#16]).setD 0#3 0x1234#32) (fun t =>
      t.dreg 0#3 == 0x9123#32 &&
      t.pc == 0x1002#32 &&
      t.ccr == flags 0b01000#5) = true := by decide

/-- 95_test_vectors.md, `ROXR.L D1,D0`: 33 = n + 1. -/
theorem test_step_roxrLReg :
    after (((start 0x1000#32 0b10000#5 [0xE2B0#16]).setD 0#3 0x12345678#32).setD 1#3 0x21#32)
      (fun t =>
      t.dreg 0#3 == 0x12345678#32 &&
      t.dreg 1#3 == 0x21#32 &&
      t.pc == 0x1002#32 &&
      t.ccr == flags 0b10001#5) = true := by decide

/-- 95_test_vectors.md, `BTST #4,D0`: only Z changes. -/
theorem test_step_btstStatic :
    after ((start 0x1000#32 0b11011#5 [0x0800#16, 0x0004#16]).setD 0#3 0xFFFFFFEF#32) (fun t =>
      t.dreg 0#3 == 0xFFFFFFEF#32 &&
      t.pc == 0x1004#32 &&
      t.ccr == flags 0b11111#5) = true := by decide

/-- 95_test_vectors.md, `BTST #12,(A0)`: memory: 12 mod 8 = 4. -/
theorem test_step_btstStatic_corner :
    after (put ((start 0x1000#32 0b00000#5 [0x0810#16, 0x000C#16]).setA 0#3 0x2000#32) 0x2000
      0x10#8) (fun t =>
      t.areg 0#3 == 0x2000#32 &&
      t.pc == 0x1004#32 &&
      t.byteAt 0x2000 == 0x10#8 &&
      t.ccr == flags 0b00000#5) = true := by decide

/-- 95_test_vectors.md, `BTST D1,D0`: 63 mod 32 = 31. -/
theorem test_step_btstDyn :
    after (((start 0x1000#32 0b00000#5 [0x0300#16]).setD 0#3 0x7FFFFFFF#32).setD 1#3 0x3F#32)
      (fun t =>
      t.dreg 0#3 == 0x7FFFFFFF#32 &&
      t.dreg 1#3 == 0x3F#32 &&
      t.pc == 0x1002#32 &&
      t.ccr == flags 0b00100#5) = true := by decide

/-- 95_test_vectors.md, `BSET #4,D0`: Z = 1: the bit was 0. -/
theorem test_step_bsetStatic :
    after ((start 0x1000#32 0b11011#5 [0x08C0#16, 0x0004#16]).setD 0#3 0x12345600#32) (fun t =>
      t.dreg 0#3 == 0x12345610#32 &&
      t.pc == 0x1004#32 &&
      t.ccr == flags 0b11111#5) = true := by decide

/-- 95_test_vectors.md, `BSET D1,D0`. -/
theorem test_step_bsetDyn :
    after (((start 0x1000#32 0b00000#5 [0x03C0#16]).setD 0#3 0x0#32).setD 1#3 0x1F#32) (fun t =>
      t.dreg 0#3 == 0x80000000#32 &&
      t.dreg 1#3 == 0x1F#32 &&
      t.pc == 0x1002#32 &&
      t.ccr == flags 0b00100#5) = true := by decide

/-- 95_test_vectors.md, `BCLR #4,D0`: N V C X untouched, unlike AND.B. -/
theorem test_step_bclrStatic :
    after ((start 0x1000#32 0b11111#5 [0x0880#16, 0x0004#16]).setD 0#3 0x123456FF#32) (fun t =>
      t.dreg 0#3 == 0x123456EF#32 &&
      t.pc == 0x1004#32 &&
      t.ccr == flags 0b11011#5) = true := by decide

/-- 95_test_vectors.md, `BCLR D1,(A0)`: 9 mod 8 = 1. -/
theorem test_step_bclrDyn :
    after (put (((start 0x1000#32 0b00000#5 [0x0390#16]).setD 1#3 0x9#32).setA 0#3 0x2000#32)
      0x2000 0xFF#8) (fun t =>
      t.dreg 1#3 == 0x9#32 &&
      t.areg 0#3 == 0x2000#32 &&
      t.pc == 0x1002#32 &&
      t.byteAt 0x2000 == 0xFD#8 &&
      t.ccr == flags 0b00000#5) = true := by decide

/-- 95_test_vectors.md, `BCHG #4,D0`. -/
theorem test_step_bchgStatic :
    after ((start 0x1000#32 0b00000#5 [0x0840#16, 0x0004#16]).setD 0#3 0x0#32) (fun t =>
      t.dreg 0#3 == 0x10#32 &&
      t.pc == 0x1004#32 &&
      t.ccr == flags 0b00100#5) = true := by decide

/-- 95_test_vectors.md, `MOVE.W #7,D2`: upper word kept; X kept. -/
theorem test_step_moveW :
    after ((start 0x1000#32 0b11111#5 [0x343C#16, 0x0007#16]).setD 2#3 0xAAAAAAAA#32) (fun t =>
      t.dreg 2#3 == 0xAAAA0007#32 &&
      t.pc == 0x1004#32 &&
      t.ccr == flags 0b10000#5) = true := by decide

/-- 95_test_vectors.md, `MOVE.W D0,2(A0)`: S1's store of the quotient. -/
theorem test_step_moveW_corner :
    after (put (put (((start 0x1000#32 0b00000#5 [0x3140#16, 0x0002#16]).setD 0#3
      0xFFDEFFE9#32).setA 0#3 0x2000#32) 0x2002 0x0#8) 0x2003 0x0#8) (fun t =>
      t.dreg 0#3 == 0xFFDEFFE9#32 &&
      t.areg 0#3 == 0x2000#32 &&
      t.pc == 0x1004#32 &&
      t.byteAt 0x2002 == 0xFF#8 &&
      t.byteAt 0x2003 == 0xE9#8 &&
      t.ccr == flags 0b01000#5) = true := by decide

/-- 95_test_vectors.md, `MOVE.B #$80,D0`. -/
theorem test_step_moveB :
    after ((start 0x1000#32 0b10011#5 [0x103C#16, 0x0080#16]).setD 0#3 0x0#32) (fun t =>
      t.dreg 0#3 == 0x80#32 &&
      t.pc == 0x1004#32 &&
      t.ccr == flags 0b11000#5) = true := by decide

/-- 95_test_vectors.md, `MOVE.B D0,-(A7)`: A7 steps by 2 for a byte. -/
theorem test_step_moveB_corner :
    after (((start 0x1000#32 0b00000#5 [0x1F00#16]).setD 0#3 0x55#32).setA 7#3 0x3000#32) (fun t =>
      t.dreg 0#3 == 0x55#32 &&
      t.areg 7#3 == 0x2FFE#32 &&
      t.pc == 0x1002#32 &&
      t.byteAt 0x2FFE == 0x55#8 &&
      t.ccr == flags 0b00000#5) = true := by decide

/-- 95_test_vectors.md, `MOVE.L #0,D0`: pc advances by 6. -/
theorem test_step_moveL :
    after ((start 0x1000#32 0b11011#5 [0x203C#16, 0x0000#16, 0x0000#16]).setD 0#3 0xFFFFFFFF#32)
      (fun t =>
      t.dreg 0#3 == 0x0#32 &&
      t.pc == 0x1006#32 &&
      t.ccr == flags 0b10100#5) = true := by decide

/-- 95_test_vectors.md, `CLR.L D0`. -/
theorem test_step_clrL :
    after ((start 0x1000#32 0b11011#5 [0x4280#16]).setD 0#3 0x12345678#32) (fun t =>
      t.dreg 0#3 == 0x0#32 &&
      t.pc == 0x1002#32 &&
      t.ccr == flags 0b10100#5) = true := by decide

/-- 95_test_vectors.md, `CLR.B D0`. -/
theorem test_step_clrB :
    after ((start 0x1000#32 0b00000#5 [0x4200#16]).setD 0#3 0x12345678#32) (fun t =>
      t.dreg 0#3 == 0x12345600#32 &&
      t.pc == 0x1002#32 &&
      t.ccr == flags 0b00100#5) = true := by decide

/-- 95_test_vectors.md, `CMP.W #0,D0`: remainder 0: Z = 1. -/
theorem test_step_cmpW :
    after ((start 0x1000#32 0b10000#5 [0xB07C#16, 0x0000#16]).setD 0#3 0x5550000#32) (fun t =>
      t.dreg 0#3 == 0x5550000#32 &&
      t.pc == 0x1004#32 &&
      t.ccr == flags 0b10100#5) = true := by decide

/-- 95_test_vectors.md, `CMP.W #0,D0`. -/
theorem test_step_cmpW_corner :
    after ((start 0x1000#32 0b10000#5 [0xB07C#16, 0x0000#16]).setD 0#3 0x5550002#32) (fun t =>
      t.dreg 0#3 == 0x5550002#32 &&
      t.pc == 0x1004#32 &&
      t.ccr == flags 0b10000#5) = true := by decide

/-- 95_test_vectors.md, `CMP.B D1,D0`: X not affected by CMP. -/
theorem test_step_cmpB :
    after (((start 0x1000#32 0b00000#5 [0xB001#16]).setD 0#3 0x0#32).setD 1#3 0x1#32) (fun t =>
      t.dreg 0#3 == 0x0#32 &&
      t.dreg 1#3 == 0x1#32 &&
      t.pc == 0x1002#32 &&
      t.ccr == flags 0b01001#5) = true := by decide

/-- 95_test_vectors.md, `CMPI.B #$80,D0`: 127 - (-128) overflows. -/
theorem test_step_cmpiB :
    after ((start 0x1000#32 0b10000#5 [0x0C00#16, 0x0080#16]).setD 0#3 0x7F#32) (fun t =>
      t.dreg 0#3 == 0x7F#32 &&
      t.pc == 0x1004#32 &&
      t.ccr == flags 0b11011#5) = true := by decide

/-- 95_test_vectors.md, `ADDI.W #1,D0`. -/
theorem test_step_addiW :
    after ((start 0x1000#32 0b00000#5 [0x0640#16, 0x0001#16]).setD 0#3 0x1234FFFF#32) (fun t =>
      t.dreg 0#3 == 0x12340000#32 &&
      t.pc == 0x1004#32 &&
      t.ccr == flags 0b10101#5) = true := by decide

/-- 95_test_vectors.md, `SUBI.B #1,D2`. -/
theorem test_step_subiB :
    after ((start 0x1000#32 0b00000#5 [0x0402#16, 0x0001#16]).setD 2#3 0x1#32) (fun t =>
      t.dreg 2#3 == 0x0#32 &&
      t.pc == 0x1004#32 &&
      t.ccr == flags 0b00100#5) = true := by decide

/-- 95_test_vectors.md, `ANDI.B #%01111111,D0`: S1's parity program, line 2. -/
theorem test_step_andiB :
    after ((start 0x1000#32 0b10011#5 [0x0200#16, 0x007F#16]).setD 0#3 0xB5#32) (fun t =>
      t.dreg 0#3 == 0x35#32 &&
      t.pc == 0x1004#32 &&
      t.ccr == flags 0b10000#5) = true := by decide

/-- 95_test_vectors.md, `ORI.L #$80000000,D0`. -/
theorem test_step_oriL :
    after ((start 0x1000#32 0b00000#5 [0x0080#16, 0x8000#16, 0x0000#16]).setD 0#3 0x1#32) (fun t =>
      t.dreg 0#3 == 0x80000001#32 &&
      t.pc == 0x1006#32 &&
      t.ccr == flags 0b01000#5) = true := by decide

/-- 95_test_vectors.md, `BCC *+6`: pc: taken, 1002 + 4. -/
theorem test_step_bcc :
    after (start 0x1000#32 0b00000#5 [0x6404#16]) (fun t =>
      t.pc == 0x1006#32 &&
      t.ccr == flags 0b00000#5) = true := by decide

/-- 95_test_vectors.md, `BCC *+6`: pc: not taken. -/
theorem test_step_bcc_corner :
    after (start 0x1000#32 0b00001#5 [0x6404#16]) (fun t =>
      t.pc == 0x1002#32 &&
      t.ccr == flags 0b00001#5) = true := by decide

/-- 95_test_vectors.md, `BNE *-12`: pc: S1's BNE Next, 418 - 14. -/
theorem test_step_bne :
    after (start 0x416#32 0b00000#5 [0x66F2#16]) (fun t =>
      t.pc == 0x40A#32 &&
      t.ccr == flags 0b00000#5) = true := by decide

/-- 95_test_vectors.md, `BEQ.W *+$102`: pc: taken, 1002 + $100. -/
theorem test_step_beq :
    after (start 0x1000#32 0b00100#5 [0x6700#16, 0x0100#16]) (fun t =>
      t.pc == 0x1102#32 &&
      t.ccr == flags 0b00100#5) = true := by decide

/-- 95_test_vectors.md, `BEQ.W *+$102`: pc: not taken, past the extension word. -/
theorem test_step_beq_corner :
    after (start 0x1000#32 0b00000#5 [0x6700#16, 0x0100#16]) (fun t =>
      t.pc == 0x1004#32 &&
      t.ccr == flags 0b00000#5) = true := by decide

/-- 95_test_vectors.md, `BRA *`: pc: branch to itself. -/
theorem test_step_bra :
    after (start 0x1000#32 0b00000#5 [0x60FE#16]) (fun t =>
      t.pc == 0x1000#32 &&
      t.ccr == flags 0b00000#5) = true := by decide

/-- 95_test_vectors.md, `BRA *+3`: odd target. -/
theorem test_step_bra_corner :
    after (start 0x1000#32 0b00000#5 [0x6001#16]) (fun t =>
      t.status == .faulted ⟨.addressError 0x1003#32 .fetch, 0x1000#32⟩ &&
      t.ccr == flags 0b00000#5) = true := by decide

/-- 95_test_vectors.md, `BGT *+4`: pc: N = V, Z = 0: taken. -/
theorem test_step_bgt :
    after (start 0x1000#32 0b01010#5 [0x6E02#16]) (fun t =>
      t.pc == 0x1004#32 &&
      t.ccr == flags 0b01010#5) = true := by decide

/-- 95_test_vectors.md, `BLE *+4`: pc: N != V: taken. -/
theorem test_step_ble :
    after (start 0x1000#32 0b01000#5 [0x6F02#16]) (fun t =>
      t.pc == 0x1004#32 &&
      t.ccr == flags 0b01000#5) = true := by decide

/-- 95_test_vectors.md, `BHI *+4`: pc: C = 0 and Z = 0: taken. -/
theorem test_step_bhi :
    after (start 0x1000#32 0b00000#5 [0x6202#16]) (fun t =>
      t.pc == 0x1004#32 &&
      t.ccr == flags 0b00000#5) = true := by decide

/-- 95_test_vectors.md, `BLS *+4`: pc: Z = 1: taken. -/
theorem test_step_bls :
    after (start 0x1000#32 0b00100#5 [0x6302#16]) (fun t =>
      t.pc == 0x1004#32 &&
      t.ccr == flags 0b00100#5) = true := by decide

/-- 95_test_vectors.md, `STOP #$2700`: pc: status stopped; CCR from the operand. -/
theorem test_step_stop :
    after (start 0x1000#32 0b11111#5 [0x4E72#16, 0x2700#16]) (fun t =>
      t.pc == 0x1004#32 &&
      t.status == .stopped &&
      t.srHigh == 0x27#8 &&
      t.ccr == flags 0b00000#5) = true := by decide

/-! ## Witnesses: a state and operands that meet the hypotheses of each statement -/

/-- A part of an instruction answers from a state. -/
def answers {α : Type} (m : M α) (s : State) : Bool :=
  match m s with
  | .ok _ _ => true
  | .error _ _ => false

theorem of_answers {α : Type} {m : M α} {s : State} (h : answers m s = true) :
    ∃ a t, m s = .ok a t := by
  unfold answers at h
  cases hm : m s with
  | ok a t => exact ⟨a, t, rfl⟩
  | error e t => simp [hm] at h

/-- After `src` answers, the address of `m` can be computed and the operand there be written. -/
def writable {α : Type} (sz : Size) (src : M α) (m : MemEa) (s : State) : Bool :=
  match src s with
  | .error _ _ => false
  | .ok _ s1 =>
    match resolveMem sz m s1 with
    | .error _ _ => false
    | .ok addr s2 => decide (writeFault s2 addr sz = none)

theorem of_writable {α : Type} {sz : Size} {src : M α} {m : MemEa} {s : State}
    (h : writable sz src m s = true) :
    ∃ a s1 addr s2, src s = .ok a s1 ∧ resolveMem sz m s1 = .ok addr s2 ∧
      writeFault s2 addr sz = none := by
  unfold writable at h
  cases hm : src s with
  | error e t => simp [hm] at h
  | ok a s1 =>
    cases hr : resolveMem sz m s1 with
    | error e t => simp [hm, hr] at h
    | ok addr s2 => exact ⟨a, s1, addr, s2, rfl, hr, by simpa [hm, hr] using h⟩

/-- One step answers a next state with a property, as a proposition. -/
theorem of_after {s : State} {p : State → Bool} (h : after s p = true) :
    ∃ t, step s = .next t ∧ p t = true := by
  unfold after at h
  cases hs : step s with
  | next t => exact ⟨t, rfl, by simpa [hs] using h⟩
  | fault r => simp [hs] at h
  | refused r => simp [hs] at h

/-- The launch state with A0 = $2000, A7 = $FFFFFE, D0 = $12348001, D1 = 1. -/
def base : State :=
  (((State.reset.setA 0#3 0x2000#32).setA 7#3 0xFFFFFE#32).setD 0#3 0x12348001#32).setD 1#3 1#32

/-- A map that ends with the byte at $1002, so that a word at $1002 has no second byte. -/
def cut (pc : Long) : State := { State.reset with pc := pc, memMap := [⟨0, 0x1003⟩] }

theorem witness_DecodeOfEncode :
    Instr.wf (.moveL (.data (.imm 0xFFFFFFFF#32)) (.mem (.absL 0xFFFFFFFF#32))) = true ∧
      Instr.wf (.beq (.short 0xFF#8)) = true ∧
      Instr.wf (.btstDyn 7#3 (.imm 0xFF#32)) = true := by decide

theorem witness_EncodeOfDecode :
    decode [0x2039#16, 0xFFFF#16, 0xFFFF#16, 0x1234#16] =
      .ok (.moveL (.data (.alt (.mem (.absL 0xFFFFFFFF#32)))) (.dn 0#3), [0x1234#16]) ∧
    decode [0x01FC#16] = .error .noRow ∧
    decode [0x6600#16, 0x0000#16] = .ok (.bne (.long 0#16), []) := by decide

theorem witness_RefusedOpwords :
    0x6100#16 ∈ [0x6100#16, 0xD0C0#16, 0xE3D0#16, 0x003C#16, 0x4E73#16, 0x4E71#16, 0x7000#16,
      0x5200#16, 0x4A00#16, 0xD101#16, 0x2040#16, 0xA000#16, 0xF000#16, 0xD009#16, 0x08FC#16,
      0x2108#16] := by decide

/-- Also a witness of `EncodedInstructionRuns`: the longest instruction stands at pc. -/
theorem witness_StepRunsDecodedInstruction :
    let s := start 0x1000#32 0#5 [0x23FC#16, 0x1234#16, 0x5678#16, 0x0000#16, 0x2000#16]
    s.status = .running ∧ accessFault s .fetch s.pc .word = none ∧
      decode (s.valueAt s.pc .word :: peekWords s.afterOpword 4 (s.pc + 2#32)) =
        .ok (.moveL (.data (.imm 0x12345678#32)) (.mem (.absL 0x2000#32)), []) := by decide

theorem witness_EncodedInstructionRuns :
    let s := start 0x1000#32 0#5 [0x3140#16, 0xFFFE#16]
    let i : Instr := .moveW (.data (.alt (.dn 0#3))) (.mem (.disp 0#3 0xFFFE#16))
    s.status = .running ∧ i.wf = true ∧ (encode i).length = 2 ∧
      (∀ k : Fin 2, accessFault s .fetch (s.pc + BitVec.ofNat 32 (2 * k)) .word = none ∧
        (encode i)[k.val]? = some (s.valueAt (s.pc + BitVec.ofNat 32 (2 * k)) .word)) := by decide

/-- Odd pc; pc at the first unmapped byte; pc at the last mapped byte; a refused opword. -/
theorem witness_FetchAndDecodeExceptions :
    busAddr (cut 0xFFFFFF#32).pc % 2 = 1 ∧
    (busAddr (cut 0x1004#32).pc % 2 = 0 ∧
      inRegions (cut 0x1004#32).memMap (busAddr (cut 0x1004#32).pc) = false) ∧
    (busAddr (cut 0x1002#32).pc % 2 = 0 ∧
      inRegions (cut 0x1002#32).memMap (busAddr (cut 0x1002#32).pc) = true ∧
      inRegions (cut 0x1002#32).memMap (byteAddr (busAddr (cut 0x1002#32).pc) 1) = false) ∧
    (let s := start 0x1000#32 0#5 [0x4E71#16]
     s.status = .running ∧ accessFault s .fetch s.pc .word = none ∧
      decode (s.valueAt s.pc .word :: peekWords s.afterOpword 4 (s.pc + 2#32)) =
        .error .noRow) := by decide

theorem witness_StepEnabledOnlyWhileRunning :
    State.reset.status = .running ∧ (State.reset.setStatus .stopped).status = .stopped ∧
      (takeException .divideByZero 0#32 State.reset).status = .faulted ⟨.divideByZero, 0#32⟩ := by
  decide

/-- STOP ends a run, and so does an exception. -/
theorem witness_OnlyStopAndExceptionsEndARun :
    (∃ t, step (start 0x1000#32 0#5 [0x4E72#16, 0x2700#16]) = .next t ∧
      decide (t.status ≠ .running) = true) ∧
    (∃ t, step (start 0x1000#32 0#5 [0x4E71#16]) = .next t ∧
      decide (t.status ≠ .running) = true) :=
  ⟨of_after (by decide), of_after (by decide)⟩

/-- The source's `(A0)+` was updated, the destination's write is at an odd address. -/
theorem witness_ExceptionWritesNothing :
    ∃ t, step ((start 0x1000#32 0b11111#5 [0x33D8#16, 0x0000#16, 0x2001#16]).setA 0#3 0x2000#32) =
      .next t ∧
      decide (t.status = .faulted ⟨.addressError 0x2001#32 .write, 0x1000#32⟩ ∧
        t.areg 0#3 = 0x2002#32) = true := of_after (by decide)

theorem base_inv : base.Inv := ⟨by decide, by decide, by decide⟩

/-- STOP with S clear in `sr_high`, and in the state of another launch. -/
theorem witness_PrivilegeViolationNeverRaised :
    ∃ t, step ((start 0x1000#32 0#5 [0x4E72#16, 0x0700#16]).setSrHigh 0x07#8) = .next t ∧
      decide (t.status = .stopped) = true := of_after (by decide)

theorem witness_StepKeepsInvariant :
    base.Inv ∧ ∃ t, step base = .next t ∧ decide (t.pc = 0x1004#32) = true :=
  ⟨base_inv, of_after (by decide)⟩

/-- A step that stores beside the program text, a byte of which is in it and one past the map. -/
theorem witness_ProgramTextIsNeverWritten :
    (∃ t, step ((start 0x1000#32 0#5 [0x4210#16]).setA 0#3 0x1002#32) = .next t ∧
      decide (t.status = .running) = true) ∧
    inRegions (start 0x1000#32 0#5 [0x4210#16]).progText 0x1001 = true ∧
    inRegions (start 0x1000#32 0#5 [0x4210#16]).memMap 0x1000000 = false :=
  ⟨of_after (by decide), by decide, by decide⟩

/-- Every instruction answers a next state in every state. -/
theorem exec_answers (i : Instr) (s : State) : ∃ t, exec i s = .next t := by
  rw [exec_eq_execute]
  unfold execute complete
  cases body i s.afterOpword <;> exact ⟨_, rfl⟩

theorem witness_RegisterFrame :
    (∃ t, exec (.addWEaDn (.data (.alt (.mem (.postInc 0#3)))) 1#3) base = .next t) ∧
      2#3 ∉ (footprint (.addWEaDn (.data (.alt (.mem (.postInc 0#3)))) 1#3)).dregs ∧
      1#3 ∉ (footprint (.addWEaDn (.data (.alt (.mem (.postInc 0#3)))) 1#3)).aregs :=
  ⟨exec_answers _ _, by decide, by decide⟩

theorem witness_FlagFrame :
    (∃ t, exec (.bchgDyn 1#3 (.dn 0#3)) base = .next t) ∧
      (footprint (.bchgDyn 1#3 (.dn 0#3))).flags.x = false ∧
      (footprint (.rolBReg 1#3 0#3)).flags.x = false ∧
      (footprint (.bne (.short 2#8))).flags.z = false := ⟨exec_answers _ _, rfl, rfl, rfl⟩

/-- A form that stores nothing; a store whose address can be computed; one whose address cannot. -/
theorem witness_MemoryFrame :
    ((footprint (.cmpiB 1#8 (.mem (.ind 0#3)))).store.isNone = true ∧
      ∃ t, exec (.cmpiB 1#8 (.mem (.ind 0#3))) base = .next t) ∧
    ((∃ a s1 addr s2, fetchImm .word base.afterOpword = .ok a s1 ∧
        resolveMem .word (.preDec 7#3) s1 = .ok addr s2 ∧ writeFault s2 addr .word = none) ∧
      ∃ t, exec (.addiW 1#16 (.mem (.preDec 7#3))) base = .next t) ∧
    (answers (resolveMem .word (.absW 0#16)) (cut 0x1002#32).afterOpword = false ∧
      ∃ t, exec (.clrW (.mem (.absW 0#16))) (cut 0x1002#32) = .next t) :=
  ⟨⟨by decide, exec_answers _ _⟩, ⟨of_writable (by decide), exec_answers _ _⟩,
    ⟨by decide, exec_answers _ _⟩⟩

/-- Odd word address; the last mapped byte and the first unmapped one; a byte at an odd address. -/
theorem witness_MemReadRule :
    busAddr 0xFFFFFFFF#32 % 2 = 1 ∧
    (busAddr 0x1002#32 % 2 = 0 ∧
      inRegions (cut 0#32).memMap (byteAddr (busAddr 0x1002#32) 0) = true ∧
      inRegions (cut 0#32).memMap (byteAddr (busAddr 0x1002#32) 1) = false) ∧
    (∀ j : Fin 4, inRegions State.reset.memMap (byteAddr (busAddr 0xFFFFFE#32) j) = true) := by
  decide

/-- As for reads; then a word whose second byte is program text, and one just before it. -/
theorem witness_MemWriteRule :
    busAddr 0x1001#32 % 2 = 1 ∧
    (busAddr 0x1002#32 % 2 = 0 ∧
      inRegions (cut 0#32).memMap (byteAddr (busAddr 0x1002#32) 0) = true ∧
      inRegions (cut 0#32).memMap (byteAddr (busAddr 0x1002#32) 1) = false) ∧
    (let s := { State.reset with progText := [⟨0x1001, 3⟩] }
     (∀ j : Fin 2, inRegions s.memMap (byteAddr (busAddr 0x1000#32) j) = true) ∧
      inRegions s.progText (byteAddr (busAddr 0x1000#32) 0) = false ∧
      inRegions s.progText (byteAddr (busAddr 0x1000#32) 1) = true ∧
      (∀ j : Fin 2, inRegions s.progText (byteAddr (busAddr 0xFFE#32) j) = false)) := by decide

theorem witness_ReadAfterWrite :
    (∃ u t, memWrite 0xFFFFFE#32 .word (0x1234#16) base = .ok u t) ∧
      ∃ u t, memWrite 0x2001#32 .byte (0xFF#8) base = .ok u t :=
  ⟨of_answers (by decide), of_answers (by decide)⟩

/-- Two words can be fetched at the end of the address space, none at an odd pc. -/
theorem witness_EffectiveAddressOfEachMode :
    (∀ k : Fin 2, accessFault { base with pc := 0xFFFFFE#32 } .fetch
      (0xFFFFFE#32 + BitVec.ofNat 32 (2 * k)) .word = none) ∧
    wordsOf (.absL 0#32) = 2 ∧ wordsOf (.ind 0#3) = 0 := by decide

theorem witness_LocationsReadAndWrite :
    Size.word ≠ .byte ∧
    (∀ k : Fin 2, accessFault base .fetch (base.pc + BitVec.ofNat 32 (2 * k)) .word = none) := by
  decide

theorem witness_SourceOperandValues :
    (∀ k : Fin 2, accessFault base .fetch (base.pc + BitVec.ofNat 32 (2 * k)) .word = none) ∧
    (∃ addr t, resolveMem .long (.postInc 0#3) base = .ok addr t) ∧
    accessFault base .read 0x2000#32 .long = none ∧
    accessFault base .read (base.pc + (0x7FFE#16).signExtend 32) .word = none ∧
    accessFault base .read (base.pc + indexOf base ⟨true, 0#3, true, 0#8⟩ +
      (0x80#8).signExtend 32) .long = none :=
  ⟨by decide, of_answers (by decide), by decide, by decide, by decide⟩

/-- Every kind of source of ADD can be read, and a memory destination be written. -/
theorem witness_AddCompletes :
    (∃ a t, readData .byte (.alt (.mem (.postInc 0#3))) base.afterOpword = .ok a t) ∧
    (∃ a t, readAny .word (.an 0#3) base.afterOpword = .ok a t) ∧
    (∃ a t, readAny .long (.data (.pcDisp 0x10#16)) base.afterOpword = .ok a t) ∧
    (∃ a s1 addr s2, readD .byte 0#3 base.afterOpword = .ok a s1 ∧
      resolveMem .byte (.preDec 7#3) s1 = .ok addr s2 ∧ writeFault s2 addr .byte = none) ∧
    (∃ a s1 addr s2, readImm .long 1#32 base.afterOpword = .ok a s1 ∧
      resolveMem .long (.absL 0x2000#32) s1 = .ok addr s2 ∧ writeFault s2 addr .long = none) :=
  ⟨of_answers (by decide), of_answers (by decide), of_answers (by decide),
    of_writable (by decide), of_writable (by decide)⟩

theorem witness_SubCompletes :
    (∃ a t, readAny .long (.data (.imm 0xFFFFFFFF#32)) base.afterOpword = .ok a t) ∧
    (∃ a s1 addr s2, readD .word 1#3 base.afterOpword = .ok a s1 ∧
      resolveMem .word (.index 0#3 ⟨false, 1#3, true, 0xFF#8⟩) s1 = .ok addr s2 ∧
      writeFault s2 addr .word = none) ∧
    (∃ a s1 addr s2, readImm .byte 1#8 base.afterOpword = .ok a s1 ∧
      resolveMem .byte (.disp 0#3 0xFFFF#16) s1 = .ok addr s2 ∧ writeFault s2 addr .byte = none) :=
  ⟨of_answers (by decide), of_writable (by decide), of_writable (by decide)⟩

/-- Also of `NotCompletes` and `ClrCompletes`: a memory operand of each size. -/
theorem witness_NegCompletes :
    (∃ a s1 addr s2, (pure () : M Unit) base.afterOpword = .ok a s1 ∧
      resolveMem .byte (.postInc 7#3) s1 = .ok addr s2 ∧ writeFault s2 addr .byte = none) ∧
    (∃ a s1 addr s2, (pure () : M Unit) base.afterOpword = .ok a s1 ∧
      resolveMem .word (.absW 0x8000#16) s1 = .ok addr s2 ∧ writeFault s2 addr .word = none) ∧
    (∃ a s1 addr s2, (pure () : M Unit) base.afterOpword = .ok a s1 ∧
      resolveMem .long (.ind 0#3) s1 = .ok addr s2 ∧ writeFault s2 addr .long = none) :=
  ⟨of_writable (by decide), of_writable (by decide), of_writable (by decide)⟩

theorem witness_NotCompletes :
    ∃ a s1 addr s2, (pure () : M Unit) base.afterOpword = .ok a s1 ∧
      resolveMem .long (.preDec 0#3) s1 = .ok addr s2 ∧ writeFault s2 addr .long = none :=
  of_writable (by decide)

theorem witness_ClrCompletes :
    ∃ a s1 addr s2, (pure () : M Unit) base.afterOpword = .ok a s1 ∧
      resolveMem .byte (.postInc 7#3) s1 = .ok addr s2 ∧ writeFault s2 addr .byte = none :=
  of_writable (by decide)

theorem witness_CompareCompletes :
    (∃ a t, readData .byte (.imm 0xFF#32) base.afterOpword = .ok a t) ∧
    (∃ a t, readAny .word (.an 7#3) base.afterOpword = .ok a t) ∧
    (∃ a s1 addr s2, fetchImm .long base.afterOpword = .ok a s1 ∧
      resolveMem .long (.postInc 0#3) s1 = .ok addr s2 ∧ writeFault s2 addr .long = none) :=
  ⟨of_answers (by decide), of_answers (by decide), of_writable (by decide)⟩

theorem witness_MultiplyCompletes :
    ∃ a t, readData .word (.alt (.mem (.preDec 7#3))) base.afterOpword = .ok a t :=
  of_answers (by decide)

/-- A divisor in D1. -/
def divisor (n : Long) (m : Long) : State := (State.reset.setD 0#3 n).setD 1#3 m

/-- The largest quotient that fits, 65535. -/
theorem witness_DivuCompletes :
    ∃ s1 m, readData .word (.alt (.dn 1#3)) (divisor 0xFFFF#32 1#32).afterOpword = .ok m s1 ∧
      m.toNat ≠ 0 ∧ (s1.dreg 0#3).toNat < 65536 * m.toNat := ⟨_, _, rfl, by decide, by decide⟩

/-- The smallest and the largest quotient that fit, -32768 and 32767. -/
theorem witness_DivsCompletes :
    (∃ s1 m, readData .word (.alt (.dn 1#3)) (divisor 0x8000#32 0xFFFF#32).afterOpword = .ok m s1 ∧
      m.toInt ≠ 0 ∧ -32768 ≤ (s1.dreg 0#3).toInt.tdiv m.toInt ∧
      (s1.dreg 0#3).toInt.tdiv m.toInt ≤ 32767) ∧
    (∃ s1 m, readData .word (.alt (.dn 1#3)) (divisor 0x7FFF#32 1#32).afterOpword = .ok m s1 ∧
      m.toInt ≠ 0 ∧ -32768 ≤ (s1.dreg 0#3).toInt.tdiv m.toInt ∧
      (s1.dreg 0#3).toInt.tdiv m.toInt ≤ 32767) :=
  ⟨⟨_, _, rfl, by decide, by decide, by decide⟩, ⟨_, _, rfl, by decide, by decide, by decide⟩⟩

/-- The quotients next to those that fit: 65536; 32768 and -32769. -/
theorem witness_DivideOverflowCompletes :
    (∃ s1 m, readData .word (.alt (.dn 1#3)) (divisor 0x10000#32 1#32).afterOpword = .ok m s1 ∧
      m.toNat ≠ 0 ∧ 65536 * m.toNat ≤ (s1.dreg 0#3).toNat) ∧
    (∃ s1 m, readData .word (.alt (.dn 1#3)) (divisor 0x8000#32 1#32).afterOpword = .ok m s1 ∧
      m.toInt ≠ 0 ∧ 32767 < (s1.dreg 0#3).toInt.tdiv m.toInt) ∧
    (∃ s1 m, readData .word (.alt (.dn 1#3)) (divisor 0xFFFF7FFF#32 1#32).afterOpword = .ok m s1 ∧
      m.toInt ≠ 0 ∧ (s1.dreg 0#3).toInt.tdiv m.toInt < -32768) :=
  ⟨⟨_, _, rfl, by decide, by decide⟩, ⟨_, _, rfl, by decide, by decide⟩,
    ⟨_, _, rfl, by decide, by decide⟩⟩

/-- Only the low word of the register is the divisor. -/
theorem witness_DivideByZeroTraps :
    ∃ s1, readData .word (.alt (.dn 1#3)) (divisor 0#32 0xABCD0000#32).afterOpword =
      .ok (0#16) s1 := ⟨_, rfl⟩

theorem witness_LogicCompletes :
    (∃ a t, readData .long (.alt (.mem (.disp 0#3 4#16))) base.afterOpword = .ok a t) ∧
    (∃ a s1 addr s2, readD .byte 1#3 base.afterOpword = .ok a s1 ∧
      resolveMem .byte (.ind 0#3) s1 = .ok addr s2 ∧ writeFault s2 addr .byte = none) ∧
    (∃ a s1 addr s2, readImm .word 1#16 base.afterOpword = .ok a s1 ∧
      resolveMem .word (.preDec 0#3) s1 = .ok addr s2 ∧ writeFault s2 addr .word = none) :=
  ⟨of_answers (by decide), of_writable (by decide), of_writable (by decide)⟩

theorem witness_BitTestCompletes :
    (∃ k s1, staticBit 0xFF#8 base.afterOpword = .ok k s1) ∧
    (∃ k s1, dynamicBit 0#3 base.afterOpword = .ok k s1) ∧
    (∃ v t, readData .byte (.imm 0x80#32) base.afterOpword = .ok v t) :=
  ⟨of_answers (by decide), of_answers (by decide), of_answers (by decide)⟩

theorem witness_BitChangeCompletes :
    (∃ a s1 addr s2, staticBit 7#8 base.afterOpword = .ok a s1 ∧
      resolveMem .byte (.postInc 7#3) s1 = .ok addr s2 ∧ writeFault s2 addr .byte = none) ∧
    (∃ a s1 addr s2, dynamicBit 0#3 base.afterOpword = .ok a s1 ∧
      resolveMem .byte (.absL 0xFFFFFF#32) s1 = .ok addr s2 ∧ writeFault s2 addr .byte = none) :=
  ⟨of_writable (by decide), of_writable (by decide)⟩

/-- Also of `StopCompletes`: one word can be fetched behind the opword. -/
theorem witness_BitInstructionsMatchMasks :
    (7#8).toNat < 8 ∧ Fetchable base.afterOpword 1 := by
  refine ⟨by decide, fun k hk => ?_⟩
  obtain rfl : k = 0 := by omega
  decide

/-- Source and destination in memory through one register; the forms refused are only those of `An`. -/
theorem witness_MoveCompletes :
    (∃ a s1 addr s2, readAny .word (.data (.alt (.mem (.postInc 0#3)))) base.afterOpword = .ok a s1 ∧
      resolveMem .word (.preDec 0#3) s1 = .ok addr s2 ∧ writeFault s2 addr .word = none) ∧
    moveRefused (.data (.alt (.mem (.postInc 0#3)))) (.mem (.preDec 0#3)) = false ∧
    moveRefused (.an 0#3) (.mem (.preDec 7#3)) = false ∧
    moveRefused (.an 0#3) (.mem (.ind 0#3)) = false :=
  ⟨of_writable (by decide), by decide, by decide, by decide⟩

theorem witness_MoveSameRegisterRefused :
    (MemEa.postInc 7#3 = .postInc 7#3 ∨ MemEa.postInc 7#3 = .preDec 7#3) ∧
      (MemEa.preDec 0#3 = .postInc 0#3 ∨ MemEa.preDec 0#3 = .preDec 0#3) := by decide

/-- A long displacement that can be fetched; an even target; an odd one; a condition that is false. -/
theorem witness_BranchesComplete :
    DispReadable (.long 0xFFFF#16) base.afterOpword ∧ DispReadable (.short 1#8) base.afterOpword ∧
    (base.pc + 2#32 + dispValue (.short 0xFE#8)).toNat % 2 = 0 ∧
    (base.pc + 2#32 + dispValue (.short 0xFF#8)).toNat % 2 = 1 ∧
    base.ccr.z = false ∧ base.ccr.n = base.ccr.v ∧ base.ccr.c = false :=
  ⟨by simp only [DispReadable]; decide, trivial, by decide, by decide, by decide, by decide,
    by decide⟩

/-- Width 1, where the signed numbers are 0 and -1. -/
theorem witness_ConditionsAfterCompare :
    0 < 1 ∧ (cmpCcr (0#1) (1#1) ((1#1) - (0#1)) (flags 0#5)).lt = true ∧
      (cmpCcr (0#1) (1#1) ((1#1) - (0#1)) (flags 0#5)).hi = true := by decide

/-- Whatever `sr_high` holds. -/
theorem witness_StopCompletes : Fetchable (base.setSrHigh 0x07#8).afterOpword 1 := by
  intro k hk
  obtain rfl : k = 0 := by omega
  decide

/-- A step that stops the machine, one that goes on, one that takes an exception. -/
theorem witness_SrHighIsReadByNothing :
    (∃ t, step (start 0x1000#32 0#5 [0x4E72#16, 0x0700#16]) = .next t ∧
      decide (t.status = .stopped) = true) ∧
    (∃ t, step base = .next t ∧ decide (t.status ≠ .stopped) = true) ∧
    (∃ t, step (cut 0x1002#32) = .next t ∧ decide (t.status ≠ .stopped) = true) :=
  ⟨of_after (by decide), of_after (by decide), of_after (by decide)⟩

/-- A part of an instruction raises from a state. -/
def raises {α : Type} (m : M α) (s : State) : Bool := !answers m s

theorem of_raises {α : Type} {m : M α} {s : State} (h : raises m s = true) :
    ∃ e t, m s = .error e t := by
  unfold raises answers at h
  cases hm : m s with
  | ok a t => simp [hm] at h
  | error e t => exact ⟨e, t, rfl⟩

/-- In `cut` the word at $1000 can be fetched, the word at $1002 cannot: the first and the second word
of an operand; an address that cannot be computed; addresses that cannot be read. -/
theorem witness_OperandExceptions :
    memRead .fetch ((cut 0x1002#32).pc + BitVec.ofNat 32 (2 * 0)) .word (cut 0x1002#32) =
      .error (.busError 0x1003#32 .fetch) (cut 0x1002#32) ∧
    (Fetchable (cut 0x1000#32) 1 ∧
      memRead .fetch ((cut 0x1000#32).pc + BitVec.ofNat 32 (2 * 1)) .word (cut 0x1000#32) =
        .error (.busError 0x1003#32 .fetch) (cut 0x1000#32)) ∧
    wordsOf (.absL 0#32) = 2 ∧
    (∃ e t, resolveMem .byte (.absW 0#16) (cut 0x1002#32) = .error e t) ∧
    ((∃ addr t, resolveMem .word (.absW 0x1003#16) (cut 0x1000#32) = .ok addr t) ∧
      ∃ e t, memRead .read 0x1003#32 .word ((cut 0x1000#32).setPc 0x1002#32) = .error e t) ∧
    (∃ e t, memRead .read ((cut 0x1000#32).pc + (0x7FFE#16).signExtend 32) .word
      ((cut 0x1000#32).setPc ((cut 0x1000#32).pc + 2#32)) = .error e t) ∧
    (∃ e t, memRead .read ((cut 0x1000#32).pc + indexOf (cut 0x1000#32) ⟨true, 0#3, true, 0#8⟩ +
      (3#8).signExtend 32) .byte ((cut 0x1000#32).setPc ((cut 0x1000#32).pc + 2#32)) =
        .error e t) := by
  refine ⟨by rfl, ⟨fun k hk => ?_, by rfl⟩, rfl, of_raises (by decide),
    ⟨of_answers (by decide), of_raises (by decide)⟩, of_raises (by decide), of_raises (by decide)⟩
  obtain rfl : k = 0 := by omega
  decide

/-- A source that raises; a source that is read and a destination whose address raises; one that cannot
be read; one that can be read and not be written, its first byte being program text. -/
theorem witness_OperandExceptionsAreTaken :
    (∃ e t, (operandUse (.addWEaDn (.data (.alt (.mem (.ind 0#3)))) 0#3)).source
      (base.setA 0#3 1#32).afterOpword = .error e t) ∧
    (∃ a t, (operandUse (.moveB (.alt (.dn 0#3)) (.mem (.absW 0#16)))).source
      (cut 0x1000#32).afterOpword = .ok a t) ∧
    (∃ e t, resolveMem .byte (.absW 0#16) (cut 0x1000#32).afterOpword = .error e t) ∧
    ((operandUse (.cmpiL 1#32 (.mem (.preDec 0#3)))).memory = some (.preDec 0#3) ∧
      (operandUse (.cmpiL 1#32 (.mem (.preDec 0#3)))).reads = true ∧
      ∃ e t, memRead .read 1#32 .long (base.setA 0#3 1#32) = .error e t) ∧
    (let s := { base with progText := [⟨0x2000, 1⟩] }
     (operandUse (.negB (.mem (.ind 0#3)))).writes = true ∧
      (∃ a t, memRead .read 0x2000#32 .byte s = .ok a t) ∧
      ∃ e t, memWrite 0x2000#32 .byte 0#8 s = .error e t) :=
  ⟨of_raises (by decide), of_answers (by decide), of_raises (by decide),
    ⟨rfl, rfl, of_raises (by decide)⟩, rfl, of_answers (by decide), of_raises (by decide)⟩

/-- Odd addresses, the last of the space among them; an odd pc; a taken branch to an odd target. -/
theorem witness_AddressErrorRule :
    (0xFFFFFFFF#32 : Long).toNat % 2 = 1 ∧ (cut 0x1001#32).pc.toNat % 2 = 1 ∧
    (cut 0x1001#32).status = .running ∧
    (((fun k => k.z = false, .bne) : (Ccr → Prop) × (Disp → Instr)) ∈ branchTable ∧
      base.ccr.z = false ∧ DispReadable (.short 0xFF#8) base.afterOpword ∧
      (base.pc + 2#32 + dispValue (.short 0xFF#8)).toNat % 2 = 1) :=
  ⟨by decide, by decide, by decide, by simp [branchTable], by decide, trivial, by decide⟩

/-- The parity program of 95_test_vectors.md (P2), `ORG $400`, `END $400`. -/
def parity : Program where
  entry := 0x400#32
  memMap := [⟨0x400, 28⟩]
  progText := [⟨0x400, 28⟩]
  image := wordsAt 0x400 [0x343C#16, 0x0007#16, 0x0200#16, 0x007F#16, 0x3200#16, 0xE219#16,
    0x6404#16, 0x0A00#16, 0x0080#16, 0x943C#16, 0x0001#16, 0x66F2#16, 0x4E72#16, 0x2700#16]

/-- The start values of that program's trace. -/
def parityStart : LaunchValues where
  d := #v[0x35#32, 0xDDDD1111#32, 0xDDDD2222#32, 0#32, 0#32, 0#32, 0#32, 0#32]
  a := Vector.replicate 8 0xFFFFFFFF#32
  ccr := flags 0#5
  mem := [(0x400, 0xFF#8), (0x41C, 0xEE#8)]
  freeCount := 7

/-- Step 1 of the trace of P2, from its launch state. -/
theorem test_launch_parity :
    after (State.launch parity parityStart) (fun t => t.pc == 0x404#32 &&
      t.dreg 2#3 == 0xDDDD0007#32 && t.dreg 0#3 == 0x35#32 && t.ccr == flags 0#5 &&
      t.status == .running) = true := by decide

/-- A later byte of an image replaces an earlier one. -/
theorem test_image_order :
    Memory.read (Memory.load [] (wordsAt 0x1000 [0x1234#16] ++ bytesAt 0x1001 [0x56#8])) 0x1001 =
      0x56#8 := by decide

/-- The parity program can be launched and its image holds `MOVE.W #7,D2` at ENTRY. -/
theorem witness_LaunchState :
    parity.wf = true ∧ Memory.wf parityStart.mem = true ∧
    (let i : Instr := .moveW (.data (.imm 7#32)) (.dn 2#3)
     i.wf = true ∧ encode i = [0x343C#16, 0x0007#16] ∧
      ∀ k : Fin 2, ((encode i)[k.val]?).map (fun w => (w.extractLsb' 8 8, w.extractLsb' 0 8)) =
        ((imageByte parity.image (byteAddr parity.entry.toNat (2 * k))).bind fun hi =>
          (imageByte parity.image (byteAddr parity.entry.toNat (2 * k + 1))).map fun lo =>
            (hi, lo))) := by decide

end Sys2Proof.Tests
end

section
/-! The whole footprint of an instruction as one package (`InstrRel`): a relation between states
that survives each of the writes the footprint of an instruction allows is kept by its whole body.
The frame, the invariant and what ends a run are each one such relation. -/

namespace Sys2Proof.Claims

open Sys2Proof.Machine

/-! ## Flags inside a column set of R32 -/

/-- `k` differs from `old` only in flags of the set. -/
def FlagSet.Agree (f : FlagSet) (old k : Ccr) : Prop :=
  (f.x = false → k.x = old.x) ∧ (f.n = false → k.n = old.n) ∧ (f.z = false → k.z = old.z) ∧
    (f.v = false → k.v = old.v) ∧ (f.c = false → k.c = old.c)

theorem FlagSet.Agree.refl (f : FlagSet) (k : Ccr) : f.Agree k k := by simp [FlagSet.Agree]

theorem FlagSet.Agree.trans {f : FlagSet} {k l m : Ccr} (h : f.Agree k l) (h' : f.Agree l m) :
    f.Agree k m := by
  obtain ⟨hx, hn, hz, hv, hc⟩ := h
  obtain ⟨hx', hn', hz', hv', hc'⟩ := h'
  exact ⟨fun e => (hx' e).trans (hx e), fun e => (hn' e).trans (hn e),
    fun e => (hz' e).trans (hz e), fun e => (hv' e).trans (hv e), fun e => (hc' e).trans (hc e)⟩

theorem allFlags_agree (old k : Ccr) : allFlags.Agree old k := by simp [FlagSet.Agree, allFlags]

theorem nzvcFlags_agree {old k : Ccr} (h : k.x = old.x) : nzvcFlags.Agree old k := by
  simp [FlagSet.Agree, nzvcFlags, h]

theorem zFlag_agree (old : Ccr) (b : Bool) : zFlag.Agree old { old with z := b } := by
  simp [FlagSet.Agree, zFlag]

/-! ## The address registers a mode updates -/

theorem MemEa.updatesIn_of_memUpdates {P : Reg → Prop} {m : MemEa}
    (h : ∀ r ∈ memUpdates m, P r) : m.UpdatesIn P := by
  rintro r (rfl | rfl) <;> exact h r (List.mem_singleton_self r)

theorem DataAltEa.updatesIn_of_altUpdates {P : Reg → Prop} {e : DataAltEa}
    (h : ∀ r ∈ altUpdates e, P r) : e.UpdatesIn P := by
  rintro m rfl
  exact MemEa.updatesIn_of_memUpdates h

theorem DataEa.updatesIn_of_dataUpdates {P : Reg → Prop} {e : DataEa}
    (h : ∀ r ∈ dataUpdates e, P r) : e.UpdatesIn P := by
  rintro a rfl
  exact DataAltEa.updatesIn_of_altUpdates h

theorem AnyEa.updatesIn_of_anyUpdates {P : Reg → Prop} {e : AnyEa}
    (h : ∀ r ∈ anyUpdates e, P r) : e.UpdatesIn P := by
  rintro a rfl
  exact DataEa.updatesIn_of_dataUpdates h

/-! ## Relations that survive what an instruction may write -/

/-- A relation between states that survives each write the footprint of `i` allows: the evaluation
of its operands, its data and address registers, its flags, a store that passed its checks, a
branch to an even address; the free bits of a divide; and what STOP loads. -/
structure InstrRel (i : Instr) (R : State → State → Prop) : Prop where
  operands : OperandRel (· ∈ (footprint i).aregs) R
  setD : ∀ s r v, r ∈ (footprint i).dregs → R s (s.setD r v)
  setCcr : ∀ s k, (footprint i).flags.Agree s.ccr k → R s (s.setCcr k)
  storeAt : ∀ s addr sz v, writeFault s addr sz = none → R s (s.storeAt addr sz v)
  setPc : ∀ s v, v.getLsbD 0 = false → R s (s.setPc v)
  setFreeCount : (∃ e r, i = .divu e r ∨ i = .divs e r) → ∀ s k, R s (s.setFreeCount k)
  stop : ∀ imm, i = .stop imm → ∀ s,
    R s (((s.setSrHigh (imm.extractLsb' 8 8)).setCcr (Ccr.ofWord imm)).setStatus .stopped)

namespace InstrRel

variable {i : Instr} {R : State → State → Prop} {sz : Size}

/-! ### Operands -/

theorem readData (h : InstrRel i R) {e : DataEa} (he : dataUpdates e ⊆ (footprint i).aregs) :
    Keeps R (readData sz e) :=
  h.operands.readData sz (DataEa.updatesIn_of_dataUpdates he)

theorem readAny (h : InstrRel i R) {e : AnyEa} (he : anyUpdates e ⊆ (footprint i).aregs) :
    Keeps R (readAny sz e) :=
  h.operands.readAny sz (AnyEa.updatesIn_of_anyUpdates he)

/-! ### A result with its flags -/

theorem setD_setCcr (h : InstrRel i R) {s : State} {r : Reg} (v : Long) {k : Ccr}
    (hr : r ∈ (footprint i).dregs) (hk : (footprint i).flags.Agree s.ccr k) :
    R s ((s.setD r v).setCcr k) :=
  h.operands.trans _ _ _ (h.setD s r v hr) (h.setCcr (s.setD r v) k hk)

theorem storeAt_setCcr (h : InstrRel i R) {s : State} {addr : Long} (v : BitVec sz.bits) {k : Ccr}
    (hw : writeFault s addr sz = none) (hk : (footprint i).flags.Agree s.ccr k) :
    R s ((s.storeAt addr sz v).setCcr k) :=
  h.operands.trans _ _ _ (h.storeAt s addr sz v hw) (h.setCcr (s.storeAt addr sz v) k hk)

/-! ### The shapes of instructions -/

theorem aluToDn (h : InstrRel i R) {f : Alu} {src : M (BitVec sz.bits)} {r : Reg}
    (hsrc : Keeps R src) (hr : r ∈ (footprint i).dregs)
    (hf : ∀ (a b : BitVec sz.bits) k, (footprint i).flags.Agree k (f a b k).2) :
    Keeps R (aluToDn sz f src r) :=
  keeps_aluToDn f h.operands hsrc fun _ v a b => h.setD_setCcr v hr (hf a b _)

theorem aluToEa (h : InstrRel i R) {f : Alu} {src : M (BitVec sz.bits)} {dst : DataAltEa}
    (hsrc : Keeps R src) (hd : altDregs dst ⊆ (footprint i).dregs)
    (ha : altUpdates dst ⊆ (footprint i).aregs)
    (hf : ∀ (a b : BitVec sz.bits) k, (footprint i).flags.Agree k (f a b k).2) :
    Keeps R (aluToEa sz f src dst) :=
  keeps_aluToEa f h.operands hsrc (DataAltEa.updatesIn_of_altUpdates ha)
    (fun r hr _ v a b => h.setD_setCcr v (hd (hr ▸ List.mem_singleton_self r)) (hf a b _))
    fun _ _ v a b hw => h.storeAt_setCcr v hw (hf a b _)

theorem unaryEa (h : InstrRel i R) {f : Alu1} {dst : DataAltEa}
    (hd : altDregs dst ⊆ (footprint i).dregs) (ha : altUpdates dst ⊆ (footprint i).aregs)
    (hf : ∀ (a : BitVec sz.bits) k, (footprint i).flags.Agree k (f a k).2) :
    Keeps R (unaryEa sz f dst) :=
  keeps_unaryEa f h.operands (DataAltEa.updatesIn_of_altUpdates ha)
    (fun r hr _ v a => h.setD_setCcr v (hd (hr ▸ List.mem_singleton_self r)) (hf a _))
    fun _ _ v a hw => h.storeAt_setCcr v hw (hf a _)

theorem clearEa (h : InstrRel i R) {dst : DataAltEa} (hd : altDregs dst ⊆ (footprint i).dregs)
    (ha : altUpdates dst ⊆ (footprint i).aregs)
    (hf : ∀ k, (footprint i).flags.Agree k (logicCcr (0#sz.bits) k)) :
    Keeps R (clearEa sz dst) :=
  keeps_clearEa h.operands (DataAltEa.updatesIn_of_altUpdates ha)
    (fun r hr _ v => h.setD_setCcr v (hd (hr ▸ List.mem_singleton_self r)) (hf _))
    fun _ _ v hw => h.storeAt_setCcr v hw (hf _)

theorem moveEa (h : InstrRel i R) {src : M (BitVec sz.bits)} {dst : DataAltEa}
    (hsrc : Keeps R src) (hd : altDregs dst ⊆ (footprint i).dregs)
    (ha : altUpdates dst ⊆ (footprint i).aregs)
    (hf : ∀ (a : BitVec sz.bits) k, (footprint i).flags.Agree k (logicCcr a k)) :
    Keeps R (moveEa sz src dst) :=
  keeps_moveEa h.operands hsrc (DataAltEa.updatesIn_of_altUpdates ha)
    (fun r hr _ v a => h.setD_setCcr v (hd (hr ▸ List.mem_singleton_self r)) (hf a _))
    fun _ _ v a hw => h.storeAt_setCcr v hw (hf a _)

/-- MOVE of word and long size: refused at once, or a move (R94, R230). -/
theorem moveAny (h : InstrRel i R) {op : Word} {src : AnyEa} {dst : DataAltEa}
    (hs : anyUpdates src ⊆ (footprint i).aregs) (hd : altDregs dst ⊆ (footprint i).dregs)
    (ha : altUpdates dst ⊆ (footprint i).aregs)
    (hf : ∀ (a : BitVec sz.bits) k, (footprint i).flags.Agree k (logicCcr a k)) :
    Keeps R (moveAny sz op src dst) := by
  unfold Machine.moveAny
  split
  · exact h.operands.raise _
  · exact h.moveEa (h.readAny hs) hd ha hf

theorem compareDn (h : InstrRel i R) {src : M (BitVec sz.bits)} {r : Reg} (hsrc : Keeps R src)
    (hf : ∀ (a b d : BitVec sz.bits) k, (footprint i).flags.Agree k (cmpCcr a b d k)) :
    Keeps R (compareDn sz src r) :=
  keeps_compareDn h.operands hsrc fun s a b => h.setCcr s _ (hf a b _ _)

theorem compareEa (h : InstrRel i R) {src : M (BitVec sz.bits)} {dst : DataAltEa}
    (hsrc : Keeps R src) (ha : altUpdates dst ⊆ (footprint i).aregs)
    (hf : ∀ (a b d : BitVec sz.bits) k, (footprint i).flags.Agree k (cmpCcr a b d k)) :
    Keeps R (compareEa sz src dst) :=
  keeps_compareEa h.operands hsrc (DataAltEa.updatesIn_of_altUpdates ha)
    fun s a b => h.setCcr s _ (hf a b _ _)

theorem multiplyDn (h : InstrRel i R) {product : Word → Word → Long} {src : M Word} {r : Reg}
    (hsrc : Keeps R src) (hr : r ∈ (footprint i).dregs)
    (hf : ∀ (v : Long) k, (footprint i).flags.Agree k (logicCcr v k)) :
    Keeps R (multiplyDn product src r) :=
  keeps_multiplyDn product h.operands hsrc fun _ v => h.setD_setCcr v hr (hf v _)

theorem divideDn (h : InstrRel i R) {divide : Long → Word → Option (Word × Word)} {src : M Word}
    {r : Reg} (hsrc : Keeps R src) (hr : r ∈ (footprint i).dregs)
    (hi : ∃ e r, i = .divu e r ∨ i = .divs e r)
    (hf : ∀ (old : Ccr) n z v, (footprint i).flags.Agree old ⟨old.x, n, z, v, false⟩) :
    Keeps R (divideDn divide src r) :=
  keeps_divideDn divide h.operands hsrc (fun _ v _ _ => h.setD_setCcr v hr (hf _ _ _ _))
    fun s k _ _ => h.operands.trans _ _ _ (h.setFreeCount hi s k) (h.setCcr _ _ (hf _ _ _ _))

theorem shiftDn (h : InstrRel i R) {op : ShiftOp} {count : M Nat} {dy : Reg}
    (hc : ∀ s, ∃ cnt, count s = .ok cnt s) (hr : dy ∈ (footprint i).dregs)
    (hf : ∀ (v : BitVec sz.bits) cnt (old : Ccr) n z b c,
      (footprint i).flags.Agree old ⟨(shiftResult op v cnt old.x).x, n, z, b, c⟩) :
    Keeps R (shiftDn sz op count dy) :=
  keeps_shiftDn hc fun _ v _ _ _ ht => h.setD_setCcr v hr (ht ▸ hf _ _ _ _ _ _ _)

theorem changeBit (h : InstrRel i R) {op : BitOp} {number : M Nat} {dst : DataAltEa}
    (hn : Keeps R number) (hd : altDregs dst ⊆ (footprint i).dregs)
    (ha : altUpdates dst ⊆ (footprint i).aregs)
    (hf : ∀ (k : Ccr) b, (footprint i).flags.Agree k { k with z := b }) :
    Keeps R (changeBit op number dst) :=
  keeps_changeBit h.operands hn (DataAltEa.updatesIn_of_altUpdates ha)
    (fun r hr _ v b => h.setD_setCcr v (hd (hr ▸ List.mem_singleton_self r)) (hf _ b))
    fun _ _ v b hw => h.storeAt_setCcr v hw (hf _ b)

theorem testBit (h : InstrRel i R) {number : M Nat} {e : DataEa} (hn : Keeps R number)
    (he : dataUpdates e ⊆ (footprint i).aregs)
    (hf : ∀ (k : Ccr) b, (footprint i).flags.Agree k { k with z := b }) :
    Keeps R (testBit number e) :=
  keeps_testBit h.operands hn (DataEa.updatesIn_of_dataUpdates he) fun s b => h.setCcr s _ (hf _ b)

/-- EXT and SWAP: a register result with its flags. -/
theorem registerResult (h : InstrRel i R) {m : M Unit} {r : Reg} (f : State → Long)
    (g : State → Ccr) (hm : ∀ s, m s = .ok () ((s.setD r (f s)).setCcr (g s)))
    (hr : r ∈ (footprint i).dregs) (hf : ∀ s, (footprint i).flags.Agree s.ccr (g s)) :
    Keeps R m :=
  Keeps.of_ok (fun _ => ()) _ hm fun s => h.setD_setCcr (f s) hr (hf s)

end InstrRel

theorem immCount_answers (ccc : BitVec 3) (s : State) :
    ∃ cnt, (pure (immCount ccc) : M Nat) s = .ok cnt s := ⟨_, rfl⟩

theorem regCount_answers (r : Reg) (s : State) : ∃ cnt, regCount r s = .ok cnt s := ⟨_, rfl⟩

/-- A relation that survives what the footprint of an instruction allows is kept by the whole
instruction: no instruction writes outside its footprint. -/
theorem InstrRel.keeps_body {i : Instr} {R : State → State → Prop} (h : InstrRel i R) :
    Keeps R (body i) := by
  have subset_refl {l : List Reg} : l ⊆ l := List.Subset.refl l
  have self_mem (r : Reg) : r ∈ [r] := List.mem_singleton_self r
  cases i with
  | addBEaDn src dn | subBEaDn src dn =>
    exact h.aluToDn (h.readData subset_refl) (self_mem dn) fun _ _ _ => allFlags_agree _ _
  | addWEaDn src dn | addLEaDn src dn | subWEaDn src dn | subLEaDn src dn =>
    exact h.aluToDn (h.readAny subset_refl) (self_mem dn) fun _ _ _ => allFlags_agree _ _
  | andBEaDn src dn | andWEaDn src dn | andLEaDn src dn
  | orBEaDn src dn | orWEaDn src dn | orLEaDn src dn =>
    exact h.aluToDn (h.readData subset_refl) (self_mem dn) fun _ _ _ => nzvcFlags_agree rfl
  | addBDnEa dn dst | addWDnEa dn dst | addLDnEa dn dst
  | subBDnEa dn dst | subWDnEa dn dst | subLDnEa dn dst =>
    exact h.aluToEa (h.operands.readD _ _) subset_refl subset_refl fun _ _ _ => allFlags_agree _ _
  | andBDnEa dn dst | andWDnEa dn dst | andLDnEa dn dst
  | orBDnEa dn dst | orWDnEa dn dst | orLDnEa dn dst
  | eorB dn dst | eorW dn dst | eorL dn dst =>
    exact h.aluToEa (h.operands.readD _ _) subset_refl subset_refl fun _ _ _ => nzvcFlags_agree rfl
  | addiB imm dst | addiW imm dst | addiL imm dst
  | subiB imm dst | subiW imm dst | subiL imm dst =>
    exact h.aluToEa (h.operands.readImm _ _) subset_refl subset_refl fun _ _ _ => allFlags_agree _ _
  | oriB imm dst | oriW imm dst | oriL imm dst
  | andiB imm dst | andiW imm dst | andiL imm dst
  | eoriB imm dst | eoriW imm dst | eoriL imm dst =>
    exact h.aluToEa (h.operands.readImm _ _) subset_refl subset_refl
      fun _ _ _ => nzvcFlags_agree rfl
  | cmpB src dn =>
    exact h.compareDn (h.readData subset_refl) fun _ _ _ _ => nzvcFlags_agree rfl
  | cmpW src dn | cmpL src dn =>
    exact h.compareDn (h.readAny subset_refl) fun _ _ _ _ => nzvcFlags_agree rfl
  | cmpiB imm dst | cmpiW imm dst | cmpiL imm dst =>
    exact h.compareEa (h.operands.readImm _ _) subset_refl fun _ _ _ _ => nzvcFlags_agree rfl
  | negB dst | negW dst | negL dst =>
    exact h.unaryEa subset_refl subset_refl fun _ _ => allFlags_agree _ _
  | notB dst | notW dst | notL dst =>
    exact h.unaryEa subset_refl subset_refl fun _ _ => nzvcFlags_agree rfl
  | clrB dst | clrW dst | clrL dst =>
    exact h.clearEa subset_refl subset_refl fun _ => nzvcFlags_agree rfl
  | moveB src dst =>
    exact h.moveEa (h.readData (List.subset_append_left _ _)) subset_refl
      (List.subset_append_right _ _) fun _ _ => nzvcFlags_agree rfl
  | moveW src dst | moveL src dst =>
    exact h.moveAny (List.subset_append_left _ _) subset_refl (List.subset_append_right _ _)
      fun _ _ => nzvcFlags_agree rfl
  | mulu src dn | muls src dn =>
    exact h.multiplyDn (h.readData subset_refl) (self_mem dn) fun _ _ => nzvcFlags_agree rfl
  | divu src dn =>
    exact h.divideDn (h.readData subset_refl) (self_mem dn) ⟨src, dn, .inl rfl⟩
      fun _ _ _ _ => nzvcFlags_agree rfl
  | divs src dn =>
    exact h.divideDn (h.readData subset_refl) (self_mem dn) ⟨src, dn, .inr rfl⟩
      fun _ _ _ _ => nzvcFlags_agree rfl
  | extW dn =>
    exact h.registerResult _ _ (fun _ => extendWord_apply dn) (self_mem dn)
      fun _ => nzvcFlags_agree rfl
  | extL dn =>
    exact h.registerResult _ _ (fun _ => extendLong_apply dn) (self_mem dn)
      fun _ => nzvcFlags_agree rfl
  | swap dn =>
    exact h.registerResult (fun s => swapWords ((s.dreg dn).setWidth 32))
      (fun s => logicCcr (swapWords ((s.dreg dn).setWidth 32)) s.ccr) (fun _ => rfl) (self_mem dn)
      fun _ => nzvcFlags_agree rfl
  | exgDD dx dy =>
    exact fun s => h.operands.trans _ _ _ (h.setD s dx _ (.head _))
      (h.setD _ dy _ (.tail _ (.head _)))
  | exgAA ax ay =>
    exact fun s => h.operands.trans _ _ _ (h.operands.setA s ax _ (.head _))
      (h.operands.setA _ ay _ (.tail _ (.head _)))
  | exgDA dx ay =>
    exact fun s => h.operands.trans _ _ _ (h.setD s dx _ (.head _))
      (h.operands.setA _ ay _ (.head _))
  | aslBImm ccc dy | aslWImm ccc dy | aslLImm ccc dy | asrBImm ccc dy | asrWImm ccc dy
  | asrLImm ccc dy | lslBImm ccc dy | lslWImm ccc dy | lslLImm ccc dy | lsrBImm ccc dy
  | lsrWImm ccc dy | lsrLImm ccc dy | roxlBImm ccc dy | roxlWImm ccc dy | roxlLImm ccc dy
  | roxrBImm ccc dy | roxrWImm ccc dy | roxrLImm ccc dy =>
    exact h.shiftDn (immCount_answers ccc) (self_mem dy) fun _ _ _ _ _ _ _ => allFlags_agree _ _
  | aslBReg dx dy | aslWReg dx dy | aslLReg dx dy | asrBReg dx dy | asrWReg dx dy
  | asrLReg dx dy | lslBReg dx dy | lslWReg dx dy | lslLReg dx dy | lsrBReg dx dy
  | lsrWReg dx dy | lsrLReg dx dy | roxlBReg dx dy | roxlWReg dx dy | roxlLReg dx dy
  | roxrBReg dx dy | roxrWReg dx dy | roxrLReg dx dy =>
    exact h.shiftDn (regCount_answers dx) (self_mem dy) fun _ _ _ _ _ _ _ => allFlags_agree _ _
  | rolBImm ccc dy | rolWImm ccc dy | rolLImm ccc dy | rorBImm ccc dy | rorWImm ccc dy
  | rorLImm ccc dy =>
    exact h.shiftDn (immCount_answers ccc) (self_mem dy)
      fun v cnt old _ _ _ _ => nzvcFlags_agree (shiftResult_x_kept rfl v cnt old.x)
  | rolBReg dx dy | rolWReg dx dy | rolLReg dx dy | rorBReg dx dy | rorWReg dx dy
  | rorLReg dx dy =>
    exact h.shiftDn (regCount_answers dx) (self_mem dy)
      fun v cnt old _ _ _ _ => nzvcFlags_agree (shiftResult_x_kept rfl v cnt old.x)
  | btstDyn dn src =>
    exact h.testBit (h.operands.dynamicBit dn) subset_refl zFlag_agree
  | btstStatic k src =>
    exact h.testBit (h.operands.staticBit k) subset_refl zFlag_agree
  | bchgDyn dn dst | bclrDyn dn dst | bsetDyn dn dst =>
    exact h.changeBit (h.operands.dynamicBit dn) subset_refl subset_refl zFlag_agree
  | bchgStatic k dst | bclrStatic k dst | bsetStatic k dst =>
    exact h.changeBit (h.operands.staticBit k) subset_refl subset_refl zFlag_agree
  | bra disp | bhi disp | bls disp | bcc disp | bcs disp | bne disp | beq disp | bvc disp
  | bvs disp | bpl disp | bmi disp | bge disp | blt disp | bgt disp | ble disp =>
    exact keeps_branch h.operands h.setPc
  | stop imm => exact keeps_stopWith h.operands (h.stop imm rfl)

end Sys2Proof.Claims
end

section
/-! One step case by case, the checks of an opword's fetch, and the conditions of the branches. -/

namespace Sys2Proof.Machine

/-! ## One step -/

/-- Where the opword cannot be fetched, the fetch raises and leaves the state alone (R267). -/
theorem fetchInstr_of_fault {s : State} {e : Exc} (h : accessFault s .fetch s.pc .word = some e) :
    fetchInstr s = .exception e s := by
  unfold fetchInstr
  rw [fetch16_eq_error.2 ⟨h, rfl⟩]

/-- Where the opword can be fetched, the decoder decides (R112, R264). -/
theorem fetchInstr_of_fetch {s : State} (h : accessFault s .fetch s.pc .word = none) :
    (∃ i rest, decode (s.valueAt s.pc .word :: peekWords s.afterOpword 4 (s.pc + 2#32)) =
        .ok (i, rest) ∧ fetchInstr s = .instr i) ∨
      ((∀ i rest, decode (s.valueAt s.pc .word :: peekWords s.afterOpword 4 (s.pc + 2#32)) ≠
        .ok (i, rest)) ∧
        fetchInstr s = .exception (.illegalInstruction (s.valueAt s.pc .word)) s.afterOpword) := by
  have hpeek : peekWords (s.setPc (s.pc + 2#32)) 4 (s.setPc (s.pc + 2#32)).pc =
    peekWords s.afterOpword 4 (s.pc + 2#32) := rfl
  unfold fetchInstr
  rw [fetch16_eq_ok.2 ⟨h, rfl, rfl⟩]
  simp only [hpeek]
  cases decode (s.valueAt s.pc .word :: peekWords s.afterOpword 4 (s.pc + 2#32)) with
  | ok p => exact .inl ⟨p.1, p.2, rfl, rfl⟩
  | error e => exact .inr ⟨fun _ _ h => (nomatch h), rfl⟩

theorem step_of_instr {s : State} {i : Instr} (hs : s.status = .running)
    (h : fetchInstr s = .instr i) : step s = exec i s := by
  simp only [step, hs, h]

theorem step_of_exception {s s' : State} {e : Exc} (hs : s.status = .running)
    (h : fetchInstr s = .exception e s') : step s = .next (takeException e s.pc s') := by
  simp only [step, hs, h]

/-- Every instruction answers a next state: its own, or the one its exception leaves. -/
theorem exec_answers (i : Instr) (s : State) : ∃ t, exec i s = .next t := by
  cases h : body i s.afterOpword with
  | ok u t => exact ⟨t, exec_eq_next.2 (.inl h)⟩
  | error e s' => exact ⟨_, exec_eq_next.2 (.inr ⟨e, s', h, rfl⟩)⟩

/-! ## The checks of a fetch -/

theorem byteAddr_busAddr_zero (addr : Long) : byteAddr (busAddr addr) 0 = busAddr addr :=
  Nat.mod_mod _ _

theorem accessFault_word_odd {s : State} {acc : Access} {addr : Long}
    (h : busAddr addr % 2 = 1) :
    accessFault s acc addr .word = some (.addressError (BitVec.ofNat 32 (busAddr addr)) acc) := by
  simp [accessFault, h]

/-- Bus errors of an aligned word name the first unmapped byte (R52, R263). -/
theorem accessFault_word_unmapped_first {s : State} {acc : Access} {addr : Long}
    (h : busAddr addr % 2 = 0) (h0 : inRegions s.memMap (busAddr addr) = false) :
    accessFault s acc addr .word = some (.busError (BitVec.ofNat 32 (busAddr addr)) acc) := by
  simp [accessFault, h, firstByte, byteAddr_busAddr_zero, h0]

theorem accessFault_word_unmapped_second {s : State} {acc : Access} {addr : Long}
    (h : busAddr addr % 2 = 0) (h0 : inRegions s.memMap (busAddr addr) = true)
    (h1 : inRegions s.memMap (byteAddr (busAddr addr) 1) = false) :
    accessFault s acc addr .word = some (.busError (BitVec.ofNat 32 (busAddr addr + 1)) acc) := by
  simp [accessFault, h, firstByte, byteAddr_busAddr_zero, h0, h1]

/-! ## The conditions of the branches (R239) -/

theorem Ccr.always_iff (k : Ccr) : k.always = true ↔ True := by simp [Ccr.always]
theorem Ccr.hi_iff (k : Ccr) : k.hi = true ↔ k.c = false ∧ k.z = false := by simp [Ccr.hi]
theorem Ccr.ls_iff (k : Ccr) : k.ls = true ↔ k.c = true ∨ k.z = true := by simp [Ccr.ls]
theorem Ccr.cc_iff (k : Ccr) : k.cc = true ↔ k.c = false := by simp [Ccr.cc]
theorem Ccr.cs_iff (k : Ccr) : k.cs = true ↔ k.c = true := Iff.rfl
theorem Ccr.ne_iff (k : Ccr) : k.ne = true ↔ k.z = false := by simp [Ccr.ne]
theorem Ccr.eq_iff (k : Ccr) : k.eq = true ↔ k.z = true := Iff.rfl
theorem Ccr.vc_iff (k : Ccr) : k.vc = true ↔ k.v = false := by simp [Ccr.vc]
theorem Ccr.vs_iff (k : Ccr) : k.vs = true ↔ k.v = true := Iff.rfl
theorem Ccr.pl_iff (k : Ccr) : k.pl = true ↔ k.n = false := by simp [Ccr.pl]
theorem Ccr.mi_iff (k : Ccr) : k.mi = true ↔ k.n = true := Iff.rfl
theorem Ccr.ge_iff (k : Ccr) : k.ge = true ↔ k.n = k.v := by simp [Ccr.ge]
theorem Ccr.lt_iff (k : Ccr) : k.lt = true ↔ k.n ≠ k.v := by simp [Ccr.lt]
theorem Ccr.gt_iff (k : Ccr) : k.gt = true ↔ k.z = false ∧ k.n = k.v := by simp [Ccr.gt]
theorem Ccr.le_iff (k : Ccr) : k.le = true ↔ k.z = true ∨ k.n ≠ k.v := by simp [Ccr.le]

end Sys2Proof.Machine
end

section
/-! Steps that fetch, decode or refuse; what ends a run; the invariant; the frame of every
instruction; the branches. -/

namespace Sys2Proof.Claims

open Sys2Proof.Machine

/-! ## One step -/

/-- Settles O5. -/
theorem stepRunsDecodedInstruction : Obligations.StepRunsDecodedInstruction := by
  intro s i rest hs hf hd
  obtain ⟨j, rest', hd', hj⟩ | ⟨hno, -⟩ := fetchInstr_of_fetch hf
  · rw [hd] at hd'
    obtain ⟨rfl, -⟩ := Prod.mk.inj (Except.ok.inj hd')
    exact step_of_instr hs hj
  · exact absurd hd (hno i rest)

/-- Settles O7: the checks of the fetch in their order, then the decoder's refusal. -/
theorem fetchAndDecodeExceptions : Obligations.FetchAndDecodeExceptions := by
  intro s hs
  refine ⟨fun hodd => ?_, fun hev h0 => ?_, fun hev h0 h1 => ?_, fun hf hno => ?_⟩
  · exact step_of_exception hs (fetchInstr_of_fault (accessFault_word_odd hodd))
  · exact step_of_exception hs (fetchInstr_of_fault (accessFault_word_unmapped_first hev h0))
  · exact step_of_exception hs (fetchInstr_of_fault (accessFault_word_unmapped_second hev h0 h1))
  · obtain ⟨i, rest, hd, -⟩ | ⟨-, he⟩ := fetchInstr_of_fetch hf
    · exact absurd hd (hno i rest)
    · exact step_of_exception hs he

/-- Settles O8: a running state steps to what its instruction, or the exception of its fetch,
leaves. -/
theorem stepEnabledOnlyWhileRunning : Obligations.StepEnabledOnlyWhileRunning := by
  refine ⟨fun s hs => ?_, fun s hs => ?_, fun s r hs => ?_⟩
  · cases h : fetchInstr s with
    | instr i =>
      rw [step_of_instr hs h]
      exact exec_answers i s
    | exception e s' => exact ⟨_, step_of_exception hs h⟩
  · simp only [step, hs]
  · simp only [step, hs]

/-! ## The status -/

/-- The status is kept, or the instruction is STOP and has stopped the machine. -/
def StatusRel (i : Instr) (s t : State) : Prop :=
  t.status = s.status ∨ (t.status = .stopped ∧ ∃ imm, i = .stop imm)

theorem statusRel_instrRel (i : Instr) : InstrRel i (StatusRel i) where
  operands :=
    { refl := fun _ => .inl rfl
      trans := fun s t u h h' => by
        obtain h' | h' := h'
        · obtain h | ⟨h, hi⟩ := h
          · exact .inl (h'.trans h)
          · exact .inr ⟨h'.trans h, hi⟩
        · exact .inr h'
      setPc := fun _ => .inl rfl
      setA := fun _ _ _ _ => .inl rfl }
  setD _ _ _ _ := .inl rfl
  setCcr _ _ _ := .inl rfl
  storeAt _ _ _ _ _ := .inl rfl
  setPc _ _ _ := .inl rfl
  setFreeCount _ _ _ := .inl rfl
  stop imm hi _ := .inr ⟨rfl, imm, hi⟩

/-- How an instruction can leave the status: kept, stopped by STOP, or faulted at the instruction.
-/
theorem exec_status {i : Instr} {s t : State} (h : exec i s = .next t) :
    t.status = s.status ∨ (t.status = .stopped ∧ ∃ imm, i = .stop imm) ∨
      ∃ e, t.status = .faulted ⟨e, s.pc⟩ := by
  obtain (hk | hk) | ⟨e, s', -, rfl⟩ := exec_keeps (statusRel_instrRel i).keeps_body h
  · exact .inl hk
  · exact .inr (.inl hk)
  · exact .inr (.inr ⟨e, rfl⟩)

/-- Settles O9: an exception of the fetch faults, and every instruction but STOP keeps the status or
faults. -/
theorem onlyStopAndExceptionsEndARun : Obligations.OnlyStopAndExceptionsEndARun := by
  intro s t hs hstep hend
  obtain ⟨i, hi, hx⟩ | ⟨e, s', -, rfl⟩ := (step_eq_next hs).1 hstep
  · obtain hk | ⟨hst, imm, rfl⟩ | he := exec_status hx
    · exact absurd (hk.trans hs) hend
    · exact .inl ⟨hst, imm, hi⟩
    · exact .inr he
  · exact .inr ⟨e, rfl⟩

/-! ## The invariant -/

/-- Memory stays canonical, pc even, and a state that still runs has the sr_high it had. -/
structure InvRel (s t : State) : Prop where
  mem : Memory.wf s.mem = true → Memory.wf t.mem = true
  pc : s.pc.getLsbD 0 = false → t.pc.getLsbD 0 = false
  srHigh : t.status = .running → s.status = .running ∧ t.srHigh = s.srHigh

theorem InvRel.refl (s : State) : InvRel s s := ⟨id, id, fun h => ⟨h, rfl⟩⟩

theorem InvRel.trans {s t u : State} (h : InvRel s t) (h' : InvRel t u) : InvRel s u where
  mem := h'.mem ∘ h.mem
  pc := h'.pc ∘ h.pc
  srHigh hu := by
    obtain ⟨ht, hut⟩ := h'.srHigh hu
    obtain ⟨hs, hts⟩ := h.srHigh ht
    exact ⟨hs, hut.trans hts⟩

theorem InvRel.setPc (s : State) {v : Long} (h : s.pc.getLsbD 0 = false → v.getLsbD 0 = false) :
    InvRel s (s.setPc v) := ⟨id, h, fun h => ⟨h, rfl⟩⟩

theorem InvRel.afterOpword (s : State) : InvRel s s.afterOpword :=
  InvRel.setPc s (pc_add_two s.pc).trans

theorem InvRel.takeException (e : Exc) (a : Long) (s : State) : InvRel s (takeException e a s) :=
  ⟨id, id, fun h => (nomatch h)⟩

theorem invRel_instrRel (i : Instr) : InstrRel i InvRel where
  operands :=
    { refl := InvRel.refl
      trans := fun _ _ _ => InvRel.trans
      setPc := fun s => InvRel.setPc s (pc_add_two s.pc).trans
      setA := fun _ _ _ _ => ⟨id, id, fun h => ⟨h, rfl⟩⟩ }
  setD _ _ _ _ := ⟨id, id, fun h => ⟨h, rfl⟩⟩
  setCcr _ _ _ := ⟨id, id, fun h => ⟨h, rfl⟩⟩
  storeAt _ _ _ _ _ := ⟨Memory.wf_writeBytes _ _ _, id, fun h => ⟨h, rfl⟩⟩
  setPc s _ hv := InvRel.setPc s fun _ => hv
  setFreeCount _ _ _ := ⟨id, id, fun h => ⟨h, rfl⟩⟩
  stop _ _ _ := ⟨id, id, fun h => (nomatch h)⟩

theorem exec_invRel {i : Instr} {s t : State} (h : exec i s = .next t) : InvRel s t := by
  obtain hk | ⟨e, s', hk, rfl⟩ := exec_keeps (invRel_instrRel i).keeps_body h
  · exact (InvRel.afterOpword s).trans hk
  · exact ((InvRel.afterOpword s).trans hk).trans (.takeException e s.pc s')

theorem step_invRel {s t : State} (h : step s = .next t) : InvRel s t := by
  obtain ⟨i, -, hx⟩ | ⟨e, s', hf, rfl⟩ := (step_eq_next (running_of_step h)).1 h
  · exact exec_invRel hx
  · refine InvRel.trans ?_ (.takeException e s.pc s')
    obtain rfl | rfl := fetchInstr_exception hf
    · exact InvRel.refl _
    · exact InvRel.afterOpword s

theorem inv_of_invRel {s t : State} (h : s.Inv) (hr : InvRel s t) : t.Inv := by
  obtain ⟨hmem, hpc, hsr⟩ := h
  refine ⟨hr.mem hmem, hr.pc hpc, fun ht => ?_⟩
  obtain ⟨hs, heq⟩ := hr.srHigh ht
  exact heq.trans (hsr hs)

/-- Settles O14: every write an instruction makes keeps the three parts of the invariant. -/
theorem stepKeepsInvariant : Obligations.StepKeepsInvariant :=
  fun _ _ hs h => inv_of_invRel hs (step_invRel h)

/-- Settles O12. -/
theorem resetIsTheLaunchState : Obligations.ResetIsTheLaunchState := by
  unfold Obligations.ResetIsTheLaunchState
  decide

/-- Settles O13. -/
theorem resetKeepsInvariant : Obligations.ResetKeepsInvariant :=
  ⟨reset_mem_wf, by decide, fun _ => rfl⟩

/-! ## The frame -/

/-- What the footprint of `i` does not name is the same in `t` as in `s`. -/
structure FrameRel (i : Instr) (s t : State) : Prop where
  dreg : ∀ q, q ∉ (footprint i).dregs → t.dreg q = s.dreg q
  areg : ∀ q, q ∉ (footprint i).aregs → t.areg q = s.areg q
  ccr : (footprint i).flags.Agree s.ccr t.ccr
  srHigh : (∀ imm, i ≠ .stop imm) → t.srHigh = s.srHigh
  memMap : t.memMap = s.memMap
  progText : t.progText = s.progText
  freeCount : (∀ e r, i ≠ .divu e r ∧ i ≠ .divs e r) → t.freeCount = s.freeCount

theorem FrameRel.refl (i : Instr) (s : State) : FrameRel i s s :=
  ⟨fun _ _ => rfl, fun _ _ => rfl, .refl _ _, fun _ => rfl, rfl, rfl, fun _ => rfl⟩

theorem FrameRel.trans {i : Instr} {s t u : State} (h : FrameRel i s t) (h' : FrameRel i t u) :
    FrameRel i s u where
  dreg q hq := (h'.dreg q hq).trans (h.dreg q hq)
  areg q hq := (h'.areg q hq).trans (h.areg q hq)
  ccr := h.ccr.trans h'.ccr
  srHigh hi := (h'.srHigh hi).trans (h.srHigh hi)
  memMap := h'.memMap.trans h.memMap
  progText := h'.progText.trans h.progText
  freeCount hi := (h'.freeCount hi).trans (h.freeCount hi)

/-- Taking an exception changes nothing of the frame, and neither do pc and memory. -/
theorem FrameRel.of_same {i : Instr} {s t : State} (hd : t.d = s.d) (ha : t.a = s.a)
    (hc : t.ccr = s.ccr) (hsr : t.srHigh = s.srHigh) (hm : t.memMap = s.memMap)
    (hp : t.progText = s.progText) (hf : t.freeCount = s.freeCount) : FrameRel i s t where
  dreg q _ := by simp only [State.dreg, hd]
  areg q _ := by simp only [State.areg, ha]
  ccr := hc ▸ .refl _ _
  srHigh _ := hsr
  memMap := hm
  progText := hp
  freeCount _ := hf

theorem frameRel_instrRel (i : Instr) : InstrRel i (FrameRel i) where
  operands :=
    { refl := .refl i
      trans := fun _ _ _ => .trans
      setPc := fun _ => .of_same rfl rfl rfl rfl rfl rfl rfl
      setA := fun s r v hr =>
        { FrameRel.refl i s with
          areg := fun _ hq => State.setA_areg_other s v fun h => hq (h ▸ hr) } }
  setD s r v hr :=
    { FrameRel.refl i s with
      dreg := fun _ hq => State.setD_dreg_other s v fun h => hq (h ▸ hr) }
  setCcr s k hk := { FrameRel.refl i s with ccr := hk }
  storeAt _ _ _ _ _ := .of_same rfl rfl rfl rfl rfl rfl rfl
  setPc _ _ _ := .of_same rfl rfl rfl rfl rfl rfl rfl
  setFreeCount hi s k :=
    { FrameRel.refl i s with
      freeCount := fun hne => by
        obtain ⟨e, r, h | h⟩ := hi
        · exact absurd h (hne e r).1
        · exact absurd h (hne e r).2 }
  stop imm hi s :=
    { FrameRel.refl i s with
      ccr := by subst hi; exact allFlags_agree _ _
      srHigh := fun hne => absurd hi (hne imm) }

/-- No instruction changes what its footprint does not name, whether it completes or takes an
exception. -/
theorem exec_frameRel {i : Instr} {s t : State} (h : exec i s = .next t) : FrameRel i s t := by
  have hpc : FrameRel i s s.afterOpword := .of_same rfl rfl rfl rfl rfl rfl rfl
  obtain hk | ⟨e, s', hk, rfl⟩ := exec_keeps (frameRel_instrRel i).keeps_body h
  · exact hpc.trans hk
  · exact (hpc.trans hk).trans (.of_same rfl rfl rfl rfl rfl rfl rfl)

/-- Settles O16, by the frame of every instruction. -/
theorem registerFrame : Obligations.RegisterFrame := by
  intro i s t h
  have hf := exec_frameRel h
  exact ⟨hf.dreg, hf.areg, hf.srHigh, hf.memMap, hf.progText, hf.freeCount⟩

/-- Settles O17, by the frame of every instruction. -/
theorem flagFrame : Obligations.FlagFrame := fun _ _ _ h => (exec_frameRel h).ccr

/-! ## The branches -/

theorem getLsbD_zero_iff_odd (x : Long) : x.getLsbD 0 = true ↔ x.toNat % 2 = 1 := by
  rw [← BitVec.testBit_toNat, Nat.testBit_zero, decide_eq_true_iff]

/-- A displacement whose word can be fetched is read, pc moving behind it (R100). -/
theorem readDisp_of_readable {d : Disp} {s : State} (h : DispReadable d s) :
    readDisp d s = .ok (dispValue d) (s.setPc (s.pc + dispBytes d)) := by
  cases d with
  | short d =>
    have hpc : s.setPc (s.pc + dispBytes (.short d)) = s := by simp [dispBytes, State.setPc]
    rw [hpc]
    rfl
  | long d => exact M.bind_ok (fetchExt_of_canFetch h)

/-- A branch whose displacement can be read: to its target, AddressError at an odd one, or on behind
its words (R240). -/
theorem branch_of_readable {c : Ccr → Bool} {d : Disp} {s : State} (h : DispReadable d s) :
    branch c d s =
      if c s.ccr then
        if (s.pc + dispValue d).getLsbD 0 then
          .error (.addressError (s.pc + dispValue d) .fetch) (s.setPc (s.pc + dispBytes d))
        else .ok () (s.setPc (s.pc + dispValue d))
      else .ok () (s.setPc (s.pc + dispBytes d)) := by
  rw [branch_apply, readDisp_of_readable h]
  rfl

/-- An instruction whose body is a branch on `c` completes as a branch on `cond`, when `c` computes
`cond` (R240). -/
theorem completesBranch_of_body {cond : Ccr → Prop} {c : Ccr → Bool} {i : Disp → Instr}
    (hb : ∀ d, body (i d) = branch c d) (hc : ∀ k, c k = true ↔ cond k) :
    CompletesBranch cond i := by
  intro s d hd
  have hbody := branch_of_readable (c := c) hd
  rw [← hb] at hbody
  have hodd := getLsbD_zero_iff_odd (s.pc + 2#32 + dispValue d)
  refine ⟨fun hk heven => ?_, fun hk ho => ?_, fun hk => ?_⟩
  · have hbit : ¬(s.pc + 2#32 + dispValue d).getLsbD 0 = true := by rw [hodd]; omega
    exact exec_eq_next.2 (.inl (hbody.trans ((if_pos ((hc _).2 hk)).trans (if_neg hbit))))
  · exact exec_eq_next.2 (.inr ⟨_, _,
      hbody.trans ((if_pos ((hc _).2 hk)).trans (if_pos (hodd.2 ho))), rfl⟩)
  · exact exec_eq_next.2 (.inl (hbody.trans (if_neg (mt (hc _).1 hk))))

/-- Settles O53: each branch by its own condition (R239). -/
theorem branchesComplete : Obligations.BranchesComplete :=
  ⟨completesBranch_of_body (fun _ => rfl) Ccr.always_iff,
    completesBranch_of_body (fun _ => rfl) Ccr.hi_iff,
    completesBranch_of_body (fun _ => rfl) Ccr.ls_iff,
    completesBranch_of_body (fun _ => rfl) Ccr.cc_iff,
    completesBranch_of_body (fun _ => rfl) Ccr.cs_iff,
    completesBranch_of_body (fun _ => rfl) Ccr.ne_iff,
    completesBranch_of_body (fun _ => rfl) Ccr.eq_iff,
    completesBranch_of_body (fun _ => rfl) Ccr.vc_iff,
    completesBranch_of_body (fun _ => rfl) Ccr.vs_iff,
    completesBranch_of_body (fun _ => rfl) Ccr.pl_iff,
    completesBranch_of_body (fun _ => rfl) Ccr.mi_iff,
    completesBranch_of_body (fun _ => rfl) Ccr.ge_iff,
    completesBranch_of_body (fun _ => rfl) Ccr.lt_iff,
    completesBranch_of_body (fun _ => rfl) Ccr.gt_iff,
    completesBranch_of_body (fun _ => rfl) Ccr.le_iff⟩

end Sys2Proof.Claims
end

section
/-! Parts of an instruction that neither read nor write sr_high: with another value there they
answer or raise the same, and leave that value in the state. Every instruction but STOP is such a
part. -/

namespace Sys2Proof.Machine

/-- What a part answered or raised, with `v` in sr_high of the state it left. -/
def resultSrHigh {α : Type} (v : Byte) : EStateM.Result Exc State α → EStateM.Result Exc State α
  | .ok a t => .ok a (t.setSrHigh v)
  | .error e t => .error e (t.setSrHigh v)

/-- The part neither reads nor writes sr_high. -/
def IgnoresSrHigh {α : Type} (m : M α) : Prop :=
  ∀ s v, m (s.setSrHigh v) = resultSrHigh v (m s)

namespace IgnoresSrHigh

theorem ok {α : Type} {m : M α} (h : IgnoresSrHigh m) {s t : State} {a : α} (hm : m s = .ok a t)
    (v : Byte) : m (s.setSrHigh v) = .ok a (t.setSrHigh v) := by rw [h, hm]; rfl

theorem error {α : Type} {m : M α} (h : IgnoresSrHigh m) {s t : State} {e : Exc}
    (hm : m s = .error e t) (v : Byte) : m (s.setSrHigh v) = .error e (t.setSrHigh v) := by
  rw [h, hm]; rfl

theorem pure {α : Type} (a : α) : IgnoresSrHigh (pure a : M α) := fun _ _ => rfl

theorem bind {α β : Type} {m : M α} {f : α → M β} (hm : IgnoresSrHigh m)
    (hf : ∀ a, IgnoresSrHigh (f a)) : IgnoresSrHigh (m >>= f) := by
  intro s v
  rw [M.bind_apply, M.bind_apply, hm s v]
  cases m s with
  | ok a t => exact hf a t v
  | error e t => rfl

/-! ### Registers, flags, memory -/

theorem readD (sz : Size) (r : Reg) : IgnoresSrHigh (readD sz r) := fun _ _ => rfl
theorem readA (sz : Size) (r : Reg) : IgnoresSrHigh (readA sz r) := fun _ _ => rfl
theorem readALong (r : Reg) : IgnoresSrHigh (readALong r) := fun _ _ => rfl
theorem writeD (sz : Size) (r : Reg) (x : BitVec sz.bits) : IgnoresSrHigh (writeD sz r x) :=
  fun _ _ => rfl
theorem writeDLong (r : Reg) (x : Long) : IgnoresSrHigh (writeDLong r x) := fun _ _ => rfl
theorem writeALong (r : Reg) (x : Long) : IgnoresSrHigh (writeALong r x) := fun _ _ => rfl
theorem readPc : IgnoresSrHigh readPc := fun _ _ => rfl
theorem writePc (x : Long) : IgnoresSrHigh (writePc x) := fun _ _ => rfl
theorem readCcr : IgnoresSrHigh readCcr := fun _ _ => rfl
theorem writeCcr (k : Ccr) : IgnoresSrHigh (writeCcr k) := fun _ _ => rfl
theorem raise {α : Type} (e : Exc) : IgnoresSrHigh (raise e : M α) := fun _ _ => rfl
theorem drawBit : IgnoresSrHigh drawBit := fun _ _ => rfl
theorem regCount (r : Reg) : IgnoresSrHigh (regCount r) := fun _ _ => rfl
theorem dynamicBit (r : Reg) : IgnoresSrHigh (dynamicBit r) := fun _ _ => rfl

theorem memRead (acc : Access) (addr : Long) (sz : Size) : IgnoresSrHigh (memRead acc addr sz) := by
  intro s v
  have hf : accessFault (s.setSrHigh v) acc addr sz = accessFault s acc addr sz :=
    accessFault_congr rfl acc addr sz
  rw [memRead_apply, memRead_apply, hf]
  cases accessFault s acc addr sz <;> rfl

theorem memWrite (addr : Long) (sz : Size) (x : BitVec sz.bits) :
    IgnoresSrHigh (memWrite addr sz x) := by
  intro s v
  have hf : writeFault (s.setSrHigh v) addr sz = writeFault s addr sz :=
    writeFault_congr rfl rfl addr sz
  rw [memWrite_apply, memWrite_apply, hf]
  cases writeFault s addr sz <;> rfl

theorem fetch16 : IgnoresSrHigh fetch16 :=
  readPc.bind fun _ => (memRead _ _ _).bind fun _ => (writePc _).bind fun _ => pure _

theorem fetchExt : IgnoresSrHigh fetchExt := fetch16.bind fun _ => pure _

/-! ### Operands -/

theorem indexEa (base : Long) (ix : IndexExt) : IgnoresSrHigh (indexEa base ix) :=
  fetchExt.bind fun _ _ _ => rfl

theorem resolveMem (sz : Size) (m : MemEa) : IgnoresSrHigh (resolveMem sz m) := by
  cases m with
  | ind r => exact readALong r
  | postInc r => exact (readALong r).bind fun _ => (writeALong r _).bind fun _ => pure _
  | preDec r => exact (readALong r).bind fun _ => (writeALong r _).bind fun _ => pure _
  | disp r d => exact (readALong r).bind fun _ => fetchExt.bind fun _ => pure _
  | index r ix => exact (readALong r).bind fun _ => indexEa _ ix
  | absW w => exact fetchExt.bind fun _ => pure _
  | absL a => exact fetchExt.bind fun _ => fetchExt.bind fun _ => pure _

theorem resolve (sz : Size) (e : DataAltEa) : IgnoresSrHigh (resolve sz e) := by
  cases e with
  | dn r => exact pure _
  | mem m => exact (resolveMem sz m).bind fun _ => pure _

theorem readLoc (sz : Size) (l : Loc) : IgnoresSrHigh (readLoc sz l) := by
  cases l with
  | dreg r => exact readD sz r
  | mem a => exact memRead .read a sz

theorem writeLoc (sz : Size) (l : Loc) (x : BitVec sz.bits) : IgnoresSrHigh (writeLoc sz l x) := by
  cases l with
  | dreg r => exact writeD sz r x
  | mem a => exact memWrite a sz x

theorem fetchImm (sz : Size) : IgnoresSrHigh (fetchImm sz) := by
  cases sz with
  | byte => exact fetchExt
  | word => exact fetchExt
  | long => exact fetchExt.bind fun _ => fetchExt

theorem readImm (sz : Size) (x : BitVec sz.bits) : IgnoresSrHigh (readImm sz x) :=
  (fetchImm sz).bind fun _ => pure _

theorem readData (sz : Size) (e : DataEa) : IgnoresSrHigh (readData sz e) := by
  cases e with
  | alt e => exact (resolve sz e).bind fun l => readLoc sz l
  | pcDisp d => exact readPc.bind fun _ => fetchExt.bind fun _ => memRead .read _ sz
  | pcIndex ix => exact readPc.bind fun _ => (indexEa _ ix).bind fun _ => memRead .read _ sz
  | imm x => exact readImm sz _

theorem readAny (sz : Size) (e : AnyEa) : IgnoresSrHigh (readAny sz e) := by
  cases e with
  | an r => exact readA sz r
  | data e => exact readData sz e

theorem staticBit (k : Byte) : IgnoresSrHigh (staticBit k) := fetchExt.bind fun _ => pure _

theorem readDisp (d : Disp) : IgnoresSrHigh (readDisp d) := by
  cases d with
  | short d => exact pure _
  | long d => exact fetchExt.bind fun _ => pure _

/-! ### The shapes of instructions -/

section
variable {sz : Size} {src : M (BitVec sz.bits)}

theorem aluToDn (f : Alu) (hsrc : IgnoresSrHigh src) (r : Reg) :
    IgnoresSrHigh (aluToDn sz f src r) :=
  hsrc.bind fun _ => (readD sz r).bind fun _ => readCcr.bind fun _ =>
    (writeD sz r _).bind fun _ => writeCcr _

theorem aluToEa (f : Alu) (hsrc : IgnoresSrHigh src) (dst : DataAltEa) :
    IgnoresSrHigh (aluToEa sz f src dst) :=
  hsrc.bind fun _ => (resolve sz dst).bind fun l => (readLoc sz l).bind fun _ =>
    readCcr.bind fun _ => (writeLoc sz l _).bind fun _ => writeCcr _

theorem compareDn (hsrc : IgnoresSrHigh src) (r : Reg) : IgnoresSrHigh (compareDn sz src r) :=
  hsrc.bind fun _ => (readD sz r).bind fun _ => readCcr.bind fun _ => writeCcr _

theorem compareEa (hsrc : IgnoresSrHigh src) (dst : DataAltEa) :
    IgnoresSrHigh (compareEa sz src dst) :=
  hsrc.bind fun _ => (resolve sz dst).bind fun l => (readLoc sz l).bind fun _ =>
    readCcr.bind fun _ => writeCcr _

theorem unaryEa (f : Alu1) (dst : DataAltEa) : IgnoresSrHigh (unaryEa sz f dst) :=
  (resolve sz dst).bind fun l => (readLoc sz l).bind fun _ => readCcr.bind fun _ =>
    (writeLoc sz l _).bind fun _ => writeCcr _

theorem clearEa (dst : DataAltEa) : IgnoresSrHigh (clearEa sz dst) :=
  (resolve sz dst).bind fun l => readCcr.bind fun _ => (writeLoc sz l _).bind fun _ => writeCcr _

theorem moveEa (hsrc : IgnoresSrHigh src) (dst : DataAltEa) : IgnoresSrHigh (moveEa sz src dst) :=
  hsrc.bind fun _ => (resolve sz dst).bind fun l => readCcr.bind fun _ =>
    (writeLoc sz l _).bind fun _ => writeCcr _

theorem moveAny (op : Word) (src : AnyEa) (dst : DataAltEa) :
    IgnoresSrHigh (moveAny sz op src dst) := by
  unfold Machine.moveAny
  split
  · exact raise _
  · exact moveEa (readAny sz src) dst

theorem shiftV (op : ShiftOp) (b : Bool) : IgnoresSrHigh (shiftV op b) := by
  rw [shiftV_eq]
  exact pure _

theorem shiftDn (op : ShiftOp) {count : M Nat} (hc : IgnoresSrHigh count) (dy : Reg) :
    IgnoresSrHigh (shiftDn sz op count dy) :=
  hc.bind fun _ => (readD sz dy).bind fun _ => readCcr.bind fun _ => (shiftV op _).bind fun _ =>
    (writeD sz dy _).bind fun _ => writeCcr _

end

theorem setLongNZ (r : Reg) (x : Long) : IgnoresSrHigh (setLongNZ r x) :=
  readCcr.bind fun _ => (writeDLong r x).bind fun _ => writeCcr _

theorem multiplyDn (product : Word → Word → Long) {src : M Word} (hsrc : IgnoresSrHigh src)
    (r : Reg) : IgnoresSrHigh (multiplyDn product src r) :=
  hsrc.bind fun _ => (readD .word r).bind fun _ => setLongNZ r _

theorem divideDn (divide : Long → Word → Option (Word × Word)) {src : M Word}
    (hsrc : IgnoresSrHigh src) (r : Reg) : IgnoresSrHigh (divideDn divide src r) := by
  refine hsrc.bind fun m => (readD .long r).bind fun n => readCcr.bind fun k => ?_
  split
  · exact raise _
  · split
    · exact drawBit.bind fun _ => drawBit.bind fun _ => writeCcr _
    · exact (writeDLong r _).bind fun _ => writeCcr _

theorem writeBitZ (b : Bool) : IgnoresSrHigh (writeBitZ b) := readCcr.bind fun _ => writeCcr _

theorem testBit {number : M Nat} (hn : IgnoresSrHigh number) (src : DataEa) :
    IgnoresSrHigh (testBit number src) := by
  refine hn.bind fun k => ?_
  split
  · exact (readD .long _).bind fun _ => writeBitZ _
  · exact (readData .byte _).bind fun _ => writeBitZ _

theorem changeBit (op : BitOp) {number : M Nat} (hn : IgnoresSrHigh number) (dst : DataAltEa) :
    IgnoresSrHigh (changeBit op number dst) := by
  refine hn.bind fun k => (resolve .byte dst).bind fun l => ?_
  cases l with
  | dreg r => exact (readD .long r).bind fun _ => (writeDLong r _).bind fun _ => writeBitZ _
  | mem a =>
    exact (memRead .read a .byte).bind fun _ => (memWrite a .byte _).bind fun _ => writeBitZ _

theorem branch (cond : Ccr → Bool) (disp : Disp) : IgnoresSrHigh (branch cond disp) := by
  refine readPc.bind fun base => (readDisp disp).bind fun d => readCcr.bind fun k => ?_
  split
  · dsimp only
    split
    · exact raise _
    · exact writePc _
  · exact pure _

/-- No instruction but STOP has anything to do with sr_high (R35). -/
theorem body {i : Instr} (hi : ∀ imm, i ≠ .stop imm) : IgnoresSrHigh (body i) := by
  cases i with
  | addBEaDn src dn | subBEaDn src dn
  | andBEaDn src dn | andWEaDn src dn | andLEaDn src dn
  | orBEaDn src dn | orWEaDn src dn | orLEaDn src dn => exact aluToDn _ (readData _ src) dn
  | addWEaDn src dn | addLEaDn src dn | subWEaDn src dn | subLEaDn src dn =>
    exact aluToDn _ (readAny _ src) dn
  | addBDnEa dn dst | addWDnEa dn dst | addLDnEa dn dst
  | subBDnEa dn dst | subWDnEa dn dst | subLDnEa dn dst
  | andBDnEa dn dst | andWDnEa dn dst | andLDnEa dn dst
  | orBDnEa dn dst | orWDnEa dn dst | orLDnEa dn dst
  | eorB dn dst | eorW dn dst | eorL dn dst => exact aluToEa _ (readD _ dn) _
  | addiB imm dst | addiW imm dst | addiL imm dst
  | subiB imm dst | subiW imm dst | subiL imm dst
  | oriB imm dst | oriW imm dst | oriL imm dst
  | andiB imm dst | andiW imm dst | andiL imm dst
  | eoriB imm dst | eoriW imm dst | eoriL imm dst => exact aluToEa _ (readImm _ _) dst
  | cmpB src dn => exact compareDn (readData _ src) dn
  | cmpW src dn | cmpL src dn => exact compareDn (readAny _ src) dn
  | cmpiB imm dst | cmpiW imm dst | cmpiL imm dst => exact compareEa (readImm _ _) dst
  | negB dst | negW dst | negL dst | notB dst | notW dst | notL dst => exact unaryEa _ dst
  | clrB dst | clrW dst | clrL dst => exact clearEa dst
  | moveB src dst => exact moveEa (readData _ src) dst
  | moveW src dst | moveL src dst => exact moveAny _ src dst
  | mulu src dn | muls src dn => exact multiplyDn _ (readData _ src) dn
  | divu src dn | divs src dn => exact divideDn _ (readData _ src) dn
  | extW dn => exact (readD _ dn).bind fun _ => readCcr.bind fun _ =>
      (writeD .word dn _).bind fun _ => writeCcr _
  | extL dn | swap dn => exact (readD _ dn).bind fun _ => setLongNZ dn _
  | exgDD | exgAA | exgDA => exact fun _ _ => rfl
  | aslBImm ccc dy | aslWImm ccc dy | aslLImm ccc dy | asrBImm ccc dy | asrWImm ccc dy
  | asrLImm ccc dy | lslBImm ccc dy | lslWImm ccc dy | lslLImm ccc dy | lsrBImm ccc dy
  | lsrWImm ccc dy | lsrLImm ccc dy | roxlBImm ccc dy | roxlWImm ccc dy | roxlLImm ccc dy
  | roxrBImm ccc dy | roxrWImm ccc dy | roxrLImm ccc dy | rolBImm ccc dy | rolWImm ccc dy
  | rolLImm ccc dy | rorBImm ccc dy | rorWImm ccc dy | rorLImm ccc dy =>
    exact shiftDn _ (pure _) dy
  | aslBReg dx dy | aslWReg dx dy | aslLReg dx dy | asrBReg dx dy | asrWReg dx dy
  | asrLReg dx dy | lslBReg dx dy | lslWReg dx dy | lslLReg dx dy | lsrBReg dx dy
  | lsrWReg dx dy | lsrLReg dx dy | roxlBReg dx dy | roxlWReg dx dy | roxlLReg dx dy
  | roxrBReg dx dy | roxrWReg dx dy | roxrLReg dx dy | rolBReg dx dy | rolWReg dx dy
  | rolLReg dx dy | rorBReg dx dy | rorWReg dx dy | rorLReg dx dy =>
    exact shiftDn _ (regCount dx) dy
  | btstDyn dn src => exact testBit (dynamicBit dn) src
  | btstStatic k src => exact testBit (staticBit k) src
  | bchgDyn dn dst | bclrDyn dn dst | bsetDyn dn dst => exact changeBit _ (dynamicBit dn) dst
  | bchgStatic k dst | bclrStatic k dst | bsetStatic k dst => exact changeBit _ (staticBit k) dst
  | bra disp | bhi disp | bls disp | bcc disp | bcs disp | bne disp | beq disp | bvc disp
  | bvs disp | bpl disp | bmi disp | bge disp | blt disp | bgt disp | ble disp =>
    exact branch _ disp
  | stop imm => exact absurd rfl (hi imm)

end IgnoresSrHigh

/-! ## One step -/

theorem peekWords_setSrHigh (s : State) (v : Byte) (n : Nat) (addr : Long) :
    peekWords (s.setSrHigh v) n addr = peekWords s n addr := by
  induction n generalizing addr with
  | zero => rfl
  | succ n ih =>
    have hf : accessFault (s.setSrHigh v) .fetch addr .word = accessFault s .fetch addr .word :=
      accessFault_congr rfl _ _ _
    simp only [peekWords, hf, ih, State.setSrHigh_valueAt]

/-- What stands at pc, with `v` in sr_high of the state an exception is raised in. -/
def fetchedSrHigh (v : Byte) : Fetched → Fetched
  | .instr i => .instr i
  | .exception e s => .exception e (s.setSrHigh v)

/-- What stands at pc does not depend on sr_high. -/
theorem fetchInstr_setSrHigh (s : State) (v : Byte) :
    fetchInstr (s.setSrHigh v) = fetchedSrHigh v (fetchInstr s) := by
  unfold fetchInstr
  rw [IgnoresSrHigh.fetch16 s v]
  cases fetch16 s with
  | error e t => rfl
  | ok w t =>
    simp only [resultSrHigh, State.setSrHigh_pc, peekWords_setSrHigh]
    cases decode (w :: peekWords t 4 t.pc) <;> rfl

/-- An instruction but STOP does the same with another value in sr_high, and leaves it there. -/
theorem exec_setSrHigh {i : Instr} {s t : State} (hi : ∀ imm, i ≠ .stop imm)
    (h : exec i s = .next t) (v : Byte) : exec i (s.setSrHigh v) = .next (t.setSrHigh v) := by
  have hb := IgnoresSrHigh.body hi
  obtain hok | ⟨e, s', herr, rfl⟩ := exec_eq_next.1 h
  · exact exec_eq_next.2 (.inl (hb.ok hok v))
  · exact exec_eq_next.2 (.inr ⟨e, _, hb.error herr v, rfl⟩)

/-- STOP writes sr_high and stops, whatever sr_high held, or its operand's fetch raises. -/
theorem exec_stop_setSrHigh {imm : Word} {s t : State} (h : exec (.stop imm) s = .next t)
    (v : Byte) :
    (t.status = .stopped ∧ exec (.stop imm) (s.setSrHigh v) = .next t) ∨
      (t.status ≠ .stopped ∧ exec (.stop imm) (s.setSrHigh v) = .next (t.setSrHigh v)) := by
  have hfetch := IgnoresSrHigh.fetchExt s.afterOpword v
  have hbody (u : State) : body (.stop imm) u = _ := stopWith_apply (s := u) imm
  simp only [exec_eq_execute, execute, complete, hbody] at h ⊢
  cases hf : fetchExt s.afterOpword with
  | ok u s1 =>
    rw [hf] at h hfetch
    cases h
    refine .inl ⟨rfl, ?_⟩
    rw [show fetchExt (s.setSrHigh v).afterOpword = _ from hfetch]
    rfl
  | error e s1 =>
    rw [hf] at h hfetch
    cases h
    refine .inr ⟨nofun, ?_⟩
    rw [show fetchExt (s.setSrHigh v).afterOpword = _ from hfetch]
    rfl

end Sys2Proof.Machine
end

section
/-! Nothing reads sr_high. -/

namespace Sys2Proof.Claims

open Sys2Proof.Machine

/-- Settles O56: STOP overwrites sr_high, and everything else leaves it alone. -/
theorem srHighIsReadByNothing : Obligations.SrHighIsReadByNothing := by
  intro s t v hstep
  have hs := running_of_step hstep
  have hs' : (s.setSrHigh v).status = .running := hs
  have hfetch := fetchInstr_setSrHigh s v
  obtain ⟨i, hi, hx⟩ | ⟨e, s', he, rfl⟩ := (step_eq_next hs).1 hstep
  · rw [hi] at hfetch
    rw [step_of_instr hs' hfetch]
    by_cases hstop : ∃ imm, i = .stop imm
    · obtain ⟨imm, rfl⟩ := hstop
      obtain ⟨hst, hx'⟩ | ⟨hst, hx'⟩ := exec_stop_setSrHigh hx v
      · exact ⟨fun _ => hx', fun hne => absurd hst hne⟩
      · exact ⟨fun h => absurd h hst, fun _ => hx'⟩
    · refine ⟨fun hst => ?_, fun _ => exec_setSrHigh (fun imm h => hstop ⟨imm, h⟩) hx v⟩
      obtain hk | ⟨-, himm⟩ | ⟨e, hk⟩ := exec_status hx
      · exact absurd (hst.symm.trans (hk.trans hs)) nofun
      · exact absurd himm hstop
      · exact absurd (hst.symm.trans hk) nofun
  · rw [he] at hfetch
    exact ⟨nofun, fun _ => step_of_exception hs' hfetch⟩

end Sys2Proof.Claims
end

section
/-! The decoder reads the encoding of a well-formed instruction back, so a machine whose memory
holds that encoding at pc runs the instruction. -/

namespace Sys2Proof

@[simp] theorem DecodeRes.map'_ok {α β : Type} (k : α → β) (a : α) (rest : List Word) :
    DecodeRes.map' k (.ok (a, rest)) = .ok (k a, rest) := rfl

/-- An opword made of its five fields goes to the decoder of its group with the other four (R81,
R83). -/
theorem decode_opword (g : BitVec 4) (f om mode reg : BitVec 3) (ws : List Word) :
    decode (opword g f om mode reg :: ws) =
      if g = 0x0#4 then decodeGroup0 f om mode reg ws
      else if g = 0x1#4 then decodeMoveB f om mode reg ws
      else if g = 0x2#4 then decodeMoveL f om mode reg ws
      else if g = 0x3#4 then decodeMoveW f om mode reg ws
      else if g = 0x4#4 then decodeGroup4 f om mode reg ws
      else if g = 0x6#4 then decodeBranch (opword g f om mode reg) ws
      else if g = 0x8#4 then decodeGroup8 f om mode reg ws
      else if g = 0x9#4 then decodeGroup9 f om mode reg ws
      else if g = 0xb#4 then decodeGroupB f om mode reg ws
      else if g = 0xc#4 then decodeGroupC f om mode reg ws
      else if g = 0xd#4 then decodeGroupD f om mode reg ws
      else if g = 0xe#4 then decodeShift f om mode reg ws
      else .error .noRow := by
  simp only [decode, decodeOp, opword_group, opword_f, opword_om, opword_mode, opword_reg]

/-! ## Branches -/

theorem branchWord_fields (cc : BitVec 4) (d : Byte) :
    ((0x6#4 ++ cc) ++ d : Word).extractLsb' 12 4 = 0x6#4 ∧
      ((0x6#4 ++ cc) ++ d : Word).extractLsb' 8 4 = cc ∧
      ((0x6#4 ++ cc) ++ d : Word).setWidth 8 = d := by
  refine ⟨?_, ?_, ?_⟩ <;>
  · apply BitVec.eq_of_getLsbD_eq
    intro i hi
    simp only [BitVec.getLsbD_extractLsb', BitVec.getLsbD_setWidth, BitVec.getLsbD_append]
    interval_cases i <;> rfl

theorem branchOp_group (cc : BitVec 4) (disp : Disp) :
    (branchOp cc disp).extractLsb' 12 4 = 0x6#4 := by
  cases disp <;> exact (branchWord_fields cc _).1

theorem branchOp_cc (cc : BitVec 4) (disp : Disp) : (branchOp cc disp).extractLsb' 8 4 = cc := by
  cases disp <;> exact (branchWord_fields cc _).2.1

theorem decode_branchOp (cc : BitVec 4) (disp : Disp) (ws : List Word) :
    decode (branchOp cc disp :: ws) = decodeBranch (branchOp cc disp) ws := by
  simp [decode, decodeOp, branchOp_group]

/-- A displacement that is not a short 0 comes back from the low byte of the opword and the words
after it (R100). -/
theorem branchOp_disp {disp : Disp} (h : disp.wf = true) (cc : BitVec 4) (rest : List Word) :
    (if (branchOp cc disp).setWidth 8 = 0#8 then
        DecodeRes.map' Disp.long (takeWord (disp.words ++ rest))
      else .ok (.short ((branchOp cc disp).setWidth 8), disp.words ++ rest)) =
      .ok (disp, rest) := by
  have hlow (d : Byte) : ((0x6#4 ++ cc) ++ d : Word).setWidth 8 = d := (branchWord_fields cc d).2.2
  cases disp with
  | short d =>
    have hd : d ≠ 0#8 := by simpa [Disp.wf] using h
    simp only [branchOp, hlow, if_neg hd, Disp.words, List.nil_append]
  | long d => simp only [branchOp, hlow, if_true, Disp.words, List.cons_append, List.nil_append,
      takeWord_cons, DecodeRes.map']

/-! ## The operand of a static bit test -/

/-- An operand that is not `#imm` has no immediate to fit. -/
theorem DataEa.immFits_of_notImm (e : DataEa) (h : e.notImm = true) (sz : Size) :
    e.immFits sz = true := by
  cases e with
  | imm v => exact absurd h (by simp [DataEa.notImm])
  | alt e => rfl
  | pcDisp d => rfl
  | pcIndex ix => rfl

/-- Mode 7, register 4 is `#imm` alone (R91). -/
theorem DataEa.not_imm_fields (e : DataEa) (h : e.notImm = true) :
    ¬(e.mode = 7#3 ∧ e.reg = 4#3) := by
  cases e with
  | imm v => exact absurd h (by simp [DataEa.notImm])
  | alt e => exact e.mode_reg.2.2
  | pcDisp d => simp [DataEa.mode, DataEa.reg]
  | pcIndex ix => simp [DataEa.mode, DataEa.reg]

/-! ## Every instruction -/

/-- The decoder reads back from the encoding of a well-formed instruction that instruction, and
leaves the words that follow (R80, R83, R105, R112). -/
theorem decode_encode_append {i : Instr} (hwf : i.wf = true) (rest : List Word) :
    decode (encode i ++ rest) = .ok (i, rest) := by
  cases i with
  | oriB imm dst | andiB imm dst | subiB imm dst | addiB imm dst | eoriB imm dst | cmpiB imm dst =>
    simp [encode, decode_opword, decodeGroup0, decodeImmB]
  | oriW imm dst | andiW imm dst | subiW imm dst | addiW imm dst | eoriW imm dst | cmpiW imm dst =>
    simp [encode, decode_opword, decodeGroup0, decodeImmW]
  | oriL imm dst | andiL imm dst | subiL imm dst | addiL imm dst | eoriL imm dst | cmpiL imm dst =>
    simp [encode, decode_opword, decodeGroup0, decodeImmL]
  | btstDyn dn src =>
    simp [encode, decode_opword, decodeGroup0, decodeBitDyn, decodeDataEa_words rest _ _ hwf]
  | bchgDyn dn dst | bclrDyn dn dst | bsetDyn dn dst =>
    simp [encode, decode_opword, decodeGroup0, decodeBitDyn]
  | btstStatic k src =>
    have hmode := src.not_imm_fields hwf
    have hfits := src.immFits_of_notImm hwf .byte
    simp [encode, decode_opword, decodeGroup0, decodeBitStatic, decodeDataEa_words rest _ _ hfits,
      hmode]
  | bchgStatic k dst | bclrStatic k dst | bsetStatic k dst =>
    simp [encode, decode_opword, decodeGroup0, decodeBitStatic]
  | moveB src dst =>
    simp [encode, decode_opword, decodeMoveB, decodeDataEa_words _ _ _ hwf]
  | moveL src dst =>
    obtain ⟨hfits, hmove⟩ : src.immFits .long = true ∧ moveRefused src dst = false := by
      simpa [Instr.wf] using hwf
    simp [encode, decode_opword, decodeMoveL, decodeAnyEa_words _ _ _ hfits, hmove]
  | moveW src dst =>
    obtain ⟨hfits, hmove⟩ : src.immFits .word = true ∧ moveRefused src dst = false := by
      simpa [Instr.wf] using hwf
    simp [encode, decode_opword, decodeMoveW, decodeAnyEa_words _ _ _ hfits, hmove]
  | negB dst | negW dst | negL dst | notB dst | notW dst | notL dst | clrB dst | clrW dst
  | clrL dst =>
    simp [encode, decode_opword, decodeGroup4]
  | extW dn | extL dn | swap dn => simp [encode, decode_opword, decodeGroup4]
  | stop imm => simp [encode, decode, decodeOp, decodeGroup4]
  | bra disp | bhi disp | bls disp | bcc disp | bcs disp | bne disp | beq disp | bvc disp
  | bvs disp | bpl disp | bmi disp | bge disp | blt disp | bgt disp | ble disp =>
    simp [encode, decode_branchOp, decodeBranch, branchOp_cc, branchOp_disp hwf]
  | orBEaDn src dn | orWEaDn src dn | orLEaDn src dn | divu src dn | divs src dn =>
    simp [encode, decode_opword, decodeGroup8, decodeDataEa_words rest _ _ hwf]
  | orBDnEa dn dst | orWDnEa dn dst | orLDnEa dn dst =>
    simp [encode, decode_opword, decodeGroup8]
  | subBEaDn src dn =>
    simp [encode, decode_opword, decodeGroup9, decodeDataEa_words rest _ _ hwf]
  | subWEaDn src dn | subLEaDn src dn =>
    simp [encode, decode_opword, decodeGroup9, decodeAnyEa_words rest _ _ hwf]
  | subBDnEa dn dst | subWDnEa dn dst | subLDnEa dn dst =>
    simp [encode, decode_opword, decodeGroup9]
  | cmpB src dn =>
    simp [encode, decode_opword, decodeGroupB, decodeDataEa_words rest _ _ hwf]
  | cmpW src dn | cmpL src dn =>
    simp [encode, decode_opword, decodeGroupB, decodeAnyEa_words rest _ _ hwf]
  | eorB dn dst | eorW dn dst | eorL dn dst =>
    simp [encode, decode_opword, decodeGroupB]
  | exgDD dx dy | exgAA ax ay | exgDA dx ay => simp [encode, decode_opword, decodeGroupC]
  | andBEaDn src dn | andWEaDn src dn | andLEaDn src dn | mulu src dn | muls src dn =>
    simp [encode, decode_opword, decodeGroupC, decodeDataEa_words rest _ _ hwf]
  | andBDnEa dn dst | andWDnEa dn dst | andLDnEa dn dst =>
    simp [encode, decode_opword, decodeGroupC, dst.mode_ne_zero, dst.mode_ne_one]
  | addBEaDn src dn =>
    simp [encode, decode_opword, decodeGroupD, decodeDataEa_words rest _ _ hwf]
  | addWEaDn src dn | addLEaDn src dn =>
    simp [encode, decode_opword, decodeGroupD, decodeAnyEa_words rest _ _ hwf]
  | addBDnEa dn dst | addWDnEa dn dst | addLDnEa dn dst =>
    simp [encode, decode_opword, decodeGroupD]
  | aslBImm ccc dy | aslWImm ccc dy | aslLImm ccc dy | asrBImm ccc dy | asrWImm ccc dy
  | asrLImm ccc dy | lslBImm ccc dy | lslWImm ccc dy | lslLImm ccc dy | lsrBImm ccc dy
  | lsrWImm ccc dy | lsrLImm ccc dy | roxlBImm ccc dy | roxlWImm ccc dy | roxlLImm ccc dy
  | roxrBImm ccc dy | roxrWImm ccc dy | roxrLImm ccc dy | rolBImm ccc dy | rolWImm ccc dy
  | rolLImm ccc dy | rorBImm ccc dy | rorWImm ccc dy | rorLImm ccc dy
  | aslBReg dx dy | aslWReg dx dy | aslLReg dx dy | asrBReg dx dy | asrWReg dx dy
  | asrLReg dx dy | lslBReg dx dy | lslWReg dx dy | lslLReg dx dy | lsrBReg dx dy
  | lsrWReg dx dy | lsrLReg dx dy | roxlBReg dx dy | roxlWReg dx dy | roxlLReg dx dy
  | roxrBReg dx dy | roxrWReg dx dy | roxrLReg dx dy | rolBReg dx dy | rolWReg dx dy
  | rolLReg dx dy | rorBReg dx dy | rorWReg dx dy | rorLReg dx dy =>
    simp [encode, decode_opword, decodeShift]

end Sys2Proof
end

section
/-! A machine whose memory holds the encoding of an instruction at pc runs that instruction. -/

namespace Sys2Proof.Machine

open Laws.EncodingLength in
/-- Every instruction is one opword and at most four extension words (R80). -/
theorem encode_length (i : Instr) : Statement i :=
  Instr.casesOn (motive := Statement) i
    addBEaDn addBDnEa addWEaDn addWDnEa addLEaDn addLDnEa subBEaDn subBDnEa subWEaDn subWDnEa
    subLEaDn subLDnEa andBEaDn andBDnEa andWEaDn andWDnEa andLEaDn andLDnEa orBEaDn orBDnEa
    orWEaDn orWDnEa orLEaDn orLDnEa eorB eorW eorL cmpB cmpW cmpL mulu muls divu divs extW extL
    negB negW negL notB notW notL clrB clrW clrL swap exgDD exgAA exgDA asrBImm asrBReg asrWImm
    asrWReg asrLImm asrLReg aslBImm aslBReg aslWImm aslWReg aslLImm aslLReg lsrBImm lsrBReg
    lsrWImm lsrWReg lsrLImm lsrLReg lslBImm lslBReg lslWImm lslWReg lslLImm lslLReg roxrBImm
    roxrBReg roxrWImm roxrWReg roxrLImm roxrLReg roxlBImm roxlBReg roxlWImm roxlWReg roxlLImm
    roxlLReg rorBImm rorBReg rorWImm rorWReg rorLImm rorLReg rolBImm rolBReg rolWImm rolWReg
    rolLImm rolLReg btstDyn btstStatic bchgDyn bchgStatic bclrDyn bclrStatic bsetDyn bsetStatic
    oriB oriW oriL andiB andiW andiL subiB subiW subiL addiB addiW addiL eoriB eoriW eoriL cmpiB
    cmpiW cmpiL moveB moveL moveW bra bhi bls bcc bcs bne beq bvc bvs bpl bmi bge blt bgt ble stop

/-- The words `ws` can be fetched one after the other from `addr` upward. -/
def HoldsWords (s : State) (addr : Long) (ws : List Word) : Prop :=
  ∀ (k : Nat) (w : Word), ws[k]? = some w →
    accessFault s .fetch (addr + BitVec.ofNat 32 (2 * k)) .word = none ∧
      s.valueAt (addr + BitVec.ofNat 32 (2 * k)) .word = w

theorem HoldsWords.head {s : State} {addr : Long} {w : Word} {ws : List Word}
    (h : HoldsWords s addr (w :: ws)) :
    accessFault s .fetch addr .word = none ∧ s.valueAt addr .word = w := by
  have h0 : addr + BitVec.ofNat 32 (2 * 0) = addr := BitVec.add_zero addr
  have hw := h 0 w rfl
  rwa [h0] at hw

theorem HoldsWords.tail {s : State} {addr : Long} {w : Word} {ws : List Word}
    (h : HoldsWords s addr (w :: ws)) : HoldsWords s (addr + 2#32) ws := by
  intro k v hk
  have haddr : addr + 2#32 + BitVec.ofNat 32 (2 * k) = addr + BitVec.ofNat 32 (2 * (k + 1)) := by
    rw [BitVec.add_assoc, Nat.mul_add, BitVec.ofNat_add, BitVec.add_comm (BitVec.ofNat 32 (2 * k))]
  rw [haddr]
  exact h (k + 1) v hk

/-- The words a fetch can read are read, whatever stands behind them. -/
theorem peekWords_of_holdsWords {s : State} {addr : Long} {ws : List Word} {n : Nat}
    (h : HoldsWords s addr ws) (hn : ws.length ≤ n) : ∃ rest, peekWords s n addr = ws ++ rest := by
  induction ws generalizing addr n with
  | nil => exact ⟨_, rfl⟩
  | cons w ws ih =>
    obtain ⟨n, rfl⟩ : ∃ m, n = m + 1 := ⟨n - 1, by rw [List.length_cons] at hn; omega⟩
    obtain ⟨hf, hv⟩ := h.head
    obtain ⟨rest, hrest⟩ := ih h.tail (Nat.le_of_succ_le_succ hn)
    exact ⟨rest, by simp only [peekWords, hf, hv, hrest, List.cons_append]⟩

end Sys2Proof.Machine

namespace Sys2Proof.Claims

open Sys2Proof.Machine

/-- Where memory holds the encoding of a well-formed instruction at pc, the step runs it (R80,
R112). -/
theorem step_of_holdsWords {s : State} {i : Instr} (hs : s.status = .running) (hwf : i.wf = true)
    (h : HoldsWords s s.pc (encode i)) : step s = exec i s := by
  obtain ⟨hpos, hlen⟩ := encode_length i
  have hdec := decode_encode_append hwf
  cases henc : encode i with
  | nil => simp [henc] at hpos
  | cons w ext =>
    rw [henc] at h hlen hdec
    obtain ⟨hf, hv⟩ := h.head
    have htail : HoldsWords s.afterOpword (s.pc + 2#32) ext := h.tail
    obtain ⟨rest, hpeek⟩ := peekWords_of_holdsWords (n := 4) htail (Nat.le_of_succ_le_succ hlen)
    refine stepRunsDecodedInstruction s i rest hs hf ?_
    rw [hv, hpeek]
    exact hdec rest

end Sys2Proof.Claims
end

section
/-! The launch state: what its memory holds, and its first step. -/

namespace Sys2Proof.Machine

/-- A word is its two bytes, the high byte first (R51). -/
theorem State.valueAt_word_of_bytes {s : State} {addr : Long} {w : Word}
    (h0 : s.byteAt (byteAddr (busAddr addr) 0) = w.extractLsb' 8 8)
    (h1 : s.byteAt (byteAddr (busAddr addr) 1) = w.extractLsb' 0 8) :
    s.valueAt addr .word = w := by
  simp only [State.byteAt] at h0 h1
  apply BitVec.eq_of_toNat_eq
  have hw := w.isLt
  simp only [State.valueAt, Memory.readBytes, h0, h1, Size.bits, BitVec.toNat_ofNat,
    BitVec.extractLsb'_toNat, Nat.shiftRight_eq_div_pow]
  omega

/-- The bytes of the word `k` words above `addr`, as offsets from `addr`. -/
theorem byteAddr_busAddr_add (addr : Long) (k j : Nat) :
    byteAddr (busAddr (addr + BitVec.ofNat 32 (2 * k))) j = byteAddr addr.toNat (2 * k + j) := by
  simp only [byteAddr, busAddr, Config.addrBits, BitVec.toNat_add, BitVec.toNat_ofNat]
  omega

/-- Words above an even address are at even addresses. -/
theorem busAddr_add_even {addr : Long} (h : addr.getLsbD 0 = false) (k : Nat) :
    busAddr (addr + BitVec.ofNat 32 (2 * k)) % 2 = 0 := by
  rw [← BitVec.testBit_toNat, Nat.testBit_zero, decide_eq_false_iff_not] at h
  simp only [busAddr, Config.addrBits, BitVec.toNat_add, BitVec.toNat_ofNat]
  omega

end Sys2Proof.Machine

namespace Sys2Proof.Claims

open Sys2Proof.Machine

theorem imageByte_cons (a : Nat) (v : Byte) (rest : List Host.Cell) (x : Nat) :
    imageByte ((a, v) :: rest) x =
      (imageByte rest x).or (if byteAddr a 0 = x then some v else none) := by
  simp only [imageByte]
  cases imageByte rest x <;> rfl

/-- A byte the image places reads as its last cell there, every other byte as before (R291). -/
theorem read_load (m : Memory) (cells : List Host.Cell) (x : Nat) :
    Memory.read (Memory.load m cells) x = (imageByte cells x).getD (Memory.read m x) := by
  induction cells generalizing m with
  | nil => rfl
  | cons c rest ih =>
    obtain ⟨a, v⟩ := c
    rw [Memory.load, ih, imageByte_cons, Memory.read_write]
    cases imageByte rest x with
    | some w => rfl
    | none =>
      by_cases hx : byteAddr a 0 = x
      · simp [hx]
      · simp [hx, Ne.symm hx]

/-- A byte an image places is one of its cells. -/
theorem exists_cell_of_imageByte {cells : List Host.Cell} {x : Nat} {v : Byte}
    (h : imageByte cells x = some v) : ∃ c ∈ cells, byteAddr c.1 0 = x := by
  induction cells with
  | nil => exact absurd h nofun
  | cons c rest ih =>
    obtain ⟨a, w⟩ := c
    rw [imageByte_cons] at h
    cases hr : imageByte rest x with
    | some u =>
      obtain ⟨c, hc, hx⟩ := ih (by rw [hr] at h; exact h ▸ hr)
      exact ⟨c, .tail _ hc, hx⟩
    | none =>
      by_cases hx : byteAddr a 0 = x
      · exact ⟨(a, w), .head _, hx⟩
      · simp [hr, hx] at h

theorem launch_byteAt (p : Program) (u : LaunchValues) (x : Nat) :
    (State.launch p u).byteAt x = (imageByte p.image x).getD (Memory.read u.mem x) :=
  read_load u.mem p.image x

/-- Words that the image of a launchable program holds at ENTRY can be fetched there (R291). -/
theorem launch_holdsWords {p : Program} {u : LaunchValues} {ws : List Word} (hp : p.wf = true)
    (himg : ∀ (k : Nat) (w : Word), ws[k]? = some w →
      imageByte p.image (byteAddr p.entry.toNat (2 * k)) = some (w.extractLsb' 8 8) ∧
      imageByte p.image (byteAddr p.entry.toNat (2 * k + 1)) = some (w.extractLsb' 0 8)) :
    HoldsWords (State.launch p u) p.entry ws := by
  obtain ⟨heven, -, hmap⟩ := Program.wf_iff.1 hp
  have hmapped {x : Nat} {v : Byte} (h : imageByte p.image x = some v) :
      inRegions p.memMap x = true := by
    obtain ⟨c, hc, rfl⟩ := exists_cell_of_imageByte h
    exact hmap c hc
  intro k w hk
  obtain ⟨hhi, hlo⟩ := himg k w hk
  refine ⟨accessFault_eq_none.2 ⟨.inr (busAddr_add_even heven k), fun j hj => ?_⟩,
    State.valueAt_word_of_bytes ?_ ?_⟩
  · rw [byteAddr_busAddr_add, launch_memMap]
    obtain rfl | rfl : j = 0 ∨ j = 1 := by simp only [Size.bytes] at hj; omega
    · exact hmapped hhi
    · exact hmapped hlo
  · rw [byteAddr_busAddr_add, launch_byteAt, Nat.add_zero, hhi, Option.getD_some]
  · rw [byteAddr_busAddr_add, launch_byteAt, hlo, Option.getD_some]

/-- Settles O60: the fields by definition, memory by the image, the first step by the decoder's
round trip. -/
theorem launchState : Obligations.LaunchState := by
  intro p u
  refine ⟨rfl, rfl, rfl, rfl, rfl, rfl, rfl, rfl, launch_byteAt p u, fun hp hm => ?_,
    fun hp i hi himg => step_of_holdsWords rfl hi (launch_holdsWords hp himg)⟩
  obtain ⟨heven, -, -⟩ := Program.wf_iff.1 hp
  exact ⟨Memory.wf_load p.image hm, heven, fun _ => rfl⟩

end Sys2Proof.Claims
end

section
/-! The checks of an access and what it reads or stores, byte by byte: which exception the first
offending byte raises, the value as its bytes, and that only the address modulo 2^24 counts. -/

namespace Sys2Proof.Machine

/-! ## The checks -/

/-- The first offending byte: none before it offends (R52, R53). -/
theorem firstByte_eq_some {p : Nat → Bool} {a k i : Nat} (hi : i < k)
    (hbefore : ∀ j, j < i → p (byteAddr a j) = false) (hp : p (byteAddr a i) = true) :
    firstByte p a k = some (a + i) := by
  induction k with
  | zero => omega
  | succ k ih =>
    simp only [firstByte]
    by_cases hik : i = k
    · subst hik
      simp only [firstByte_eq_none.2 hbefore, hp, if_true]
    · rw [ih (by omega)]

/-- A word or long access at an odd address raises AddressError (R52, R262). -/
theorem accessFault_odd {s : State} {acc : Access} {addr : Long} {sz : Size} (hsz : sz ≠ .byte)
    (h : busAddr addr % 2 = 1) :
    accessFault s acc addr sz = some (.addressError (BitVec.ofNat 32 (busAddr addr)) acc) :=
  if_pos ⟨hsz, h⟩

/-- An aligned access raises BusError at its first unmapped byte (R52, R263). -/
theorem accessFault_unmapped {s : State} {acc : Access} {addr : Long} {sz : Size} {i : Nat}
    (hal : sz = .byte ∨ busAddr addr % 2 = 0) (hi : i < sz.bytes)
    (hbefore : ∀ j, j < i → inRegions s.memMap (byteAddr (busAddr addr) j) = true)
    (hun : inRegions s.memMap (byteAddr (busAddr addr) i) = false) :
    accessFault s acc addr sz = some (.busError (BitVec.ofNat 32 (busAddr addr + i)) acc) := by
  have hodd : ¬(sz ≠ .byte ∧ busAddr addr % 2 = 1) := by
    rintro ⟨hsz, h⟩
    obtain hb | h0 := hal
    · exact hsz hb
    · omega
  have hfirst : firstByte (fun b => !inRegions s.memMap b) (busAddr addr) sz.bytes =
      some (busAddr addr + i) :=
    firstByte_eq_some hi (fun j hj => by simp [hbefore j hj]) (by simp [hun])
  simp only [accessFault, if_neg hodd, hfirst]

/-- A write fails the checks of every access first (R53). -/
theorem writeFault_of_accessFault {s : State} {addr : Long} {sz : Size} {e : Exc}
    (h : accessFault s .write addr sz = some e) : writeFault s addr sz = some e := by
  simp only [writeFault, h]

/-- A write that passes them raises SelfModify at its first byte of program text (R53, R68). -/
theorem writeFault_progText {s : State} {addr : Long} {sz : Size} {i : Nat}
    (hacc : accessFault s .write addr sz = none) (hi : i < sz.bytes)
    (hbefore : ∀ j, j < i → inRegions s.progText (byteAddr (busAddr addr) j) = false)
    (htext : inRegions s.progText (byteAddr (busAddr addr) i) = true) :
    writeFault s addr sz = some (.selfModify (BitVec.ofNat 32 (busAddr addr + i))) := by
  have hfirst : firstByte (fun b => inRegions s.progText b) (busAddr addr) sz.bytes =
      some (busAddr addr + i) := firstByte_eq_some hi hbefore htext
  simp only [writeFault, hacc, hfirst]

/-! ## The value at an address -/

theorem toNat_append_byte {n : Nat} (x : BitVec n) (b : Byte) :
    (x ++ b).toNat = x.toNat * 256 + b.toNat := by
  rw [BitVec.toNat_append, ← Nat.shiftLeft_add_eq_or_of_lt b.isLt, Nat.shiftLeft_eq]

/-- One more byte stands below the bytes before it (R51). -/
theorem ofNat_readBytes_succ (m : Memory) (a k : Nat) :
    BitVec.ofNat (8 * k + 8) (Memory.readBytes m a (k + 1)) =
      BitVec.ofNat (8 * k) (Memory.readBytes m a k) ++ Memory.read m (byteAddr a k) := by
  have hlt : Memory.readBytes m a k < 2 ^ (8 * k) := by
    rw [Nat.pow_mul]; exact Memory.readBytes_lt m a k
  have hlt' : Memory.readBytes m a (k + 1) < 2 ^ (8 * k + 8) := by
    rw [← Nat.mul_succ, Nat.pow_mul]; exact Memory.readBytes_lt m a (k + 1)
  apply BitVec.eq_of_toNat_eq
  rw [toNat_append_byte, BitVec.toNat_ofNat, BitVec.toNat_ofNat, Nat.mod_eq_of_lt hlt,
    Nat.mod_eq_of_lt hlt', Memory.readBytes]

theorem State.valueAt_byte (s : State) (addr : Long) :
    s.valueAt addr .byte = s.byteAt (byteAddr (busAddr addr) 0) := by
  simp [State.valueAt, State.byteAt, Memory.readBytes]

theorem State.valueAt_word (s : State) (addr : Long) :
    s.valueAt addr .word =
      s.byteAt (byteAddr (busAddr addr) 0) ++ s.byteAt (byteAddr (busAddr addr) 1) :=
  (ofNat_readBytes_succ s.mem (busAddr addr) 1).trans
    (congrArg (· ++ s.byteAt (byteAddr (busAddr addr) 1)) (s.valueAt_byte addr))

theorem State.valueAt_long (s : State) (addr : Long) :
    s.valueAt addr .long = s.byteAt (byteAddr (busAddr addr) 0) ++
      s.byteAt (byteAddr (busAddr addr) 1) ++ s.byteAt (byteAddr (busAddr addr) 2) ++
      s.byteAt (byteAddr (busAddr addr) 3) := by
  have h2 := ofNat_readBytes_succ s.mem (busAddr addr) 2
  have h3 := ofNat_readBytes_succ s.mem (busAddr addr) 3
  rw [show BitVec.ofNat (8 * 2) (Memory.readBytes s.mem (busAddr addr) 2) = _ from
    s.valueAt_word addr] at h2
  exact h3.trans (congrArg (· ++ s.byteAt (byteAddr (busAddr addr) 3)) h2)

/-! ## Stored bytes -/

/-- Byte `i` of a stored value holds the bits that lie there, the first the highest (R51, R53). -/
theorem State.storeAt_byteAt (s : State) (addr : Long) {sz : Size} (v : BitVec sz.bits) {i : Nat}
    (hi : i < sz.bytes) :
    (s.storeAt addr sz v).byteAt (byteAddr (busAddr addr) i) =
      v.extractLsb' (8 * (sz.bytes - 1 - i)) 8 := by
  have hb : sz.bytes ≤ 4 := by cases sz <;> decide
  rw [State.byteAt, State.storeAt_mem, Memory.read_writeBytes_byte hb hi, BitVec.extractLsb',
    Nat.shiftRight_eq_div_pow, Nat.pow_mul]

/-- The second byte of an operand at `addr` is the first of one at `addr + 1` (R51, R61). -/
theorem busAddr_add_one (addr : Long) : busAddr (addr + 1#32) = byteAddr (busAddr addr) 1 := by
  simp only [byteAddr, busAddr, Config.addrBits, BitVec.toNat_add, BitVec.toNat_ofNat]
  omega

/-- A mapped byte can be accessed: it has no alignment to fail (R54). -/
theorem accessFault_byte_of_mapped {s : State} {acc : Access} {addr : Long}
    (h : inRegions s.memMap (busAddr addr) = true) : accessFault s acc addr .byte = none := by
  refine accessFault_eq_none.2 ⟨.inl rfl, fun i hi => ?_⟩
  obtain rfl : i = 0 := Nat.lt_one_iff.1 hi
  rwa [byteAddr_busAddr_zero]

/-! ## The address modulo 2^24 -/

theorem busAddr_add_of_dvd (addr : Long) {n : Nat} (h : 16777216 ∣ n) :
    busAddr (addr + BitVec.ofNat 32 n) = busAddr addr := by
  simp only [busAddr, Config.addrBits, BitVec.toNat_add, BitVec.toNat_ofNat]
  omega

theorem busAddr_add_multiple (addr : Long) (k : Nat) :
    busAddr (addr + BitVec.ofNat 32 (k * 2 ^ 24)) = busAddr addr :=
  busAddr_add_of_dvd addr (dvd_mul_of_dvd_right (by norm_num) k)

/-- A read sees of its address only what reaches memory (R61). -/
theorem memRead_congr_busAddr {addr addr' : Long} (h : busAddr addr' = busAddr addr) (acc : Access)
    (sz : Size) : memRead acc addr' sz = memRead acc addr sz := by
  funext s
  simp only [memRead_apply, accessFault, State.valueAt, h]

/-- A write sees of its address only what reaches memory (R61). -/
theorem memWrite_congr_busAddr {addr addr' : Long} (h : busAddr addr' = busAddr addr) (sz : Size)
    (v : BitVec sz.bits) : memWrite addr' sz v = memWrite addr sz v := by
  funext s
  simp only [memWrite_apply, writeFault, accessFault, State.storeAt, h]

end Sys2Proof.Machine
end

section
/-! Reads and writes of memory as the spec writes them (R52, R53); the instruction whose words stand
at pc (R112); the bytes that no step writes (R60, R68). -/

namespace Sys2Proof.Claims

open Sys2Proof.Machine

/-- Settles O19: the checks in their order, then the bytes. -/
theorem memReadRule : Obligations.MemReadRule := by
  intro s acc addr
  refine ⟨fun sz hsz hodd => ?_, fun sz i hal hi hbefore hun => ?_, fun sz hal hmap => ?_,
    s.valueAt_byte addr, s.valueAt_word addr, s.valueAt_long addr⟩
  · exact memRead_eq_error.2 ⟨accessFault_odd hsz hodd, rfl⟩
  · exact memRead_eq_error.2 ⟨accessFault_unmapped hal hi hbefore hun, rfl⟩
  · exact memRead_eq_ok.2 ⟨accessFault_eq_none.2 ⟨hal, hmap⟩, rfl, rfl⟩

/-- Settles O20: the checks in their order, then the bytes. -/
theorem memWriteRule : Obligations.MemWriteRule := by
  intro s addr sz v
  refine ⟨fun hsz hodd => ?_, fun hal => ⟨fun i hi hbefore hun => ?_, fun hmap => ?_⟩⟩
  · exact memWrite_eq_error.2 ⟨writeFault_of_accessFault (accessFault_odd hsz hodd), rfl⟩
  · exact memWrite_eq_error.2
      ⟨writeFault_of_accessFault (accessFault_unmapped hal hi hbefore hun), rfl⟩
  · have hacc : accessFault s .write addr sz = none := accessFault_eq_none.2 ⟨hal, hmap⟩
    refine ⟨fun i hi hbefore htext => ?_, fun htext => ⟨s.storeAt addr sz v, ?_, ?_, ?_, ?_, rfl⟩⟩
    · exact memWrite_eq_error.2 ⟨writeFault_progText hacc hi hbefore htext, rfl⟩
    · exact memWrite_eq_ok.2 ⟨writeFault_eq_none.2 ⟨hacc, htext⟩, rfl⟩
    · exact fun i hi => s.storeAt_byteAt addr v hi
    · exact fun x hx => State.storeAt_byteAt_other fun i hi h => hx ⟨i, hi, h⟩
    · exact ⟨rfl, rfl, rfl, rfl, rfl, rfl, rfl, rfl⟩

/-- Settles O21: a write passes the checks of the read, and each byte holds its part of the
value. -/
theorem readAfterWrite : Obligations.ReadAfterWrite := by
  intro s t addr acc
  refine ⟨fun sz v h => ?_, fun v h => ?_⟩
  all_goals obtain ⟨hw, rfl⟩ := memWrite_eq_ok.1 h
  · exact memRead_eq_ok.2
      ⟨accessFault_of_writeFault hw, (State.storeAt_valueAt_same s addr sz v).symm, rfl⟩
  · obtain ⟨-, hmap⟩ := accessFault_eq_none.1 (writeFault_eq_none.1 hw).1
    refine ⟨memRead_eq_ok.2 ⟨?_, ?_, rfl⟩, memRead_eq_ok.2 ⟨?_, ?_, rfl⟩⟩
    · exact accessFault_byte_of_mapped (byteAddr_busAddr_zero addr ▸ hmap 0 (by decide))
    · rw [State.valueAt_byte]
      exact (s.storeAt_byteAt addr (sz := .word) (i := 0) v (by decide)).symm
    · exact accessFault_byte_of_mapped (busAddr_add_one addr ▸ hmap 1 (by decide))
    · rw [State.valueAt_byte, byteAddr_busAddr_zero, busAddr_add_one]
      exact (s.storeAt_byteAt addr (sz := .word) (i := 1) v (by decide)).symm

/-- Settles O22: both addresses reach the same bytes of memory. -/
theorem highAddressBitsIgnored : Obligations.HighAddressBitsIgnored := by
  intro s addr k acc sz v
  have h := busAddr_add_multiple addr k
  exact ⟨congrFun (memRead_congr_busAddr h acc sz) s, congrFun (memWrite_congr_busAddr h sz v) s⟩

/-- Settles O6: the words of the encoding stand at pc, and the decoder reads them back. -/
theorem encodedInstructionRuns : Obligations.EncodedInstructionRuns :=
  fun _ _ hs hwf h => step_of_holdsWords hs hwf h

/-! ## Bytes that no step writes -/

/-- A byte no store may reach: program text, or outside the map (R53, R68). -/
def Protected (s : State) (x : Nat) : Prop :=
  inRegions s.progText x = true ∨ inRegions s.memMap x = false

/-- The map, the program text and every protected byte are kept. -/
structure ProtectedRel (s t : State) : Prop where
  memMap : t.memMap = s.memMap
  progText : t.progText = s.progText
  byteAt : ∀ x, Protected s x → t.byteAt x = s.byteAt x

theorem ProtectedRel.of_same {s t : State} (hmap : t.memMap = s.memMap)
    (htext : t.progText = s.progText) (hmem : t.mem = s.mem) : ProtectedRel s t :=
  ⟨hmap, htext, fun x _ => by simp only [State.byteAt, hmem]⟩

theorem ProtectedRel.trans {s t u : State} (h : ProtectedRel s t) (h' : ProtectedRel t u) :
    ProtectedRel s u where
  memMap := h'.memMap.trans h.memMap
  progText := h'.progText.trans h.progText
  byteAt x hx := (h'.byteAt x (by rwa [Protected, h.memMap, h.progText])).trans (h.byteAt x hx)

/-- A store that passed its checks reaches no protected byte. -/
theorem ProtectedRel.storeAt {s : State} {addr : Long} {sz : Size} (v : BitVec sz.bits)
    (h : writeFault s addr sz = none) : ProtectedRel s (s.storeAt addr sz v) := by
  obtain ⟨hacc, htext⟩ := writeFault_eq_none.1 h
  obtain ⟨-, hmap⟩ := accessFault_eq_none.1 hacc
  refine ⟨rfl, rfl, fun x hx => State.storeAt_byteAt_other ?_⟩
  rintro i hi rfl
  obtain hx | hx := hx
  · exact absurd (hx.symm.trans (htext i hi)) nofun
  · exact absurd ((hmap i hi).symm.trans hx) nofun

theorem protectedRel_instrRel (i : Instr) : InstrRel i ProtectedRel where
  operands :=
    { refl := fun _ => .of_same rfl rfl rfl
      trans := fun _ _ _ => .trans
      setPc := fun _ => .of_same rfl rfl rfl
      setA := fun _ _ _ _ => .of_same rfl rfl rfl }
  setD _ _ _ _ := .of_same rfl rfl rfl
  setCcr _ _ _ := .of_same rfl rfl rfl
  storeAt _ _ _ v h := .storeAt v h
  setPc _ _ _ := .of_same rfl rfl rfl
  setFreeCount _ _ _ := .of_same rfl rfl rfl
  stop _ _ _ := .of_same rfl rfl rfl

theorem exec_protectedRel {i : Instr} {s t : State} (h : exec i s = .next t) :
    ProtectedRel s t := by
  have hpc : ProtectedRel s s.afterOpword := .of_same rfl rfl rfl
  obtain hk | ⟨e, s', hk, rfl⟩ := exec_keeps (protectedRel_instrRel i).keeps_body h
  · exact hpc.trans hk
  · exact (hpc.trans hk).trans (.of_same rfl rfl rfl)

theorem step_protectedRel {s t : State} (h : step s = .next t) : ProtectedRel s t := by
  obtain ⟨i, -, hx⟩ | ⟨e, s', hf, rfl⟩ := (step_eq_next (running_of_step h)).1 h
  · exact exec_protectedRel hx
  · obtain rfl | rfl := fetchInstr_exception hf <;> exact .of_same rfl rfl rfl

/-- Settles O15: every write of an instruction keeps the protected bytes, a store because it passed
its checks. -/
theorem programTextIsNeverWritten : Obligations.ProgramTextIsNeverWritten := by
  intro s t h
  obtain ⟨hmap, htext, hbyte⟩ := step_protectedRel h
  exact ⟨hmap, htext, hbyte⟩

end Sys2Proof.Claims
end

section
/-! What fetching, resolving and reading an operand raises: a part made of fetches stops at the
first word it cannot fetch. -/

namespace Sys2Proof.Machine

theorem State.setPc_self (s : State) : s.setPc s.pc = s := rfl

/-- The index register as the model sizes it is the one of R95. -/
theorem State.indexValue_eq_indexOf (s : State) (ix : IndexExt) :
    s.indexValue ix = Claims.indexOf s ix := by
  have hlow (v : Long) : v.setWidth 16 = v.extractLsb' 0 16 :=
    BitVec.setWidth_eq_extractLsb' (by decide)
  simp only [State.indexValue, Claims.indexOf, hlow]

/-- Base, index and displacement make the address once the extension word is fetched (R95). -/
theorem indexEa_eq_ok {base : Long} {ix : IndexExt} {s : State}
    (h : accessFault s .fetch s.pc .word = none) :
    indexEa base ix s = .ok (base + Claims.indexOf s ix + ix.d8.signExtend 32)
      (s.setPc (s.pc + 2#32)) := by
  rw [indexEa_apply, fetchExt_of_canFetch h, ← State.indexValue_eq_indexOf]
  rfl

end Sys2Proof.Machine

namespace Sys2Proof.Claims

open Sys2Proof.Machine

theorem Fetchable.head {s : State} {n : Nat} (h : Fetchable s (n + 1)) :
    accessFault s .fetch s.pc .word = none := by
  have h0 := h 0 (Nat.succ_pos n)
  rwa [Nat.mul_zero, BitVec.add_zero] at h0

/-- The words behind the first, counted from the pc behind it. -/
theorem pc_add_words_succ (s : State) (k : Nat) :
    s.pc + BitVec.ofNat 32 (2 * (k + 1)) =
      (s.setPc (s.pc + 2#32)).pc + BitVec.ofNat 32 (2 * k) := by
  rw [State.setPc_pc, BitVec.add_assoc, Nat.mul_add, BitVec.ofNat_add,
    BitVec.add_comm (BitVec.ofNat 32 (2 * k))]

theorem Fetchable.tail {s : State} {n : Nat} (h : Fetchable s (n + 1)) :
    Fetchable (s.setPc (s.pc + 2#32)) n := by
  intro k hk
  rw [← pc_add_words_succ]
  exact h (k + 1) (Nat.succ_lt_succ hk)

namespace StopsAtFetch

variable {α β : Type} {s : State} {n : Nat}

/-- A part without words of its own has no fetch to stop at. -/
theorem none (m : M α) : StopsAtFetch m 0 s := fun _ _ hk => absurd hk (Nat.not_lt_zero _)

/-- What follows the fetches does not matter. -/
theorem bind {m : M α} (h : StopsAtFetch m n s) (f : α → M β) : StopsAtFetch (m >>= f) n s :=
  fun k e hk hf he => M.bind_error (h k e hk hf he)

/-- Nor does a look at the state before them. -/
theorem after {m : M α} {f : α → M β} {a : α} (hm : m s = .ok a s)
    (h : StopsAtFetch (f a) n s) : StopsAtFetch (m >>= f) n s :=
  fun k e hk hf he => (M.bind_ok hm).trans (h k e hk hf he)

/-- One word, then the others from the pc behind it. -/
theorem fetchExt_bind {f : Unit → M β} (h : StopsAtFetch (f ()) n (s.setPc (s.pc + 2#32))) :
    StopsAtFetch (fetchExt >>= f) (n + 1) s := by
  intro k e hk hf he
  obtain ⟨he, -⟩ := memRead_eq_error.1 he
  cases k with
  | zero =>
    rw [Nat.mul_zero, BitVec.add_zero] at he ⊢
    exact M.bind_error (fetchExt_eq_error.2 ⟨he, s.setPc_self⟩)
  | succ k =>
    rw [pc_add_words_succ] at he ⊢
    rw [M.bind_ok (fetchExt_of_canFetch hf.head)]
    exact h k e (Nat.lt_of_succ_lt_succ hk) hf.tail (memRead_eq_error.2 ⟨he, rfl⟩)

theorem fetchExt : StopsAtFetch fetchExt 1 s := by
  have h : StopsAtFetch (Machine.fetchExt >>= pure) 1 s := fetchExt_bind (none _)
  rwa [bind_pure] at h

/-- A memory mode stops at the first of its extension words that cannot be fetched (R92). -/
theorem resolveMem (sz : Size) (m : MemEa) : StopsAtFetch (resolveMem sz m) (wordsOf m) s := by
  cases m with
  | ind r | postInc r | preDec r => exact none _
  | disp r d => exact after (readALong_apply s r) (fetchExt.bind _)
  | index r ix => exact after (readALong_apply s r) (fetchExt.bind _)
  | absW w => exact fetchExt.bind _
  | absL a => exact fetchExt_bind (fetchExt.bind _)

theorem readImm (sz : Size) (v : BitVec sz.bits) :
    StopsAtFetch (readImm sz v) (if sz = .long then 2 else 1) s := by
  cases sz with
  | byte | word => exact fetchExt.bind _
  | long => exact (fetchExt_bind fetchExt).bind _

end StopsAtFetch

/-- A program-relative operand raises what the read at its address raises, pc past its word. -/
theorem readData_pcDisp {sz : Size} {s : State} (d : Word) (h : Fetchable s 1) :
    readData sz (.pcDisp d) s =
      memRead .read (s.pc + d.signExtend 32) sz (s.setPc (s.pc + 2#32)) :=
  M.bind_ok (fetchExt_of_canFetch h.head)

theorem readData_pcIndex {sz : Size} {s : State} (ix : IndexExt) (h : Fetchable s 1) :
    readData sz (.pcIndex ix) s =
      memRead .read (s.pc + indexOf s ix + ix.d8.signExtend 32) sz (s.setPc (s.pc + 2#32)) :=
  M.bind_ok (indexEa_eq_ok h.head)

/-- A memory operand is resolved, then read (R94). -/
theorem readData_mem (sz : Size) (m : MemEa) :
    readData sz (.alt (.mem m)) = resolveMem sz m >>= fun addr => memRead .read addr sz := by
  simp only [readData, resolve, bind_assoc, pure_bind, readLoc_mem]

/-- Settles O57: each operand is fetches, then its address, then the read there. -/
theorem operandExceptions : Obligations.OperandExceptions := by
  intro sz s
  refine ⟨.resolveMem sz, .readImm sz, fun v => .readImm sz _, fun d => ?_, fun ix => ?_,
    fun k => StopsAtFetch.fetchExt.bind _, fun d => StopsAtFetch.fetchExt.bind _, .fetchExt,
    fun m e s1 h => ?_, fun m addr s1 e s2 h he => ?_, fun d e s2 hf he => ?_,
    fun ix e s2 hf he => ?_, fun e => rfl⟩
  · exact .after (readPc_apply s) (StopsAtFetch.fetchExt.bind _)
  · exact .after (readPc_apply s) ((StopsAtFetch.fetchExt.bind _).bind _)
  · rw [readData_mem]
    exact M.bind_error h
  · rw [readData_mem]
    exact (M.bind_ok h).trans he
  · exact (readData_pcDisp d hf).trans he
  · exact (readData_pcIndex ix hf).trans he

end Sys2Proof.Claims
end

section
/-! Every instruction begins with the operand accesses that `operandUse` lists, in that order: what
one of them raises the instruction raises, and where all of them answer, memory changes at most by a
store at the operand's address. -/

namespace Sys2Proof.Machine

/-- The state a part of an instruction leaves, whether it answers or raises. -/
def finalState {α : Type} : EStateM.Result Exc State α → State
  | .ok _ t => t
  | .error _ t => t

/-- The checks of a write without the write (R53). -/
def checkWrite (addr : Long) (sz : Size) : M Unit := fun s =>
  match writeFault s addr sz with
  | some e => .error e s
  | none => .ok () s

theorem checkWrite_eq_ok {addr : Long} {sz : Size} {s t : State} {u : Unit} :
    checkWrite addr sz s = .ok u t ↔ writeFault s addr sz = none ∧ t = s := by
  simp only [checkWrite]
  cases writeFault s addr sz <;> simp [eq_comm]

/-- The checks raise what the write of any value raises. -/
theorem checkWrite_eq_error {addr : Long} {sz : Size} {s t : State} {e : Exc} :
    checkWrite addr sz s = .error e t ↔ writeFault s addr sz = some e ∧ t = s := by
  simp only [checkWrite]
  cases writeFault s addr sz <;> simp [eq_comm]

/-- An instruction leaves the memory that its body leaves; an exception changes none of it. -/
theorem exec_mem_eq_finalState {i : Instr} {s t : State} (h : exec i s = .next t) :
    t.mem = (finalState (body i s.afterOpword)).mem := by
  obtain hb | ⟨e, s', hb, rfl⟩ := exec_eq_next.1 h <;> rw [hb] <;> rfl

end Sys2Proof.Machine

namespace Sys2Proof.Claims

open Sys2Proof.Machine

/-! ## The operand accesses of an instruction -/

theorem keeps_forget {α : Type} {m : M α} (h : Keeps SameData m) : Keeps SameData (forget m) :=
  Keeps.bind (fun _ _ _ => .trans) h fun _ => .pure .refl ()

/-- The read of the memory operand at `addr`, if there is one. -/
def OperandUse.readAt (u : OperandUse) (addr : Long) : M Unit :=
  if u.reads then forget (memRead .read addr u.size) else pure ()

/-- The checks of the write to the memory operand at `addr`, if there is one. -/
def OperandUse.checkAt (u : OperandUse) (addr : Long) : M Unit :=
  if u.writes then checkWrite addr u.size else pure ()

/-- From the address of the memory operand on (R65). -/
def OperandUse.memoryAccess (u : OperandUse) (m : MemEa) : M (Option Long) := do
  let addr ← resolveMem u.size m
  u.readAt addr
  u.checkAt addr
  return some addr

/-- All that an instruction fetches, resolves, reads and checks, in the order of R65; the answer is
the address of its memory operand. -/
def OperandUse.accesses (u : OperandUse) : M (Option Long) := do
  u.source
  match u.memory with
  | none => return none
  | some m => u.memoryAccess m

namespace OperandUse

variable {u : OperandUse} {m : MemEa} {s s1 s2 : State} {addr : Long}

theorem accesses_of_memory (hs : u.source s = .ok () s1) (hm : u.memory = some m) :
    u.accesses s = u.memoryAccess m s1 := by
  rw [accesses, M.bind_ok hs, hm]

/-- The read raises what MemRead raises. -/
theorem readAt_of_error {e : Exc} (hr : u.reads = true)
    (h : memRead .read addr u.size s = .error e s1) : u.readAt addr s = .error e s1 := by
  rw [readAt, if_pos hr]
  exact M.bind_error h

/-- A read that answers, or is not made, leaves the state alone. -/
theorem readAt_of_ok
    (h : u.reads = true → ∃ old t, memRead .read addr u.size s = .ok old t) :
    u.readAt addr s = .ok () s := by
  unfold readAt
  split
  next hr =>
    obtain ⟨old, t, hread⟩ := h hr
    obtain ⟨-, -, rfl⟩ := memRead_eq_ok.1 hread
    exact M.bind_ok hread
  next => rfl

/-- The check raises what MemWrite raises, whatever the value. -/
theorem checkAt_of_error {v : BitVec u.size.bits} {e : Exc} (hw : u.writes = true)
    (h : memWrite addr u.size v s = .error e s1) : u.checkAt addr s = .error e s1 := by
  rw [checkAt, if_pos hw]
  exact checkWrite_eq_error.2 (memWrite_eq_error.1 h)

theorem memoryAccess_of_read_error {e : Exc} (hres : resolveMem u.size m s = .ok addr s1)
    (h : u.readAt addr s1 = .error e s2) : u.memoryAccess m s = .error e s2 :=
  (M.bind_ok hres).trans (M.bind_error h)

theorem memoryAccess_of_check_error {e : Exc} (hres : resolveMem u.size m s = .ok addr s1)
    (hread : u.readAt addr s1 = .ok () s1) (h : u.checkAt addr s1 = .error e s2) :
    u.memoryAccess m s = .error e s2 :=
  (M.bind_ok hres).trans ((M.bind_ok hread).trans (M.bind_error h))

/-- The read, if it answers, answers nothing and leaves the state alone. -/
theorem readAt_eq_ok {v : Unit} (h : u.readAt addr s = .ok v s1) : s1 = s := by
  unfold readAt at h
  split at h
  · obtain ⟨_, _, hread, hpure⟩ := M.bind_eq_ok.1 h
    cases hpure
    exact (memRead_eq_ok.1 hread).2.2
  · cases h
    rfl

theorem checkAt_eq_ok {v : Unit} (h : u.checkAt addr s = .ok v s1) : s1 = s := by
  unfold checkAt at h
  split at h
  · exact (checkWrite_eq_ok.1 h).2
  · cases h
    rfl

/-- Where the accesses answer an address, it is that of the memory operand, resolved after the
source. -/
theorem accesses_eq_ok_some (h : u.accesses s = .ok (some addr) s2) :
    ∃ m s1, u.memory = some m ∧ u.source s = .ok () s1 ∧
      resolveMem u.size m s1 = .ok addr s2 := by
  obtain ⟨_, s1, hs, h⟩ := M.bind_eq_ok.1 h
  cases hm : u.memory with
  | none =>
    rw [hm] at h
    cases h
  | some m =>
    rw [hm] at h
    obtain ⟨a, s3, hres, h⟩ := M.bind_eq_ok.1 h
    obtain ⟨_, s4, hread, h⟩ := M.bind_eq_ok.1 h
    obtain ⟨_, s5, hcheck, hpure⟩ := M.bind_eq_ok.1 h
    cases hpure
    obtain rfl := readAt_eq_ok hread
    obtain rfl := checkAt_eq_ok hcheck
    exact ⟨m, s1, rfl, hs, hres⟩

/-- The accesses leave all but pc and the address registers alone, if the source does. -/
theorem keeps_accesses (hs : Keeps SameData u.source) : Keeps SameData u.accesses := by
  have hR := sameData_operandRel fun _ => True
  refine hR.bind hs fun _ => ?_
  split
  · exact hR.pure _
  · refine hR.bind (hR.resolveMem _ (MemEa.updatesIn_true _)) fun addr =>
      hR.bind ?_ fun _ => hR.bind ?_ fun _ => hR.pure _
    · unfold readAt
      split
      · exact keeps_forget (hR.memRead _ _ _)
      · exact hR.pure _
    · unfold checkAt
      split
      · intro s
        cases h : checkWrite addr u.size s with
        | ok _ t => exact (checkWrite_eq_ok.1 h).2 ▸ .refl s
        | error _ t => exact (checkWrite_eq_error.1 h).2 ▸ .refl s
      · exact hR.pure _

/-- After the accesses, which left `s`: memory stays as it is, or the operand is stored at its
address by an instruction that writes it. -/
def MemEffect (u : OperandUse) (addr : Option Long) (s t : State) : Prop :=
  t.mem = s.mem ∨ (u.writes = true ∧ ∃ a v, addr = some a ∧ t.mem = (s.storeAt a u.size v).mem)

end OperandUse

/-! ## Beginning with a part -/

/-- `m` does first what `p` does: it raises what `p` raises, and where `p` answers, `Q` relates the
answer and the state there to the state `m` ends in. -/
structure Begins {β : Type} (p : M β) (m : M Unit) (Q : β → State → State → Prop) : Prop where
  error : ∀ {s t e}, p s = .error e t → m s = .error e t
  ok : ∀ {s t b}, p s = .ok b t → Q b t (finalState (m s))

namespace Begins

variable {α β γ : Type} {Q : β → State → State → Prop}

/-- The same part first on both sides. -/
theorem bind {x : M α} {p : α → M β} {f : α → M Unit} (h : ∀ a, Begins (p a) (f a) Q) :
    Begins (x >>= p) (x >>= f) Q := by
  constructor
  · intro s t e he
    obtain he | ⟨a, s', hx, he⟩ := M.bind_eq_error.1 he
    · exact M.bind_error he
    · exact (M.bind_ok hx).trans ((h a).error he)
  · intro s t b hb
    obtain ⟨a, s', hx, hb⟩ := M.bind_eq_ok.1 hb
    rw [M.bind_ok hx]
    exact (h a).ok hb

/-- The same part first on both sides, its value forgotten on the left. -/
theorem forget {x : M α} {p : M β} {f : α → M Unit} (h : ∀ a, Begins p (f a) Q) :
    Begins (forget x >>= fun _ => p) (x >>= f) Q := by
  have hassoc : (Claims.forget x >>= fun _ => p) = x >>= fun _ => p := by
    simp only [Claims.forget, bind_assoc, pure_bind]
  rw [hassoc]
  exact bind h

/-- Of a source of two parts the first comes first. -/
theorem forget_bind {x : M α} {y : α → M γ} {p : M β} {f : α → M Unit}
    (h : ∀ a, Begins (Claims.forget (y a) >>= fun _ => p) (f a) Q) :
    Begins (Claims.forget (x >>= y) >>= fun _ => p) (x >>= f) Q := by
  have hassoc : (Claims.forget (x >>= y) >>= fun _ => p) =
      x >>= fun a => Claims.forget (y a) >>= fun _ => p := by
    simp only [Claims.forget, bind_assoc]
  rw [hassoc]
  exact bind h

/-- The address of a memory operand on both sides. -/
theorem resolve {sz : Size} {m : MemEa} {p : Long → M β} {f : Loc → M Unit}
    (h : ∀ addr, Begins (p addr) (f (.mem addr)) Q) :
    Begins (resolveMem sz m >>= p) (resolve sz (.mem m) >>= f) Q := by
  have hassoc : Machine.resolve sz (.mem m) >>= f = resolveMem sz m >>= fun a => f (.mem a) := by
    simp only [Machine.resolve, bind_assoc, pure_bind]
  rw [hassoc]
  exact bind h

/-- A look at the state raises nothing and changes nothing. -/
theorem look {x : M α} {g : State → α} (hx : ∀ s, x s = .ok (g s) s) {p : M β} {f : α → M Unit}
    (h : ∀ a, Begins p (f a) Q) : Begins p (x >>= f) Q := by
  refine ⟨fun {s _ _} he => ?_, fun {s _ _} hb => ?_⟩ <;> rw [M.bind_ok (hx s)]
  · exact (h _).error he
  · exact (h _).ok hb

/-- The checks of a write stand for the write. -/
theorem memWrite {addr : Long} {sz : Size} {v : BitVec sz.bits} {b : β} {f : Unit → M Unit}
    (h : ∀ s, Q b s (finalState (f () (s.storeAt addr sz v)))) :
    Begins (checkWrite addr sz >>= fun _ => pure b) (memWrite addr sz v >>= f) Q := by
  constructor
  · intro s t e he
    obtain he | ⟨_, _, _, he⟩ := M.bind_eq_error.1 he
    · exact M.bind_error (memWrite_eq_error.2 (checkWrite_eq_error.1 he))
    · cases he
  · intro s t b' hb
    obtain ⟨_, s', hc, hpure⟩ := M.bind_eq_ok.1 hb
    obtain ⟨hw, rfl⟩ := checkWrite_eq_ok.1 hc
    cases hpure
    rw [M.bind_ok (memWrite_eq_ok.2 ⟨hw, rfl⟩)]
    exact h _

/-- Nothing more to access. -/
theorem pure {b : β} {m : M Unit} (h : ∀ s, Q b s (finalState (m s))) : Begins (pure b) m Q :=
  ⟨nofun, fun {s _ _} hb => by cases hb; exact h s⟩

end Begins

/-! ## The shapes of instructions -/

/-- The part `m` uses its operands as `u` says. -/
structure Performs (u : OperandUse) (m : M Unit) : Prop where
  source : Keeps SameData u.source
  begins : Begins u.accesses m u.MemEffect

namespace Performs

variable {α : Type} {sz : Size} {src : M (BitVec sz.bits)}

/-- A source, and behind it nothing that touches memory. -/
theorem sourceOnly {src : M α} {f : α → M Unit} (hsrc : Keeps SameData src)
    (hf : ∀ a s, (finalState (f a s)).mem = s.mem) : Performs (sourceOnly src) (src >>= f) :=
  ⟨keeps_forget hsrc, .forget fun a => .pure fun s => .inl (hf a s)⟩

theorem registersOnly {m : M Unit} (hm : ∀ s, (finalState (m s)).mem = s.mem) :
    Performs registersOnly m :=
  ⟨keeps_forget (.pure .refl _), .pure fun s => .inl (hm s)⟩

theorem aluToDn (f : Alu) (hsrc : Keeps SameData src) (r : Reg) :
    Performs (Claims.sourceOnly src) (aluToDn sz f src r) := sourceOnly hsrc fun _ _ => rfl

theorem compareDn (hsrc : Keeps SameData src) (r : Reg) :
    Performs (Claims.sourceOnly src) (compareDn sz src r) := sourceOnly hsrc fun _ _ => rfl

theorem multiplyDn (product : Word → Word → Long) {src : M Word} (hsrc : Keeps SameData src)
    (r : Reg) : Performs (Claims.sourceOnly src) (multiplyDn product src r) :=
  sourceOnly hsrc fun _ _ => rfl

theorem divideDn (divide : Long → Word → Option (Word × Word)) {src : M Word}
    (hsrc : Keeps SameData src) (r : Reg) :
    Performs (Claims.sourceOnly src) (divideDn divide src r) := by
  refine sourceOnly hsrc fun m s => ?_
  have hrest := divideDn_apply (s := s) divide (pure m) r
  simp only [M.pure_apply] at hrest
  refine (congrArg (fun res => (finalState res).mem) hrest).trans ?_
  split
  · rfl
  · cases divide (s.dreg r) m <;> rfl

/-- A read-modify-write: source, address, read, write (R58, R65). -/
theorem aluToEa (f : Alu) (hsrc : Keeps SameData src) (dst : DataAltEa) :
    Performs (modifies sz src (altMem dst)) (aluToEa sz f src dst) := by
  refine ⟨keeps_forget hsrc, ?_⟩
  cases dst with
  | dn r => exact .forget fun a => .pure fun s => .inl rfl
  | mem m =>
    exact .forget fun a => .resolve fun addr => .forget fun b => .look readCcr_apply fun k =>
      .memWrite fun s => .inr ⟨rfl, addr, _, rfl, rfl⟩

theorem compareEa (hsrc : Keeps SameData src) (dst : DataAltEa) :
    Performs (compares sz src (altMem dst)) (compareEa sz src dst) := by
  refine ⟨keeps_forget hsrc, ?_⟩
  cases dst with
  | dn r => exact .forget fun a => .pure fun s => .inl rfl
  | mem m =>
    exact .forget fun a => .resolve fun addr => .forget fun b => .pure fun s => .inl rfl

theorem unaryEa (f : Alu1) (dst : DataAltEa) :
    Performs (modifies sz (pure () : M Unit) (altMem dst)) (unaryEa sz f dst) := by
  refine ⟨keeps_forget (.pure .refl ()), ?_⟩
  cases dst with
  | dn r => exact .pure fun s => .inl rfl
  | mem m =>
    exact .resolve fun addr => .forget fun b => .look readCcr_apply fun k =>
      .memWrite fun s => .inr ⟨rfl, addr, _, rfl, rfl⟩

theorem clearEa (dst : DataAltEa) :
    Performs (stores sz (pure () : M Unit) (altMem dst)) (clearEa sz dst) := by
  refine ⟨keeps_forget (.pure .refl ()), ?_⟩
  cases dst with
  | dn r => exact .pure fun s => .inl rfl
  | mem m =>
    exact .resolve fun addr => .look readCcr_apply fun k =>
      .memWrite fun s => .inr ⟨rfl, addr, _, rfl, rfl⟩

theorem moveEa (hsrc : Keeps SameData src) (dst : DataAltEa) :
    Performs (stores sz src (altMem dst)) (moveEa sz src dst) := by
  refine ⟨keeps_forget hsrc, ?_⟩
  cases dst with
  | dn r => exact .forget fun a => .pure fun s => .inl rfl
  | mem m =>
    exact .forget fun v => .resolve fun addr => .look readCcr_apply fun k =>
      .memWrite fun s => .inr ⟨rfl, addr, _, rfl, rfl⟩

/-- MOVE of word and long size: refused before any operand is read (log 11), or a move. -/
theorem moveAny (op : Word) (src : AnyEa) (dst : DataAltEa) :
    Performs (if moveRefused src dst then Claims.registersOnly
      else stores sz (readAny sz src) (altMem dst)) (moveAny sz op src dst) := by
  unfold Machine.moveAny
  split
  · exact registersOnly fun _ => rfl
  · exact moveEa ((sameData_operandRel _).readAny sz src.updatesIn_true) dst

theorem changeBit (op : BitOp) {number : M Nat} (hn : Keeps SameData number) (dst : DataAltEa) :
    Performs (modifies .byte number (altMem dst)) (changeBit op number dst) := by
  refine ⟨keeps_forget hn, ?_⟩
  cases dst with
  | dn r => exact .forget fun k => .pure fun s => .inl rfl
  | mem m =>
    exact .forget fun k => .resolve fun addr => .forget fun old =>
      .memWrite fun s => .inr ⟨rfl, addr, _, rfl, rfl⟩

theorem testBit {number : M Nat} (hn : Keeps SameData number) (src : DataEa) :
    Performs (Claims.sourceOnly (number >>= fun _ => readData .byte src))
      (testBit number src) := by
  have hsrc := (sameData_operandRel fun _ => True).readData .byte src.updatesIn_true
  refine ⟨keeps_forget (Keeps.bind (fun _ _ _ => .trans) hn fun _ => hsrc),
    .forget_bind fun k => ?_⟩
  cases src with
  | alt e =>
    cases e with
    | dn r => exact .pure fun s => .inl rfl
    | mem m => exact .forget fun old => .pure fun s => .inl rfl
  | pcDisp d | pcIndex ix | imm v => exact .forget fun old => .pure fun s => .inl rfl

theorem shiftDn (op : ShiftOp) {count : M Nat} (hc : ∀ s, ∃ cnt, count s = .ok cnt s) (dy : Reg) :
    Performs Claims.registersOnly (shiftDn sz op count dy) :=
  registersOnly fun s => by
    obtain ⟨cnt, h⟩ := hc s
    rw [shiftDn_apply op count dy h]
    rfl

theorem branch (cond : Ccr → Bool) (disp : Disp) :
    Performs (Claims.sourceOnly (readDisp disp)) (branch cond disp) := by
  refine ⟨keeps_forget ((sameData_operandRel fun _ => True).readDisp disp),
    .look readPc_apply fun base => .forget fun d => .look readCcr_apply fun k => .pure fun s => ?_⟩
  refine .inl ?_
  split
  · dsimp only
    split <;> rfl
  · rfl

theorem stopWith (imm : Word) : Performs (Claims.sourceOnly fetchExt) (stopWith imm) :=
  sourceOnly (sameData_operandRel fun _ => True).fetchExt fun _ _ => rfl

/-- Every instruction uses its operands as `operandUse` says (R56, R65). -/
theorem body (i : Instr) : Performs (operandUse i) (body i) := by
  have hR := sameData_operandRel fun _ => True
  have hdata (sz : Size) (e : DataEa) := hR.readData sz e.updatesIn_true
  have hany (sz : Size) (e : AnyEa) := hR.readAny sz e.updatesIn_true
  cases i with
  | addBEaDn src dn | subBEaDn src dn
  | andBEaDn src dn | andWEaDn src dn | andLEaDn src dn
  | orBEaDn src dn | orWEaDn src dn | orLEaDn src dn => exact aluToDn _ (hdata _ src) dn
  | addWEaDn src dn | addLEaDn src dn | subWEaDn src dn | subLEaDn src dn =>
    exact aluToDn _ (hany _ src) dn
  | addBDnEa dn dst | addWDnEa dn dst | addLDnEa dn dst
  | subBDnEa dn dst | subWDnEa dn dst | subLDnEa dn dst
  | andBDnEa dn dst | andWDnEa dn dst | andLDnEa dn dst
  | orBDnEa dn dst | orWDnEa dn dst | orLDnEa dn dst => exact aluToEa _ (hR.readD _ dn) (.mem dst)
  | eorB dn dst | eorW dn dst | eorL dn dst => exact aluToEa _ (hR.readD _ dn) dst
  | addiB imm dst | addiW imm dst | addiL imm dst
  | subiB imm dst | subiW imm dst | subiL imm dst
  | oriB imm dst | oriW imm dst | oriL imm dst
  | andiB imm dst | andiW imm dst | andiL imm dst
  | eoriB imm dst | eoriW imm dst | eoriL imm dst => exact aluToEa _ (hR.readImm _ _) dst
  | cmpB src dn => exact compareDn (hdata _ src) dn
  | cmpW src dn | cmpL src dn => exact compareDn (hany _ src) dn
  | cmpiB imm dst | cmpiW imm dst | cmpiL imm dst => exact compareEa (hR.readImm _ _) dst
  | negB dst | negW dst | negL dst | notB dst | notW dst | notL dst => exact unaryEa _ dst
  | clrB dst | clrW dst | clrL dst => exact clearEa dst
  | moveB src dst => exact moveEa (hdata _ src) dst
  | moveW src dst | moveL src dst => exact moveAny _ src dst
  | mulu src dn | muls src dn => exact multiplyDn _ (hdata _ src) dn
  | divu src dn | divs src dn => exact divideDn _ (hdata _ src) dn
  | extW | extL | swap | exgDD | exgAA | exgDA => exact registersOnly fun _ => rfl
  | aslBImm ccc dy | aslWImm ccc dy | aslLImm ccc dy | asrBImm ccc dy | asrWImm ccc dy
  | asrLImm ccc dy | lslBImm ccc dy | lslWImm ccc dy | lslLImm ccc dy | lsrBImm ccc dy
  | lsrWImm ccc dy | lsrLImm ccc dy | roxlBImm ccc dy | roxlWImm ccc dy | roxlLImm ccc dy
  | roxrBImm ccc dy | roxrWImm ccc dy | roxrLImm ccc dy | rolBImm ccc dy | rolWImm ccc dy
  | rolLImm ccc dy | rorBImm ccc dy | rorWImm ccc dy | rorLImm ccc dy =>
    exact shiftDn _ (immCount_answers ccc) dy
  | aslBReg dx dy | aslWReg dx dy | aslLReg dx dy | asrBReg dx dy | asrWReg dx dy
  | asrLReg dx dy | lslBReg dx dy | lslWReg dx dy | lslLReg dx dy | lsrBReg dx dy
  | lsrWReg dx dy | lsrLReg dx dy | roxlBReg dx dy | roxlWReg dx dy | roxlLReg dx dy
  | roxrBReg dx dy | roxrWReg dx dy | roxrLReg dx dy | rolBReg dx dy | rolWReg dx dy
  | rolLReg dx dy | rorBReg dx dy | rorWReg dx dy | rorLReg dx dy =>
    exact shiftDn _ (regCount_answers dx) dy
  | btstDyn dn src => exact testBit (hR.dynamicBit dn) src
  | btstStatic k src => exact testBit (hR.staticBit k) src
  | bchgDyn dn dst | bclrDyn dn dst | bsetDyn dn dst => exact changeBit _ (hR.dynamicBit dn) dst
  | bchgStatic k dst | bclrStatic k dst | bsetStatic k dst =>
    exact changeBit _ (hR.staticBit k) dst
  | bra disp | bhi disp | bls disp | bcc disp | bcs disp | bne disp | beq disp | bvc disp
  | bvs disp | bpl disp | bmi disp | bge disp | blt disp | bgt disp | ble disp =>
    exact branch _ disp
  | stop imm => exact stopWith imm

end Performs

/-! ## Exceptions of operands -/

/-- What an operand access of an instruction raises, the instruction takes. -/
theorem exec_of_accesses_error {i : Instr} {s t : State} {e : Exc}
    (h : (operandUse i).accesses s.afterOpword = .error e t) :
    exec i s = .next (takeException e s.pc t) :=
  exec_eq_next.2 (.inr ⟨e, t, (Performs.body i).begins.error h, rfl⟩)

/-- Settles O58: each exception is the first that the accesses of the instruction raise. -/
theorem operandExceptionsAreTaken : Obligations.OperandExceptionsAreTaken := by
  intro i s
  refine ⟨fun e s1 h => exec_of_accesses_error (M.bind_error h), fun s1 m hs hm => ?_⟩
  have taken {e : Exc} {t : State} (h : (operandUse i).memoryAccess m s1 = .error e t) :
      exec i s = .next (takeException e s.pc t) :=
    exec_of_accesses_error ((OperandUse.accesses_of_memory hs hm).trans h)
  refine ⟨fun e s2 h => taken (M.bind_error h), fun addr s2 hres => ⟨fun e s3 hr h => ?_,
    fun v e s3 hw hread h => ?_⟩⟩
  · exact taken (OperandUse.memoryAccess_of_read_error hres (OperandUse.readAt_of_error hr h))
  · exact taken (OperandUse.memoryAccess_of_check_error hres (OperandUse.readAt_of_ok hread)
      (OperandUse.checkAt_of_error hw h))

/-! ## Memory outside the stored operand -/

theorem altStore_eq_map (sz : Size) (before : M Unit) (dst : DataAltEa) :
    altStore sz before dst = (altMem dst).map fun m => ⟨sz, m, before⟩ := by
  cases dst <;> rfl

theorem forget_readImm (sz : Size) (v : BitVec sz.bits) : forget (readImm sz v) = fetchImm sz := by
  simp only [forget, readImm, bind_assoc, pure_bind, bind_pure_unit]

theorem forget_staticBit (k : Byte) : forget (staticBit k) = fetchExt := by
  simp only [forget, staticBit, bind_assoc, pure_bind, bind_pure_unit]

/-- The store in the footprint of an instruction that writes memory is to the operand it uses, after
its source. -/
theorem footprint_store_of_writes {i : Instr} (hw : (operandUse i).writes = true) :
    (footprint i).store =
      (operandUse i).memory.map fun m => ⟨(operandUse i).size, m, (operandUse i).source⟩ := by
  cases i with
  | addBDnEa | addWDnEa | addLDnEa | subBDnEa | subWDnEa | subLDnEa
  | andBDnEa | andWDnEa | andLDnEa | orBDnEa | orWDnEa | orLDnEa => rfl
  | eorB _ dst | eorW _ dst | eorL _ dst
  | negB dst | negW dst | negL dst | notB dst | notW dst | notL dst | clrB dst | clrW dst | clrL dst
  | bchgDyn _ dst | bclrDyn _ dst | bsetDyn _ dst
  | moveB _ dst => exact altStore_eq_map _ _ dst
  | bchgStatic k dst | bclrStatic k dst | bsetStatic k dst =>
    exact (altStore_eq_map _ _ dst).trans (by rw [← forget_staticBit k]; rfl)
  | addiB imm dst | addiW imm dst | addiL imm dst
  | subiB imm dst | subiW imm dst | subiL imm dst
  | oriB imm dst | oriW imm dst | oriL imm dst
  | andiB imm dst | andiW imm dst | andiL imm dst
  | eoriB imm dst | eoriW imm dst | eoriL imm dst =>
    exact (altStore_eq_map _ _ dst).trans (by rw [← forget_readImm _ imm]; rfl)
  | moveW src dst | moveL src dst =>
    simp only [operandUse] at hw ⊢
    split at hw
    · exact nomatch hw
    · rw [if_neg ‹_›]
      exact altStore_eq_map _ _ dst
  | _ => exact nomatch hw

/-- What an instruction does to memory: nothing, or one store to the operand its footprint names,
which passed every access before it. -/
theorem exec_mem {i : Instr} {s t : State} (h : exec i s = .next t) :
    t.mem = s.mem ∨ ∃ st s1 s2 addr v, (footprint i).store = some st ∧
      st.before s.afterOpword = .ok () s1 ∧ resolveMem st.size st.dst s1 = .ok addr s2 ∧
      t.mem = (s2.storeAt addr st.size v).mem ∧ s2.mem = s.mem := by
  have hbody := Performs.body i
  have hkeep := OperandUse.keeps_accesses hbody.source
  rw [exec_mem_eq_finalState h]
  cases hacc : (operandUse i).accesses s.afterOpword with
  | error e s' =>
    rw [hbody.begins.error hacc]
    exact .inl (hkeep.error hacc).mem
  | ok b s2 =>
    have hmem : s2.mem = s.mem := (hkeep.ok hacc).mem
    obtain heq | ⟨hw, addr, v, rfl, heq⟩ := hbody.begins.ok hacc
    · exact .inl (heq.trans hmem)
    · obtain ⟨m, s1, hm, hs, hres⟩ := OperandUse.accesses_eq_ok_some hacc
      have hst := footprint_store_of_writes hw
      rw [hm] at hst
      exact .inr ⟨_, s1, s2, addr, v, hst, hs, hres, heq, hmem⟩

/-- Settles O18: an instruction stores at most once, at the address its destination mode gives. -/
theorem memoryFrame : Obligations.MemoryFrame := by
  intro i s t h
  obtain hmem | ⟨st, s1, s2, addr, v, hst, hs, hres, hmem, hsame⟩ := exec_mem h
  · have hbyte (x : Nat) : t.byteAt x = s.byteAt x := by simp only [State.byteAt, hmem]
    exact ⟨fun _ => hmem, fun _ _ => ⟨fun _ _ _ _ _ x _ => hbyte x, fun _ => hmem⟩⟩
  · refine ⟨fun hnone => absurd (hst.symm.trans hnone) nofun, fun st' hst' => ?_⟩
    obtain rfl : st = st' := Option.some.inj (hst.symm.trans hst')
    refine ⟨fun s1' addr' s2' hs' hres' x hx => ?_, fun hno => absurd hres (hno s1 addr s2 hs)⟩
    obtain rfl : s1 = s1' := (EStateM.Result.ok.inj (hs.symm.trans hs')).2
    obtain ⟨rfl, rfl⟩ := EStateM.Result.ok.inj (hres.symm.trans hres')
    calc t.byteAt x
        _ = (s2.storeAt addr st.size v).byteAt x := by simp only [State.byteAt, hmem]
        _ = s2.byteAt x := State.storeAt_byteAt_other fun i hi hix => hx ⟨i, hi, hix⟩
        _ = s.byteAt x := by simp only [State.byteAt, hsame]

end Sys2Proof.Claims
end

section
/-! What an instruction that the decoder answers tells about the words it was read from, for the
decoder of every group of opwords (R81). -/

namespace Sys2Proof

/-! ## Decoded instructions -/

/-- `i` is well-formed, its opword is `w`, and its extension words stood between `ws` and `rest`. -/
structure ReadFrom (w : Word) (ws rest : List Word) (i : Instr) : Prop where
  wf : i.wf = true
  words : ∃ ext : List Word, encode i = w :: ext ∧ Took ext.length ws rest

/-- What a decoder answers from the opword `w` and the words `ws` was read from them. -/
def Faithful (w : Word) (ws : List Word) (r : DecodeRes Instr) : Prop :=
  ∀ i rest, r = .ok (i, rest) → ReadFrom w ws rest i

/-- Mode 7, register 4 is the only encoding of `#imm` (R91). -/
theorem DataEa.notImm_of_fields (e : DataEa) (h : ¬(e.mode = 7#3 ∧ e.reg = 4#3)) :
    e.notImm = true := by
  cases e with
  | imm v => exact absurd ⟨rfl, rfl⟩ h
  | alt e | pcDisp d | pcIndex ix => rfl

/-! ## MOVE of word and long size -/

/-- The decoder of MOVE.L and MOVE.W, but for the size and the instruction. -/
def decodeMoveAny (sz : Size) (move : AnyEa → DataAltEa → Instr) (f om mode reg : BitVec 3)
    (ws : List Word) : DecodeRes Instr :=
  match decodeAnyEa sz mode reg ws with
  | .error e => .error e
  | .ok (src, ws') =>
    match decodeDataAltEa om f ws' with
    | .error e => .error e
    | .ok (dst, rest) =>
      if moveRefused src dst then .error .moveSameRegister else .ok (move src dst, rest)

theorem decodeMoveL_eq : decodeMoveL = decodeMoveAny .long .moveL := rfl

theorem decodeMoveW_eq : decodeMoveW = decodeMoveAny .word .moveW := rfl

/-! ## The word of a branch -/

/-- A word is its group, its condition and its low byte (R83, R100). -/
theorem branchWord_of_fields (w : Word) :
    (w.extractLsb' 12 4 ++ w.extractLsb' 8 4) ++ w.setWidth 8 = w := by
  apply BitVec.eq_of_getLsbD_eq
  intro i hi
  simp only [BitVec.getLsbD_extractLsb', BitVec.getLsbD_setWidth, BitVec.getLsbD_append]
  interval_cases i <;> rfl

/-- The displacement as the decoder reads it: the low byte of the opword or, if that is zero, the
next word (R100). -/
def decodeDisp (w : Word) (ws : List Word) : DecodeRes Disp :=
  if w.setWidth 8 = 0#8 then DecodeRes.map' Disp.long (takeWord ws)
  else .ok (.short (w.setWidth 8), ws)

theorem decodeDisp_took {cc : BitVec 4} {low : Byte} {ws rest : List Word} {disp : Disp}
    (h : decodeDisp ((0x6#4 ++ cc) ++ low) ws = .ok (disp, rest)) :
    disp.wf = true ∧ branchOp cc disp = (0x6#4 ++ cc) ++ low ∧
      Took disp.words.length ws rest := by
  simp only [decodeDisp, (branchWord_fields cc low).2.2] at h
  split at h
  · subst low
    obtain ⟨d, hd, rfl⟩ := DecodeRes.map'_eq_ok.1 h
    exact ⟨rfl, rfl, takeWord_took hd⟩
  · cases h
    exact ⟨decide_eq_true ‹_›, rfl, .zero _⟩

namespace Faithful

variable {w : Word} {ws ws' pre rest : List Word} {r r' : DecodeRes Instr}

theorem error {e : DecodeError} : Faithful w ws (.error e) := nofun

theorem ok {i : Instr} (h : ReadFrom w ws rest i) : Faithful w ws (.ok (i, rest)) := by
  rintro _ _ ⟨⟩
  exact h

theorem ite_not {c : Prop} [Decidable c] (h : c → Faithful w ws r)
    (h' : ¬c → Faithful w ws r') : Faithful w ws (if c then r else r') := by
  split
  · exact h ‹_›
  · exact h' ‹_›

theorem ite {c : Prop} [Decidable c] (h : c → Faithful w ws r) (h' : Faithful w ws r') :
    Faithful w ws (if c then r else r') := ite_not h fun _ => h'

/-- An instruction of one word. -/
theorem opwordOnly {i : Instr} (h : i.wf = true ∧ encode i = [w]) :
    Faithful w ws (.ok (i, ws)) :=
  ok ⟨h.1, [], h.2, .zero ws⟩

/-- An instruction made of a part that was decoded. -/
theorem map' {α : Type} {k : α → Instr} {p : DecodeRes α}
    (h : ∀ a rest, p = .ok (a, rest) → ReadFrom w ws rest (k a)) :
    Faithful w ws (DecodeRes.map' k p) := by
  intro i rest hi
  obtain ⟨a, ha, rfl⟩ := DecodeRes.map'_eq_ok.1 hi
  exact h a rest ha

/-! An instruction that ends in an operand: `W` makes its opword from the two fields of the mode. -/

section
variable {W : BitVec 3 → BitVec 3 → Word} {mode reg : BitVec 3} {sz : Size}

theorem memEa {k : MemEa → Instr}
    (hk : ∀ m, (k m).wf = true ∧ encode (k m) = W m.mode m.reg :: m.words) :
    Faithful (W mode reg) ws (DecodeRes.map' k (decodeMemEa mode reg ws)) :=
  map' fun m rest h => by
    obtain ⟨rfl, rfl, htook⟩ := decodeMemEa_took h
    exact ⟨(hk m).1, _, (hk m).2, htook⟩

theorem dataEa {k : DataEa → Instr}
    (hk : ∀ e, (k e).wf = e.immFits sz ∧ encode (k e) = W e.mode e.reg :: e.words sz) :
    Faithful (W mode reg) ws (DecodeRes.map' k (decodeDataEa sz mode reg ws)) :=
  map' fun e rest h => by
    obtain ⟨rfl, rfl, htook, hfits⟩ := decodeDataEa_took h
    exact ⟨(hk e).1.trans hfits, _, (hk e).2, htook⟩

theorem anyEa {k : AnyEa → Instr}
    (hk : ∀ e, (k e).wf = e.immFits sz ∧ encode (k e) = W e.mode e.reg :: e.words sz) :
    Faithful (W mode reg) ws (DecodeRes.map' k (decodeAnyEa sz mode reg ws)) :=
  map' fun e rest h => by
    obtain ⟨rfl, rfl, htook, hfits⟩ := decodeAnyEa_took h
    exact ⟨(hk e).1.trans hfits, _, (hk e).2, htook⟩

/-- The operand's words stand behind the words `pre` of an immediate or a source (R80). -/
theorem dataAltEa_behind {k : DataAltEa → Instr} (hpre : Took pre.length ws ws')
    (hk : ∀ e, (k e).wf = true ∧ encode (k e) = W e.mode e.reg :: (pre ++ e.words)) :
    Faithful (W mode reg) ws (DecodeRes.map' k (decodeDataAltEa mode reg ws')) :=
  map' fun e rest h => by
    obtain ⟨rfl, rfl, htook⟩ := decodeDataAltEa_took h
    refine ⟨(hk e).1, _, (hk e).2, ?_⟩
    rw [List.length_append]
    exact hpre.trans htook

theorem dataAltEa {k : DataAltEa → Instr}
    (hk : ∀ e, (k e).wf = true ∧ encode (k e) = W e.mode e.reg :: e.words) :
    Faithful (W mode reg) ws (DecodeRes.map' k (decodeDataAltEa mode reg ws)) :=
  dataAltEa_behind (pre := []) (.zero ws) hk

end

/-! ## The groups of opwords

Each row of a decoder is a case: its fields are those of the opword, and its instructions are
encoded with the opword and the words they were read from. -/

variable {f om mode reg : BitVec 3}

theorem bitDyn : Faithful (opword 0x0#4 f om mode reg) ws (decodeBitDyn f om mode reg ws) := by
  refine ite ?btst <| ite ?bchg <| ite ?bclr <| ite ?bset error <;> rintro rfl
  case btst => exact dataEa fun _ => ⟨rfl, rfl⟩
  case bchg | bclr | bset => exact dataAltEa fun _ => ⟨rfl, rfl⟩

/-- A static bit test of an operand whose fields are not those of `#imm` (R105). -/
theorem btstStatic {k : Byte} (hpre : Took 1 ws ws') (himm : ¬(mode = 7#3 ∧ reg = 4#3)) :
    Faithful (opword 0x0#4 4#3 0#3 mode reg) ws
      (DecodeRes.map' (Instr.btstStatic k) (decodeDataEa .byte mode reg ws')) :=
  map' fun e rest h => by
    obtain ⟨rfl, rfl, htook, -⟩ := decodeDataEa_took h
    exact ⟨e.notImm_of_fields himm, _, rfl, by simpa [Nat.add_comm] using hpre.trans htook⟩

theorem bitStatic :
    Faithful (opword 0x0#4 4#3 om mode reg) ws (decodeBitStatic om mode reg ws) := by
  unfold decodeBitStatic
  cases h : takeByte ws with
  | error e => exact error
  | ok p =>
    obtain ⟨k, ws'⟩ := p
    have hpre : Took [k.setWidth 16].length ws ws' := takeByte_took h
    refine ite ?_ <| ite ?_ <| ite ?_ <| ite ?_ error
    · rintro rfl
      exact ite_not (fun _ => error) (btstStatic hpre)
    all_goals
      rintro rfl
      exact dataAltEa_behind hpre fun _ => ⟨rfl, rfl⟩

theorem immB : Faithful (opword 0x0#4 f 0#3 mode reg) ws (decodeImmB f mode reg ws) := by
  unfold decodeImmB
  cases h : takeByte ws with
  | error e => exact error
  | ok p =>
    obtain ⟨v, ws'⟩ := p
    have hpre : Took [v.setWidth 16].length ws ws' := takeByte_took h
    refine ite ?_ <| ite ?_ <| ite ?_ <| ite ?_ <| ite ?_ <| ite ?_ error
    all_goals
      rintro rfl
      exact dataAltEa_behind hpre fun _ => ⟨rfl, rfl⟩

theorem immW : Faithful (opword 0x0#4 f 1#3 mode reg) ws (decodeImmW f mode reg ws) := by
  unfold decodeImmW
  cases h : takeWord ws with
  | error e => exact error
  | ok p =>
    obtain ⟨v, ws'⟩ := p
    have hpre : Took [v].length ws ws' := takeWord_took h
    refine ite ?_ <| ite ?_ <| ite ?_ <| ite ?_ <| ite ?_ <| ite ?_ error
    all_goals
      rintro rfl
      exact dataAltEa_behind hpre fun _ => ⟨rfl, rfl⟩

theorem immL : Faithful (opword 0x0#4 f 2#3 mode reg) ws (decodeImmL f mode reg ws) := by
  unfold decodeImmL
  cases h : takeLong ws with
  | error e => exact error
  | ok p =>
    obtain ⟨v, ws'⟩ := p
    have hpre : Took (longWords v).length ws ws' := takeLong_took h
    refine ite ?_ <| ite ?_ <| ite ?_ <| ite ?_ <| ite ?_ <| ite ?_ error
    all_goals
      rintro rfl
      exact dataAltEa_behind hpre fun _ => ⟨rfl, rfl⟩

theorem group0 : Faithful (opword 0x0#4 f om mode reg) ws (decodeGroup0 f om mode reg ws) := by
  refine ite (fun _ => bitDyn) <| ite ?_ <| ite ?_ <| ite ?_ <| ite ?_ error <;> rintro rfl
  · exact bitStatic
  · exact immB
  · exact immW
  · exact immL

/-- MOVE writes the fields of its destination the other way round (R83). -/
theorem moveB : Faithful (opword 0x1#4 f om mode reg) ws (decodeMoveB f om mode reg ws) := by
  unfold decodeMoveB
  cases h : decodeDataEa .byte mode reg ws with
  | error e => exact error
  | ok p =>
    obtain ⟨src, ws'⟩ := p
    obtain ⟨rfl, rfl, hpre, hfits⟩ := decodeDataEa_took h
    exact dataAltEa_behind (W := fun om f => opword 0x1#4 f om _ _) hpre fun _ => ⟨hfits, rfl⟩

theorem moveAny {sz : Size} {g : BitVec 4} {move : AnyEa → DataAltEa → Instr}
    (hwf : ∀ src dst, (move src dst).wf = (src.immFits sz && !moveRefused src dst))
    (henc : ∀ src dst, encode (move src dst) =
      opword g dst.reg dst.mode src.mode src.reg :: (src.words sz ++ dst.words)) :
    Faithful (opword g f om mode reg) ws (decodeMoveAny sz move f om mode reg ws) := by
  unfold decodeMoveAny
  cases hsrc : decodeAnyEa sz mode reg ws with
  | error e => exact error
  | ok p =>
    obtain ⟨src, ws'⟩ := p
    obtain ⟨rfl, rfl, hpre, hfits⟩ := decodeAnyEa_took hsrc
    dsimp only
    cases hdst : decodeDataAltEa om f ws' with
    | error e => exact error
    | ok q =>
      obtain ⟨dst, rest⟩ := q
      obtain ⟨rfl, rfl, htook⟩ := decodeDataAltEa_took hdst
      refine ite_not (fun _ => error) fun hmove => ok ⟨?_, _, henc src dst, ?_⟩
      · simp [hwf, hfits, hmove]
      · rw [List.length_append]
        exact hpre.trans htook

theorem moveL : Faithful (opword 0x2#4 f om mode reg) ws (decodeMoveL f om mode reg ws) :=
  decodeMoveL_eq ▸ moveAny (fun _ _ => rfl) fun _ _ => rfl

theorem moveW : Faithful (opword 0x3#4 f om mode reg) ws (decodeMoveW f om mode reg ws) :=
  decodeMoveW_eq ▸ moveAny (fun _ _ => rfl) fun _ _ => rfl

theorem group4 : Faithful (opword 0x4#4 f om mode reg) ws (decodeGroup4 f om mode reg ws) := by
  refine ite ?stop <| ite ?swap <| ite ?extW <| ite ?extL <| ite ?_ <| ite ?_ <| ite ?_ <|
    ite ?_ <| ite ?_ <| ite ?_ <| ite ?_ <| ite ?_ <| ite ?_ error
  case stop =>
    rintro ⟨rfl, rfl, rfl, rfl⟩
    exact map' fun imm rest h => ⟨rfl, [imm], rfl, takeWord_took h⟩
  case swap | extW | extL =>
    rintro ⟨rfl, rfl, rfl⟩
    exact opwordOnly ⟨rfl, rfl⟩
  all_goals
    rintro ⟨rfl, rfl⟩
    exact dataAltEa fun _ => ⟨rfl, rfl⟩

theorem group8 : Faithful (opword 0x8#4 f om mode reg) ws (decodeGroup8 f om mode reg ws) := by
  refine ite ?orB <| ite ?orW <| ite ?orL <| ite ?divu <| ite ?orBDn <| ite ?orWDn <|
    ite ?orLDn <| ite ?divs error <;> rintro rfl
  case orB | orW | orL | divu | divs => exact dataEa fun _ => ⟨rfl, rfl⟩
  case orBDn | orWDn | orLDn => exact memEa fun _ => ⟨rfl, rfl⟩

theorem group9 : Faithful (opword 0x9#4 f om mode reg) ws (decodeGroup9 f om mode reg ws) := by
  refine ite ?subB <| ite ?subW <| ite ?subL <| ite ?subBDn <| ite ?subWDn <|
    ite ?subLDn error <;> rintro rfl
  case subB => exact dataEa fun _ => ⟨rfl, rfl⟩
  case subW | subL => exact anyEa fun _ => ⟨rfl, rfl⟩
  case subBDn | subWDn | subLDn => exact memEa fun _ => ⟨rfl, rfl⟩

theorem groupB : Faithful (opword 0xb#4 f om mode reg) ws (decodeGroupB f om mode reg ws) := by
  refine ite ?cmpB <| ite ?cmpW <| ite ?cmpL <| ite ?eorB <| ite ?eorW <|
    ite ?eorL error <;> rintro rfl
  case cmpB => exact dataEa fun _ => ⟨rfl, rfl⟩
  case cmpW | cmpL => exact anyEa fun _ => ⟨rfl, rfl⟩
  case eorB | eorW | eorL => exact dataAltEa fun _ => ⟨rfl, rfl⟩

theorem groupC : Faithful (opword 0xc#4 f om mode reg) ws (decodeGroupC f om mode reg ws) := by
  refine ite ?exgDD <| ite ?exgAA <| ite ?exgDA <| ite ?andB <| ite ?andW <| ite ?andL <|
    ite ?mulu <| ite ?andBDn <| ite ?andWDn <| ite ?andLDn <| ite ?muls error
  case exgDD | exgAA | exgDA =>
    rintro ⟨rfl, rfl⟩
    exact opwordOnly ⟨rfl, rfl⟩
  case andB | andW | andL | mulu | muls =>
    rintro rfl
    exact dataEa fun _ => ⟨rfl, rfl⟩
  case andBDn | andWDn | andLDn =>
    rintro rfl
    exact memEa fun _ => ⟨rfl, rfl⟩

theorem groupD : Faithful (opword 0xd#4 f om mode reg) ws (decodeGroupD f om mode reg ws) := by
  refine ite ?addB <| ite ?addW <| ite ?addL <| ite ?addBDn <| ite ?addWDn <|
    ite ?addLDn error <;> rintro rfl
  case addB => exact dataEa fun _ => ⟨rfl, rfl⟩
  case addW | addL => exact anyEa fun _ => ⟨rfl, rfl⟩
  case addBDn | addWDn | addLDn => exact memEa fun _ => ⟨rfl, rfl⟩

/-- Six pairs of direction and size, eight pairs of count form and type (R83). -/
theorem shift : Faithful (opword 0xe#4 f om mode reg) ws (decodeShift f om mode reg ws) := by
  refine ite ?_ <| ite ?_ <| ite ?_ <| ite ?_ <| ite ?_ <| ite ?_ error
  all_goals
    rintro rfl
    refine ite ?_ <| ite ?_ <| ite ?_ <| ite ?_ <| ite ?_ <| ite ?_ <| ite ?_ <| ite ?_ error
  all_goals
    rintro rfl
    exact opwordOnly ⟨rfl, rfl⟩

theorem branchRow {cc : BitVec 4} {low : Byte} {k : Disp → Instr}
    (hk : ∀ disp, (k disp).wf = disp.wf ∧ encode (k disp) = branchOp cc disp :: disp.words) :
    Faithful ((0x6#4 ++ cc) ++ low) ws (DecodeRes.map' k (decodeDisp ((0x6#4 ++ cc) ++ low) ws)) :=
  map' fun disp rest h => by
    obtain ⟨hwf, hop, htook⟩ := decodeDisp_took h
    exact ⟨(hk disp).1.trans hwf, _, hop ▸ (hk disp).2, htook⟩

theorem branch_of_fields (cc : BitVec 4) (low : Byte) :
    Faithful ((0x6#4 ++ cc) ++ low) ws (decodeBranch ((0x6#4 ++ cc) ++ low) ws) := by
  simp only [decodeBranch, (branchWord_fields cc low).2.1]
  refine ite ?_ <| ite ?_ <| ite ?_ <| ite ?_ <| ite ?_ <| ite ?_ <| ite ?_ <| ite ?_ <| ite ?_ <|
    ite ?_ <| ite ?_ <| ite ?_ <| ite ?_ <| ite ?_ <| ite ?_ error
  all_goals
    rintro rfl
    exact branchRow fun _ => ⟨rfl, rfl⟩

theorem group6 {w : Word} (h : w.extractLsb' 12 4 = 0x6#4) :
    Faithful w ws (decodeBranch w ws) := by
  have hw := branchWord_of_fields w
  rw [h] at hw
  rw [← hw]
  exact branch_of_fields _ _

/-! ## Every opword -/

theorem decode (w : Word) (ws : List Word) : Faithful w ws (decode (w :: ws)) := by
  rw [← opword_fields w, decode_opword]
  refine ite ?bits <| ite ?moveB <| ite ?moveL <| ite ?moveW <| ite ?unary <| ite ?branch <|
    ite ?or <| ite ?sub <| ite ?cmp <| ite ?and <| ite ?add <| ite ?shift error <;> intro hg
  case branch => exact group6 ((opword_group _ _ _ _ _).trans hg)
  all_goals rw [hg]
  case bits => exact group0
  case moveB => exact moveB
  case moveL => exact moveL
  case moveW => exact moveW
  case unary => exact group4
  case or => exact group8
  case sub => exact group9
  case cmp => exact groupB
  case and => exact groupC
  case add => exact groupD
  case shift => exact shift

end Faithful

end Sys2Proof

namespace Sys2Proof.Claims

/-- Settles O1: the round trip of every row of the encoder. -/
theorem decodeOfEncode : Obligations.DecodeOfEncode :=
  fun _ rest hwf => decode_encode_append hwf rest

/-- Settles O2: each row of the decoder answers an instruction with the words it was read from. -/
theorem encodeOfDecode : Obligations.EncodeOfDecode := by
  intro w ws rest i h
  obtain ⟨hwf, ext, henc, htook⟩ := Faithful.decode w ws i rest h
  obtain ⟨-, hlen⟩ := Machine.encode_length i
  have hop : i.opword = w := by rw [Instr.opword, henc, List.headD_cons]
  have hext : i.extWords = ext.length := by
    rw [Instr.extWords, henc, List.length_cons, Nat.add_sub_cancel]
  refine ⟨hwf, hop, ?_, hext ▸ htook⟩
  rw [henc, List.length_cons] at hlen
  omega

end Sys2Proof.Claims
end

section
/-! Operands: the address a memory mode names, what reading an operand answers, what a write makes
of the state; MOVE, its refused form, and the opwords that the spec lists. -/

namespace Sys2Proof.Machine

/-- The step of `(An)+` and `-(An)` is the one of R91. -/
theorem addrStep_eq_stepOf (sz : Size) (r : Reg) : addrStep sz r = Claims.stepOf sz r := by
  cases sz <;> simp [addrStep, Claims.stepOf]

/-- The refused MOVE raises IllegalInstruction before anything is read (R94, log 11). -/
theorem moveAny_of_refused {sz : Size} {op : Word} {src : AnyEa} {dst : DataAltEa}
    (h : moveRefused src dst = true) : moveAny sz op src dst = raise (.illegalInstruction op) :=
  if_pos h

theorem moveAny_of_not_refused {sz : Size} {op : Word} {src : AnyEa} {dst : DataAltEa}
    (h : moveRefused src dst = false) : moveAny sz op src dst = moveEa sz (readAny sz src) dst :=
  if_neg (Bool.not_eq_true _ ▸ h)

/-- A refused MOVE takes IllegalInstruction in the state after its opword (R264). -/
theorem exec_of_moveRefused {sz : Size} {i : Instr} {src : AnyEa} {dst : DataAltEa} (s : State)
    (hbody : body i = moveAny sz i.opword src dst) (h : moveRefused src dst = true) :
    exec i s = .next (takeException (.illegalInstruction i.opword) s.pc s.afterOpword) := by
  rw [exec_eq_execute, hbody, moveAny_of_refused h]
  exact execute_of_error (raise_apply _ _)

end Sys2Proof.Machine

namespace Sys2Proof

/-- The decoder refuses the words of a refused MOVE (R94, R110). -/
theorem decodeMoveAny_of_refused {sz : Size} {src : AnyEa} {dst : DataAltEa}
    (move : AnyEa → DataAltEa → Instr) (hfits : src.immFits sz = true)
    (h : moveRefused src dst = true) :
    decodeMoveAny sz move dst.reg dst.mode src.mode src.reg (src.words sz ++ dst.words) =
      .error .moveSameRegister := by
  have hdst : decodeDataAltEa dst.mode dst.reg dst.words = .ok (dst, []) := by
    simpa using decodeDataAltEa_words [] dst
  simp only [decodeMoveAny, decodeAnyEa_words _ sz src hfits, hdst, h, if_true]

end Sys2Proof

namespace Sys2Proof.Claims

open Sys2Proof.Machine

/-! ## What a write makes of the state -/

/-- N and Z of the logic flags are those of R13. -/
theorem logicFlags_logicCcr {n : Nat} (v : BitVec n) (k : Ccr) :
    LogicFlags v k (logicCcr v k) :=
  ⟨⟨msb_iff_toInt_neg v, decide_eq_true_iff.trans (eq_zero_iff_toNat v)⟩, rfl, rfl, rfl⟩

/-- A partial register write with new flags (R128). -/
theorem dnBecomes_setD_setCcr {sz : Size} (s : State) (r : Reg) (v : BitVec sz.bits) (k : Ccr) :
    DnBecomes sz s ((s.setD r (insertLow (s.dreg r) v)).setCcr k) r v := by
  have hbits : sz.bits ≤ 32 := by cases sz <;> decide
  refine ⟨fun i hi => ?_, fun i hi => ?_, fun q hq => ?_, rfl, rfl, rfl, rfl, rfl, rfl, rfl, rfl⟩
  · rw [State.setCcr_dreg, State.setD_dreg_same, insertLow_low _ _ hi hbits]
  · rw [State.setCcr_dreg, State.setD_dreg_same, insertLow_high _ _ hi]
  · rw [State.setCcr_dreg, State.setD_dreg_other _ _ hq]

/-- A store with new flags (R53). -/
theorem memBecomes_storeAt_setCcr {sz : Size} (s : State) (addr : Long) (v : BitVec sz.bits)
    (k : Ccr) : MemBecomes sz s ((s.storeAt addr sz v).setCcr k) addr v :=
  ⟨State.storeAt_valueAt_same s addr sz v,
    fun _ hx => State.storeAt_byteAt_other fun i hi h => hx ⟨i, hi, h⟩,
    rfl, rfl, rfl, rfl, rfl, rfl, rfl, rfl⟩

/-! ## Effective addresses -/

theorem fetchExt_twice_of_fetchable {s : State} (h : Fetchable s 2) :
    (fetchExt >>= fun _ => fetchExt) s = .ok () (s.setPc (s.pc + 4#32)) := by
  rw [M.bind_ok (fetchExt_of_canFetch h.head), fetchExt_of_canFetch h.tail.head, State.setPc_pc,
    BitVec.add_assoc]
  rfl

/-- Settles O23: each mode's fetches move pc, then its address is computed. -/
theorem effectiveAddressOfEachMode : Obligations.EffectiveAddressOfEachMode := by
  intro sz s m h
  cases m with
  | ind r => rfl
  | postInc r | preDec r =>
    simp only [addressOf, resolved, ← addrStep_eq_stepOf]
    rfl
  | disp r d | absW w => exact M.bind_ok (fetchExt_of_canFetch h.head)
  | index r ix => exact indexEa_eq_ok h.head
  | absL a =>
    show (fetchExt >>= fun _ => fetchExt >>= fun _ => pure a) s = _
    rw [← bind_assoc]
    exact M.bind_ok (fetchExt_twice_of_fetchable h)

/-! ## Reading and writing -/

/-- The words of an immediate, one for a byte or a word and two for a long (R92). -/
theorem fetchImm_of_fetchable {sz : Size} {s : State}
    (h : Fetchable s (if sz = .long then 2 else 1)) :
    fetchImm sz s = .ok () (s.setPc (s.pc + if sz = .long then 4#32 else 2#32)) := by
  cases sz with
  | byte | word => exact fetchExt_of_canFetch h.head
  | long => exact fetchExt_twice_of_fetchable h

theorem readData_imm {sz : Size} {s : State} (v : Long)
    (h : Fetchable s (if sz = .long then 2 else 1)) :
    readData sz (.imm v) s = .ok (v.setWidth sz.bits)
      (s.setPc (s.pc + if sz = .long then 4#32 else 2#32)) :=
  readImm_eq_ok.2 ⟨rfl, fetchImm_of_fetchable h⟩

/-- Settles O25: each source is fetches, then its address, then the read there. -/
theorem sourceOperandValues : Obligations.SourceOperandValues := by
  intro sz s
  refine ⟨fun r => rfl, fun r => rfl, fun v h => readData_imm v h, fun m addr s1 hm hacc => ?_,
    fun d hf hacc => ?_, fun ix hf hacc => ?_⟩
  · show readData sz (.alt (.mem m)) s = _
    rw [readData_mem, M.bind_ok hm]
    exact memRead_eq_ok.2 ⟨hacc, rfl, rfl⟩
  · exact (readData_pcDisp d hf).trans (memRead_eq_ok.2 ⟨hacc, rfl, rfl⟩)
  · exact (readData_pcIndex ix hf).trans (memRead_eq_ok.2 ⟨hacc, rfl, rfl⟩)

/-- The low bits of a register or constant are its bits (R21). -/
theorem getLsbD_setWidth_bits {sz : Size} (x : Long) {i : Nat} (hi : i < sz.bits) :
    (x.setWidth sz.bits).getLsbD i = x.getLsbD i := by
  rw [BitVec.getLsbD_setWidth, decide_eq_true hi, Bool.true_and]

/-- Settles O24: a register's low bits are its bits, and a partial write replaces just these. -/
theorem locationsReadAndWrite : Obligations.LocationsReadAndWrite := by
  intro s sz
  refine ⟨fun r => ⟨_, readLoc_dreg_apply r, fun i => getLsbD_setWidth_bits _⟩,
    fun r _ => ⟨_, readA_apply s sz r, fun i => getLsbD_setWidth_bits _⟩, fun a => rfl,
    fun w h => ⟨_, _, readData_imm w h, fun i => getLsbD_setWidth_bits w⟩,
    fun r v => ⟨_, writeLoc_dreg_apply r v, dnBecomes_setD_setCcr s r v s.ccr, rfl⟩,
    fun a v => rfl, fun l => ?_⟩
  cases l with
  | dreg r => exact .inl ⟨r, rfl⟩
  | mem a => exact .inr ⟨a, rfl⟩

/-! ## MOVE -/

/-- A MOVE completes: the source's value and its flags go to the destination (R230). -/
theorem completesToEa_of_moveEa {sz : Size} {src : M (BitVec sz.bits)} {i : Instr}
    {dst : DataAltEa} (hbody : body i = moveEa sz src dst) :
    CompletesToEa (fun a _ old r k => r = a ∧ LogicFlags r old k) sz src i dst := by
  cases dst with
  | dn r =>
    intro s s1 a hsrc
    have hmove : body i s.afterOpword =
        .ok () ((s1.setD r (insertLow (s1.dreg r) a)).setCcr (logicCcr a s1.ccr)) := by
      simp only [hbody, moveEa_dn_apply, hsrc]
    exact ⟨_, a, exec_eq_next.2 (.inl hmove), dnBecomes_setD_setCcr s1 r a _, rfl,
      logicFlags_logicCcr a s1.ccr⟩
  | mem m =>
    intro s s1 s2 a addr hsrc hres hw
    have hmove : body i s.afterOpword =
        .ok () ((s2.storeAt addr sz a).setCcr (logicCcr a s2.ccr)) := by
      simp only [hbody, moveEa_mem_apply, hsrc, hres, hw]
    exact ⟨_, a, exec_eq_next.2 (.inl hmove), memBecomes_storeAt_setCcr s2 addr a _, rfl,
      logicFlags_logicCcr a s2.ccr⟩

/-- Settles O50: every MOVE that is not refused has the shape of `moveEa`. -/
theorem moveCompletes : Obligations.MoveCompletes :=
  ⟨fun _ _ => completesToEa_of_moveEa rfl,
    fun _ _ h => completesToEa_of_moveEa (moveAny_of_not_refused h),
    fun _ _ h => completesToEa_of_moveEa (moveAny_of_not_refused h)⟩

/-- Settles O51: the step and the decoder refuse the form by the same check. -/
theorem moveSameRegisterRefused : Obligations.MoveSameRegisterRefused := by
  intro s r m hm
  have h : moveRefused (.an r) (.mem m) = true := by
    obtain rfl | rfl := hm <;> exact decide_eq_true rfl
  refine ⟨exec_of_moveRefused s rfl h, exec_of_moveRefused s rfl h, ?_, ?_⟩
  · exact (decode_opword _ _ _ _ _ _).trans (decodeMoveAny_of_refused .moveW rfl h)
  · exact (decode_opword _ _ _ _ _ _).trans (decodeMoveAny_of_refused .moveL rfl h)

/-! ## Words of the spec's listings -/

theorem decode_of_encode {i : Instr} {ws : List Word} (hwf : i.wf = true) (h : encode i = ws) :
    decode ws = .ok (i, []) := by
  rw [← h, ← decode_encode_append hwf [], List.append_nil]

/-- Settles O3: each listing is the encoding of its instruction. -/
theorem decodesSpecWords : Obligations.DecodesSpecWords :=
  ⟨decode_of_encode rfl rfl, decode_of_encode rfl rfl, decode_of_encode rfl rfl,
    decode_of_encode rfl rfl, decode_of_encode rfl rfl, decode_of_encode rfl rfl,
    decode_of_encode rfl rfl, decode_of_encode rfl rfl, decode_of_encode rfl rfl⟩

/-- Settles O4: the decoder refuses each by its fields, or, for the words that an immediate or a bit
number follows, by the operand's fields once that word is there. -/
theorem refusedOpwords : Obligations.RefusedOpwords := by
  intro w hw ws rest i h
  simp only [List.mem_cons, List.not_mem_nil, or_false] at hw
  obtain rfl | rfl | rfl | rfl | rfl | rfl | rfl | rfl | rfl | rfl | rfl | rfl | rfl | rfl | rfl |
    rfl := hw
  all_goals
    cases ws with
    | nil => exact nomatch h
    | cons v ws => exact nomatch h

end Sys2Proof.Claims
end

section
/-! The flag laws and the arithmetic of the integer instructions: a comparison orders its operands, a
product is exact, and a quotient that fits comes with its remainder. -/

namespace Sys2Proof.Machine

/-! ## What a comparison says of its operands (R126, R239) -/

section
variable {n : Nat} (a b : BitVec n) (k : Ccr)

/-- Z after a comparison: the operands are equal. -/
theorem cmpCcr_z_iff : (cmpCcr a b (b - a) k).z = true ↔ a = b := by
  rw [cmpCcr_z, decide_eq_true_iff, eq_comm (a := a)]
  exact sub_eq_zero

/-- C after a comparison: a borrow, the destination is below the source as an unsigned number. -/
theorem cmpCcr_c_iff : (cmpCcr a b (b - a) k).c = true ↔ b.toNat < a.toNat := decide_eq_true_iff

/-- N and V after a comparison differ: the destination is below the source as a signed number. -/
theorem cmpCcr_n_ne_v_iff (hn : 0 < n) :
    (cmpCcr a b (b - a) k).n ≠ (cmpCcr a b (b - a) k).v ↔ b.toInt < a.toInt :=
  sub_n_ne_v_iff hn a b

end

/-! ## Products (R129) -/

/-- The unsigned product of two words fits 32 bits (R144). -/
theorem unsignedProduct_toNat (a b : Word) :
    (unsignedProduct a b).toNat = a.toNat * b.toNat :=
  Nat.mod_eq_of_lt BitVec.toNat_mul_toNat_lt

/-- The signed product of two words fits 32 bits (R145). -/
theorem signedProduct_toInt (a b : Word) : (signedProduct a b).toInt = a.toInt * b.toInt := by
  have hlo : -2 ^ 30 ≤ a.toInt * b.toInt := BitVec.le_toInt_mul_toInt
  have hhi : a.toInt * b.toInt ≤ 2 ^ 30 := BitVec.toInt_mul_toInt_le
  exact BitVec.toInt_ofInt_eq_self (by decide) (by omega) (by omega)

/-- The low word of the unsigned product is the product modulo 2^16. -/
theorem unsignedProduct_low (a b : Word) : (unsignedProduct a b).setWidth 16 = a * b := by
  rw [unsignedProduct, BitVec.setWidth_ofNat_of_le (by decide), BitVec.ofNat_mul,
    BitVec.ofNat_toNat, BitVec.ofNat_toNat, BitVec.setWidth_eq, BitVec.setWidth_eq]

/-- The low word of the signed product is the product modulo 2^16. -/
theorem signedProduct_low (a b : Word) : (signedProduct a b).setWidth 16 = a * b := by
  have hlow : ∀ z : Int, (BitVec.ofInt 32 z).setWidth 16 = BitVec.ofInt 16 z := fun z => by
    apply BitVec.eq_of_toNat_eq
    simp only [BitVec.toNat_setWidth, BitVec.toNat_ofInt]
    omega
  rw [signedProduct, hlow, BitVec.ofInt_mul, BitVec.ofInt_toInt, BitVec.ofInt_toInt]

/-! ## Quotients (R130) -/

theorem ne_zero_of_toNat_ne_zero {m : Word} (h : m.toNat ≠ 0) : m ≠ 0#16 :=
  fun h0 => h (h0 ▸ rfl)

theorem ne_zero_of_toInt_ne_zero {m : Word} (h : m.toInt ≠ 0) : m ≠ 0#16 :=
  fun h0 => h (h0 ▸ rfl)

/-- The unsigned quotient fits exactly when the dividend is below 65536 divisors (R146). -/
theorem unsignedQuotient_lt_iff {m : Word} (n : Long) (hm : m.toNat ≠ 0) :
    n.toNat / m.toNat < 65536 ↔ n.toNat < 65536 * m.toNat :=
  Nat.div_lt_iff_lt_mul (Nat.pos_of_ne_zero hm)

/-- An unsigned quotient that fits comes with the remainder of the division (R146). -/
theorem unsignedDivide_of_fits {n : Long} {m : Word} (hm : m.toNat ≠ 0)
    (hfits : n.toNat < 65536 * m.toNat) :
    ∃ q rem : Word, unsignedDivide n m = some (q, rem) ∧
      q.toNat * m.toNat + rem.toNat = n.toNat ∧ rem.toNat < m.toNat := by
  have hq : n.toNat / m.toNat < 65536 := (unsignedQuotient_lt_iff n hm).2 hfits
  have hrem : n.toNat - n.toNat / m.toNat * m.toNat = n.toNat % m.toNat := by
    rw [Nat.mod_eq_sub_div_mul]
  have hlt : n.toNat % m.toNat < m.toNat := Nat.mod_lt _ (Nat.pos_of_ne_zero hm)
  have hm16 : m.toNat < 65536 := m.isLt
  refine ⟨_, _, if_neg (by omega), ?_⟩
  rw [hrem, BitVec.toNat_ofNat, BitVec.toNat_ofNat, Nat.mod_eq_of_lt hq,
    Nat.mod_eq_of_lt (hlt.trans hm16)]
  exact ⟨Nat.div_add_mod' _ _, hlt⟩

theorem unsignedDivide_of_overflow {n : Long} {m : Word} (hm : m.toNat ≠ 0)
    (h : 65536 * m.toNat ≤ n.toNat) : unsignedDivide n m = none := by
  have hq : ¬n.toNat / m.toNat < 65536 := fun hlt =>
    absurd ((unsignedQuotient_lt_iff n hm).1 hlt) (by omega)
  exact if_pos (by omega)

/-- A remainder of a division rounded toward zero is zero or has the dividend's sign (R147). -/
theorem tmod_mul_self_nonneg (n m : Int) : 0 ≤ n.tmod m * n := by
  obtain hn | hn := Int.le_total 0 n
  · exact Int.mul_nonneg (Int.tmod_nonneg m hn) hn
  · have h : 0 ≤ (-n).tmod m * -n :=
      Int.mul_nonneg (Int.tmod_nonneg m (by omega)) (by omega)
    rwa [Int.neg_tmod, Int.neg_mul_neg] at h

theorem natAbs_tmod_lt {n m : Int} (hm : m ≠ 0) : (n.tmod m).natAbs < m.natAbs := by
  rw [Int.natAbs_tmod]
  exact Nat.mod_lt _ (Int.natAbs_pos.2 hm)

/-- A signed quotient that fits comes with the remainder of the division rounded toward zero
(R147). -/
theorem signedDivide_of_fits {n : Long} {m : Word} (hm : m.toInt ≠ 0)
    (hlo : -32768 ≤ n.toInt.tdiv m.toInt) (hhi : n.toInt.tdiv m.toInt ≤ 32767) :
    ∃ q rem : Word, signedDivide n m = some (q, rem) ∧
      q.toInt * m.toInt + rem.toInt = n.toInt ∧ rem.toInt.natAbs < m.toInt.natAbs ∧
      0 ≤ rem.toInt * n.toInt := by
  have hrem : n.toInt - n.toInt.tdiv m.toInt * m.toInt = n.toInt.tmod m.toInt := by
    rw [Int.tmod_def, Int.mul_comm]
  have hlt : (n.toInt.tmod m.toInt).natAbs < m.toInt.natAbs := natAbs_tmod_lt hm
  have hmlo : -2 ^ 15 ≤ m.toInt := BitVec.le_toInt m
  have hmhi : m.toInt < 2 ^ 15 := BitVec.toInt_lt
  refine ⟨_, _, if_neg (by omega), ?_⟩
  rw [hrem, BitVec.toInt_ofInt_eq_self (by decide) hlo (by omega),
    BitVec.toInt_ofInt_eq_self (by decide) (by omega) (by omega)]
  exact ⟨Int.tdiv_mul_add_tmod _ _, hlt, tmod_mul_self_nonneg _ _⟩

theorem signedDivide_of_overflow {n : Long} {m : Word}
    (h : n.toInt.tdiv m.toInt < -32768 ∨ 32767 < n.toInt.tdiv m.toInt) :
    signedDivide n m = none := if_pos h

/-! ## Whole registers -/

/-- A write of all 32 bits keeps no bit above. -/
theorem insertLow_long (old v : Long) : insertLow old v = v :=
  BitVec.eq_of_getLsbD_eq fun _ hi => insertLow_low old v hi (Nat.le_refl 32)

end Sys2Proof.Machine
end

section
/-! The integer instructions complete (spec/40_integer_laws.md): one lemma for each shape of
instruction, which carries a law of its operation over to the whole instruction. -/

namespace Sys2Proof.Claims

open Sys2Proof.Machine

/-! ## The operations meet their laws -/

/-- An operation computes a result and flags as the law says, at every width. -/
def AluMeets (law : Law) (f : Alu) : Prop :=
  ∀ (n : Nat) (a b : BitVec n) (k : Ccr), law a b k (f a b k).1 (f a b k).2

/-- An operation on one operand meets the law with that operand as source and zero as
destination. -/
def Alu1Meets (law : Law) (f : Alu1) : Prop :=
  ∀ (n : Nat) (a : BitVec n) (k : Ccr), law a (0#n) k (f a k).1 (f a k).2

/-- N and Z taken from the result (R13). -/
theorem nz_of_eq {n : Nat} {r : BitVec n} {k : Ccr} (hn : k.n = r.msb)
    (hz : k.z = decide (r = 0#n)) : NZ r k := by
  rw [NZ, hn, hz]
  exact ⟨msb_iff_toInt_neg r, decide_eq_true_iff.trans (eq_zero_iff_toNat r)⟩

theorem aluAdd_meets : AluMeets AddLaw aluAdd := fun _ a b _ =>
  ⟨BitVec.toNat_add a b, decide_eq_true_iff, add_v_iff a b, rfl, nz_of_eq rfl rfl⟩

/-- The flags of a subtraction are those of the difference (R126). -/
theorem diffFlags_subCcr {n : Nat} (a b : BitVec n) : DiffFlags a b (b - a) (subCcr a b (b - a)) :=
  ⟨sub_toNat a b, decide_eq_true_iff, sub_v_iff a b, nz_of_eq rfl rfl⟩

theorem aluSub_meets : AluMeets SubLaw aluSub := fun _ a b _ => ⟨diffFlags_subCcr a b, rfl⟩

theorem aluNeg_meets : Alu1Meets SubLaw aluNeg := fun n a _ => ⟨diffFlags_subCcr a (0#n), rfl⟩

theorem aluAnd_meets : AluMeets (LogicLaw fun x y => x && y) aluAnd := fun _ _ _ k =>
  ⟨fun _ _ => BitVec.getLsbD_and, logicFlags_logicCcr _ k⟩

theorem aluOr_meets : AluMeets (LogicLaw fun x y => x || y) aluOr := fun _ _ _ k =>
  ⟨fun _ _ => BitVec.getLsbD_or, logicFlags_logicCcr _ k⟩

theorem aluEor_meets : AluMeets (LogicLaw fun x y => x != y) aluEor := fun _ _ _ k =>
  ⟨fun _ _ => BitVec.getLsbD_xor, logicFlags_logicCcr _ k⟩

/-! ## The shapes of instructions -/

section
variable {law : Law} {f : Alu} {sz : Size} {src : M (BitVec sz.bits)} {i : Instr}

/-- `OP src,Dn` of an operation that meets its law (R140). -/
theorem completesToDn_of_aluToDn {r : Reg} (hf : AluMeets law f)
    (hbody : body i = aluToDn sz f src r) : CompletesToDn law sz src i r := by
  intro s s1 a hsrc
  have hrun : body i s.afterOpword = .ok ()
      ((s1.setD r (insertLow (s1.dreg r) (f a ((s1.dreg r).setWidth sz.bits) s1.ccr).1)).setCcr
        (f a ((s1.dreg r).setWidth sz.bits) s1.ccr).2) := by
    simp only [hbody, aluToDn_apply, hsrc]
  exact ⟨_, _, exec_eq_next.2 (.inl hrun), dnBecomes_setD_setCcr s1 r _ _, hf _ _ _ _⟩

/-- `OP src,<ea>` on memory: where the operand can be written it can be read (R58, R140). -/
theorem completesToMem_of_aluToEa {m : MemEa} (hf : AluMeets law f)
    (hbody : body i = aluToEa sz f src (.mem m)) : CompletesToMem law sz src i m := by
  intro s s1 s2 a addr hsrc hres hw
  have hrun : body i s.afterOpword = .ok ()
      ((s2.storeAt addr sz (f a (s2.valueAt addr sz) s2.ccr).1).setCcr
        (f a (s2.valueAt addr sz) s2.ccr).2) := by
    simp only [hbody, aluToEa_mem_apply, hsrc, hres, accessFault_of_writeFault hw, hw]
  exact ⟨_, _, exec_eq_next.2 (.inl hrun), memBecomes_storeAt_setCcr s2 addr _ _, hf _ _ _ _⟩

/-- `OP src,<ea>` on a data alterable destination (R233). -/
theorem completesToEa_of_aluToEa {dst : DataAltEa} (hf : AluMeets law f)
    (hbody : body i = aluToEa sz f src dst) : CompletesToEa law sz src i dst := by
  cases dst with
  | dn r =>
    refine completesToDn_of_aluToDn hf (hbody.trans ?_)
    exact funext fun _ => aluToEa_dn_apply f src r
  | mem m => exact completesToMem_of_aluToEa hf hbody

end

/-- `OP <ea>` of an operation that meets its law (R148). -/
theorem completesUnary_of_unaryEa {law : Law} {f : Alu1} {sz : Size} {i : DataAltEa → Instr}
    (hf : Alu1Meets law f) (hbody : ∀ dst, body (i dst) = unaryEa sz f dst) :
    CompletesUnary law sz i := by
  refine ⟨fun s r => ?_, fun s s1 m addr hres hw => ?_⟩
  · have hrun : body (i (.dn r)) s.afterOpword = .ok ()
        ((s.afterOpword.setD r
          (insertLow (s.afterOpword.dreg r) (f ((s.dreg r).setWidth sz.bits) s.ccr).1)).setCcr
          (f ((s.dreg r).setWidth sz.bits) s.ccr).2) := by
      rw [hbody, unaryEa_dn_apply]
      rfl
    exact ⟨_, _, exec_eq_next.2 (.inl hrun), dnBecomes_setD_setCcr s.afterOpword r _ _, hf _ _ _⟩
  · have hrun : body (i (.mem m)) s.afterOpword = .ok ()
        ((s1.storeAt addr sz (f (s1.valueAt addr sz) s1.ccr).1).setCcr
          (f (s1.valueAt addr sz) s1.ccr).2) := by
      simp only [hbody, unaryEa_mem_apply, hres, accessFault_of_writeFault hw, hw]
    exact ⟨_, _, exec_eq_next.2 (.inl hrun), memBecomes_storeAt_setCcr s1 addr _ _, hf _ _ _⟩

/-- New flags of a comparison, and nothing else, in a state. -/
theorem compared_setCcr {n : Nat} (a b : BitVec n) (s : State) :
    Compared a b s (s.setCcr (cmpCcr a b (b - a) s.ccr)) :=
  ⟨⟨rfl, rfl, rfl, rfl, rfl, rfl, rfl, rfl, rfl⟩, rfl, diffFlags_subCcr a b⟩

theorem completesCompareDn_of_compareDn {sz : Size} {src : M (BitVec sz.bits)} {i : Instr} {r : Reg}
    (hbody : body i = compareDn sz src r) : CompletesCompareDn sz src i r := by
  intro s s1 a hsrc
  refine ⟨_, exec_eq_next.2 (.inl ?_), compared_setCcr a _ s1⟩
  simp only [hbody, compareDn_apply, hsrc]

theorem completesCompareImm_of_compareEa {sz : Size} {v : BitVec sz.bits} {i : DataAltEa → Instr}
    (hbody : ∀ dst, body (i dst) = compareEa sz (readImm sz v) dst) :
    CompletesCompareImm sz v i := by
  intro s s1 hfetch
  have himm : readImm sz v s.afterOpword = .ok v s1 := readImm_eq_ok.2 ⟨rfl, hfetch⟩
  refine ⟨fun r => ⟨_, exec_eq_next.2 (.inl ?_), compared_setCcr v _ s1⟩,
    fun m addr s2 hres hacc => ⟨_, exec_eq_next.2 (.inl ?_), compared_setCcr v _ s2⟩⟩
  · simp only [hbody, compareEa_dn_apply, compareDn_apply, himm]
  · simp only [hbody, compareEa_mem_apply, himm, hres, hacc]

/-- A write of a whole data register with new flags. -/
theorem dnBecomes_long (s : State) (r : Reg) (v : Long) (k : Ccr) :
    DnBecomes .long s ((s.setD r v).setCcr k) r v := by
  have h := dnBecomes_setD_setCcr (sz := .long) s r v k
  rwa [insertLow_long] at h

/-- A multiply completes wherever its source can be read: the product and its flags (R144, R145). -/
theorem exec_multiplyDn {product : Word → Word → Long} {src : M Word} {i : Instr} {r : Reg}
    (hbody : body i = multiplyDn product src r) {s s1 : State} {a : Word}
    (hsrc : src s.afterOpword = .ok a s1) :
    ∃ t, exec i s = .next t ∧ DnBecomes .long s1 t r (product a ((s1.dreg r).setWidth 16)) ∧
      LogicFlags (product a ((s1.dreg r).setWidth 16)) s1.ccr t.ccr := by
  have hrun : body i s.afterOpword = .ok ()
      ((s1.setD r (product a ((s1.dreg r).setWidth 16))).setCcr
        (logicCcr (product a ((s1.dreg r).setWidth 16)) s1.ccr)) := by
    simp only [hbody, multiplyDn_apply, hsrc]
  exact ⟨_, exec_eq_next.2 (.inl hrun), dnBecomes_long s1 r _ _, logicFlags_logicCcr _ s1.ccr⟩

/-- A divide whose quotient fits: remainder and quotient in the two words of `Dn`, the flags of the
quotient (R146, R147). -/
theorem exec_divideDn_of_some {divide : Long → Word → Option (Word × Word)} {src : M Word}
    {i : Instr} {r : Reg} (hbody : body i = divideDn divide src r) {s s1 : State} {m q rem : Word}
    (hsrc : src s.afterOpword = .ok m s1) (hm : m ≠ 0#16)
    (hdiv : divide (s1.dreg r) m = some (q, rem)) :
    ∃ t, exec i s = .next t ∧ DnBecomes .long s1 t r (rem ++ q) ∧ LogicFlags q s1.ccr t.ccr := by
  have hrun : body i s.afterOpword =
      .ok () ((s1.setD r (rem ++ q)).setCcr (logicCcr q s1.ccr)) := by
    simp only [hbody, divideDn_apply, hsrc, hm, if_false, hdiv]
    rfl
  exact ⟨_, exec_eq_next.2 (.inl hrun), dnBecomes_long s1 r _ _, logicFlags_logicCcr q s1.ccr⟩

/-- A divide whose quotient does not fit: V, the free bits N and Z, and nothing else (R146, D18). -/
theorem exec_divideDn_of_none {divide : Long → Word → Option (Word × Word)} {src : M Word}
    {i : Instr} {r : Reg} (hbody : body i = divideDn divide src r) {s s1 : State} {m : Word}
    (hsrc : src s.afterOpword = .ok m s1) (hm : m ≠ 0#16) (hdiv : divide (s1.dreg r) m = none) :
    ∃ t, exec i s = .next t ∧ t.d = s1.d ∧ t.a = s1.a ∧ t.pc = s1.pc ∧ t.mem = s1.mem ∧
      t.srHigh = s1.srHigh ∧ t.status = s1.status ∧ t.ccr.x = s1.ccr.x ∧ t.ccr.v = true ∧
      t.ccr.c = false := by
  have hrun : body i s.afterOpword = .ok () ((s1.setFreeCount (s1.freeCount + 1 + 1)).setCcr
      { x := s1.ccr.x, n := Config.freeBit s1.freeCount, z := Config.freeBit (s1.freeCount + 1)
        v := true, c := false }) := by
    simp only [hbody, divideDn_apply, hsrc, hm, if_false, hdiv]
  exact ⟨_, exec_eq_next.2 (.inl hrun), rfl, rfl, rfl, rfl, rfl, rfl, rfl, rfl, rfl⟩

/-! ## Addition, subtraction, comparison -/

/-- Settles O26: each form has the shape of an operation that meets the law of addition. -/
theorem addCompletes : Obligations.AddCompletes := by
  and_intros
  iterate 3 exact fun _ _ => completesToDn_of_aluToDn aluAdd_meets rfl
  iterate 3 exact fun _ _ => completesToMem_of_aluToEa aluAdd_meets rfl
  iterate 3 exact fun _ _ => completesToEa_of_aluToEa aluAdd_meets rfl

/-- Settles O27: each form has the shape of an operation that meets the law of subtraction. -/
theorem subCompletes : Obligations.SubCompletes := by
  and_intros
  iterate 3 exact fun _ _ => completesToDn_of_aluToDn aluSub_meets rfl
  iterate 3 exact fun _ _ => completesToMem_of_aluToEa aluSub_meets rfl
  iterate 3 exact fun _ _ => completesToEa_of_aluToEa aluSub_meets rfl

/-- Settles O28: NEG is the subtraction from zero. -/
theorem negCompletes : Obligations.NegCompletes :=
  ⟨completesUnary_of_unaryEa aluNeg_meets fun _ => rfl,
    completesUnary_of_unaryEa aluNeg_meets fun _ => rfl,
    completesUnary_of_unaryEa aluNeg_meets fun _ => rfl⟩

/-- Settles O29: both shapes of a comparison write its flags alone. -/
theorem compareCompletes : Obligations.CompareCompletes := by
  and_intros
  iterate 3 exact fun _ _ => completesCompareDn_of_compareDn rfl
  iterate 3 exact fun _ => completesCompareImm_of_compareEa fun _ => rfl

/-- Settles O54: C, Z and `N ≠ V` say below, equal and below as signed numbers; every condition is made
of these. -/
theorem conditionsAfterCompare : Obligations.ConditionsAfterCompare := by
  intro n a b k hn f
  have hc : f.c = true ↔ b.toNat < a.toNat := cmpCcr_c_iff a b k
  have hz : f.z = true ↔ a = b := cmpCcr_z_iff a b k
  have hnv : f.n ≠ f.v ↔ b.toInt < a.toInt := cmpCcr_n_ne_v_iff a b k hn
  have hc0 : f.c = false ↔ ¬b.toNat < a.toNat := by rw [← hc, Bool.not_eq_true]
  have hz0 : f.z = false ↔ ¬a = b := by rw [← hz, Bool.not_eq_true]
  have hnv0 : f.n = f.v ↔ ¬b.toInt < a.toInt := by rw [← hnv, not_not]
  refine ⟨f.hi_iff.trans ?hi, f.ls_iff.trans ?ls, f.cc_iff.trans (hc0.trans not_lt),
    f.cs_iff.trans hc, f.ge_iff.trans (hnv0.trans not_lt), f.lt_iff.trans hnv, f.gt_iff.trans ?gt,
    f.le_iff.trans ?le, f.eq_iff.trans hz, f.ne_iff.trans hz0⟩
  case hi => rw [hc0, hz0, ← BitVec.toNat_inj]; omega
  case ls => rw [hc, hz, ← BitVec.toNat_inj]; omega
  case gt => rw [hz0, hnv0, ← BitVec.toInt_inj]; omega
  case le => rw [hz, hnv, ← BitVec.toInt_inj]; omega

/-! ## Sign extension, products, quotients -/

/-- Settles O30: sign extension keeps the signed value (R124). -/
theorem extCompletes : Obligations.ExtCompletes := by
  intro s r
  refine ⟨⟨_, ((s.dreg r).setWidth 8).signExtend 16,
      exec_eq_next.2 (.inl (extendWord_apply r)), dnBecomes_setD_setCcr (sz := .word) _ r _ _,
      BitVec.toInt_signExtend_of_le (by decide), logicFlags_logicCcr _ _⟩,
    ⟨_, ((s.dreg r).setWidth 16).signExtend 32,
      exec_eq_next.2 (.inl (extendLong_apply r)), dnBecomes_long _ r _ _,
      BitVec.toInt_signExtend_of_le (by decide), logicFlags_logicCcr _ _⟩⟩

/-- Settles O31: both products are exact, and modulo 2^16 they are one product. -/
theorem multiplyCompletes : Obligations.MultiplyCompletes := by
  intro e r s s1 a hsrc
  obtain ⟨t, hexec, hdn, hflags⟩ := exec_multiplyDn (i := .mulu e r) rfl hsrc
  obtain ⟨t', hexec', hdn', hflags'⟩ := exec_multiplyDn (i := .muls e r) rfl hsrc
  refine ⟨t, t', _, _, hexec, hdn, unsignedProduct_toNat _ _, hflags, hexec', hdn',
    signedProduct_toInt _ _, hflags', ?_⟩
  rw [← BitVec.setWidth_eq_extractLsb' (by decide), ← BitVec.setWidth_eq_extractLsb' (by decide),
    unsignedProduct_low, signedProduct_low]

/-- Settles O32: a quotient that fits comes with its remainder. -/
theorem divuCompletes : Obligations.DivuCompletes := by
  intro e r s s1 m hsrc hm hfits
  obtain ⟨q, rem, hdiv, hval, hlt⟩ := unsignedDivide_of_fits hm hfits
  obtain ⟨t, hexec, hdn, hflags⟩ :=
    exec_divideDn_of_some (i := .divu e r) rfl hsrc (ne_zero_of_toNat_ne_zero hm) hdiv
  refine ⟨t, rem ++ q, hexec, hdn, ?_⟩
  rw [BitVec.extractLsb'_append_eq_left, BitVec.extractLsb'_append_eq_right]
  exact ⟨hval, hlt, hflags⟩

/-- Settles O33: a quotient that fits comes with its remainder. -/
theorem divsCompletes : Obligations.DivsCompletes := by
  intro e r s s1 m hsrc hm hlo hhi
  obtain ⟨q, rem, hdiv, hval, hlt, hsign⟩ := signedDivide_of_fits hm hlo hhi
  obtain ⟨t, hexec, hdn, hflags⟩ :=
    exec_divideDn_of_some (i := .divs e r) rfl hsrc (ne_zero_of_toInt_ne_zero hm) hdiv
  refine ⟨t, rem ++ q, hexec, hdn, ?_⟩
  rw [BitVec.extractLsb'_append_eq_left, BitVec.extractLsb'_append_eq_right]
  exact ⟨hval, hlt, hsign, hflags⟩

/-- Settles O34: a divide that overflows writes the flags alone. -/
theorem divideOverflowCompletes : Obligations.DivideOverflowCompletes := fun _ _ _ _ _ hsrc =>
  ⟨fun hm h => exec_divideDn_of_none rfl hsrc (ne_zero_of_toNat_ne_zero hm)
      (unsignedDivide_of_overflow hm h),
    fun hm h => exec_divideDn_of_none rfl hsrc (ne_zero_of_toInt_ne_zero hm)
      (signedDivide_of_overflow h)⟩

/-! ## Logic -/

/-- Settles O37: each form has the shape of an operation that meets the law of its truth table. -/
theorem logicCompletes : Obligations.LogicCompletes := by
  and_intros
  iterate 3 exact fun _ _ => completesToDn_of_aluToDn aluAnd_meets rfl
  iterate 3 exact fun _ _ => completesToMem_of_aluToEa aluAnd_meets rfl
  iterate 3 exact fun _ _ => completesToEa_of_aluToEa aluAnd_meets rfl
  iterate 3 exact fun _ _ => completesToDn_of_aluToDn aluOr_meets rfl
  iterate 3 exact fun _ _ => completesToMem_of_aluToEa aluOr_meets rfl
  iterate 3 exact fun _ _ => completesToEa_of_aluToEa aluOr_meets rfl
  iterate 6 exact fun _ _ => completesToEa_of_aluToEa aluEor_meets rfl

end Sys2Proof.Claims
end

section
/-! An exception writes nothing (R149, R268): each instruction raises before it writes, so that all
but pc and the address registers of its operands are as before. -/

namespace Sys2Proof.Claims

open Sys2Proof.Machine

/-! ## Parts that raise before they write -/

/-- In every state the part answers. -/
def NeverRaises {α : Type} (m : M α) : Prop := ∀ s, ∃ a t, m s = .ok a t

/-- Where the part raises, it has changed no more than pc and address registers. -/
def RaisesBeforeWriting {α : Type} (m : M α) : Prop := ∀ ⦃s t e⦄, m s = .error e t → SameData s t

namespace RaisesBeforeWriting

variable {α β : Type} {sz : Size}

theorem of_neverRaises {m : M α} (h : NeverRaises m) : RaisesBeforeWriting m := by
  intro s t e he
  obtain ⟨a, t', hok⟩ := h s
  exact nomatch hok.symm.trans he

theorem raise (e : Exc) : RaisesBeforeWriting (raise e : M α) :=
  fun s _ _ he => (EStateM.Result.error.inj he).2 ▸ .refl s

/-- A part that writes nothing may stand before one that raises. -/
theorem bind {m : M α} {f : α → M β} (hm : Keeps SameData m)
    (hf : ∀ a, RaisesBeforeWriting (f a)) : RaisesBeforeWriting (m >>= f) := by
  intro s t e he
  obtain he | ⟨a, s', hok, he⟩ := M.bind_eq_error.1 he
  · exact hm.error he
  · exact (hm.ok hok).trans (hf a he)

/-- Behind a part that writes, nothing may raise. -/
theorem andThen {m : M α} {f : α → M β} (hm : RaisesBeforeWriting m)
    (hf : ∀ a, NeverRaises (f a)) : RaisesBeforeWriting (m >>= f) := by
  intro s t e he
  obtain he | ⟨a, s', -, he⟩ := M.bind_eq_error.1 he
  · exact hm he
  · obtain ⟨b, t', hok⟩ := hf a s'
    exact nomatch hok.symm.trans he

theorem memWrite (addr : Long) (v : BitVec sz.bits) : RaisesBeforeWriting (memWrite addr sz v) :=
  fun s _ _ he => (memWrite_eq_error.1 he).2 ▸ .refl s

theorem writeLoc (l : Loc) (v : BitVec sz.bits) : RaisesBeforeWriting (writeLoc sz l v) := by
  cases l with
  | dreg r => exact of_neverRaises fun _ => ⟨_, _, rfl⟩
  | mem addr => exact memWrite addr v

/-! ### The shapes of instructions -/

section
variable {src : M (BitVec sz.bits)}

theorem aluToDn (f : Alu) (hsrc : Keeps SameData src) (r : Reg) :
    RaisesBeforeWriting (aluToDn sz f src r) :=
  bind hsrc fun _ => of_neverRaises fun _ => ⟨_, _, rfl⟩

theorem compareDn (hsrc : Keeps SameData src) (r : Reg) :
    RaisesBeforeWriting (compareDn sz src r) :=
  bind hsrc fun _ => of_neverRaises fun _ => ⟨_, _, rfl⟩

/-- A read-modify-write: all but the last access only reads (R58). -/
theorem aluToEa (f : Alu) (hsrc : Keeps SameData src) (dst : DataAltEa) :
    RaisesBeforeWriting (aluToEa sz f src dst) :=
  have hR := sameData_operandRel fun _ => True
  bind hsrc fun _ => bind (hR.resolve sz dst.updatesIn_true) fun l => bind (hR.readLoc sz l)
    fun _ => bind hR.readCcr fun _ => (writeLoc l _).andThen fun _ _ => ⟨_, _, rfl⟩

theorem compareEa (hsrc : Keeps SameData src) (dst : DataAltEa) :
    RaisesBeforeWriting (compareEa sz src dst) :=
  have hR := sameData_operandRel fun _ => True
  bind hsrc fun _ => bind (hR.resolve sz dst.updatesIn_true) fun l => bind (hR.readLoc sz l)
    fun _ => of_neverRaises fun _ => ⟨_, _, rfl⟩

theorem unaryEa (f : Alu1) (dst : DataAltEa) : RaisesBeforeWriting (unaryEa sz f dst) :=
  have hR := sameData_operandRel fun _ => True
  bind (hR.resolve sz dst.updatesIn_true) fun l => bind (hR.readLoc sz l) fun _ =>
    bind hR.readCcr fun _ => (writeLoc l _).andThen fun _ _ => ⟨_, _, rfl⟩

theorem clearEa (dst : DataAltEa) : RaisesBeforeWriting (clearEa sz dst) :=
  have hR := sameData_operandRel fun _ => True
  bind (hR.resolve sz dst.updatesIn_true) fun l => bind hR.readCcr fun _ =>
    (writeLoc l _).andThen fun _ _ => ⟨_, _, rfl⟩

theorem moveEa (hsrc : Keeps SameData src) (dst : DataAltEa) :
    RaisesBeforeWriting (moveEa sz src dst) :=
  have hR := sameData_operandRel fun _ => True
  bind hsrc fun _ => bind (hR.resolve sz dst.updatesIn_true) fun l => bind hR.readCcr fun _ =>
    (writeLoc l _).andThen fun _ _ => ⟨_, _, rfl⟩

/-- MOVE of word and long size: refused at once, or a move (R94, R230). -/
theorem moveAny (op : Word) (src : AnyEa) (dst : DataAltEa) :
    RaisesBeforeWriting (moveAny sz op src dst) := by
  unfold Machine.moveAny
  split
  · exact raise _
  · exact moveEa ((sameData_operandRel _).readAny sz src.updatesIn_true) dst

theorem shiftDn (op : ShiftOp) {count : M Nat} (hc : ∀ s, ∃ cnt, count s = .ok cnt s) (dy : Reg) :
    RaisesBeforeWriting (shiftDn sz op count dy) :=
  of_neverRaises fun s => by
    obtain ⟨cnt, h⟩ := hc s
    exact ⟨_, _, shiftDn_apply op count dy h⟩

end

theorem multiplyDn (product : Word → Word → Long) {src : M Word} (hsrc : Keeps SameData src)
    (r : Reg) : RaisesBeforeWriting (multiplyDn product src r) :=
  bind hsrc fun _ => of_neverRaises fun _ => ⟨_, _, rfl⟩

/-- A divide raises on a zero divisor, before it looks at the quotient (R149, R261). -/
theorem divideDn (divide : Long → Word → Option (Word × Word)) {src : M Word}
    (hsrc : Keeps SameData src) (r : Reg) : RaisesBeforeWriting (divideDn divide src r) := by
  have hR := sameData_operandRel fun _ => True
  refine bind hsrc fun m => bind (hR.readD .long r) fun n => bind hR.readCcr fun k => ?_
  split
  · exact raise _
  · split <;> exact of_neverRaises fun _ => ⟨_, _, rfl⟩

theorem changeBit (op : BitOp) {number : M Nat} (hn : Keeps SameData number) (dst : DataAltEa) :
    RaisesBeforeWriting (changeBit op number dst) := by
  have hR := sameData_operandRel fun _ => True
  refine bind hn fun k => bind (hR.resolve .byte dst.updatesIn_true) fun l => ?_
  cases l with
  | dreg r => exact of_neverRaises fun _ => ⟨_, _, rfl⟩
  | mem addr =>
    exact bind (hR.memRead .read addr .byte) fun _ =>
      (memWrite addr _).andThen fun _ _ => ⟨_, _, rfl⟩

theorem testBit {number : M Nat} (hn : Keeps SameData number) (src : DataEa) :
    RaisesBeforeWriting (testBit number src) := by
  have hR := sameData_operandRel fun _ => True
  refine bind hn fun k => ?_
  split
  · exact of_neverRaises fun _ => ⟨_, _, rfl⟩
  · exact bind (hR.readData .byte src.updatesIn_true) fun _ => of_neverRaises fun _ => ⟨_, _, rfl⟩

/-- A branch raises on an odd target, before pc is written (R240). -/
theorem branch (cond : Ccr → Bool) (disp : Disp) : RaisesBeforeWriting (branch cond disp) := by
  have hR := sameData_operandRel fun _ => True
  refine bind hR.readPc fun base => bind (hR.readDisp disp) fun d => bind hR.readCcr fun k => ?_
  split
  · dsimp only
    split
    · exact raise _
    · exact of_neverRaises fun _ => ⟨_, _, rfl⟩
  · exact of_neverRaises fun _ => ⟨_, _, rfl⟩

theorem stopWith (imm : Word) : RaisesBeforeWriting (stopWith imm) :=
  bind (sameData_operandRel fun _ => True).fetchExt fun _ => of_neverRaises fun _ => ⟨_, _, rfl⟩

/-- Every instruction raises before it writes (R149, R268). -/
theorem body (i : Instr) : RaisesBeforeWriting (body i) := by
  have hR := sameData_operandRel fun _ => True
  have hdata (sz : Size) (e : DataEa) := hR.readData sz e.updatesIn_true
  have hany (sz : Size) (e : AnyEa) := hR.readAny sz e.updatesIn_true
  cases i with
  | addBEaDn src dn | subBEaDn src dn
  | andBEaDn src dn | andWEaDn src dn | andLEaDn src dn
  | orBEaDn src dn | orWEaDn src dn | orLEaDn src dn => exact aluToDn _ (hdata _ src) dn
  | addWEaDn src dn | addLEaDn src dn | subWEaDn src dn | subLEaDn src dn =>
    exact aluToDn _ (hany _ src) dn
  | addBDnEa dn dst | addWDnEa dn dst | addLDnEa dn dst
  | subBDnEa dn dst | subWDnEa dn dst | subLDnEa dn dst
  | andBDnEa dn dst | andWDnEa dn dst | andLDnEa dn dst
  | orBDnEa dn dst | orWDnEa dn dst | orLDnEa dn dst => exact aluToEa _ (hR.readD _ dn) (.mem dst)
  | eorB dn dst | eorW dn dst | eorL dn dst => exact aluToEa _ (hR.readD _ dn) dst
  | addiB imm dst | addiW imm dst | addiL imm dst
  | subiB imm dst | subiW imm dst | subiL imm dst
  | oriB imm dst | oriW imm dst | oriL imm dst
  | andiB imm dst | andiW imm dst | andiL imm dst
  | eoriB imm dst | eoriW imm dst | eoriL imm dst => exact aluToEa _ (hR.readImm _ _) dst
  | cmpB src dn => exact compareDn (hdata _ src) dn
  | cmpW src dn | cmpL src dn => exact compareDn (hany _ src) dn
  | cmpiB imm dst | cmpiW imm dst | cmpiL imm dst => exact compareEa (hR.readImm _ _) dst
  | negB dst | negW dst | negL dst | notB dst | notW dst | notL dst => exact unaryEa _ dst
  | clrB dst | clrW dst | clrL dst => exact clearEa dst
  | moveB src dst => exact moveEa (hdata _ src) dst
  | moveW src dst | moveL src dst => exact moveAny _ src dst
  | mulu src dn | muls src dn => exact multiplyDn _ (hdata _ src) dn
  | divu src dn | divs src dn => exact divideDn _ (hdata _ src) dn
  | extW | extL | swap | exgDD | exgAA | exgDA => exact of_neverRaises fun _ => ⟨_, _, rfl⟩
  | btstDyn dn src => exact testBit (hR.dynamicBit dn) src
  | btstStatic k src => exact testBit (hR.staticBit k) src
  | bchgDyn dn dst | bclrDyn dn dst | bsetDyn dn dst => exact changeBit _ (hR.dynamicBit dn) dst
  | bchgStatic k dst | bclrStatic k dst | bsetStatic k dst =>
    exact changeBit _ (hR.staticBit k) dst
  | bra disp | bhi disp | bls disp | bcc disp | bcs disp | bne disp | beq disp | bvc disp
  | bvs disp | bpl disp | bmi disp | bge disp | blt disp | bgt disp | ble disp =>
    exact branch _ disp
  | stop imm => exact stopWith imm
  | aslBImm ccc dy | aslWImm ccc dy | aslLImm ccc dy | asrBImm ccc dy | asrWImm ccc dy
  | asrLImm ccc dy | lslBImm ccc dy | lslWImm ccc dy | lslLImm ccc dy | lsrBImm ccc dy
  | lsrWImm ccc dy | lsrLImm ccc dy | roxlBImm ccc dy | roxlWImm ccc dy | roxlLImm ccc dy
  | roxrBImm ccc dy | roxrWImm ccc dy | roxrLImm ccc dy | rolBImm ccc dy | rolWImm ccc dy
  | rolLImm ccc dy | rorBImm ccc dy | rorWImm ccc dy | rorLImm ccc dy =>
    exact shiftDn _ (immCount_answers ccc) dy
  | aslBReg dx dy | aslWReg dx dy | aslLReg dx dy | asrBReg dx dy | asrWReg dx dy
  | asrLReg dx dy | lslBReg dx dy | lslWReg dx dy | lslLReg dx dy | lsrBReg dx dy
  | lsrWReg dx dy | lsrLReg dx dy | roxlBReg dx dy | roxlWReg dx dy | roxlLReg dx dy
  | roxrBReg dx dy | roxrWReg dx dy | roxrLReg dx dy | rolBReg dx dy | rolWReg dx dy
  | rolLReg dx dy | rorBReg dx dy | rorWReg dx dy | rorLReg dx dy =>
    exact shiftDn _ (regCount_answers dx) dy

end RaisesBeforeWriting

/-! ## A step that faults -/

/-- An instruction that faults in a running state raised an exception, and had written nothing. -/
theorem exec_faulted {i : Instr} {s t : State} {r : ExcRecord} (hs : s.status = .running)
    (h : exec i s = .next t) (ht : t.status = .faulted r) :
    ∃ e s', SameData s s' ∧ t = takeException e s.pc s' := by
  obtain hok | ⟨e, s', he, rfl⟩ := exec_eq_next.1 h
  · obtain hk | ⟨hst, -⟩ := (statusRel_instrRel i).keeps_body.ok hok
    · exact nomatch ht.symm.trans (hk.trans hs)
    · exact nomatch ht.symm.trans hst
  · exact ⟨e, s', (SameData.setPc s).trans (RaisesBeforeWriting.body i he), rfl⟩

/-- A step that faults took an exception in a state that differs from the first at most in pc and
address registers. -/
theorem step_faulted {s t : State} {r : ExcRecord} (hs : s.status = .running)
    (h : step s = .next t) (ht : t.status = .faulted r) :
    ∃ e s', SameData s s' ∧ t = takeException e s.pc s' := by
  obtain ⟨i, -, hx⟩ | ⟨e, s', hf, rfl⟩ := (step_eq_next hs).1 h
  · exact exec_faulted hs hx ht
  · obtain rfl | rfl := fetchInstr_exception hf
    · exact ⟨e, _, .refl _, rfl⟩
    · exact ⟨e, _, SameData.setPc s, rfl⟩

/-- A step changes no address register that its instruction does not name. -/
theorem step_areg_of_instr {s t : State} {i : Instr} {q : Reg} (hs : s.status = .running)
    (h : step s = .next t) (hi : fetchInstr s = .instr i) (hq : q ∉ (footprint i).aregs) :
    t.areg q = s.areg q := by
  rw [step_of_instr hs hi] at h
  exact (exec_frameRel h).areg q hq

/-- A step that finds no instruction changes no address register. -/
theorem step_a_of_no_instr {s t : State} (hs : s.status = .running) (h : step s = .next t)
    (hno : ∀ i, fetchInstr s ≠ .instr i) : t.a = s.a := by
  obtain ⟨i, hi, -⟩ | ⟨e, s', hf, rfl⟩ := (step_eq_next hs).1 h
  · exact absurd hi (hno i)
  · obtain rfl | rfl := fetchInstr_exception hf <;> rfl

/-- Settles O10: every instruction raises before it writes, and its operands update only the address
registers of its footprint. -/
theorem exceptionWritesNothing : Obligations.ExceptionWritesNothing := by
  intro s t r hs hstep ht
  have named (i : Instr) (hi : fetchInstr s = .instr i) (q : Reg) :=
    step_areg_of_instr (q := q) hs hstep hi
  have unnamed := step_a_of_no_instr hs hstep
  obtain ⟨e, s', hsame, rfl⟩ := step_faulted hs hstep ht
  have hr : r.instrAddr = s.pc := congrArg ExcRecord.instrAddr (Status.faulted.inj ht).symm
  exact ⟨hr, hsame.d, hsame.ccr, hsame.srHigh, hsame.mem, hsame.memMap, hsame.progText,
    hsame.freeCount, named, unnamed⟩

end Sys2Proof.Claims
end

section
/-! The exchanges complete (spec/42_swap_exg.md): SWAP of the words of one register, EXG of two
registers. -/

namespace Sys2Proof.Machine

/-! ## The words of a long word exchanged (R160) -/

theorem swapWords_high (v : Long) :
    (swapWords v).extractLsb' 16 16 = v.extractLsb' 0 16 :=
  BitVec.extractLsb'_append_eq_left

theorem swapWords_low (v : Long) :
    (swapWords v).extractLsb' 0 16 = v.extractLsb' 16 16 :=
  BitVec.extractLsb'_append_eq_right

section
variable (s : State)

theorem swapDn_apply (r : Reg) :
    swapDn r s = .ok () ((s.setD r (swapWords (s.dreg r))).setCcr
      (logicCcr (swapWords (s.dreg r)) s.ccr)) := by
  have hrun : swapDn r s = setLongNZ r (swapWords ((s.dreg r).setWidth 32)) s := rfl
  rw [hrun, BitVec.setWidth_eq, setLongNZ_apply]

/-! ## Two registers exchanged (R161) -/

theorem exchangeDD_apply (x y : Reg) :
    exchangeDD x y s = .ok () ((s.setD x (s.dreg y)).setD y (s.dreg x)) := rfl

theorem exchangeAA_apply (x y : Reg) :
    exchangeAA x y s = .ok () ((s.setA x (s.areg y)).setA y (s.areg x)) := rfl

theorem exchangeDA_apply (x y : Reg) :
    exchangeDA x y s = .ok () ((s.setD x (s.areg y)).setA y (s.dreg x)) := rfl

/-- The first of two exchanged data registers; the second write does not disturb it, for if both are
one register it writes the same value. -/
theorem State.exchangeD_dreg_first (x y : Reg) :
    ((s.setD x (s.dreg y)).setD y (s.dreg x)).dreg x = s.dreg y := by
  obtain rfl | hxy := eq_or_ne x y
  · exact State.setD_dreg_same _ x _
  · rw [State.setD_dreg_other _ _ hxy, State.setD_dreg_same]

/-- The first of two exchanged address registers, as for data registers. -/
theorem State.exchangeA_areg_first (x y : Reg) :
    ((s.setA x (s.areg y)).setA y (s.areg x)).areg x = s.areg y := by
  obtain rfl | hxy := eq_or_ne x y
  · exact State.setA_areg_same _ x _
  · rw [State.setA_areg_other _ _ hxy, State.setA_areg_same]

/-- Two writes of data registers leave the others as they are. -/
theorem State.setD_setD_dreg_other {x y q : Reg} (v w : Long) (hx : q ≠ x) (hy : q ≠ y) :
    ((s.setD x v).setD y w).dreg q = s.dreg q := by
  rw [State.setD_dreg_other _ _ hy, State.setD_dreg_other _ _ hx]

/-- Two writes of address registers leave the others as they are. -/
theorem State.setA_setA_areg_other {x y q : Reg} (v w : Long) (hx : q ≠ x) (hy : q ≠ y) :
    ((s.setA x v).setA y w).areg q = s.areg q := by
  rw [State.setA_areg_other _ _ hy, State.setA_areg_other _ _ hx]

end

end Sys2Proof.Machine

namespace Sys2Proof.Claims

open Sys2Proof.Machine

/-- SWAP: the exchanged words and the flags of the whole result (R160). -/
theorem exec_swap (s : State) (r : Reg) :
    ∃ t v, exec (.swap r) s = .next t ∧ DnBecomes .long s.afterOpword t r v ∧
      v.extractLsb' 16 16 = (s.dreg r).extractLsb' 0 16 ∧
      v.extractLsb' 0 16 = (s.dreg r).extractLsb' 16 16 ∧ LogicFlags v s.ccr t.ccr :=
  ⟨_, swapWords (s.dreg r), exec_eq_next.2 (.inl (swapDn_apply s.afterOpword r)),
    dnBecomes_long s.afterOpword r _ _, swapWords_high _, swapWords_low _,
    logicFlags_logicCcr _ s.ccr⟩

/-- Settles O36: each exchange runs to its one result, and the two writes of an EXG exchange the
registers even where they are one. -/
theorem swapAndExgComplete : Obligations.SwapAndExgComplete := by
  intro s
  refine ⟨exec_swap s, fun x y => ?exgDD, fun x y => ?exgAA, fun x y => ?exgDA⟩
  case exgDD =>
    exact ⟨_, exec_eq_next.2 (.inl (exchangeDD_apply s.afterOpword x y)),
      s.afterOpword.exchangeD_dreg_first x y, State.setD_dreg_same _ y _,
      fun _ hx hy => s.afterOpword.setD_setD_dreg_other _ _ hx hy, rfl,
      rfl, rfl, rfl, rfl, rfl, rfl, rfl, rfl⟩
  case exgAA =>
    exact ⟨_, exec_eq_next.2 (.inl (exchangeAA_apply s.afterOpword x y)),
      s.afterOpword.exchangeA_areg_first x y, State.setA_areg_same _ y _,
      fun _ hx hy => s.afterOpword.setA_setA_areg_other _ _ hx hy, rfl,
      rfl, rfl, rfl, rfl, rfl, rfl, rfl, rfl⟩
  case exgDA =>
    exact ⟨_, exec_eq_next.2 (.inl (exchangeDA_apply s.afterOpword x y)),
      State.setD_dreg_same _ x _, State.setA_areg_same _ y _,
      fun _ hx => State.setD_dreg_other _ _ hx, fun _ hy => State.setA_areg_other _ _ hy, rfl,
      rfl, rfl, rfl, rfl, rfl, rfl, rfl⟩

end Sys2Proof.Claims
end

section
/-! NOT completes (spec/43_logical.md), and a bit instruction on bits 0 to 7 of a data register is the
byte logic instruction with that bit's mask (R215): a change of a low bit commutes with taking the
low bits and writing them back. -/

namespace Sys2Proof.Machine

/-- What an operation makes of the bit it changes (R211, R212, R213). -/
def BitOp.newBit : BitOp → Bool → Bool
  | .chg, x => !x
  | .clr, _ => false
  | .set, _ => true

/-- A bit of the changed operand: the operation's at the bit number, the old one elsewhere. -/
theorem bitNew_getLsbD {n i : Nat} (op : BitOp) (old : BitVec n) (b : Nat) (hi : i < n) :
    (bitNew op old b).getLsbD i =
      if b = i then op.newBit (old.getLsbD i) else old.getLsbD i := by
  have hbit : (1#n <<< b).getLsbD i = decide (b = i) := by
    rw [← BitVec.twoPow_eq, BitVec.getLsbD_twoPow, ← Bool.decide_and]
    exact decide_eq_decide.2 (by omega)
  cases op with
  | chg => rw [bitNew, BitVec.getLsbD_xor, hbit]; split <;> simp [BitOp.newBit, *]
  | clr =>
    rw [bitNew, BitVec.getLsbD_and, BitVec.getLsbD_not, hbit]
    split <;> simp [BitOp.newBit, *]
  | set => rw [bitNew, BitVec.getLsbD_or, hbit]; split <;> simp [BitOp.newBit, *]

/-- Changing a bit of the low part of a register, and writing that part back, changes the bit of the
register. -/
theorem insertLow_bitNew {n b : Nat} (op : BitOp) (old : Long) (hb : b < n) (hn : n ≤ 32) :
    insertLow old (bitNew op (old.setWidth n) b) = bitNew op old b := by
  refine BitVec.eq_of_getLsbD_eq fun i hi => ?_
  rw [bitNew_getLsbD op old b hi]
  obtain hlow | hhigh := Nat.lt_or_ge i n
  · rw [insertLow_low old _ hlow hn, bitNew_getLsbD op _ b hlow, BitVec.getLsbD_setWidth,
      decide_eq_true hlow, Bool.true_and]
  · rw [insertLow_high old _ hhigh, if_neg (by omega)]

/-- A logic operation with this mask changes bit `b` of a byte as `op` does (R170, R215). -/
def MaskChangesBit (op : BitOp) (f : Alu) (mask : Byte) (b : Nat) : Prop :=
  ∀ (a : Byte) (k : Ccr), f mask a k = (bitNew op a b, logicCcr (bitNew op a b) k)

theorem maskChangesBit_and (b : Nat) : MaskChangesBit .clr aluAnd (~~~(1#8 <<< b)) b :=
  fun a k => congrArg (fun v => (v, logicCcr v k)) (BitVec.and_comm _ a)

theorem maskChangesBit_or (b : Nat) : MaskChangesBit .set aluOr (1#8 <<< b) b :=
  fun a k => congrArg (fun v => (v, logicCcr v k)) (BitVec.or_comm _ a)

theorem maskChangesBit_eor (b : Nat) : MaskChangesBit .chg aluEor (1#8 <<< b) b :=
  fun a k => congrArg (fun v => (v, logicCcr v k)) (BitVec.xor_comm _ a)

end Sys2Proof.Machine

namespace Sys2Proof.Claims

open Sys2Proof.Machine

theorem aluNot_meets : Alu1Meets (LogicLaw fun x _ => !x) aluNot := fun _ _ k =>
  ⟨fun _ hi => by simp [aluNot, hi], logicFlags_logicCcr _ k⟩

/-- Settles O38: each size has the shape of an operation that meets the law of inversion. -/
theorem notCompletes : Obligations.NotCompletes :=
  ⟨completesUnary_of_unaryEa aluNot_meets fun _ => rfl,
    completesUnary_of_unaryEa aluNot_meets fun _ => rfl,
    completesUnary_of_unaryEa aluNot_meets fun _ => rfl⟩

/-- Both instructions complete and leave the same registers, memory, pc and X (R215). -/
def CompleteAlike (i j : Instr) (s : State) : Prop :=
  ∃ t u, exec i s = .next t ∧ exec j s = .next u ∧
    t.d = u.d ∧ t.a = u.a ∧ t.mem = u.mem ∧ t.pc = u.pc ∧ t.ccr.x = u.ccr.x

/-- A static bit instruction and the byte immediate instruction with the bit's mask, on one data
register: both fetch one word, and the two writes agree. -/
theorem completeAlike_of_maskChangesBit {op : BitOp} {f : Alu} {mask k : Byte} {r : Reg}
    {i j : Instr} {s : State} (hmask : MaskChangesBit op f mask k.toNat) (hk : k.toNat < 8)
    (hfetch : Fetchable s.afterOpword 1)
    (hi : body i = changeBit op (staticBit k) (.dn r))
    (hj : body j = aluToEa .byte f (readImm .byte mask) (.dn r)) : CompleteAlike i j s := by
  have hext := fetchExt_of_canFetch hfetch.head
  generalize s.afterOpword.setPc (s.afterOpword.pc + 2#32) = s1 at hext
  have hnumber : staticBit k s.afterOpword = .ok k.toNat s1 := staticBit_eq_ok.2 ⟨rfl, hext⟩
  have himm : readImm .byte mask s.afterOpword = .ok mask s1 := readImm_eq_ok.2 ⟨rfl, hext⟩
  have hmod : k.toNat % Config.bitNumModReg = k.toNat :=
    Nat.mod_eq_of_lt (hk.trans (by decide))
  have hrunI : body i s.afterOpword = .ok () ((s1.setD r (bitNew op (s1.dreg r) k.toNat)).setCcr
      { s1.ccr with z := !(s1.dreg r).getLsbD k.toNat }) := by
    simp only [hi, changeBit_dn_apply, hnumber, hmod]
  have hrunJ : body j s.afterOpword = .ok () ((s1.setD r (bitNew op (s1.dreg r) k.toNat)).setCcr
      (logicCcr (bitNew op ((s1.dreg r).setWidth 8) k.toNat) s1.ccr)) := by
    simp only [hj, aluToEa_dn_apply, aluToDn_apply, himm, hmask _ _,
      insertLow_bitNew op (s1.dreg r) hk (by decide)]
  exact ⟨_, _, exec_eq_next.2 (.inl hrunI), exec_eq_next.2 (.inl hrunJ), rfl, rfl, rfl, rfl, rfl⟩

/-- Settles O49: ANDI, ORI and EORI with the mask of a bit clear, set and change that bit. -/
theorem bitInstructionsMatchMasks : Obligations.BitInstructionsMatchMasks := fun _ k _ hk hfetch =>
  ⟨completeAlike_of_maskChangesBit (maskChangesBit_and k.toNat) hk hfetch rfl rfl,
    completeAlike_of_maskChangesBit (maskChangesBit_or k.toNat) hk hfetch rfl rfl,
    completeAlike_of_maskChangesBit (maskChangesBit_eor k.toNat) hk hfetch rfl rfl⟩

end Sys2Proof.Claims
end

section
/-! The shifts and rotates complete (spec/44_shift_rotate.md): what the loop of R189 leaves for any
count, the closed forms of R180 to R187, carried over to the six forms of each operation by one
lemma about their common frame. -/

namespace Sys2Proof.Machine

/-! ## The loop -/

section
variable {n : Nat} (op : ShiftOp) (v : BitVec n) (cnt : Nat) (x : Bool)

theorem shiftResult_succ_v : (shiftResult op v (cnt + 1) x).v =
    (shiftStep op (shiftResult op v cnt x).v (shiftResult op v cnt x).x).1 := by
  rw [shiftResult_succ]
  rfl

theorem shiftResult_succ_c : (shiftResult op v (cnt + 1) x).c =
    (shiftStep op (shiftResult op v cnt x).v (shiftResult op v cnt x).x).2 := by
  rw [shiftResult_succ]
  rfl

theorem shiftResult_succ_msbChanged : (shiftResult op v (cnt + 1) x).msbChanged =
    ((shiftResult op v cnt x).msbChanged ||
      ((shiftResult op v cnt x).v.msb != (shiftResult op v (cnt + 1) x).v.msb)) := by
  rw [shiftResult_succ]
  rfl

/-- V as R180 and R189 set it: of the eight operations only ASL can set it. -/
def ShiftOp.overflow : ShiftOp → Bool → Bool
  | .asl, msbChanged => msbChanged
  | _, _ => false

/-- The flags that the common frame writes (R189). -/
def shiftCcr (t : ShiftAcc n) : Ccr :=
  { x := t.x, n := t.v.msb, z := decide (t.v = 0#n), v := op.overflow t.msbChanged, c := t.c }

end

/-- The common frame: the loop's value in `Dy`, and the flags of the loop's end (R189). -/
theorem shiftDn_eq_ok {s : State} {sz : Size} {count : M Nat} {cnt : Nat} (op : ShiftOp) (dy : Reg)
    (hcount : count s = .ok cnt s) :
    shiftDn sz op count dy s = .ok ()
      ((s.setD dy (insertLow (s.dreg dy)
          (shiftResult op ((s.dreg dy).setWidth sz.bits) cnt s.ccr.x).v)).setCcr
        (shiftCcr op (shiftResult op ((s.dreg dy).setWidth sz.bits) cnt s.ccr.x))) := by
  rw [shiftDn_apply op count dy hcount]
  cases op <;> rfl

/-- The field of the immediate form stands for a count of 1 to 8 (R98, R188). -/
theorem immCount_apply (ccc : BitVec 3) (s : State) :
    (pure (immCount ccc) : M Nat) s = .ok (if ccc.toNat = 0 then 8 else ccc.toNat) s := by
  rw [M.pure_apply, immCount, if_congr (eq_zero_iff_toNat ccc) rfl rfl]

/-! ## Shifts: value and C (R180 to R183) -/

section
variable {n : Nat} (v : BitVec n) (cnt : Nat) (x : Bool)

/-- ASL and LSL move the same bits (R182). -/
theorem shiftStep_left {op : ShiftOp} (h : op = .asl ∨ op = .lsl) :
    shiftStep op v x = (v <<< 1, v.msb) := by
  obtain rfl | rfl := h <;> rfl

theorem shiftResult_left_v {op : ShiftOp} (h : op = .asl ∨ op = .lsl) :
    (shiftResult op v cnt x).v = v <<< cnt := by
  induction cnt with
  | zero => exact (BitVec.shiftLeft_zero v).symm
  | succ cnt ih => rw [shiftResult_succ_v, shiftStep_left _ _ h, ih, BitVec.shiftLeft_add]

theorem shiftResult_left_c {op : ShiftOp} (h : op = .asl ∨ op = .lsl) :
    (shiftResult op v cnt x).c =
      if cnt = 0 then false else if cnt ≤ n then v.getLsbD (n - cnt) else false := by
  cases cnt with
  | zero => obtain rfl | rfl := h <;> rfl
  | succ cnt =>
    have hbit : (shiftResult op v (cnt + 1) x).c = v.getMsbD cnt := by
      rw [shiftResult_succ_c, shiftStep_left _ _ h, shiftResult_left_v v cnt x h]
      exact BitVec.msb_shiftLeft
    rw [hbit, if_neg (Nat.succ_ne_zero cnt), BitVec.getMsbD_eq_getLsbD,
      show n - 1 - cnt = n - (cnt + 1) by omega]
    split
    case isTrue hle => rw [decide_eq_true (Nat.lt_of_succ_le hle), Bool.true_and]
    case isFalse hgt => rw [decide_eq_false (by omega), Bool.false_and]

theorem shiftResult_lsr_v : (shiftResult .lsr v cnt x).v = v >>> cnt := by
  induction cnt with
  | zero => exact (BitVec.ushiftRight_zero v).symm
  | succ cnt ih => rw [shiftResult_succ_v, ih, BitVec.shiftRight_add]; rfl

theorem shiftResult_lsr_c : (shiftResult .lsr v cnt x).c =
    if cnt = 0 then false else if cnt ≤ n then v.getLsbD (cnt - 1) else false := by
  cases cnt with
  | zero => rfl
  | succ cnt =>
    have hbit : (shiftResult .lsr v (cnt + 1) x).c = v.getLsbD cnt := by
      rw [shiftResult_succ_c, shiftResult_lsr_v]
      exact BitVec.getLsbD_ushiftRight v cnt 0
    rw [hbit, if_neg (Nat.succ_ne_zero cnt), Nat.add_sub_cancel]
    split
    · rfl
    · exact BitVec.getLsbD_of_ge v cnt (by omega)

theorem shiftResult_asr_v : (shiftResult .asr v cnt x).v = v.sshiftRight cnt := by
  induction cnt with
  | zero => exact BitVec.sshiftRight_zero.symm
  | succ cnt ih => rw [shiftResult_succ_v, ih, BitVec.sshiftRight_add]; rfl

theorem shiftResult_asr_c (hn : 0 < n) : (shiftResult .asr v cnt x).c =
    if cnt = 0 then false else if cnt ≤ n then v.getLsbD (cnt - 1) else v.getLsbD (n - 1) := by
  cases cnt with
  | zero => rfl
  | succ cnt =>
    have hbit : (shiftResult .asr v (cnt + 1) x).c = if cnt < n then v.getLsbD cnt else v.msb := by
      rw [shiftResult_succ_c, shiftResult_asr_v]
      exact (BitVec.getLsbD_sshiftRight v cnt 0).trans (by simp [hn.ne'])
    rw [hbit, if_neg (Nat.succ_ne_zero cnt), Nat.add_sub_cancel, BitVec.msb_eq_getLsbD_last]
    rfl

end

/-! ## ASL: overflow (R180) -/

section
variable {n : Nat}

/-- The top bit changes in one doubling exactly when the signed double does not fit. -/
theorem msb_ne_shiftLeft_one_iff (w : BitVec n) :
    (w.msb != (w <<< 1).msb) = true ↔
      ¬(-(2 ^ (n - 1) : Int) ≤ w.toInt * 2 ∧ w.toInt * 2 < (2 ^ (n - 1) : Int)) := by
  have hdouble : w <<< 1 = w + w := by
    apply BitVec.eq_of_toNat_eq
    rw [BitVec.toNat_shiftLeft, BitVec.toNat_add, Nat.shiftLeft_eq, pow_one, Nat.mul_two]
  have hv := add_v_iff w w
  rwa [beq_self_eq_true, Bool.true_and, ← hdouble, bne_comm, ← mul_two] at hv

/-- A signed product that fits is the value of the shifted word. -/
theorem toInt_shiftLeft_of_fits (hn : 0 < n) (v : BitVec n) (cnt : Nat)
    (hlo : -(2 ^ (n - 1) : Int) ≤ v.toInt * 2 ^ cnt)
    (hhi : v.toInt * 2 ^ cnt < (2 ^ (n - 1) : Int)) :
    (v <<< cnt).toInt = v.toInt * 2 ^ cnt := by
  have hpow : BitVec.twoPow n cnt = BitVec.ofInt n (2 ^ cnt) := by
    apply BitVec.eq_of_toNat_eq
    rw [BitVec.toNat_twoPow, ← BitVec.toNat_ofNat, ← BitVec.ofInt_natCast, Nat.cast_pow]
    rfl
  have hword : v <<< cnt = BitVec.ofInt n (v.toInt * 2 ^ cnt) := by
    rw [BitVec.shiftLeft_eq_mul_twoPow, hpow, BitVec.ofInt_mul, BitVec.ofInt_toInt]
  rw [hword, BitVec.toInt_ofInt_eq_self hn hlo hhi]

end

/-! ## Rotates: one step of a ring -/

section
variable {p : Nat} {ring : Nat → Nat → Bool}

/-- A ring of `p` bits that each step turns left by one is turned left by `cnt` after `cnt`
steps. -/
theorem ring_turned_left (hstep : ∀ c i, i < p → ring (c + 1) ((i + 1) % p) = ring c i) (cnt : Nat)
    {i : Nat} (hi : i < p) : ring cnt ((i + cnt) % p) = ring 0 i := by
  induction cnt with
  | zero => rw [Nat.add_zero, Nat.mod_eq_of_lt hi]
  | succ cnt ih =>
    have hlt : (i + cnt) % p < p := Nat.mod_lt _ (by omega)
    rw [← ih, ← hstep cnt _ hlt, Nat.mod_add_mod, Nat.add_assoc]

/-- A ring of `p` bits that each step turns right by one is turned right by `cnt` after `cnt`
steps. -/
theorem ring_turned_right (hstep : ∀ c i, i < p → ring (c + 1) i = ring c ((i + 1) % p)) (cnt : Nat)
    {i : Nat} (hi : i < p) : ring cnt i = ring 0 ((i + cnt) % p) := by
  induction cnt generalizing i with
  | zero => rw [Nat.add_zero, Nat.mod_eq_of_lt hi]
  | succ cnt ih =>
    have hlt : (i + 1) % p < p := Nat.mod_lt _ (by omega)
    rw [hstep cnt i hi, ih hlt, Nat.mod_add_mod, Nat.add_assoc, Nat.add_comm 1 cnt]

end

section
variable {n : Nat} (v : BitVec n) (x : Bool)

/-- One step of ROL turns the n bits left by one (R184). -/
theorem shiftStep_rol_turns {i : Nat} (hi : i < n) :
    (shiftStep .rol v x).1.getLsbD ((i + 1) % n) = v.getLsbD i := by
  have hlt : (i + 1) % n < n := Nat.mod_lt _ (by omega)
  rw [shiftStep_rol_bit v x hlt]
  obtain hmid | htop : i + 1 < n ∨ i + 1 = n := by omega
  · rw [Nat.mod_eq_of_lt hmid, if_neg (by omega), Nat.add_sub_cancel]
  · rw [htop, Nat.mod_self, if_pos rfl, BitVec.msb_eq_getLsbD_last,
      show n - 1 = i by omega]

/-- One step of ROR turns the n bits right by one (R185). -/
theorem shiftStep_ror_turns {i : Nat} (hi : i < n) :
    (shiftStep .ror v x).1.getLsbD i = v.getLsbD ((i + 1) % n) := by
  rw [shiftStep_ror_bit v x hi]
  split
  case isTrue htop => rw [htop, Nat.mod_self]
  case isFalse hmid => rw [Nat.mod_eq_of_lt (by omega)]

theorem shiftResult_rol_bit (cnt : Nat) {i : Nat} (hi : i < n) :
    (shiftResult .rol v cnt x).v.getLsbD ((i + cnt) % n) = v.getLsbD i :=
  ring_turned_left (ring := fun c i => (shiftResult .rol v c x).v.getLsbD i)
    (fun c j hj => by rw [shiftResult_succ_v, shiftStep_rol_turns _ _ hj]) cnt hi

theorem shiftResult_ror_bit (cnt : Nat) {i : Nat} (hi : i < n) :
    (shiftResult .ror v cnt x).v.getLsbD i = v.getLsbD ((i + cnt) % n) :=
  ring_turned_right (ring := fun c i => (shiftResult .ror v c x).v.getLsbD i)
    (fun c j hj => by rw [shiftResult_succ_v, shiftStep_ror_turns _ _ hj]) cnt hi

/-- ROL: the bit that left last came round into bit 0 (R184). -/
theorem shiftResult_rol_c (hn : 0 < n) (cnt : Nat) : (shiftResult .rol v cnt x).c =
    if cnt = 0 then false else (shiftResult .rol v cnt x).v.getLsbD 0 := by
  cases cnt with
  | zero => rfl
  | succ cnt =>
    rw [shiftResult_succ_c, shiftResult_succ_v, shiftStep_rol_bit _ _ hn]
    rfl

/-- ROR: the bit that left last came round into the top bit (R185). -/
theorem shiftResult_ror_c (hn : 0 < n) (cnt : Nat) : (shiftResult .ror v cnt x).c =
    if cnt = 0 then false else (shiftResult .ror v cnt x).v.getLsbD (n - 1) := by
  cases cnt with
  | zero => rfl
  | succ cnt =>
    rw [shiftResult_succ_c, shiftResult_succ_v, shiftStep_ror_bit _ _ (by omega),
      if_neg (by omega), if_pos (by omega)]
    rfl

end

end Sys2Proof.Machine

namespace Sys2Proof.Claims

open Sys2Proof.Machine

/-! ## The shifts meet their laws -/

/-- The loop with the flags of the common frame does what the law says, at every width of at least
one bit. -/
def ShiftMeets (law : ShiftLaw) (op : ShiftOp) : Prop :=
  ∀ (n : Nat) (v : BitVec n) (cnt : Nat) (x : Bool), 0 < n →
    law v cnt x (shiftResult op v cnt x).v (shiftCcr op (shiftResult op v cnt x))

section
variable {n : Nat} (v : BitVec n) (cnt : Nat) (x : Bool)

/-- N and Z are those of the loop's value. -/
theorem nz_shiftCcr (op : ShiftOp) (t : ShiftAcc n) : NZ t.v (shiftCcr op t) := nz_of_eq rfl rfl

theorem xFollowsC_shiftCcr {op : ShiftOp} (h : op.writesX = true) :
    XFollowsC cnt x (shiftCcr op (shiftResult op v cnt x)) := by
  cases cnt with
  | zero => rfl
  | succ cnt => exact shiftResult_x_eq_c h v cnt x

/-- A signed product that does not fit does not fit when doubled. -/
theorem signedFits_of_double {z : Int} (h : SignedFits n (z * 2)) : SignedFits n z := by
  obtain ⟨hlo, hhi⟩ := h
  constructor <;> omega

/-- ASL: the top bit changed at some step exactly when the signed product does not fit (R180). -/
theorem asl_msbChanged_iff (hn : 0 < n) :
    (shiftResult .asl v cnt x).msbChanged = true ↔ ¬SignedFits n (v.toInt * 2 ^ cnt) := by
  induction cnt with
  | zero =>
    have hfits : SignedFits n (v.toInt * 2 ^ 0) := by
      rw [pow_zero, Int.mul_one]
      exact ⟨BitVec.le_toInt v, BitVec.toInt_lt⟩
    exact iff_of_false Bool.false_ne_true (not_not_intro hfits)
  | succ cnt ih =>
    rw [shiftResult_succ_msbChanged, Bool.or_eq_true, ih, shiftResult_left_v v _ x (.inl rfl),
      shiftResult_left_v v _ x (.inl rfl), BitVec.shiftLeft_add, msb_ne_shiftLeft_one_iff, pow_succ,
      ← Int.mul_assoc]
    by_cases hfits : SignedFits n (v.toInt * 2 ^ cnt)
    · rw [toInt_shiftLeft_of_fits hn v cnt hfits.1 hfits.2]
      exact or_iff_right (not_not_intro hfits)
    · exact iff_of_true (.inl hfits) fun h => hfits (signedFits_of_double h)

end

theorem asl_meets : ShiftMeets AslLaw .asl := fun n v cnt x hn =>
  ⟨by rw [shiftResult_left_v v cnt x (.inl rfl), BitVec.toNat_shiftLeft, Nat.shiftLeft_eq],
    shiftResult_left_c v cnt x (.inl rfl), asl_msbChanged_iff v cnt x hn,
    xFollowsC_shiftCcr v cnt x rfl, nz_shiftCcr _ _⟩

theorem lsl_meets : ShiftMeets LslLaw .lsl := fun n v cnt x _ =>
  ⟨by rw [shiftResult_left_v v cnt x (.inr rfl), BitVec.toNat_shiftLeft, Nat.shiftLeft_eq],
    shiftResult_left_c v cnt x (.inr rfl), rfl, xFollowsC_shiftCcr v cnt x rfl, nz_shiftCcr _ _⟩

theorem asr_meets : ShiftMeets AsrLaw .asr := fun n v cnt x hn => by
  refine ⟨?_, shiftResult_asr_c v cnt x hn, rfl, xFollowsC_shiftCcr v cnt x rfl, nz_shiftCcr _ _⟩
  rw [shiftResult_asr_v, BitVec.toInt_sshiftRight, Int.shiftRight_eq_div_pow,
    Int.fdiv_eq_ediv_of_nonneg _ (by positivity)]
  push_cast
  rfl

theorem lsr_meets : ShiftMeets LsrLaw .lsr := fun n v cnt x _ =>
  ⟨by rw [shiftResult_lsr_v, BitVec.toNat_ushiftRight, Nat.shiftRight_eq_div_pow],
    shiftResult_lsr_c v cnt x, rfl, xFollowsC_shiftCcr v cnt x rfl, nz_shiftCcr _ _⟩

theorem rol_meets : ShiftMeets RolLaw .rol := fun _ v cnt x hn =>
  ⟨fun _ hi => shiftResult_rol_bit v x cnt hi, shiftResult_rol_c v x hn cnt, rfl,
    shiftResult_x_kept rfl v cnt x, nz_shiftCcr _ _⟩

theorem ror_meets : ShiftMeets RorLaw .ror := fun _ v cnt x hn =>
  ⟨fun _ hi => shiftResult_ror_bit v x cnt hi, shiftResult_ror_c v x hn cnt, rfl,
    shiftResult_x_kept rfl v cnt x, nz_shiftCcr _ _⟩

/-! ## The rotates through X: the ring of n+1 bits (R186, R187) -/

section
variable {n : Nat} (v : BitVec n) (x : Bool)

theorem ringBit_low {i : Nat} (hi : i < n) : ringBit v x i = v.getLsbD i := if_pos hi

theorem ringBit_top : ringBit v x n = x := if_neg (Nat.lt_irrefl n)

/-- One step of ROXL turns the ring left by one: X comes in at bit 0, the top bit becomes X. -/
theorem shiftOnce_roxl_turns (hn : 0 < n) (t : ShiftAcc n) {i : Nat} (hi : i < n + 1) :
    ringBit (shiftOnce .roxl t).v (shiftOnce .roxl t).x ((i + 1) % (n + 1)) =
      ringBit t.v t.x i := by
  obtain hmid | hlast | rfl : i + 1 < n ∨ i + 1 = n ∨ i = n := by omega
  · rw [Nat.mod_eq_of_lt (by omega), ringBit_low _ _ hmid, ringBit_low _ _ (by omega)]
    exact shiftStep_roxl_bit t.v t.x hmid
  · rw [hlast, Nat.mod_eq_of_lt (by omega), ringBit_top, ringBit_low _ _ (by omega),
      show i = n - 1 by omega]
    exact BitVec.msb_eq_getLsbD_last t.v
  · rw [Nat.mod_self, ringBit_low _ _ hn, ringBit_top]
    exact shiftStep_roxl_bit t.v t.x hn

/-- One step of ROXR turns the ring right by one: X comes in at the top bit, bit 0 becomes X. -/
theorem shiftOnce_roxr_turns (hn : 0 < n) (t : ShiftAcc n) {i : Nat} (hi : i < n + 1) :
    ringBit (shiftOnce .roxr t).v (shiftOnce .roxr t).x i =
      ringBit t.v t.x ((i + 1) % (n + 1)) := by
  obtain hmid | hlast | rfl : i + 1 < n ∨ i + 1 = n ∨ i = n := by omega
  · rw [Nat.mod_eq_of_lt (by omega), ringBit_low _ _ hmid, ringBit_low _ _ (by omega)]
    exact (shiftStep_roxr_bit t.v t.x (by omega)).trans (if_neg (by omega))
  · rw [hlast, Nat.mod_eq_of_lt (by omega), ringBit_top, ringBit_low _ _ (by omega)]
    exact (shiftStep_roxr_bit t.v t.x (by omega)).trans (if_pos hlast)
  · rw [Nat.mod_self, ringBit_low _ _ hn, ringBit_top]
    rfl

end

theorem roxl_meets : ShiftMeets RoxlLaw .roxl := fun n v cnt x hn =>
  ⟨fun _ hi => ring_turned_left
      (ring := fun c i => ringBit (shiftResult .roxl v c x).v (shiftResult .roxl v c x).x i)
      (fun c j hj => by rw [shiftResult_succ, shiftOnce_roxl_turns hn _ hj]) cnt
      (Nat.lt_succ_of_le hi),
    shiftResult_rox_c (.inl rfl) v cnt x, rfl, nz_shiftCcr _ _⟩

theorem roxr_meets : ShiftMeets RoxrLaw .roxr := fun n v cnt x hn =>
  ⟨fun _ hi => ring_turned_right
      (ring := fun c i => ringBit (shiftResult .roxr v c x).v (shiftResult .roxr v c x).x i)
      (fun c j hj => by rw [shiftResult_succ, shiftOnce_roxr_turns hn _ hj]) cnt
      (Nat.lt_succ_of_le hi),
    shiftResult_rox_c (.inr rfl) v cnt x, rfl, nz_shiftCcr _ _⟩

/-! ## The forms of the instructions -/

section
variable {law : ShiftLaw} {op : ShiftOp} {sz : Size}

/-- A shift whose count is `cnt` completes with the loop's value and flags (R189). -/
theorem exec_shiftDn (hop : ShiftMeets law op) {count : M Nat} {i : Instr} {y : Reg} {s : State}
    {cnt : Nat} (hbody : body i = shiftDn sz op count y)
    (hcount : count s.afterOpword = .ok cnt s.afterOpword) :
    ∃ t v, exec i s = .next t ∧ DnBecomes sz s.afterOpword t y v ∧
      law ((s.dreg y).setWidth sz.bits) cnt s.ccr.x v t.ccr := by
  have hbits : 0 < sz.bits := by cases sz <;> decide
  exact ⟨_, _, exec_eq_next.2 (.inl (hbody ▸ shiftDn_eq_ok op y hcount)),
    dnBecomes_setD_setCcr s.afterOpword y _ _, hop _ _ _ _ hbits⟩

/-- Both count forms at one size of an operation that meets its law (R188, R189). -/
theorem completesShift_of_shiftDn {imm reg : BitVec 3 → Reg → Instr} (hop : ShiftMeets law op)
    (himm : ∀ ccc y, body (imm ccc y) = shiftDn sz op (pure (immCount ccc)) y)
    (hreg : ∀ x y, body (reg x y) = shiftDn sz op (regCount x) y) :
    CompletesShift law sz imm reg :=
  ⟨fun _ ccc y => exec_shiftDn hop (himm ccc y) (immCount_apply ccc _),
    fun _ x y => exec_shiftDn hop (hreg x y) (regCount_apply _ x)⟩

end

/-- Settles O39: the loop is a shift by the count, and its top bit changes where the product does not
fit. -/
theorem aslCompletes : Obligations.AslCompletes := by
  refine ⟨?_, ?_, ?_⟩ <;>
    exact completesShift_of_shiftDn asl_meets (fun _ _ => rfl) fun _ _ => rfl

/-- Settles O40: the loop is the arithmetic right shift by the count. -/
theorem asrCompletes : Obligations.AsrCompletes := by
  refine ⟨?_, ?_, ?_⟩ <;>
    exact completesShift_of_shiftDn asr_meets (fun _ _ => rfl) fun _ _ => rfl

/-- Settles O41: the loop is the left shift by the count, as in ASL. -/
theorem lslCompletes : Obligations.LslCompletes := by
  refine ⟨?_, ?_, ?_⟩ <;>
    exact completesShift_of_shiftDn lsl_meets (fun _ _ => rfl) fun _ _ => rfl

/-- Settles O42: the loop is the logical right shift by the count. -/
theorem lsrCompletes : Obligations.LsrCompletes := by
  refine ⟨?_, ?_, ?_⟩ <;>
    exact completesShift_of_shiftDn lsr_meets (fun _ _ => rfl) fun _ _ => rfl

/-- Settles O43: each step turns the ring of n bits left by one. -/
theorem rolCompletes : Obligations.RolCompletes := by
  refine ⟨?_, ?_, ?_⟩ <;>
    exact completesShift_of_shiftDn rol_meets (fun _ _ => rfl) fun _ _ => rfl

/-- Settles O44: each step turns the ring of n bits right by one. -/
theorem rorCompletes : Obligations.RorCompletes := by
  refine ⟨?_, ?_, ?_⟩ <;>
    exact completesShift_of_shiftDn ror_meets (fun _ _ => rfl) fun _ _ => rfl

/-- Settles O45: each step turns the ring of n+1 bits left by one. -/
theorem roxlCompletes : Obligations.RoxlCompletes := by
  refine ⟨?_, ?_, ?_⟩ <;>
    exact completesShift_of_shiftDn roxl_meets (fun _ _ => rfl) fun _ _ => rfl

/-- Settles O46: each step turns the ring of n+1 bits right by one. -/
theorem roxrCompletes : Obligations.RoxrCompletes := by
  refine ⟨?_, ?_, ?_⟩ <;>
    exact completesShift_of_shiftDn roxr_meets (fun _ _ => rfl) fun _ _ => rfl

end Sys2Proof.Claims
end

section
/-! The bit instructions complete (spec/45_bit_manipulation.md): one lemma for BTST and one for the three
that change the bit, over whatever reads the bit number, so that both number forms use them. -/

namespace Sys2Proof.Claims

open Sys2Proof.Machine

/-- `bitNew` changes its bit as the operation says and keeps every other (R211, R212, R213). -/
theorem bitBecomes_bitNew {n b : Nat} (op : BitOp) (old : BitVec n) (hb : b < n) :
    BitBecomes old (bitNew op old b) b (op.newBit (old.getLsbD b)) := by
  refine ⟨by rw [bitNew_getLsbD op old b hb, if_pos rfl], fun i hne => ?_⟩
  obtain hin | hout := Nat.lt_or_ge i n
  · rw [bitNew_getLsbD op old b hin, if_neg hne.symm]
  · rw [BitVec.getLsbD_of_ge _ i hout, BitVec.getLsbD_of_ge _ i hout]

theorem sameButCcr_setCcr (s : State) (k : Ccr) : SameButCcr s (s.setCcr k) :=
  ⟨rfl, rfl, rfl, rfl, rfl, rfl, rfl, rfl, rfl⟩

/-- BTST on a data register, or on a byte read by any other mode (R210, R214). -/
theorem completesBitTest_of_testBit {number : M Nat} {i : DataEa → Instr}
    (hbody : ∀ e, body (i e) = testBit number e) : CompletesBitTest number i := by
  intro s s1 k hnumber
  refine ⟨fun r => ?_, fun e v s2 hnot hread => ?_⟩
  · have hrun : body (i (.alt (.dn r))) s.afterOpword =
        .ok () (s1.setCcr { s1.ccr with z := !(s1.dreg r).getLsbD (k % 32) }) := by
      simp only [hbody, testBit_dn_apply, hnumber, Config.bitNumModReg]
    exact ⟨_, exec_eq_next.2 (.inl hrun), sameButCcr_setCcr s1 _, rfl⟩
  · have hrun : body (i e) s.afterOpword =
        .ok () (s2.setCcr { s2.ccr with z := !v.getLsbD (k % 8) }) := by
      simp only [hbody, testBit_other_apply number e hnot, hnumber, hread,
        Config.bitNumModMem]
    exact ⟨_, exec_eq_next.2 (.inl hrun), sameButCcr_setCcr s2 _, rfl⟩

/-- BCHG, BCLR or BSET on a data register, or on a byte that can be written and so be read (R58,
R214). -/
theorem completesBitChange_of_changeBit {op : BitOp} {number : M Nat} {i : DataAltEa → Instr}
    (hbody : ∀ dst, body (i dst) = changeBit op number dst) :
    CompletesBitChange op.newBit number i := by
  intro s s1 k hnumber
  refine ⟨fun r => ?_, fun m addr s2 hres hw => ?_⟩
  · have hrun : body (i (.dn r)) s.afterOpword =
        .ok () ((s1.setD r (bitNew op (s1.dreg r) (k % 32))).setCcr
          { s1.ccr with z := !(s1.dreg r).getLsbD (k % 32) }) := by
      simp only [hbody, changeBit_dn_apply, hnumber, Config.bitNumModReg]
    exact ⟨_, _, exec_eq_next.2 (.inl hrun), dnBecomes_long s1 r _ _,
      bitBecomes_bitNew op _ (Nat.mod_lt k (by decide)), rfl⟩
  · have hrun : body (i (.mem m)) s.afterOpword =
        .ok () ((s2.storeAt addr .byte (bitNew op (s2.valueAt addr .byte) (k % 8))).setCcr
          { s2.ccr with z := !(s2.valueAt addr .byte).getLsbD (k % 8) }) := by
      simp only [hbody, changeBit_mem_apply, hnumber, hres, accessFault_of_writeFault hw, hw,
        Config.bitNumModMem]
    exact ⟨_, _, exec_eq_next.2 (.inl hrun), memBecomes_storeAt_setCcr s2 addr _ _,
      bitBecomes_bitNew op _ (Nat.mod_lt k (by decide)), rfl⟩

/-- Settles O47: both forms test the bit whose number they read. -/
theorem bitTestCompletes : Obligations.BitTestCompletes :=
  ⟨fun _ => completesBitTest_of_testBit fun _ => rfl,
    fun _ => completesBitTest_of_testBit fun _ => rfl⟩

/-- Settles O48: both forms of the three operations change the bit whose number they read. -/
theorem bitChangeCompletes : Obligations.BitChangeCompletes :=
  ⟨fun _ => completesBitChange_of_changeBit (op := .chg) fun _ => rfl,
    fun _ => completesBitChange_of_changeBit (op := .chg) fun _ => rfl,
    fun _ => completesBitChange_of_changeBit (op := .clr) fun _ => rfl,
    fun _ => completesBitChange_of_changeBit (op := .clr) fun _ => rfl,
    fun _ => completesBitChange_of_changeBit (op := .set) fun _ => rfl,
    fun _ => completesBitChange_of_changeBit (op := .set) fun _ => rfl⟩

end Sys2Proof.Claims
end

section
/-! The auxiliary instructions complete (spec/46_auxiliary.md): CLR, which writes its operand without
reading it, and STOP. -/

namespace Sys2Proof.Machine

/-- The flags of a zero result: Z alone set, X kept (R231). -/
theorem logicCcr_zero (n : Nat) (k : Ccr) : logicCcr (0#n) k = ⟨k.x, false, true, false, false⟩ := by
  have hn : (0#n).msb = false := BitVec.msb_zero
  have hz : decide (0#n = 0#n) = true := decide_eq_true rfl
  rw [logicCcr, hn, hz]

end Sys2Proof.Machine

namespace Sys2Proof.Claims

open Sys2Proof.Machine

/-- The law of CLR: a zero result, Z alone set, X kept, whatever the operand held (R231). -/
def ClearLaw : Law := fun _ _ old r k => r.toNat = 0 ∧ k = ⟨old.x, false, true, false, false⟩

theorem clearLaw_zero {n : Nat} (a b : BitVec n) (k : Ccr) :
    ClearLaw a b k (0#n) (logicCcr (0#n) k) :=
  ⟨BitVec.toNat_zero, logicCcr_zero n k⟩

/-- `CLR <ea>`: in memory a write suffices, for the operand is not read (R56, R231). -/
theorem completesUnary_of_clearEa {sz : Size} {i : DataAltEa → Instr}
    (hbody : ∀ dst, body (i dst) = clearEa sz dst) : CompletesUnary ClearLaw sz i := by
  refine ⟨fun s r => ?_, fun s s1 m addr hres hw => ?_⟩
  · have hrun : body (i (.dn r)) s.afterOpword = .ok ()
        ((s.afterOpword.setD r (insertLow (s.afterOpword.dreg r) (0#sz.bits))).setCcr
          (logicCcr (0#sz.bits) s.ccr)) := by
      rw [hbody, clearEa_dn_apply, State.afterOpword_ccr]
    exact ⟨_, _, exec_eq_next.2 (.inl hrun), dnBecomes_setD_setCcr s.afterOpword r _ _,
      clearLaw_zero _ _ s.ccr⟩
  · have hrun : body (i (.mem m)) s.afterOpword = .ok ()
        ((s1.storeAt addr sz (0#sz.bits)).setCcr (logicCcr (0#sz.bits) s1.ccr)) := by
      simp only [hbody, clearEa_mem_apply, hres, hw]
    exact ⟨_, _, exec_eq_next.2 (.inl hrun), memBecomes_storeAt_setCcr s1 addr _ _,
      clearLaw_zero _ _ s1.ccr⟩

/-- Settles O52: each size has the shape of `clearEa`. -/
theorem clrCompletes : Obligations.ClrCompletes :=
  ⟨completesUnary_of_clearEa fun _ => rfl, completesUnary_of_clearEa fun _ => rfl,
    completesUnary_of_clearEa fun _ => rfl⟩

/-- Settles O55: once its operand word is fetched, STOP only loads. -/
theorem stopCompletes : Obligations.StopCompletes := by
  intro s imm hfetch
  have hrun : body (.stop imm) s.afterOpword = .ok ()
      ((((s.afterOpword.setPc (s.afterOpword.pc + 2#32)).setSrHigh (imm.extractLsb' 8 8)).setCcr
        (Ccr.ofWord imm)).setStatus .stopped) :=
    (stopWith_apply imm).trans (by rw [fetchExt_of_canFetch hfetch.head])
  have hpc : s.pc + 2#32 + 2#32 = s.pc + 4#32 := BitVec.add_assoc s.pc 2#32 2#32
  exact ⟨_, exec_eq_next.2 (.inl hrun), rfl, hpc, rfl, rfl, rfl, rfl, rfl, rfl, rfl, rfl⟩

end Sys2Proof.Claims
end

section
/-! The exceptions (spec/60_exceptions.md): no step takes PrivilegeViolation, a divide by zero takes
DivideByZero, and odd addresses take AddressError. -/

namespace Sys2Proof.Machine

/-! ## The checks of an access -/

theorem accessFault_ne_privilegeViolation (s : State) (acc : Access) (addr : Long) (sz : Size) :
    accessFault s acc addr sz ≠ some .privilegeViolation := by
  unfold accessFault
  dsimp only
  split
  · exact nofun
  · split <;> exact nofun

theorem writeFault_ne_privilegeViolation (s : State) (addr : Long) (sz : Size) :
    writeFault s addr sz ≠ some .privilegeViolation := by
  unfold writeFault
  split
  next e h => exact fun he => accessFault_ne_privilegeViolation s .write addr sz (h.trans he)
  next => split <;> exact nofun

/-- The bits of an address that reach memory hold its lowest one (R61). -/
theorem busAddr_odd {addr : Long} (h : addr.toNat % 2 = 1) : busAddr addr % 2 = 1 := by
  have hdvd : 2 ∣ 2 ^ Config.addrBits := by decide
  rw [busAddr, Nat.mod_mod_of_dvd _ hdvd, h]

end Sys2Proof.Machine

namespace Sys2Proof.Claims

open Sys2Proof.Machine

/-! ## Parts that never raise PrivilegeViolation -/

/-- Whatever the part raises, it is not PrivilegeViolation. -/
def SparesPrivilege {α : Type} (m : M α) : Prop :=
  ∀ ⦃s t e⦄, m s = .error e t → e ≠ .privilegeViolation

namespace SparesPrivilege

variable {α β : Type} {sz : Size}

theorem of_neverRaises {m : M α} (h : NeverRaises m) : SparesPrivilege m := by
  intro s t e he
  obtain ⟨a, t', hok⟩ := h s
  exact nomatch hok.symm.trans he

theorem raise {e : Exc} (h : e ≠ .privilegeViolation) : SparesPrivilege (raise e : M α) :=
  fun _ _ _ he => (EStateM.Result.error.inj he).1 ▸ h

theorem pure (a : α) : SparesPrivilege (pure a : M α) := of_neverRaises fun s => ⟨a, s, rfl⟩

theorem bind {m : M α} {f : α → M β} (hm : SparesPrivilege m)
    (hf : ∀ a, SparesPrivilege (f a)) : SparesPrivilege (m >>= f) := by
  intro s t e he
  obtain he | ⟨a, s', -, he⟩ := M.bind_eq_error.1 he
  · exact hm he
  · exact hf a he

/-! ### Registers, flags, memory -/

theorem readD (r : Reg) : SparesPrivilege (readD sz r) := of_neverRaises fun _ => ⟨_, _, rfl⟩
theorem readALong (r : Reg) : SparesPrivilege (readALong r) := of_neverRaises fun _ => ⟨_, _, rfl⟩
theorem readPc : SparesPrivilege readPc := of_neverRaises fun _ => ⟨_, _, rfl⟩
theorem readCcr : SparesPrivilege readCcr := of_neverRaises fun _ => ⟨_, _, rfl⟩
theorem writeCcr (k : Ccr) : SparesPrivilege (writeCcr k) := of_neverRaises fun _ => ⟨_, _, rfl⟩
theorem dynamicBit (r : Reg) : SparesPrivilege (dynamicBit r) :=
  of_neverRaises fun _ => ⟨_, _, rfl⟩

/-- A read raises what its checks raise (R52). -/
theorem memRead (acc : Access) (addr : Long) : SparesPrivilege (memRead acc addr sz) :=
  fun s _ _ he hpriv =>
    accessFault_ne_privilegeViolation s acc addr sz (hpriv ▸ (memRead_eq_error.1 he).1)

/-- A write raises what its checks raise (R53). -/
theorem memWrite (addr : Long) (v : BitVec sz.bits) : SparesPrivilege (memWrite addr sz v) :=
  fun s _ _ he hpriv =>
    writeFault_ne_privilegeViolation s addr sz (hpriv ▸ (memWrite_eq_error.1 he).1)

theorem fetchExt : SparesPrivilege fetchExt :=
  fun s _ _ he hpriv =>
    accessFault_ne_privilegeViolation s .fetch s.pc .word (hpriv ▸ (fetchExt_eq_error.1 he).1)

/-! ### Operands -/

theorem indexEa (base : Long) (ix : IndexExt) : SparesPrivilege (indexEa base ix) :=
  fetchExt.bind fun _ => of_neverRaises fun _ => ⟨_, _, rfl⟩

theorem resolveMem (m : MemEa) : SparesPrivilege (resolveMem sz m) := by
  cases m with
  | ind r => exact readALong r
  | postInc r | preDec r => exact of_neverRaises fun _ => ⟨_, _, rfl⟩
  | disp r d => exact (readALong r).bind fun _ => fetchExt.bind fun _ => pure _
  | index r ix => exact (readALong r).bind fun _ => indexEa _ ix
  | absW w => exact fetchExt.bind fun _ => pure _
  | absL a => exact fetchExt.bind fun _ => fetchExt.bind fun _ => pure _

theorem resolve (e : DataAltEa) : SparesPrivilege (resolve sz e) := by
  cases e with
  | dn r => exact pure _
  | mem m => exact (resolveMem m).bind fun _ => pure _

theorem readLoc (l : Loc) : SparesPrivilege (readLoc sz l) := by
  cases l with
  | dreg r => exact readD r
  | mem a => exact memRead .read a

theorem writeLoc (l : Loc) (v : BitVec sz.bits) : SparesPrivilege (writeLoc sz l v) := by
  cases l with
  | dreg r => exact of_neverRaises fun _ => ⟨_, _, rfl⟩
  | mem a => exact memWrite a v

theorem readImm (v : BitVec sz.bits) : SparesPrivilege (readImm sz v) := by
  cases sz with
  | byte | word => exact fetchExt.bind fun _ => pure _
  | long => exact (fetchExt.bind fun _ => fetchExt).bind fun _ => pure _

theorem readData (e : DataEa) : SparesPrivilege (readData sz e) := by
  cases e with
  | alt e => exact (resolve e).bind readLoc
  | pcDisp d => exact readPc.bind fun _ => fetchExt.bind fun _ => memRead .read _
  | pcIndex ix => exact readPc.bind fun _ => (indexEa _ ix).bind fun _ => memRead .read _
  | imm v => exact readImm _

theorem readAny (e : AnyEa) : SparesPrivilege (readAny sz e) := by
  cases e with
  | an r => exact of_neverRaises fun _ => ⟨_, _, rfl⟩
  | data e => exact readData e

theorem staticBit (k : Byte) : SparesPrivilege (staticBit k) := fetchExt.bind fun _ => pure _

theorem readDisp (d : Disp) : SparesPrivilege (readDisp d) := by
  cases d with
  | short d => exact pure _
  | long d => exact fetchExt.bind fun _ => pure _

/-! ### The shapes of instructions -/

section
variable {src : M (BitVec sz.bits)}

theorem aluToDn (f : Alu) (hsrc : SparesPrivilege src) (r : Reg) :
    SparesPrivilege (aluToDn sz f src r) :=
  hsrc.bind fun _ => of_neverRaises fun _ => ⟨_, _, rfl⟩

theorem compareDn (hsrc : SparesPrivilege src) (r : Reg) : SparesPrivilege (compareDn sz src r) :=
  hsrc.bind fun _ => of_neverRaises fun _ => ⟨_, _, rfl⟩

theorem aluToEa (f : Alu) (hsrc : SparesPrivilege src) (dst : DataAltEa) :
    SparesPrivilege (aluToEa sz f src dst) :=
  hsrc.bind fun _ => (resolve dst).bind fun l => (readLoc l).bind fun _ => readCcr.bind fun _ =>
    (writeLoc l _).bind fun _ => writeCcr _

theorem compareEa (hsrc : SparesPrivilege src) (dst : DataAltEa) :
    SparesPrivilege (compareEa sz src dst) :=
  hsrc.bind fun _ => (resolve dst).bind fun l => (readLoc l).bind fun _ => readCcr.bind fun _ =>
    writeCcr _

theorem unaryEa (f : Alu1) (dst : DataAltEa) : SparesPrivilege (unaryEa sz f dst) :=
  (resolve dst).bind fun l => (readLoc l).bind fun _ => readCcr.bind fun _ =>
    (writeLoc l _).bind fun _ => writeCcr _

theorem clearEa (dst : DataAltEa) : SparesPrivilege (clearEa sz dst) :=
  (resolve dst).bind fun l => readCcr.bind fun _ => (writeLoc l _).bind fun _ => writeCcr _

theorem moveEa (hsrc : SparesPrivilege src) (dst : DataAltEa) :
    SparesPrivilege (moveEa sz src dst) :=
  hsrc.bind fun _ => (resolve dst).bind fun l => readCcr.bind fun _ =>
    (writeLoc l _).bind fun _ => writeCcr _

/-- MOVE of word and long size: IllegalInstruction at once, or a move (R94, R230). -/
theorem moveAny (op : Word) (src : AnyEa) (dst : DataAltEa) :
    SparesPrivilege (moveAny sz op src dst) := by
  unfold Machine.moveAny
  split
  · exact raise nofun
  · exact moveEa (readAny src) dst

theorem shiftDn (op : ShiftOp) {count : M Nat} (hc : ∀ s, ∃ cnt, count s = .ok cnt s) (dy : Reg) :
    SparesPrivilege (shiftDn sz op count dy) :=
  of_neverRaises fun s => by
    obtain ⟨cnt, h⟩ := hc s
    exact ⟨_, _, shiftDn_apply op count dy h⟩

end

theorem multiplyDn (product : Word → Word → Long) {src : M Word} (hsrc : SparesPrivilege src)
    (r : Reg) : SparesPrivilege (multiplyDn product src r) :=
  hsrc.bind fun _ => of_neverRaises fun _ => ⟨_, _, rfl⟩

/-- A divide raises DivideByZero of its own (R261). -/
theorem divideDn (divide : Long → Word → Option (Word × Word)) {src : M Word}
    (hsrc : SparesPrivilege src) (r : Reg) : SparesPrivilege (divideDn divide src r) := by
  refine hsrc.bind fun m => (readD r).bind fun n => readCcr.bind fun k => ?_
  split
  · exact raise nofun
  · split <;> exact of_neverRaises fun _ => ⟨_, _, rfl⟩

theorem changeBit (op : BitOp) {number : M Nat} (hn : SparesPrivilege number) (dst : DataAltEa) :
    SparesPrivilege (changeBit op number dst) := by
  refine hn.bind fun k => (resolve dst).bind fun l => ?_
  cases l with
  | dreg r => exact of_neverRaises fun _ => ⟨_, _, rfl⟩
  | mem a =>
    exact (memRead .read a).bind fun _ => (memWrite a _).bind fun _ =>
      of_neverRaises fun _ => ⟨_, _, rfl⟩

theorem testBit {number : M Nat} (hn : SparesPrivilege number) (src : DataEa) :
    SparesPrivilege (testBit number src) := by
  refine hn.bind fun k => ?_
  split
  · exact of_neverRaises fun _ => ⟨_, _, rfl⟩
  · exact (readData src).bind fun _ => of_neverRaises fun _ => ⟨_, _, rfl⟩

/-- A branch raises AddressError of its own, on an odd target (R240). -/
theorem branch (cond : Ccr → Bool) (disp : Disp) : SparesPrivilege (branch cond disp) := by
  refine readPc.bind fun base => (readDisp disp).bind fun d => readCcr.bind fun k => ?_
  split
  · dsimp only
    split
    · exact raise nofun
    · exact of_neverRaises fun _ => ⟨_, _, rfl⟩
  · exact pure _

/-- STOP raises only what the fetch of its operand raises: it does not look at S (R265, R271). -/
theorem stopWith (imm : Word) : SparesPrivilege (stopWith imm) :=
  fetchExt.bind fun _ => of_neverRaises fun _ => ⟨_, _, rfl⟩

/-- No instruction raises PrivilegeViolation (R265, R271). -/
theorem body (i : Instr) : SparesPrivilege (body i) := by
  cases i with
  | addBEaDn src dn | subBEaDn src dn
  | andBEaDn src dn | andWEaDn src dn | andLEaDn src dn
  | orBEaDn src dn | orWEaDn src dn | orLEaDn src dn => exact aluToDn _ (readData src) dn
  | addWEaDn src dn | addLEaDn src dn | subWEaDn src dn | subLEaDn src dn =>
    exact aluToDn _ (readAny src) dn
  | addBDnEa dn dst | addWDnEa dn dst | addLDnEa dn dst
  | subBDnEa dn dst | subWDnEa dn dst | subLDnEa dn dst
  | andBDnEa dn dst | andWDnEa dn dst | andLDnEa dn dst
  | orBDnEa dn dst | orWDnEa dn dst | orLDnEa dn dst
  | eorB dn dst | eorW dn dst | eorL dn dst => exact aluToEa _ (readD dn) _
  | addiB imm dst | addiW imm dst | addiL imm dst
  | subiB imm dst | subiW imm dst | subiL imm dst
  | andiB imm dst | andiW imm dst | andiL imm dst
  | oriB imm dst | oriW imm dst | oriL imm dst
  | eoriB imm dst | eoriW imm dst | eoriL imm dst => exact aluToEa _ (readImm _) dst
  | cmpB src dn => exact compareDn (readData src) dn
  | cmpW src dn | cmpL src dn => exact compareDn (readAny src) dn
  | cmpiB imm dst | cmpiW imm dst | cmpiL imm dst => exact compareEa (readImm _) dst
  | negB dst | negW dst | negL dst | notB dst | notW dst | notL dst => exact unaryEa _ dst
  | clrB dst | clrW dst | clrL dst => exact clearEa dst
  | moveB src dst => exact moveEa (readData src) dst
  | moveW src dst | moveL src dst => exact moveAny _ src dst
  | mulu src dn | muls src dn => exact multiplyDn _ (readData src) dn
  | divu src dn | divs src dn => exact divideDn _ (readData src) dn
  | extW | extL | swap | exgDD | exgAA | exgDA => exact of_neverRaises fun _ => ⟨_, _, rfl⟩
  | btstDyn dn src => exact testBit (dynamicBit dn) src
  | btstStatic k src => exact testBit (staticBit k) src
  | bchgDyn dn dst | bclrDyn dn dst | bsetDyn dn dst => exact changeBit _ (dynamicBit dn) dst
  | bchgStatic k dst | bclrStatic k dst | bsetStatic k dst => exact changeBit _ (staticBit k) dst
  | bra disp | bhi disp | bls disp | bcc disp | bcs disp | bne disp | beq disp | bvc disp
  | bvs disp | bpl disp | bmi disp | bge disp | blt disp | bgt disp | ble disp =>
    exact branch _ disp
  | stop imm => exact stopWith imm
  | aslBImm ccc dy | aslWImm ccc dy | aslLImm ccc dy | asrBImm ccc dy | asrWImm ccc dy
  | asrLImm ccc dy | lslBImm ccc dy | lslWImm ccc dy | lslLImm ccc dy | lsrBImm ccc dy
  | lsrWImm ccc dy | lsrLImm ccc dy | rolBImm ccc dy | rolWImm ccc dy | rolLImm ccc dy
  | rorBImm ccc dy | rorWImm ccc dy | rorLImm ccc dy | roxlBImm ccc dy | roxlWImm ccc dy
  | roxlLImm ccc dy | roxrBImm ccc dy | roxrWImm ccc dy | roxrLImm ccc dy =>
    exact shiftDn _ (immCount_answers ccc) dy
  | aslBReg dx dy | aslWReg dx dy | aslLReg dx dy | asrBReg dx dy | asrWReg dx dy
  | asrLReg dx dy | lslBReg dx dy | lslWReg dx dy | lslLReg dx dy | lsrBReg dx dy
  | lsrWReg dx dy | lsrLReg dx dy | rolBReg dx dy | rolWReg dx dy | rolLReg dx dy
  | rorBReg dx dy | rorWReg dx dy | rorLReg dx dy | roxlBReg dx dy | roxlWReg dx dy
  | roxlLReg dx dy | roxrBReg dx dy | roxrWReg dx dy | roxrLReg dx dy =>
    exact shiftDn _ (regCount_answers dx) dy

end SparesPrivilege

/-- Neither the fetch of an opword nor the decoder raises PrivilegeViolation (R264, R267). -/
theorem fetchInstr_exception_ne_privilegeViolation {s s' : State} {e : Exc}
    (h : fetchInstr s = .exception e s') : e ≠ .privilegeViolation := by
  cases hf : accessFault s .fetch s.pc .word with
  | some e' =>
    obtain ⟨rfl, -⟩ := Fetched.exception.inj ((fetchInstr_of_fault hf).symm.trans h)
    rintro rfl
    exact accessFault_ne_privilegeViolation s .fetch s.pc .word hf
  | none =>
    obtain ⟨i, rest, -, hi⟩ | ⟨-, he⟩ := fetchInstr_of_fetch hf
    · exact nomatch hi.symm.trans h
    · obtain ⟨rfl, -⟩ := Fetched.exception.inj (he.symm.trans h)
      exact nofun

/-- Settles O11: an instruction that completes keeps the status or stops, and what raises is the
fetch, the decoder or an instruction, none of which raises PrivilegeViolation. -/
theorem privilegeViolationNeverRaised : Obligations.PrivilegeViolationNeverRaised := by
  intro s t pc h ht
  have taken {e : Exc} {s' : State} (he : t = takeException e s.pc s') :
      e = .privilegeViolation :=
    congrArg ExcRecord.exc (Status.faulted.inj ((congrArg State.status he).symm.trans ht))
  have hs := running_of_step h
  obtain ⟨i, -, hx⟩ | ⟨e, s', hf, he⟩ := (step_eq_next hs).1 h
  · obtain hok | ⟨e, s', hraise, he⟩ := exec_eq_next.1 hx
    · obtain hk | ⟨hst, -⟩ := (statusRel_instrRel i).keeps_body.ok hok
      · exact nomatch ht.symm.trans (hk.trans hs)
      · exact nomatch ht.symm.trans hst
    · exact SparesPrivilege.body i hraise (taken he)
  · exact fetchInstr_exception_ne_privilegeViolation hf (taken he)

/-! ## DivideByZero -/

/-- A divide whose source word is zero takes DivideByZero in the state after the operand read
(R261). -/
theorem exec_divideDn_of_zero {divide : Long → Word → Option (Word × Word)} {src : M Word}
    {i : Instr} {r : Reg} (hbody : body i = divideDn divide src r) {s s1 : State}
    (hsrc : src s.afterOpword = .ok (0#16) s1) :
    exec i s = .next (takeException .divideByZero s.pc s1) := by
  have hrun : body i s.afterOpword = .error .divideByZero s1 := by
    simp only [hbody, divideDn_apply, hsrc, if_true]
  exact exec_eq_next.2 (.inr ⟨_, _, hrun, rfl⟩)

/-- Settles O35: both divides have the shape of `divideDn`. -/
theorem divideByZeroTraps : Obligations.DivideByZeroTraps := fun _ _ _ _ hsrc =>
  ⟨exec_divideDn_of_zero rfl hsrc, exec_divideDn_of_zero rfl hsrc⟩

/-! ## AddressError -/

/-- Every row of the table of R239 completes as a branch on its condition. -/
theorem completesBranch_of_mem_branchTable {b : (Ccr → Prop) × (Disp → Instr)}
    (hb : b ∈ branchTable) : CompletesBranch b.1 b.2 := by
  have htable : ∀ b ∈ branchTable, CompletesBranch b.1 b.2 := by
    simp only [branchTable, List.forall_mem_cons, List.not_mem_nil, false_implies, implies_true,
      and_true]
    exact branchesComplete
  exact htable b hb

/-- Settles O59: the lowest bit of an address reaches memory, so the alignment check of each access
sees it; each branch looks at it before it writes pc. -/
theorem addressErrorRule : Obligations.AddressErrorRule := by
  intro s
  refine ⟨fun acc addr sz hsz hodd => ?_, fun addr sz v hsz hodd => ?_, fun hodd => ?_,
    fun b hb d hd hk hodd => ?_⟩
  · exact ⟨_, memRead_eq_error.2 ⟨accessFault_odd hsz (busAddr_odd hodd), rfl⟩⟩
  · have hfault := accessFault_odd (s := s) (acc := .write) hsz (busAddr_odd hodd)
    exact ⟨_, memWrite_eq_error.2 ⟨writeFault_of_accessFault hfault, rfl⟩⟩
  · have hfault := accessFault_word_odd (s := s) (acc := .fetch) (busAddr_odd hodd)
    exact ⟨_, fetch16_eq_error.2 ⟨hfault, rfl⟩,
      fun hs => step_of_exception hs (fetchInstr_of_fault hfault)⟩
  · obtain ⟨-, htaken, -⟩ := completesBranch_of_mem_branchTable hb s d hd
    exact ⟨_, _, htaken hk hodd⟩

end Sys2Proof.Claims
end
